-- ==== Sys2Proof/Word.lean ====
section
/-! DEFINITION. The word types of the LB16: bytes of a block, the 32-bit host register, the 8-byte cell word. -/

namespace Sys2Proof

/-- A byte: of a payload, of a block on the line, or a sequence number (R90, R176). -/
abbrev Byte := BitVec 8

/-- A register of the host window, 32 bits (section 10.1). -/
abbrev Word := BitVec 32

/-- The 8 data bytes of one cell word, byte 0 lowest (R1, R175). -/
abbrev CellWord := BitVec 64

/-- A cumulative credit count, taken modulo 65536 (R114). -/
abbrev Credit := BitVec 16

end Sys2Proof
end

