-- ==== Sys2Proof/Config.lean ====
section
/-! DEFINITION. What the LB16 fixes (sizes and bounds) and the values its manual leaves open (opaque constants). -/

namespace Sys2Proof.Config

/-- Cells of the buffer, numbered 0 to 1023 (section 1.1). -/
def cellCount : Nat := 1024

/-- Payload bytes of one cell (section 1.1). -/
def cellBytes : Nat := 64

/-- Words of one cell (section 1.1). -/
def cellWords : Nat := 8

/-- Words of the whole cell memory (section 1.1). -/
def wordCount : Nat := 8192

/-- The longest payload of a frame, in bytes (R3). -/
def maxLength : Nat := 1024

/-- The most records the host holds (R130). -/
def maxHostHeld : Nat := 64

/-- The most entries of the error report table (R159). -/
def maxReports : Nat := 8

/-- The entries of the Delivery Table (R83). -/
def tableSize : Nat := 16

/-- The largest value of a queue limit and of a notify level (R27, R31). -/
def maxLimit : Nat := 256

/-- The check code of a cell word. The manual gives its powers (R151) and not its matrix: a free value (log entry 2). -/
opaque checkCode : CellWord → Byte

/-- How the check logic judges a word with three or more wrong bits, from its 72 stored bits.
R151: it "receives one of these three outcomes", and the manual does not say which: a free value (log entry 3). -/
opaque judgeMany : CellWord → Byte → Nat

/-- Which link decides first when both arbiters make a choice that touches the shared free list in one step; `true` is link A.
R119 and R6: "may be taken in either order": a free value, fresh at each use (log entry 4). -/
opaque linkAFirst : Nat → Bool

/-- What RESULT shows as the completed command after a CMD value that does not fit the field's 8 bits.
The manual states no value: a free value (log entry 5). -/
opaque completedOfUnknown : Word → Byte

/-- Whether the pass that a write of SCRUB_CONTROL starts times its first step with the interval held before that same write.
The manual states no order between the two fields of one write: a free value (log entry 6). -/
opaque passStartsWithOldInterval : Bool

end Sys2Proof.Config
end

