-- ==== Sys2Proof/Syntax.lean ====
section
/-! DEFINITION. The commands of the LB16: one constructor of `Instr` for each row of the table of operations and events. -/

namespace Sys2Proof

/-- Link Port A or Link Port B (section 0.3). -/
inductive LinkId where
  | a
  | b
deriving DecidableEq, Repr

/-- The port on the opposite side (section 0.7). -/
def LinkId.other : LinkId → LinkId
  | .a => .b
  | .b => .a

/-- The two traffic classes of a frame (Table 0-2). -/
inductive Cls where
  | control
  | data
deriving DecidableEq, Repr

/-- The two kinds of block, which the marker tells apart before any check (section 4.2). -/
inductive BlockKind where
  | control
  | frame
deriving DecidableEq, Repr

/-- The commands: host register accesses, blocks arriving on a link, ends of blocks going out, and expiries of the part's own timers.
A host command carries no operand of its own: it reads ARG0 to ARG3 when it is taken (R127).
A register write carries the whole 32-bit value on the bus (R173). -/
inductive Instr where
  /-- The reset input (R21). -/
  | resetInput
  /-- Power-on initialization writes its last word (R19). -/
  | initComplete
  /-- A write of 1 to the soft reset bit (R149). -/
  | softReset
  /-- A CMD write of ALLOC (R131). -/
  | alloc
  /-- A CMD write of OPEN (R133). -/
  | openPort
  /-- A CMD write of POST (R134). -/
  | post
  /-- A CMD write of CLAIM (R136). -/
  | claim
  /-- A CMD write of RELEASE (R137). -/
  | release
  /-- A CMD write of QUERY (R138). -/
  | query
  /-- A CMD write of FLUSH (R139). -/
  | flush
  /-- A CMD write of LINK_START (R45). -/
  | linkStart
  /-- A CMD write of LINK_STOP (R46). -/
  | linkStop
  /-- A CMD write of TABLE_SET (R141). -/
  | tableSet
  /-- A CMD write of TABLE_GET (R141). -/
  | tableGet
  /-- A CMD write of REPORT_TAKE (R142). -/
  | reportTake
  /-- A CMD write of SCRUB_START (R143). -/
  | scrubStart
  /-- A CMD write whose value names no command (R174). -/
  | unknownCommand (code : Word)
  /-- A CMD write, of any value, while the unit is BUSY (R128). -/
  | cmdOverrun (code : Word)
  /-- A read of PORT_DATA (R145). -/
  | portDataRead
  /-- A write of PORT_DATA (R146). -/
  | portDataWrite (value : Word)
  /-- A write of EVENT_FLAGS (R165). -/
  | eventFlagsClear (value : Word)
  /-- A write of EVENT_ENABLE (R167). -/
  | eventEnableWrite (value : Word)
  /-- A write of NODE_ADDR (R148). -/
  | nodeAddrWrite (value : Word)
  /-- A write of SCRUB_CONTROL, whose field 1:0 is the scrubber mode (R155). -/
  | scrubModeWrite (value : Word)
  /-- A write of a link's CFG_SESSION, whose field 23:16 is CREDIT_STALL_LIMIT (R125). -/
  | creditStallLimitWrite (link : LinkId) (value : Word)
  /-- A write of another register of the window, which A[8:2] selects (R173). -/
  | registerWrite (reg : BitVec 7) (value : Word)
  /-- No marker where a block should begin, or 8 further bytes without one (R44). -/
  | invalidMarker (link : LinkId)
  /-- A block whose marker is found and whose check fails (R67). -/
  | checkedOutBlock (link : LinkId) (kind : BlockKind)
  /-- A valid KEEP (R44). -/
  | keepReceived (link : LinkId)
  /-- A valid HAIL: sender address, revision, seen flag (R50). -/
  | hailReceived (link : LinkId) (sender : Byte) (revision : Byte) (seen : Bool)
  /-- A valid ACK (R98). -/
  | ackReceived (link : LinkId) (seq : Byte)
  /-- A valid NAK (R100). -/
  | nakReceived (link : LinkId) (seq : Byte)
  /-- A valid GRANT: class and cumulative value (R121). -/
  | grantReceived (link : LinkId) (cls : Cls) (value : Credit)
  /-- The 16 bytes of a frame header, byte n at bits 8n+7 down to 8n (R66, Table 10-5). -/
  | frameHeaderReceived (link : LinkId) (header : BitVec 128)
  /-- Payload bytes, in the order they arrive (R73). -/
  | framePayloadBytes (link : LinkId) (bytes : List Byte)
  /-- A block marker before the trailer (R74). -/
  | frameTruncated (link : LinkId)
  /-- A trailer ending with END and its 32-bit check, whose 4 bytes came low byte first (R75, R176). -/
  | frameTrailerEnd (link : LinkId) (check : BitVec 32)
  /-- A trailer ending with ABORT (R77). -/
  | frameTrailerAbort (link : LinkId)
  /-- A HAIL finishes going out (R49). -/
  | hailSendEnd (link : LinkId)
  /-- A control block ends on the line in ACTIVE (R91). -/
  | controlBlockSent (link : LinkId)
  /-- The transmitter reads the next payload word of the frame on the line (R95). -/
  | txWordRead (link : LinkId)
  /-- A first transmission ends with END (R97). -/
  | firstTransmissionEnd (link : LinkId)
  /-- A first transmission ends with ABORT (R96). -/
  | firstTransmissionAbort (link : LinkId)
  /-- A resend ends with END (R106). -/
  | resendEnd (link : LinkId)
  /-- A resend ends with ABORT (R105). -/
  | resendAbort (link : LinkId)
  /-- The HAIL timer expires (R49). -/
  | hailTimerExpiry (link : LinkId)
  /-- The greet timer expires (R54). -/
  | greetTimeout (link : LinkId)
  /-- The silence timer expires (R58). -/
  | silenceTimeout (link : LinkId)
  /-- The realign timer expires (R57). -/
  | realignTimeout (link : LinkId)
  /-- The hold-down timer expires (R60). -/
  | holdDownExpiry (link : LinkId)
  /-- The replay timer expires (R101). -/
  | replayTimerExpiry (link : LinkId)
  /-- The ACK delay timer expires (R80). -/
  | ackDelayExpiry (link : LinkId)
  /-- The idle timer expires (R107). -/
  | idleTimerExpiry (link : LinkId)
  /-- The grant refresh timer expires (R120). -/
  | grantRefreshExpiry (link : LinkId)
  /-- The credit-stall timer of a class expires (R124). -/
  | creditStallExpiry (link : LinkId) (cls : Cls)
  /-- A flush in progress removes the head of its queue (R36). -/
  | flushRemoval
  /-- The scrubber's step timer expires (R156). -/
  | scrubStep
  /-- The KEEP on the line in HUNT or GREET ends (R48). -/
  | keepSendEnd (link : LinkId)
deriving DecidableEq, Repr

end Sys2Proof
end

