-- ==== Sys2Proof/Machine/State.lean ====
section
/-! DEFINITION. The state of the LB16 as plain data, the reasons a step can stop, and the state right after the reset input. -/

namespace Sys2Proof.Machine

/-! ## Frame records (chapter 1) -/

/-- The host or a link: the origin and the filler of a record (Table 1-1). -/
inductive Party where
  | host
  | link (l : LinkId)
deriving DecidableEq, Repr

/-- The state of a record that is not FREE; FILLING carries its filler, which LIVE has not (R7, R8). A FREE slot has no record. -/
inductive Phase where
  | filling (filler : Party)
  | live
deriving DecidableEq, Repr

/-- The host holder states of Table 1-2. -/
inductive HostHolder where
  | none
  | filling
  | queued
  | claimed
deriving DecidableEq, Repr

/-- The link holder states of Table 1-2, each with the seq of its side where R8 has it present. -/
inductive LinkHolder where
  | none
  | queued
  | sending (seq : Byte)
  | unacked (seq : Byte)
deriving DecidableEq, Repr

/-- The fields of a frame record (Table 1-1). -/
structure Record where
  phase : Phase
  origin : Party
  cls : Cls
  length : Nat
  cells : List Nat
  destination : Option Byte
  source : Option Byte
  hops : BitVec 4
  host : HostHolder
  linkA : LinkHolder
  linkB : LinkHolder
  poisoned : Bool
deriving DecidableEq, Repr

/-- The Buffer Manager: cell memory, next-cell links, free list, record table (section 1.1 to 1.4).
`mem` lists the data bytes that are not 0, by byte address 8 × word position + byte.
`wrong` lists, by word position, the bits among the 72 stored ones that differ from those last written (R151).
`records` lists the slots that are not FREE, by handle. -/
structure Buffer where
  mem : List Host.Cell
  wrong : List (Nat × List Nat)
  links : List (Nat × Option Nat)
  free : List Nat
  records : List (Nat × Record)
deriving DecidableEq, Repr

/-! ## Queues (chapter 2) -/

/-- The six queues: the host receive queue of a class, and a link's transmit queue of a class (Table 2-1). -/
inductive QueueId where
  | host (c : Cls)
  | tx (l : LinkId) (c : Cls)
deriving DecidableEq, Repr

/-- A queue: its handles, oldest first, and its frame limit (R24, R27). -/
structure FrameQueue where
  entries : List Nat
  limit : Nat
deriving DecidableEq, Repr

/-- The admission modes (section 2.4). -/
inductive AdmissionMode where
  | tailDrop
  | dropOldest
deriving DecidableEq, Repr

/-- What the host sets for a host receive queue besides its limit (R30, R31). -/
structure HostQueueCfg where
  mode : AdmissionMode
  notify : Nat
deriving DecidableEq, Repr

/-- The Queue Manager's queues (R24). -/
structure Queues where
  hrc : FrameQueue
  hrd : FrameQueue
  txaC : FrameQueue
  txaD : FrameQueue
  txbC : FrameQueue
  txbD : FrameQueue
  hrcCfg : HostQueueCfg
  hrdCfg : HostQueueCfg
deriving DecidableEq, Repr

/-- The flush in progress, as its queue and its mark, and the removed count of the present or last flush (section 2.7, R40). -/
structure FlushUnit where
  active : Option (QueueId × Nat)
  removed : Nat
deriving DecidableEq, Repr

/-! ## Link ports (chapters 3 to 6) -/

/-- A timer: stopped, or running with the length in microseconds it was started with (R63). -/
abbrev Timer := Option Nat

/-- The link states of Table 3-1. -/
inductive LinkState where
  | disabled
  | hunt
  | greet
  | active
  | fault
deriving DecidableEq, Repr

/-- The alignment sub-state; none outside ACTIVE (R43). -/
inductive Align where
  | none
  | aligned
  | realigning
deriving DecidableEq, Repr

/-- The fault reasons of Table 3-2. -/
inductive FaultReason where
  | none
  | greetTimeout
  | addressClash
  | revisionMismatch
  | silent
  | alignLost
  | replayLimit
  | replayDataLost
  | creditViolation
  | malformed
  | partnerRestart
deriving DecidableEq, Repr

/-- The settings of a link, each in the units of its step (Tables 0-3 and 10-2). -/
structure LinkCfg where
  allowC : Nat
  allowD : Nat
  window : Nat
  ackStep : Nat
  ackDelay : Nat
  grantStep : Nat
  replayTimeout : Nat
  replayLimit : Nat
  keepInterval : Nat
  grantRefresh : Nat
  silenceTimeout : Nat
  realignTimeout : Nat
  stallLimit : Nat
  hailInterval : Nat
  greetTimeout : Nat
  holdDown : Nat
  autoRestart : Bool
deriving DecidableEq, Repr

/-- The frame a receiver is writing into cells: its header as it arrived, the payload byte count, the running 32-bit check
and the bytes of the word not yet complete (Table 4-1, R73, R177). -/
structure RxFrame where
  handle : Nat
  header : BitVec 128
  count : Nat
  crc : BitVec 32
  gather : List Byte
deriving DecidableEq, Repr

/-- Whether the receiver passes over the rest of a block: to its terminator or a marker (R69), or to a marker alone (R67). -/
inductive Passing where
  | no
  | toTrailer
  | toMarker
deriving DecidableEq, Repr

/-- The state of a NAK episode (Table 4-1). -/
inductive NakEpisode where
  | none
  | pending
  | sent
deriving DecidableEq, Repr

/-- The receiver state of Table 4-1. -/
structure Receiver where
  expected : Byte
  frame : Option RxFrame
  passing : Passing
  ackPending : Nat
  ackDue : Bool
  nak : NakEpisode
  nakDue : Bool
  ackTimer : Timer
deriving DecidableEq, Repr

/-- A control block with its fields (Table 10-4). -/
inductive ControlBlock where
  | hail (sender revision : Byte) (seen : Bool)
  | ack (seq : Byte)
  | nak (seq : Byte)
  | grant (c : Cls) (cumulative : Credit)
  | keep
deriving DecidableEq, Repr

/-- The frame block on the line: its handle, seq and header, the payload words read and bytes sent so far.
`aborting` says that a word read was uncorrectable (R96, R105); `overtaken` that an episode started during this resend (R103). -/
structure TxFrame where
  handle : Nat
  seq : Byte
  resend : Bool
  header : BitVec 128
  length : Nat
  nextWord : Nat
  sent : List Byte
  aborting : Bool
  overtaken : Bool
deriving DecidableEq, Repr

/-- The block on the line (Table 5-1). -/
inductive LineBlock where
  | none
  | control (b : ControlBlock)
  | frame (f : TxFrame)
deriving DecidableEq, Repr

/-- How the last frame block on the line ended: END with the bytes of its check, in the order they go out, or ABORT (R176, R177). -/
inductive FrameEnd where
  | ended (check : List Byte)
  | aborted
deriving DecidableEq, Repr

/-- The transmitter state of Table 5-1, the HAIL that is due (R49), and how the last frame block ended. -/
structure Transmitter where
  nextSeq : Byte
  liveWindow : Nat
  unacked : List Nat
  line : LineBlock
  replay : Option Byte
  replayCount : Nat
  held : Option Byte
  replayTimer : Timer
  idleTimer : Timer
  hailDue : Bool
  lastEnd : Option FrameEnd
deriving DecidableEq, Repr

/-- The Credit Unit state of one class (Table 6-1). -/
structure CreditClass where
  live : Nat
  inUse : Nat
  granted : Credit
  consumed : Credit
  partnerGranted : Credit
  sent : Credit
  due : Bool
  stallTimer : Timer
deriving DecidableEq, Repr

/-- The eleven per-link counters (Table 9-2). -/
structure LinkCounters where
  framesIn : Word
  framesOut : Word
  checkErrors : Word
  seqDiscards : Word
  abortsReceived : Word
  naksSent : Word
  replays : Word
  staleAcks : Word
  linkDowns : Word
  creditStallDrops : Word
  poisonDrops : Word
deriving DecidableEq, Repr

/-- A link port with its Credit Unit: link state controller, receiver, transmitter, settings and counters (R43). -/
structure LinkPort where
  state : LinkState
  align : Align
  lastFault : FaultReason
  partner : Byte
  hailReceived : Bool
  yesSent : Bool
  validRun : Nat
  invalidRun : Nat
  hailTimer : Timer
  greetTimer : Timer
  silenceTimer : Timer
  realignTimer : Timer
  holdTimer : Timer
  refreshTimer : Timer
  cfg : LinkCfg
  rx : Receiver
  tx : Transmitter
  ctl : CreditClass
  dat : CreditClass
  counters : LinkCounters
deriving DecidableEq, Repr

/-! ## Delivery Table, Host Command Unit, Integrity Unit, Event and Counter Unit -/

/-- The actions of a Delivery Table entry (R83). -/
inductive Action where
  | host
  | forward
  | hostAndForward
  | discard
deriving DecidableEq, Repr

/-- An entry of the Delivery Table (R83). -/
structure DeliveryEntry where
  valid : Bool
  address : Byte
  action : Action
deriving DecidableEq, Repr

/-- The result codes of Table 7-2. -/
inductive ResultCode where
  | none
  | ok
  | empty
  | noCells
  | handleLimit
  | badHandle
  | wrongState
  | queueFull
  | linkDown
  | badArg
  | notReady
  | notConfigured
deriving DecidableEq, Repr

/-- The modes of an open data port (R133). -/
inductive PortMode where
  | read
  | write
deriving DecidableEq, Repr

/-- The data port while it is open (R144). -/
structure DataPort where
  handle : Nat
  offset : Nat
  mode : PortMode
deriving DecidableEq, Repr

/-- The eight result registers (Table 7-1). -/
structure Results where
  r0 : Word := 0
  r1 : Word := 0
  r2 : Word := 0
  r3 : Word := 0
  r4 : Word := 0
  r5 : Word := 0
  r6 : Word := 0
  r7 : Word := 0
deriving DecidableEq, Repr

/-- The Host Command Unit (Table 7-1). `busData` is the model's: what the last read of PORT_DATA returned on D[31:0]. -/
structure HostUnit where
  arg0 : Word
  arg1 : Word
  arg2 : Word
  arg3 : Word
  cmd : Word
  busy : Bool
  result : ResultCode
  completed : Byte
  res : Results
  held : Nat
  port : Option DataPort
  busData : Word
deriving DecidableEq, Repr

/-- The scrubber modes (Table 8-2). -/
inductive ScrubMode where
  | off
  | single
  | continuous
deriving DecidableEq, Repr

/-- The scrubber (Table 8-2), its interval in microseconds. -/
structure Scrubber where
  mode : ScrubMode
  running : Bool
  position : Nat
  timer : Timer
  interval : Nat
deriving DecidableEq, Repr

/-- The readers of cell words (R152). -/
inductive Reader where
  | tx (l : LinkId)
  | host
  | scrub
deriving DecidableEq, Repr

/-- The kinds of report (R152). -/
inductive ReportKind where
  | corrected
  | uncorrectable
deriving DecidableEq, Repr

/-- An entry of the error report table (Table 8-3). -/
structure ReportEntry where
  cell : Nat
  word : Nat
  kind : ReportKind
  reader : Reader
  handle : Option Nat
  bit : Option Nat
  occurrences : Nat
deriving DecidableEq, Repr

/-- The eight drop counters and the four integrity counters (Table 9-2). -/
structure PartCounters where
  hrTailDrop : Word
  hrOldestDrop : Word
  fwdQueueFull : Word
  fwdLinkDown : Word
  hopLimit : Word
  loopDiscard : Word
  tableDiscard : Word
  teardownDrop : Word
  eccCorrectedTotal : Word
  eccUncorrectableTotal : Word
  reportLost : Word
  scrubPasses : Word
deriving DecidableEq, Repr

/-- The Event and Counter Unit: flags and enables in the order of Table 9-1, and the part's counters (R164, R167, R169). -/
structure EventUnit where
  flags : BitVec 14
  enables : BitVec 14
  counters : PartCounters
deriving DecidableEq, Repr

/-- The whole LB16. `choices` is the model's own: how many free choices have been taken (log entry 4).
`pending` is the model's queue of the commands that wait, first in, first out (log entry 7). -/
structure State where
  ready : Bool
  buf : Buffer
  queues : Queues
  flush : FlushUnit
  portA : LinkPort
  portB : LinkPort
  table : List DeliveryEntry
  hcu : HostUnit
  nodeAddr : Byte
  scrub : Scrubber
  reports : List ReportEntry
  ev : EventUnit
  choices : Nat
  pending : List Instr
deriving DecidableEq, Repr

/-- Why a step stops with a fault. -/
inductive Fault where
  /-- Raised by `frameHeaderReceived` alone: a header within its credit asks for more cells than the free list holds.
  R5 says that an allocation always finds its cells, so no state that the part reaches stops here: safe (log entry 12). -/
  | allocationShort
deriving DecidableEq, Repr

/-- Why a step is refused. -/
inductive Refusal where
  /-- Raised by an arm of `exec` that has no meaning yet; this model has none: safe. -/
  | notModelled (mnemonic : String)
deriving DecidableEq, Repr

/-- What a step answers. -/
abbrev Answer := Host.Outcome State Fault Refusal

/-! ## The state after the reset input -/

/-- The defaults of Table 0-3, in the units of Table 10-2. -/
def LinkCfg.default : LinkCfg where
  allowC := 16
  allowD := 240
  window := 16
  ackStep := 4
  ackDelay := 5
  grantStep := 8
  replayTimeout := 20
  replayLimit := 4
  keepInterval := 4
  grantRefresh := 10
  silenceTimeout := 4
  realignTimeout := 10
  stallLimit := 0
  hailInterval := 2
  greetTimeout := 10
  holdDown := 20
  autoRestart := false

/-- R89. -/
def Receiver.reset : Receiver where
  expected := 0
  frame := none
  passing := .no
  ackPending := 0
  ackDue := false
  nak := .none
  nakDue := false
  ackTimer := none

/-- R110. -/
def Transmitter.reset : Transmitter where
  nextSeq := 0
  liveWindow := 16
  unacked := []
  line := .none
  replay := none
  replayCount := 0
  held := none
  replayTimer := none
  idleTimer := none
  hailDue := false
  lastEnd := none

/-- R126. -/
def CreditClass.reset : CreditClass where
  live := 0
  inUse := 0
  granted := 0
  consumed := 0
  partnerGranted := 0
  sent := 0
  due := false
  stallTimer := none

/-- R172. -/
def LinkCounters.reset : LinkCounters where
  framesIn := 0
  framesOut := 0
  checkErrors := 0
  seqDiscards := 0
  abortsReceived := 0
  naksSent := 0
  replays := 0
  staleAcks := 0
  linkDowns := 0
  creditStallDrops := 0
  poisonDrops := 0

/-- R64, R89, R110, R126. -/
def LinkPort.reset : LinkPort where
  state := .disabled
  align := .none
  lastFault := .none
  partner := 0
  hailReceived := false
  yesSent := false
  validRun := 0
  invalidRun := 0
  hailTimer := none
  greetTimer := none
  silenceTimer := none
  realignTimer := none
  holdTimer := none
  refreshTimer := none
  cfg := .default
  rx := .reset
  tx := .reset
  ctl := .reset
  dat := .reset
  counters := .reset

/-- R21: no record, no free cell until initialization builds the list; the memory reads as log entry 10 says. -/
def Buffer.reset : Buffer where
  mem := []
  wrong := []
  links := []
  free := []
  records := []

/-- R41. -/
def Queues.reset : Queues where
  hrc := { entries := [], limit := 64 }
  hrd := { entries := [], limit := 64 }
  txaC := { entries := [], limit := 64 }
  txaD := { entries := [], limit := 64 }
  txbC := { entries := [], limit := 64 }
  txbD := { entries := [], limit := 64 }
  hrcCfg := { mode := .tailDrop, notify := 1 }
  hrdCfg := { mode := .tailDrop, notify := 1 }

/-- R150. -/
def HostUnit.reset : HostUnit where
  arg0 := 0
  arg1 := 0
  arg2 := 0
  arg3 := 0
  cmd := 0
  busy := false
  result := .none
  completed := 0
  res := {}
  held := 0
  port := none
  busData := 0

/-- R163. -/
def Scrubber.reset : Scrubber where
  mode := .off
  running := false
  position := 0
  timer := none
  interval := 16

/-- R172. -/
def PartCounters.reset : PartCounters where
  hrTailDrop := 0
  hrOldestDrop := 0
  fwdQueueFull := 0
  fwdLinkDown := 0
  hopLimit := 0
  loopDiscard := 0
  tableDiscard := 0
  teardownDrop := 0
  eccCorrectedTotal := 0
  eccUncorrectableTotal := 0
  reportLost := 0
  scrubPasses := 0

/-- R171, R172. -/
def EventUnit.reset : EventUnit where
  flags := 0
  enables := 0
  counters := .reset

/-- R89: every entry invalid, address 0, HOST. -/
def DeliveryEntry.reset : DeliveryEntry where
  valid := false
  address := 0
  action := .host

/-- The machine right after the reset input, before power-on initialization has ended (R19, R21). -/
def State.reset : State where
  ready := false
  buf := .reset
  queues := .reset
  flush := { active := none, removed := 0 }
  portA := .reset
  portB := .reset
  table := List.replicate Config.tableSize .reset
  hcu := .reset
  nodeAddr := 0
  scrub := .reset
  reports := []
  ev := .reset
  choices := 0
  pending := []

end Sys2Proof.Machine
end

