-- ==== Sys2Proof/Machine/Sparse.lean ====
section
/-! DEFINITION. Lists of key and value pairs in one canonical form, keys strictly rising: the cell memory, the record table, the links. -/

namespace Sys2Proof.Machine

/-- The value a key has, if the list holds one. -/
def Sparse.lookup {α : Type} : List (Nat × α) → Nat → Option α
  | [], _ => none
  | (k, v) :: rest, key => if k = key then some v else Sparse.lookup rest key

/-- The list with a key given a value, its place kept by the order of the keys. -/
def Sparse.insert {α : Type} : List (Nat × α) → Nat → α → List (Nat × α)
  | [], key, v => [(key, v)]
  | (k, w) :: rest, key, v =>
    if key < k then (key, v) :: (k, w) :: rest
    else if key = k then (key, v) :: rest
    else (k, w) :: Sparse.insert rest key v

/-- The list without a key. -/
def Sparse.erase {α : Type} (xs : List (Nat × α)) (key : Nat) : List (Nat × α) :=
  xs.filter fun e => e.1 != key

/-- The list with the value of a key changed, where it has one. -/
def Sparse.modify {α : Type} (xs : List (Nat × α)) (key : Nat) (f : α → α) : List (Nat × α) :=
  xs.map fun e => if e.1 = key then (e.1, f e.2) else e

/-- The canonical form of the keys: strictly rising. -/
def Sparse.sorted {α : Type} : List (Nat × α) → Bool
  | [] => true
  | [_] => true
  | a :: b :: rest => decide (a.1 < b.1) && Sparse.sorted (b :: rest)

/-- A byte of the cell memory; one that is not listed reads 0 (log entry 10). -/
def Memory.readByte (mem : List Host.Cell) (address : Nat) : Byte :=
  (Sparse.lookup mem address).getD 0

/-- A write of one byte; writing 0 removes the entry. -/
def Memory.writeByte (mem : List Host.Cell) (address : Nat) (v : Byte) : List Host.Cell :=
  if v = 0 then Sparse.erase mem address else Sparse.insert mem address v

/-- Byte `j` of a number of any width, bits 8j+7 down to 8j (R175). -/
def byteOf {n : Nat} (w : BitVec n) (j : Nat) : Byte :=
  w.extractLsb' (8 * j) 8

/-- The 8 data bytes at a word position, byte 0 lowest (R1, R175). -/
def Memory.readWord (mem : List Host.Cell) (position : Nat) : CellWord :=
  (List.range 8).foldr (fun j acc => acc ||| ((Memory.readByte mem (8 * position + j)).setWidth 64 <<< (8 * j))) 0

/-- A write of the 8 data bytes at a word position (R1). -/
def Memory.writeWord (mem : List Host.Cell) (position : Nat) (w : CellWord) : List Host.Cell :=
  (List.range 8).foldl (fun m j => Memory.writeByte m (8 * position + j) (byteOf w j)) mem

/-- The memory with every byte of some cells 0 (R11). -/
def Memory.zeroCells (mem : List Host.Cell) (cells : List Nat) : List Host.Cell :=
  mem.filter fun e => !cells.contains (e.1 / Config.cellBytes)

/-- The canonical form of the cell memory: addresses strictly rising, no entry equal to what an unlisted address reads. -/
def Memory.wf (mem : List Host.Cell) : Bool :=
  Sparse.sorted mem && mem.all fun e => e.2 != 0

end Sys2Proof.Machine
end

