-- ==== Sys2Proof/Machine/Ops.lean ====
section
/-! DEFINITION. Reading and updating the parts of the state by link, class and queue; the frame arithmetic that every block shares. -/

namespace Sys2Proof.Machine

/-! ## Links and classes -/

/-- The port of a link. -/
def State.port (s : State) : LinkId → LinkPort
  | .a => s.portA
  | .b => s.portB

/-- The state with the port of a link replaced. -/
def State.setPort (s : State) (l : LinkId) (p : LinkPort) : State :=
  match l with
  | .a => { s with portA := p }
  | .b => { s with portB := p }

/-- The state with the port of a link changed. -/
def State.modPort (s : State) (l : LinkId) (f : LinkPort → LinkPort) : State :=
  s.setPort l (f (s.port l))

/-- The state with the receiver of a link changed. -/
def State.modRx (s : State) (l : LinkId) (f : Receiver → Receiver) : State :=
  s.modPort l fun p => { p with rx := f p.rx }

/-- The state with the transmitter of a link changed. -/
def State.modTx (s : State) (l : LinkId) (f : Transmitter → Transmitter) : State :=
  s.modPort l fun p => { p with tx := f p.tx }

/-- The Credit Unit state of a class. -/
def LinkPort.credit (p : LinkPort) : Cls → CreditClass
  | .control => p.ctl
  | .data => p.dat

/-- The port with the Credit Unit state of a class changed. -/
def LinkPort.modCredit (p : LinkPort) (c : Cls) (f : CreditClass → CreditClass) : LinkPort :=
  match c with
  | .control => { p with ctl := f p.ctl }
  | .data => { p with dat := f p.dat }

/-- The state with the Credit Unit state of a link and class changed. -/
def State.modCredit (s : State) (l : LinkId) (c : Cls) (f : CreditClass → CreditClass) : State :=
  s.modPort l fun p => p.modCredit c f

/-- Whether a link is in ACTIVE. -/
def State.isActive (s : State) (l : LinkId) : Bool :=
  (s.port l).state == .active

/-! ## Queues -/

/-- A queue by its name (Table 2-1). -/
def Queues.get (q : Queues) : QueueId → FrameQueue
  | .host .control => q.hrc
  | .host .data => q.hrd
  | .tx .a .control => q.txaC
  | .tx .a .data => q.txaD
  | .tx .b .control => q.txbC
  | .tx .b .data => q.txbD

/-- The queues with one of them replaced. -/
def Queues.set (q : Queues) (i : QueueId) (v : FrameQueue) : Queues :=
  match i with
  | .host .control => { q with hrc := v }
  | .host .data => { q with hrd := v }
  | .tx .a .control => { q with txaC := v }
  | .tx .a .data => { q with txaD := v }
  | .tx .b .control => { q with txbC := v }
  | .tx .b .data => { q with txbD := v }

/-- What the host set for the host receive queue of a class. -/
def Queues.hostCfg (q : Queues) : Cls → HostQueueCfg
  | .control => q.hrcCfg
  | .data => q.hrdCfg

/-- A queue of the state. -/
def State.queue (s : State) (i : QueueId) : FrameQueue :=
  s.queues.get i

/-- The state with the entries of a queue replaced, its limit kept. -/
def State.setEntries (s : State) (i : QueueId) (es : List Nat) : State :=
  { s with queues := s.queues.set i { s.queues.get i with entries := es } }

/-- A queue is full when its count is at or above its limit (R27). -/
def FrameQueue.full (q : FrameQueue) : Bool :=
  decide (q.limit ≤ q.entries.length)

/-! ## Records -/

/-- The record in a slot; none for a FREE slot (R7). -/
def State.record (s : State) (h : Nat) : Option Record :=
  Sparse.lookup s.buf.records h

/-- The state with the record of a handle changed, where the slot is not FREE. -/
def State.modRecord (s : State) (h : Nat) (f : Record → Record) : State :=
  { s with buf := { s.buf with records := Sparse.modify s.buf.records h f } }

/-- The holder of a link's side. -/
def Record.holder (r : Record) : LinkId → LinkHolder
  | .a => r.linkA
  | .b => r.linkB

/-- The record with the holder of a link's side replaced. -/
def Record.setHolder (r : Record) (l : LinkId) (v : LinkHolder) : Record :=
  match l with
  | .a => { r with linkA := v }
  | .b => { r with linkB := v }

/-- The reference count: the sides whose holder is not NONE (section 1.5). -/
def Record.refCount (r : Record) : Nat :=
  (if r.host = .none then 0 else 1) + (if r.linkA = .none then 0 else 1) + (if r.linkB = .none then 0 else 1)

/-- The seq of a link holder, present in SENDING and UNACKED (R8). -/
def LinkHolder.seq : LinkHolder → Option Byte
  | .sending q => some q
  | .unacked q => some q
  | .none => Option.none
  | .queued => Option.none

/-- The seq of a frame on a link's side, read from its record (R90). -/
def State.seqOn (s : State) (l : LinkId) (h : Nat) : Option Byte :=
  (s.record h).bind fun r => (r.holder l).seq

/-- Whether the record of a handle carries the poisoned mark (R153). -/
def State.isPoisoned (s : State) (h : Nat) : Bool :=
  match s.record h with
  | some r => r.poisoned
  | none => false

/-- The cells of a frame of a length: the length divided by 64, rounded up (R3). -/
def cellsFor (length : Nat) : Nat :=
  (length + 63) / Config.cellBytes

/-- The words that hold a frame's payload bytes: the length divided by 8, rounded up (R95). -/
def wordsFor (length : Nat) : Nat :=
  (length + 7) / 8

/-- The word position that holds a payload byte of a chain (R3, section 1.1). -/
def wordPosition (cells : List Nat) (byte : Nat) : Nat :=
  cells.getD (byte / Config.cellBytes) 0 * Config.cellWords + byte % Config.cellBytes / 8

end Sys2Proof.Machine
end

