-- ==== Sys2Proof/Machine/Operands.lean ====
section
/-! DEFINITION. The code values of Table 10-3, in both directions, and the fields of a 32-bit register. -/

namespace Sys2Proof.Machine

/-! ## Register fields -/

/-- The field at bits `hi` down to `lo` of a register. -/
def field (v : Word) (hi lo : Nat) : Nat :=
  (v >>> lo).toNat % 2 ^ (hi + 1 - lo)

/-- A number placed at bits `hi` down to `lo` of a register, cut to that width. -/
def place (x : Nat) (hi lo : Nat) : Word :=
  BitVec.ofNat 32 (x % 2 ^ (hi + 1 - lo)) <<< lo

/-- One bit of a register. -/
def placeBit (b : Bool) (i : Nat) : Word :=
  if b then place 1 i i else 0

/-- What a field becomes when a value is written to it: out of its range, the write is ignored for that field alone (R173). -/
def taken (lo hi value old : Nat) : Nat :=
  if lo ≤ value ∧ value ≤ hi then value else old

/-! ## Codes read from an argument (R174) -/

/-- Class: CONTROL 1, DATA 2. -/
def classOfCode : Nat → Option Cls
  | 1 => some .control
  | 2 => some .data
  | _ => none

/-- Queue: HRC 1 to TXB_D 6. -/
def queueOfCode : Nat → Option QueueId
  | 1 => some (.host .control)
  | 2 => some (.host .data)
  | 3 => some (.tx .a .control)
  | 4 => some (.tx .a .data)
  | 5 => some (.tx .b .control)
  | 6 => some (.tx .b .data)
  | _ => none

/-- The host receive queue that CLAIM names: HRC 1, HRD 2. -/
def hostQueueOfCode : Nat → Option Cls
  | 1 => some .control
  | 2 => some .data
  | _ => none

/-- Link: A 1, B 2. -/
def linkOfCode : Nat → Option LinkId
  | 1 => some .a
  | 2 => some .b
  | _ => none

/-- Link selection of POST: A 1, B 2, BOTH 3. -/
def selectionOfCode : Nat → Option (List LinkId)
  | 1 => some [.a]
  | 2 => some [.b]
  | 3 => some [.a, .b]
  | _ => none

/-- Port mode: READ 1, WRITE 2. -/
def portModeOfCode : Nat → Option PortMode
  | 1 => some .read
  | 2 => some .write
  | _ => none

/-- Delivery Table action: HOST 1 to DISCARD 4. -/
def actionOfCode : Nat → Option Action
  | 1 => some .host
  | 2 => some .forward
  | 3 => some .hostAndForward
  | 4 => some .discard
  | _ => none

/-- Scrubber mode: OFF 0, SINGLE 1, CONTINUOUS 2. -/
def scrubModeOfCode : Nat → Option ScrubMode
  | 0 => some .off
  | 1 => some .single
  | 2 => some .continuous
  | _ => none

/-! ## Codes shown in a register -/

/-- Class code. -/
def Cls.code : Cls → Nat
  | .control => 1
  | .data => 2

/-- Queue code. -/
def QueueId.code : QueueId → Nat
  | .host .control => 1
  | .host .data => 2
  | .tx .a .control => 3
  | .tx .a .data => 4
  | .tx .b .control => 5
  | .tx .b .data => 6

/-- Port mode code. -/
def PortMode.code : PortMode → Nat
  | .read => 1
  | .write => 2

/-- Delivery Table action code. -/
def Action.code : Action → Nat
  | .host => 1
  | .forward => 2
  | .hostAndForward => 3
  | .discard => 4

/-- Origin and filler code: HOST 1, LINK_A 2, LINK_B 3. -/
def Party.code : Party → Nat
  | .host => 1
  | .link .a => 2
  | .link .b => 3

/-- Filler code, 0 where the filler is absent. -/
def Phase.fillerCode : Phase → Nat
  | .filling p => p.code
  | .live => 0

/-- Record state code: FILLING 0, LIVE 1. -/
def Phase.code : Phase → Nat
  | .filling _ => 0
  | .live => 1

/-- Reader code: TX_A 1, TX_B 2, HOST 3, SCRUB 4. -/
def Reader.code : Reader → Nat
  | .tx .a => 1
  | .tx .b => 2
  | .host => 3
  | .scrub => 4

/-- Report kind code. -/
def ReportKind.code : ReportKind → Nat
  | .corrected => 1
  | .uncorrectable => 2

/-- Host holder code. -/
def HostHolder.code : HostHolder → Nat
  | .none => 0
  | .filling => 1
  | .queued => 2
  | .claimed => 3

/-- Link holder code. -/
def LinkHolder.code : LinkHolder → Nat
  | .none => 0
  | .queued => 1
  | .sending _ => 2
  | .unacked _ => 3

/-- Link state code. -/
def LinkState.code : LinkState → Nat
  | .disabled => 0
  | .hunt => 1
  | .greet => 2
  | .active => 3
  | .fault => 4

/-- Alignment sub-state code. -/
def Align.code : Align → Nat
  | .none => 0
  | .aligned => 1
  | .realigning => 2

/-- NAK episode code. -/
def NakEpisode.code : NakEpisode → Nat
  | .none => 0
  | .pending => 1
  | .sent => 2

/-- Fault reason code. -/
def FaultReason.code : FaultReason → Nat
  | .none => 0
  | .greetTimeout => 1
  | .addressClash => 2
  | .revisionMismatch => 3
  | .silent => 4
  | .alignLost => 5
  | .replayLimit => 6
  | .replayDataLost => 7
  | .creditViolation => 8
  | .malformed => 9
  | .partnerRestart => 10

/-- Admission mode code. -/
def AdmissionMode.code : AdmissionMode → Nat
  | .tailDrop => 0
  | .dropOldest => 1

/-- Scrubber mode code. -/
def ScrubMode.code : ScrubMode → Nat
  | .off => 0
  | .single => 1
  | .continuous => 2

/-- Result code. -/
def ResultCode.code : ResultCode → Nat
  | .none => 0
  | .ok => 1
  | .empty => 2
  | .noCells => 3
  | .handleLimit => 4
  | .badHandle => 5
  | .wrongState => 6
  | .queueFull => 7
  | .linkDown => 8
  | .badArg => 9
  | .notReady => 10
  | .notConfigured => 11

/-- A number as a register value. -/
def wordOfNat (n : Nat) : Word :=
  BitVec.ofNat 32 n

/-- A byte as a register value. -/
def wordOfByte (b : Byte) : Word :=
  b.setWidth 32

/-- An optional byte as a register value, 0 where it is absent (R174). -/
def wordOfOptByte (b : Option Byte) : Word :=
  (b.getD 0).setWidth 32

end Sys2Proof.Machine
end

