-- ==== Sys2Proof/Machine/Flags.lean ====
section
/-! DEFINITION. Event flags, the interrupt output and the 34 counters (chapter 9). -/

namespace Sys2Proof.Machine

/-- The 14 event flags (Table 9-1). -/
inductive Event where
  | hrcArrival
  | hrdArrival
  | cmdDone
  | cmdOverrun
  | linkAUp
  | linkADown
  | linkBUp
  | linkBDown
  | eccCorrected
  | eccUncorrectable
  | reportLost
  | drop
  | portError
  | scrubPassDone
deriving DecidableEq, Repr

/-- The bit of a flag in EVENT_FLAGS, in the order of Table 9-1. -/
def Event.bit : Event → Nat
  | .hrcArrival => 0
  | .hrdArrival => 1
  | .cmdDone => 2
  | .cmdOverrun => 3
  | .linkAUp => 4
  | .linkADown => 5
  | .linkBUp => 6
  | .linkBDown => 7
  | .eccCorrected => 8
  | .eccUncorrectable => 9
  | .reportLost => 10
  | .drop => 11
  | .portError => 12
  | .scrubPassDone => 13

/-- LINKx_UP of a link. -/
def Event.linkUp : LinkId → Event
  | .a => .linkAUp
  | .b => .linkBUp

/-- LINKx_DOWN of a link. -/
def Event.linkDown : LinkId → Event
  | .a => .linkADown
  | .b => .linkBDown

/-- HRC_ARRIVAL or HRD_ARRIVAL, by the class of the queue. -/
def Event.arrival : Cls → Event
  | .control => .hrcArrival
  | .data => .hrdArrival

/-- The state with a flag set, whatever its enable (R164). -/
def State.raise (s : State) (e : Event) : State :=
  { s with ev := { s.ev with flags := s.ev.flags ||| (1#14 <<< e.bit) } }

/-- Whether a flag is set. -/
def State.flag (s : State) (e : Event) : Bool :=
  s.ev.flags.getLsbD e.bit

/-- The pending set: the flags that are both set and enabled (R168). -/
def State.pendingSet (s : State) : BitVec 14 :=
  s.ev.flags &&& s.ev.enables

/-- The interrupt output: active while a flag is set and enabled (R168). INT_N is low while it is active (Table 10-6). -/
def State.interruptActive (s : State) : Bool :=
  s.pendingSet != 0

/-- The twelve counters kept once for the part (Table 9-2). -/
inductive PartCounter where
  | hrTailDrop
  | hrOldestDrop
  | fwdQueueFull
  | fwdLinkDown
  | hopLimit
  | loopDiscard
  | tableDiscard
  | teardownDrop
  | eccCorrectedTotal
  | eccUncorrectableTotal
  | reportLost
  | scrubPasses
deriving DecidableEq, Repr

/-- The eleven counters kept for each link (Table 9-2). -/
inductive LinkCounter where
  | framesIn
  | framesOut
  | checkErrors
  | seqDiscards
  | abortsReceived
  | naksSent
  | replays
  | staleAcks
  | linkDowns
  | creditStallDrops
  | poisonDrops
deriving DecidableEq, Repr

/-- A counter's value. -/
def PartCounters.get (n : PartCounters) : PartCounter → Word
  | .hrTailDrop => n.hrTailDrop
  | .hrOldestDrop => n.hrOldestDrop
  | .fwdQueueFull => n.fwdQueueFull
  | .fwdLinkDown => n.fwdLinkDown
  | .hopLimit => n.hopLimit
  | .loopDiscard => n.loopDiscard
  | .tableDiscard => n.tableDiscard
  | .teardownDrop => n.teardownDrop
  | .eccCorrectedTotal => n.eccCorrectedTotal
  | .eccUncorrectableTotal => n.eccUncorrectableTotal
  | .reportLost => n.reportLost
  | .scrubPasses => n.scrubPasses

/-- The counters with one of them set. -/
def PartCounters.set (n : PartCounters) (c : PartCounter) (v : Word) : PartCounters :=
  match c with
  | .hrTailDrop => { n with hrTailDrop := v }
  | .hrOldestDrop => { n with hrOldestDrop := v }
  | .fwdQueueFull => { n with fwdQueueFull := v }
  | .fwdLinkDown => { n with fwdLinkDown := v }
  | .hopLimit => { n with hopLimit := v }
  | .loopDiscard => { n with loopDiscard := v }
  | .tableDiscard => { n with tableDiscard := v }
  | .teardownDrop => { n with teardownDrop := v }
  | .eccCorrectedTotal => { n with eccCorrectedTotal := v }
  | .eccUncorrectableTotal => { n with eccUncorrectableTotal := v }
  | .reportLost => { n with reportLost := v }
  | .scrubPasses => { n with scrubPasses := v }

/-- A counter's value. -/
def LinkCounters.get (n : LinkCounters) : LinkCounter → Word
  | .framesIn => n.framesIn
  | .framesOut => n.framesOut
  | .checkErrors => n.checkErrors
  | .seqDiscards => n.seqDiscards
  | .abortsReceived => n.abortsReceived
  | .naksSent => n.naksSent
  | .replays => n.replays
  | .staleAcks => n.staleAcks
  | .linkDowns => n.linkDowns
  | .creditStallDrops => n.creditStallDrops
  | .poisonDrops => n.poisonDrops

/-- The counters with one of them set. -/
def LinkCounters.set (n : LinkCounters) (c : LinkCounter) (v : Word) : LinkCounters :=
  match c with
  | .framesIn => { n with framesIn := v }
  | .framesOut => { n with framesOut := v }
  | .checkErrors => { n with checkErrors := v }
  | .seqDiscards => { n with seqDiscards := v }
  | .abortsReceived => { n with abortsReceived := v }
  | .naksSent => { n with naksSent := v }
  | .replays => { n with replays := v }
  | .staleAcks => { n with staleAcks := v }
  | .linkDowns => { n with linkDowns := v }
  | .creditStallDrops => { n with creditStallDrops := v }
  | .poisonDrops => { n with poisonDrops := v }

/-- The counters of the drops group (R166). -/
def PartCounter.isDrop : PartCounter → Bool
  | .hrTailDrop | .hrOldestDrop | .fwdQueueFull | .fwdLinkDown => true
  | .hopLimit | .loopDiscard | .tableDiscard | .teardownDrop => true
  | .eccCorrectedTotal | .eccUncorrectableTotal | .reportLost | .scrubPasses => false

/-- The per-link drop counters (R166). -/
def LinkCounter.isDrop : LinkCounter → Bool
  | .creditStallDrops | .poisonDrops => true
  | .framesIn | .framesOut | .checkErrors | .seqDiscards | .abortsReceived => false
  | .naksSent | .replays | .staleAcks | .linkDowns => false

/-- A count of a part counter by 1, modulo 2^32; a drop counter sets DROP in the same step (R166, R169). -/
def State.countPart (s : State) (c : PartCounter) : State :=
  let t := { s with ev := { s.ev with counters := s.ev.counters.set c (s.ev.counters.get c + 1) } }
  if c.isDrop then t.raise .drop else t

/-- A count of a link's counter by 1, modulo 2^32; a drop counter sets DROP in the same step (R166, R169). -/
def State.countLink (s : State) (l : LinkId) (c : LinkCounter) : State :=
  let t := s.modPort l fun p => { p with counters := p.counters.set c (p.counters.get c + 1) }
  if c.isDrop then t.raise .drop else t

end Sys2Proof.Machine
end

