-- ==== Sys2Proof/Machine/Blocks.lean ====
section
/-! DEFINITION. The layouts of the blocks on the line and their checks (section 10.4). -/

namespace Sys2Proof.Machine

/-! ## The cyclic checks (R176)

Bit 0 of a check register holds the coefficient of the highest power, so a bit taken least significant first leaves at bit 0. -/

/-- One bit taken into the 16-bit check, generator x^16 + x^12 + x^5 + 1. -/
def crc16Bit (r : BitVec 16) : BitVec 16 :=
  if r.getLsbD 0 then (r >>> 1) ^^^ 0x8408 else r >>> 1

/-- One byte taken into the 16-bit check. -/
def crc16Byte (r : BitVec 16) (b : Byte) : BitVec 16 :=
  Nat.rec (r ^^^ b.setWidth 16) (fun _ x => crc16Bit x) 8

/-- The 16-bit check over bytes in ascending order: it starts from 0xFFFF and is stored uninverted. -/
def crc16 (bytes : List Byte) : BitVec 16 :=
  bytes.foldl crc16Byte 0xFFFF

/-- One bit taken into the 32-bit check, whose generator R176 gives. -/
def crc32Bit (r : BitVec 32) : BitVec 32 :=
  if r.getLsbD 0 then (r >>> 1) ^^^ 0xEDB88320 else r >>> 1

/-- One byte taken into the running 32-bit check. -/
def crc32Byte (r : BitVec 32) (b : Byte) : BitVec 32 :=
  Nat.rec (r ^^^ b.setWidth 32) (fun _ x => crc32Bit x) 8

/-- The 32-bit check run on over further bytes. -/
def crc32Run (r : BitVec 32) (bytes : List Byte) : BitVec 32 :=
  bytes.foldl crc32Byte r

/-- The start value of the 32-bit check. -/
def crc32Start : BitVec 32 :=
  0xFFFFFFFF

/-- The 32-bit check as it is stored: inverted. -/
def crc32Stored (r : BitVec 32) : BitVec 32 :=
  ~~~ r

/-- The first `n` bytes of a block, in ascending byte number. -/
def bytesOf {w : Nat} (block : BitVec w) (n : Nat) : List Byte :=
  (List.range n).map (byteOf block)

/-! ## Control blocks (Table 10-4) -/

/-- Bytes 0 to 5 of a control block, byte 0 lowest; bytes and bits that carry no field are 0. -/
def ControlBlock.body : ControlBlock → BitVec 48
  | .hail sender revision seen =>
    (0 : BitVec 16) ++ (if seen then 1 else 0 : Byte) ++ revision ++ sender ++ (1 : Byte)
  | .ack seq => (0 : BitVec 32) ++ seq ++ (2 : Byte)
  | .nak seq => (0 : BitVec 32) ++ seq ++ (3 : Byte)
  | .grant c v => (0 : BitVec 16) ++ v ++ (match c with | .control => 0 | .data => 1 : Byte) ++ (4 : Byte)
  | .keep => (0 : BitVec 40) ++ (5 : Byte)

/-- The 8 bytes of a control block as the transmitter sends them, its 16-bit check in bytes 6 and 7 (R176). -/
def ControlBlock.encode (b : ControlBlock) : BitVec 64 :=
  crc16 (bytesOf b.body 6) ++ b.body

/-- Whether a received control block's check over bytes 0 to 5 matches bytes 6 and 7 (R176). -/
def controlCheckOk (block : BitVec 64) : Bool :=
  crc16 (bytesOf block 6) == block.extractLsb' 48 16

/-- The fields of a control block by its type; none for an unknown type (R176). Bits that carry no field are ignored. -/
def controlFields (block : BitVec 64) : Option ControlBlock :=
  match (byteOf block 0).toNat with
  | 1 => some (.hail (byteOf block 1) (byteOf block 2) ((byteOf block 3).getLsbD 0))
  | 2 => some (.ack (byteOf block 1))
  | 3 => some (.nak (byteOf block 1))
  | 4 => some (.grant (if (byteOf block 1).getLsbD 0 then .data else .control) (block.extractLsb' 16 16))
  | 5 => some .keep
  | _ => none

/-! ## Frame headers (Table 10-5) -/

/-- The fields of a frame header that the receiver reads (R177). -/
structure HeaderFields where
  cls : Cls
  seq : Byte
  destination : Byte
  source : Byte
  hops : BitVec 4
  length : BitVec 16
deriving DecidableEq, Repr

/-- Bytes 0 to 13 of a header as the transmitter sends them (R177). -/
def HeaderFields.body (f : HeaderFields) : BitVec 112 :=
  (0 : BitVec 56) ++ f.length ++ (0 : BitVec 4) ++ f.hops ++ f.source ++ f.destination ++ f.seq
    ++ (match f.cls with | .control => 0 | .data => 1 : Byte)

/-- The 16 bytes of a header, its check in bytes 14 and 15 (R177). -/
def HeaderFields.encode (f : HeaderFields) : BitVec 128 :=
  crc16 (bytesOf f.body 14) ++ f.body

/-- The fields of a received header; the other bits are ignored (R177). -/
def headerFields (h : BitVec 128) : HeaderFields where
  cls := if h.getLsbD 0 then .data else .control
  seq := byteOf h 1
  destination := byteOf h 2
  source := byteOf h 3
  hops := h.extractLsb' 32 4
  length := h.extractLsb' 40 16

/-- Whether a received header's check over bytes 0 to 13 matches bytes 14 and 15 (R66, R177). -/
def headerCheckOk (h : BitVec 128) : Bool :=
  crc16 (bytesOf h 14) == h.extractLsb' 112 16

/-- The length a header carries, read whole (R177). -/
def headerLength (h : BitVec 128) : Nat :=
  (headerFields h).length.toNat

/-- The check of a trailer over the 16 header bytes and the payload (R177). -/
def trailerCheck (header : BitVec 128) (payload : List Byte) : BitVec 32 :=
  crc32Stored (crc32Run (crc32Run crc32Start (bytesOf header 16)) payload)

/-! ## The check of a trailer on the line (R176) -/

/-- The 4 bytes of a trailer check in the order they go out, low byte first (R176). -/
def checkBytes (check : BitVec 32) : List Byte :=
  bytesOf check 4

/-- The trailer check that 4 bytes are, the first of them the low byte (R176). -/
def checkOfBytes (b0 b1 b2 b3 : Byte) : BitVec 32 :=
  b3 ++ b2 ++ b1 ++ b0

end Sys2Proof.Machine
end

