-- ==== Sys2Proof/WellFormed.lean ====
section
/-! DEFINITION. Which commands the pins and the lines can carry: the check of each row's operands. -/

namespace Sys2Proof

/-- The codes of Table 10-3 that name a command. -/
def namesCommand (code : Word) : Bool :=
  decide (1 ≤ code.toNat ∧ code.toNat ≤ 13)

/-- The registers whose write has a row of its own: NODE_ADDR, EVENT_FLAGS, EVENT_ENABLE, CMD, PORT_DATA, SCRUB_CONTROL and the
two CFG_SESSION registers (Tables 10-1 and 10-2). -/
def ownRow (reg : BitVec 7) : Bool :=
  [2, 4, 5, 12, 22, 32, 79, 111].contains reg.toNat

/-- Whether a command is one that its row describes. -/
def Instr.wellFormed : Instr → Bool
  | .unknownCommand code => !namesCommand code
  | .registerWrite reg value => !ownRow reg && !(reg == 0 && value.getLsbD 0)
  | .frameHeaderReceived _ header => Machine.headerCheckOk header
  | .framePayloadBytes _ bytes => !bytes.isEmpty
  | .resetInput | .initComplete | .softReset => true
  | .alloc | .openPort | .post | .claim | .release | .query | .flush | .linkStart | .linkStop => true
  | .tableSet | .tableGet | .reportTake | .scrubStart => true
  | .cmdOverrun _ | .portDataRead | .portDataWrite _ | .eventFlagsClear _ | .eventEnableWrite _ => true
  | .nodeAddrWrite _ | .scrubModeWrite _ | .creditStallLimitWrite _ _ => true
  | .invalidMarker _ | .checkedOutBlock _ _ | .keepReceived _ | .hailReceived _ _ _ _ => true
  | .ackReceived _ _ | .nakReceived _ _ | .grantReceived _ _ _ => true
  | .frameTruncated _ | .frameTrailerEnd _ _ | .frameTrailerAbort _ => true
  | .hailSendEnd _ | .controlBlockSent _ | .txWordRead _ | .firstTransmissionEnd _ | .firstTransmissionAbort _ => true
  | .resendEnd _ | .resendAbort _ | .hailTimerExpiry _ | .greetTimeout _ | .silenceTimeout _ | .realignTimeout _ => true
  | .holdDownExpiry _ | .replayTimerExpiry _ | .ackDelayExpiry _ | .idleTimerExpiry _ | .grantRefreshExpiry _ => true
  | .creditStallExpiry _ _ | .flushRemoval | .scrubStep | .keepSendEnd _ => true

end Sys2Proof
end

