-- ==== Sys2Proof/Decode.lean ====
section
/-! DEFINITION. From what the pins and the lines carry to commands: a bus write, a bus read, a block on a line.
The table of commands gives its rows no bits, so no word spells a command. -/

namespace Sys2Proof

/-- The table gives no row any bits: no word of any width spells a command (log entry 7). -/
def decodeTableWord (_nbits _w : Nat) : Option Instr :=
  none

/-- The command that a value written to CMD asks of an IDLE unit (Table 10-3). -/
def commandOfCode (code : Word) : Instr :=
  match code.toNat with
  | 1 => .alloc
  | 2 => .openPort
  | 3 => .post
  | 4 => .claim
  | 5 => .release
  | 6 => .query
  | 7 => .flush
  | 8 => .linkStart
  | 9 => .linkStop
  | 10 => .tableSet
  | 11 => .tableGet
  | 12 => .reportTake
  | 13 => .scrubStart
  | _ => .unknownCommand code

/-- The command that a write of the bus is: A[8:2] is `reg`, D[31:0] is `v`; `busy` is the busy state of the Host Command Unit
at the write (R128, R149, R173). -/
def busWrite (busy : Bool) (reg : BitVec 7) (v : Word) : Instr :=
  match reg.toNat with
  | 0 => if v.getLsbD 0 then .softReset else .registerWrite reg v
  | 2 => .nodeAddrWrite v
  | 4 => .eventFlagsClear v
  | 5 => .eventEnableWrite v
  | 12 => if busy then .cmdOverrun v else commandOfCode v
  | 22 => .portDataWrite v
  | 32 => .scrubModeWrite v
  | 79 => .creditStallLimitWrite .a v
  | 111 => .creditStallLimitWrite .b v
  | _ => .registerWrite reg v

/-- The command that a read of the bus is: only PORT_DATA has one, and every other read changes nothing (R173). -/
def busRead (reg : BitVec 7) : Option Instr :=
  if reg.toNat = 22 then some .portDataRead else none

/-- The command that the 8 bytes of a control block are, byte 0 lowest: the block by its type, or a checked-out block where the
check fails or the type is unknown (R44, R176). -/
def receiveControlBlock (link : LinkId) (block : BitVec 64) : Instr :=
  if Machine.controlCheckOk block then
    match Machine.controlFields block with
    | some (.hail sender revision seen) => .hailReceived link sender revision seen
    | some (.ack seq) => .ackReceived link seq
    | some (.nak seq) => .nakReceived link seq
    | some (.grant c v) => .grantReceived link c v
    | some .keep => .keepReceived link
    | none => .checkedOutBlock link .control
  else .checkedOutBlock link .control

/-- The command that the 16 bytes of a frame header are, byte 0 lowest (R66, R67, R177). -/
def receiveFrameHeader (link : LinkId) (header : BitVec 128) : Instr :=
  if Machine.headerCheckOk header then .frameHeaderReceived link header else .checkedOutBlock link .frame

/-- The command that the bytes after an END are: the trailer check in the first 4 of them, low byte first; a block marker that
comes before they are complete ends the frame as truncated (R176, R177). -/
def receiveTrailer (link : LinkId) (bytes : List Byte) : Instr :=
  match bytes with
  | b0 :: b1 :: b2 :: b3 :: _ => .frameTrailerEnd link (Machine.checkOfBytes b0 b1 b2 b3)
  | _ => .frameTruncated link

end Sys2Proof
end

