-- ==== Sys2Proof/Machine/Buffer.lean ====
section
/-! DEFINITION. The Buffer Manager: chains, allocation, holders and the freeing of a record (chapter 1). -/

namespace Sys2Proof.Machine

/-! ## Chains and the free list -/

/-- The next-cell links of a chain: each cell's to the one that follows, the last one's to the end mark (R3). -/
def linkChain (links : List (Nat × Option Nat)) : List Nat → List (Nat × Option Nat)
  | [] => links
  | [c] => Sparse.insert links c none
  | c :: d :: rest => Sparse.insert (linkChain links (d :: rest)) c (some d)

/-- The cells reached from a cell by following the links to the end mark, at most `fuel` of them (R3). -/
def followLinks (links : List (Nat × Option Nat)) : Nat → Nat → List Nat
  | 0, _ => []
  | fuel + 1, c =>
    match Sparse.lookup links c with
    | some (some d) => c :: followLinks links fuel d
    | _ => [c]

/-- The handle the next allocation gives: the head of the free list (R5). -/
def State.nextHandle (s : State) : Nat :=
  s.buf.free.headD 0

/-- An allocation of `k` cells from the head of the free list, for a record given all but its cells (R5). -/
def State.allocate (s : State) (k : Nat) (r : Record) : State :=
  let cells := s.buf.free.take k
  { s with buf := { s.buf with
      free := s.buf.free.drop k
      links := linkChain s.buf.links cells
      records := Sparse.insert s.buf.records s.nextHandle { r with cells := cells } } }

/-- The free cell count (R4). -/
def State.freeCount (s : State) : Nat :=
  s.buf.free.length

/-- A list of cells with every word zero and a fresh check code (R11). -/
def State.zeroCells (s : State) (cells : List Nat) : State :=
  { s with buf := { s.buf with
      mem := Memory.zeroCells s.buf.mem cells
      wrong := s.buf.wrong.filter fun e => !cells.contains (e.1 / Config.cellWords) } }

/-- A word written whole, with a fresh check code: none of its 72 bits is wrong (R1). -/
def State.writeWord (s : State) (position : Nat) (w : CellWord) : State :=
  { s with buf := { s.buf with
      mem := Memory.writeWord s.buf.mem position w
      wrong := Sparse.erase s.buf.wrong position } }

/-- The handle and record that own a cell, if it is in the chain of a record that is not FREE (R2). -/
def State.ownerOf (s : State) (cell : Nat) : Option (Nat × Record) :=
  s.buf.records.find? fun e => e.2.cells.contains cell

/-! ## Freeing and holders -/

/-- The report of a free to the Credit Unit of the link it came from; a host record is not reported (R17). -/
def State.reportFree (s : State) (r : Record) : State :=
  match r.origin with
  | .host => s
  | .link l => s.modCredit l r.cls fun c => { c with inUse := c.inUse - r.cells.length }

/-- A record freed: its slot FREE, its chain at the tail of the free list in chain order, the free reported (R6, R16). -/
def State.freeRecord (s : State) (h : Nat) : State :=
  match s.record h with
  | none => s
  | some r =>
    State.reportFree
      { s with buf := { s.buf with
          records := Sparse.erase s.buf.records h
          free := s.buf.free ++ r.cells } } r

/-- A holder removed from a record, by setting one side to NONE; the record is freed if no holder remains (R10, R16). -/
def State.removeHolder (s : State) (h : Nat) (clear : Record → Record) : State :=
  match s.record h with
  | none => s
  | some r => if (clear r).refCount = 0 then s.freeRecord h else s.modRecord h clear

/-- The host holder removed. -/
def State.removeHostHolder (s : State) (h : Nat) : State :=
  s.removeHolder h fun r => { r with host := .none }

/-- A link's holder removed, and with it the seq of that side. -/
def State.removeLinkHolder (s : State) (l : LinkId) (h : Nat) : State :=
  s.removeHolder h fun r => r.setHolder l .none

/-- A link holder changed. -/
def State.setLinkHolder (s : State) (l : LinkId) (h : Nat) (v : LinkHolder) : State :=
  s.modRecord h fun r => r.setHolder l v

/-- Whether a side of the record of a handle holds it. -/
def State.isHeld (s : State) (h : Nat) : Bool :=
  match s.record h with
  | some r => r.refCount != 0
  | none => false

end Sys2Proof.Machine
end

