-- ==== Sys2Proof/Machine/Integrity.lean ====
section
/-! DEFINITION. The Integrity Unit: the judgement of a word read, poisoning, and the error report table (chapter 8). -/

namespace Sys2Proof.Machine

/-! ## The check logic -/

/-- The outcome of a read of a word (R151). -/
inductive Verdict where
  | good
  | corrected (bit : Nat)
  | uncorrectable
deriving DecidableEq, Repr

/-- The bits of a word, among its 72 stored ones, that differ from those last written (R151). -/
def State.wrongBits (s : State) (position : Nat) : List Nat :=
  (Sparse.lookup s.buf.wrong position).getD []

/-- The 8 data bytes of a word as stored. -/
def State.storedData (s : State) (position : Nat) : CellWord :=
  Memory.readWord s.buf.mem position

/-- A word with one of its data bits turned over; a check bit leaves the data as it is (R151). -/
def flipBit (w : CellWord) (bit : Nat) : CellWord :=
  if bit < 64 then w ^^^ (1#64 <<< bit) else w

/-- The check code as stored: that of the bytes last written, with the wrong check bits turned over (R1, log entry 2). -/
def State.storedCheck (s : State) (position : Nat) : Byte :=
  (s.wrongBits position).foldl (fun c bit => if 64 ≤ bit then c ^^^ (1#8 <<< (bit - 64)) else c)
    (Config.checkCode ((s.wrongBits position).foldl flipBit (s.storedData position)))

/-- One of the three outcomes, or one of the 72 positions, from a free number (R151). -/
def verdictOfFree (n : Nat) : Verdict :=
  if n % 74 < 72 then .corrected (n % 74)
  else if n % 74 = 72 then .good
  else .uncorrectable

/-- How the check logic judges a word: one wrong bit is corrected, two are detected;
three or more receive one of the three outcomes, which the manual leaves open (R151, log entry 3). -/
def State.judge (s : State) (position : Nat) : Verdict :=
  match s.wrongBits position with
  | [] => .good
  | [bit] => .corrected bit
  | [_, _] => .uncorrectable
  | _ => verdictOfFree (Config.judgeMany (s.storedData position) (s.storedCheck position))

/-- The 8 data bytes a read delivers: corrected where one bit was put right, else as stored (R151). -/
def State.delivered (s : State) (position : Nat) : CellWord :=
  match s.judge position with
  | .corrected bit => flipBit (s.storedData position) bit
  | .good => s.storedData position
  | .uncorrectable => s.storedData position

/-! ## Reports -/

/-- Whether two entries are of the same cell, word and kind (R160). -/
def ReportEntry.matchesEntry (e f : ReportEntry) : Bool :=
  e.cell == f.cell && e.word == f.word && e.kind == f.kind

/-- An entry with one more occurrence, stopping at 255 (R160). -/
def ReportEntry.again (e : ReportEntry) : ReportEntry :=
  { e with occurrences := min 255 (e.occurrences + 1) }

/-- A report counted as lost (R161). -/
def State.loseReport (s : State) : State :=
  (s.countPart .reportLost).raise .reportLost

/-- A report taken by the error report table: matched, appended, or at a full table displacing or lost (R160, R161). -/
def State.tableReport (s : State) (e : ReportEntry) : State :=
  if s.reports.any e.matchesEntry then
    { s with reports := s.reports.map fun f => if e.matchesEntry f then f.again else f }
  else if s.reports.length < Config.maxReports then
    { s with reports := s.reports ++ [e] }
  else if e.kind = .uncorrectable ∧ s.reports.any (fun f => f.kind == .corrected) then
    State.loseReport { s with reports := s.reports.eraseP (fun f => f.kind == .corrected) ++ [e] }
  else s.loseReport

/-- A report made: to the table, and to the Event and Counter Unit (R152, R162). -/
def State.makeReport (s : State) (e : ReportEntry) : State :=
  match e.kind with
  | .corrected => ((s.tableReport e).countPart .eccCorrectedTotal).raise .eccCorrected
  | .uncorrectable => ((s.tableReport e).countPart .eccUncorrectableTotal).raise .eccUncorrectable

/-- The report of a word found faulty (R152). -/
def reportOf (position : Nat) (kind : ReportKind) (reader : Reader) (handle bit : Option Nat) : ReportEntry where
  cell := position / Config.cellWords
  word := position % Config.cellWords
  kind := kind
  reader := reader
  handle := handle
  bit := bit
  occurrences := 1

/-- The step of the Integrity Unit at a read: the owner poisoned on an uncorrectable outcome, and the report made (R152, R153). -/
def State.noteRead (s : State) (reader : Reader) (position : Nat) : State :=
  let owner := (s.ownerOf (position / Config.cellWords)).map Prod.fst
  match s.judge position with
  | .good => s
  | .corrected bit => s.makeReport (reportOf position .corrected reader owner (some bit))
  | .uncorrectable =>
    let t := match owner with
      | some h => s.modRecord h fun r => { r with poisoned := true }
      | none => s
    t.makeReport (reportOf position .uncorrectable reader owner none)

end Sys2Proof.Machine
end

