-- ==== Sys2Proof/Machine/Queues.lean ====
section
/-! DEFINITION. The completion of a command, the removals from the queues with the flush that follows them, and admission (chapter 2, R127). -/

namespace Sys2Proof.Machine

/-! ## Completion of a command -/

/-- A command completed: result code, completed command and result registers written, CMD_DONE set (R127). -/
def State.complete (s : State) (completed : Byte) (code : ResultCode) (res : Results) : State :=
  State.raise { s with hcu := { s.hcu with result := code, completed := completed, res := res } } .cmdDone

/-- The completion of the flush in progress: OK with the removed count, the unit IDLE, the mark discarded (R37, R139). -/
def State.completeFlush (s : State) : State :=
  State.complete
    { s with
      flush := { s.flush with active := none }
      hcu := { s.hcu with busy := false } }
    7 .ok { r0 := wordOfNat s.flush.removed }

/-! ## Removals -/

/-- What follows an entry's leaving a queue, whoever removed it: the flush of that queue completes if it was the mark (R37). -/
def State.entryLeft (s : State) (q : QueueId) (h : Nat) : State :=
  if s.flush.active = some (q, h) then s.completeFlush else s

/-- The credit-stall timer of a transmit queue stopped, since its head left; a host queue has none (R123). -/
def State.stopStall (s : State) : QueueId → State
  | .host _ => s
  | .tx l c => s.modCredit l c fun k => { k with stallTimer := none }

/-- The head entry of a queue taken out: the count falls by 1 and the entry behind becomes the head (R33). -/
def State.popHead (s : State) (q : QueueId) : State :=
  (s.setEntries q (s.queue q).entries.tail).stopStall q

/-- The head entry of a queue and its holder on the queue's side removed, with the flush's completion if it was the mark
(R10, R33, R36). The record is freed if this was its last holder. -/
def State.dropHead (s : State) (q : QueueId) (h : Nat) : State :=
  let t := s.popHead q
  let u := match q with
    | .host _ => t.removeHostHolder h
    | .tx l _ => t.removeLinkHolder l h
  u.entryLeft q h

/-! ## Admission -/

/-- A handle appended at the tail of a queue (R25). -/
def State.append (s : State) (q : QueueId) (h : Nat) : State :=
  s.setEntries q ((s.queue q).entries ++ [h])

/-- The first holder added makes a record LIVE, and its filler is discarded (R13). -/
def Record.withHostQueued (r : Record) : Record :=
  { r with host := .queued, phase := .live }

/-- A link holder QUEUED added to a record, which is LIVE from then on (R13, R25). -/
def Record.withLinkQueued (r : Record) (l : LinkId) : Record :=
  { r.setHolder l .queued with phase := .live }

/-- The arrival event, set when an admission raises the count from below the notify level to the level or above (R31). -/
def State.noteArrival (s : State) (c : Cls) (before : Nat) : State :=
  let level := (s.queues.hostCfg c).notify
  if before < level ∧ level ≤ (s.queue (.host c)).entries.length then s.raise (.arrival c) else s

/-- The oldest frame of a full DROP_OLDEST queue dropped (R29). -/
def State.dropOldest (s : State) (c : Cls) : State :=
  match (s.queue (.host c)).entries with
  | [] => s
  | h :: _ => (s.dropHead (.host c) h).countPart .hrOldestDrop

/-- A handle admitted at the tail of a host receive queue with its holder QUEUED. -/
def State.enterHost (s : State) (c : Cls) (h : Nat) : State :=
  (s.append (.host c) h).modRecord h Record.withHostQueued

/-- The admission request of a host part (R25, R28, R29, R86). -/
def State.admitHost (s : State) (c : Cls) (h : Nat) : State :=
  let before := (s.queue (.host c)).entries.length
  if (s.queue (.host c)).full then
    match (s.queues.hostCfg c).mode with
    | .tailDrop => s.countPart .hrTailDrop
    | .dropOldest => ((s.dropOldest c).enterHost c h).noteArrival c before
  else (s.enterHost c h).noteArrival c before

/-- The forward part of a delivery: hops, then the link, then the limit are tested;
an admitted frame's hops falls by 1 (R25, R87). -/
def State.admitForward (s : State) (l : LinkId) (c : Cls) (h : Nat) (hops : BitVec 4) : State :=
  if hops = 0 then s.countPart .hopLimit
  else if !s.isActive l then s.countPart .fwdLinkDown
  else if (s.queue (.tx l c)).full then s.countPart .fwdQueueFull
  else (s.append (.tx l c) h).modRecord h fun r => { r.withLinkQueued l with hops := r.hops - 1 }

end Sys2Proof.Machine
end

