-- ==== Sys2Proof/Machine/Credit.lean ====
section
/-! DEFINITION. The Credit Unit: outstanding grants, the grantable amount, GRANTs due, received GRANTs, credit stall (chapter 6). -/

namespace Sys2Proof.Machine

/-- The outstanding grant, (granted − consumed) mod 65536 (R111, R114). -/
def CreditClass.outstanding (k : CreditClass) : Nat :=
  (k.granted - k.consumed).toNat

/-- The available credit, (partner-granted − sent) mod 65536 (R111, R114). -/
def CreditClass.available (k : CreditClass) : Nat :=
  (k.partnerGranted - k.sent).toNat

/-- The total outstanding grant of both links and both classes (R111). -/
def State.totalOutstanding (s : State) : Nat :=
  s.portA.ctl.outstanding + s.portA.dat.outstanding + s.portB.ctl.outstanding + s.portB.dat.outstanding

/-- The grantable amount of a link and class: the smaller of the allowance cap and the free-cell cap, 0 where a cap is 0 or below (R117). -/
def State.grantable (s : State) (l : LinkId) (c : Cls) : Nat :=
  let k := (s.port l).credit c
  min (k.live - k.inUse - k.outstanding) (s.freeCount - s.totalOutstanding)

/-- A GRANT of a class made due (R118). -/
def State.makeDue (s : State) (l : LinkId) (c : Cls) : State :=
  s.modCredit l c fun k => { k with due := true }

/-- A GRANT made due on a link in ACTIVE where a change, from `before` to `s`, leaves the grantable amount at or above GRANT_STEP (R118). -/
def State.noteGrant (s before : State) (l : LinkId) (c : Cls) : State :=
  if s.isActive l ∧ s.grantable l c ≠ before.grantable l c ∧ (s.port l).cfg.grantStep ≤ s.grantable l c then
    s.makeDue l c
  else s

/-- The GRANTs that a change from `before` to `s` makes due, on both links and for both classes (R118). -/
def State.noteGrants (s before : State) : State :=
  (((s.noteGrant before .a .control).noteGrant before .a .data).noteGrant before .b .control).noteGrant before .b .data

/-- The grant decision: granted rises by the grantable amount and the GRANT is no longer due (R119). -/
def State.decideGrant (s : State) (l : LinkId) (c : Cls) : State :=
  let g := s.grantable l c
  s.modCredit l c fun k => { k with granted := k.granted + BitVec.ofNat 16 g, due := false }

/-- A received GRANT: applied unless it is stale or would carry the available credit to 32768 or above (R121). -/
def State.takeGrant (s : State) (l : LinkId) (c : Cls) (v : Credit) : State :=
  let k := (s.port l).credit c
  if (v - k.partnerGranted).toNat < 32768 ∧ (v - k.sent).toNat < 32768 then
    s.modCredit l c fun k => { k with partnerGranted := v }
  else s

/-- The tentative consumption of a header taken in, with the in-use half of R17 (R72, R115). -/
def State.consume (s : State) (l : LinkId) (c : Cls) (k : Nat) : State :=
  s.modCredit l c fun x => { x with consumed := x.consumed + BitVec.ofNat 16 k, inUse := x.inUse + k }

/-- The consumed half of a reversal; the in-use half is the free report (R76, R115). -/
def State.unconsume (s : State) (l : LinkId) (c : Cls) (k : Nat) : State :=
  s.modCredit l c fun x => { x with consumed := x.consumed - BitVec.ofNat 16 k }

/-! ## Credit stall -/

/-- The cells of the head of a transmit queue, where it has a head. -/
def State.headCells (s : State) (l : LinkId) (c : Cls) : Option Nat :=
  match (s.queue (.tx l c)).entries with
  | [] => none
  | h :: _ => (s.record h).map fun r => r.cells.length

/-- Whether no replay episode is in progress and the unacknowledged list has room (R92, R123). -/
def LinkPort.windowOpen (p : LinkPort) : Bool :=
  p.tx.replay.isNone && decide (p.tx.unacked.length < p.tx.liveWindow)

/-- Whether the head of a transmit queue waits only for credit (R123). -/
def State.waitsForCredit (s : State) (l : LinkId) (c : Cls) : Bool :=
  match s.headCells l c with
  | none => false
  | some k => s.isActive l && (s.port l).windowOpen && decide (((s.port l).credit c).available < k)

/-- The credit-stall timer of a class after a step: started where the condition begins to hold, kept where it goes on,
stopped where it has ceased or CREDIT_STALL_LIMIT is 0 (R123, R125). -/
def State.refreshStall (s : State) (l : LinkId) (c : Cls) : State :=
  let limit := (s.port l).cfg.stallLimit
  if s.waitsForCredit l c ∧ limit ≠ 0 then
    s.modCredit l c fun k => { k with stallTimer := some (k.stallTimer.getD (1000 * limit)) }
  else s.modCredit l c fun k => { k with stallTimer := none }

/-- The four credit-stall timers after a step. -/
def State.refreshStalls (s : State) : State :=
  (((s.refreshStall .a .control).refreshStall .a .data).refreshStall .b .control).refreshStall .b .data

end Sys2Proof.Machine
end

