-- ==== Sys2Proof/Machine/LinkControl.lean ====
section
/-! DEFINITION. The link state controller: entries to HUNT, GREET, ACTIVE and FAULT, the HAILs, and teardown (chapter 3). -/

namespace Sys2Proof.Machine

/-! ## Timer lengths in microseconds (Table 10-2) -/

/-- ACK_DELAY. -/
def LinkCfg.ackDelayUs (c : LinkCfg) : Nat := 10 * c.ackDelay
/-- REPLAY_TIMEOUT. -/
def LinkCfg.replayTimeoutUs (c : LinkCfg) : Nat := 20 * c.replayTimeout
/-- KEEP_INTERVAL. -/
def LinkCfg.keepIntervalUs (c : LinkCfg) : Nat := 50 * c.keepInterval
/-- GRANT_REFRESH. -/
def LinkCfg.grantRefreshUs (c : LinkCfg) : Nat := 100 * c.grantRefresh
/-- SILENCE_TIMEOUT. -/
def LinkCfg.silenceTimeoutUs (c : LinkCfg) : Nat := 1000 * c.silenceTimeout
/-- REALIGN_TIMEOUT. -/
def LinkCfg.realignTimeoutUs (c : LinkCfg) : Nat := 100 * c.realignTimeout
/-- HAIL_INTERVAL. -/
def LinkCfg.hailIntervalUs (c : LinkCfg) : Nat := 1000 * c.hailInterval
/-- GREET_TIMEOUT. -/
def LinkCfg.greetTimeoutUs (c : LinkCfg) : Nat := 10000 * c.greetTimeout
/-- HOLD_DOWN. -/
def LinkCfg.holdDownUs (c : LinkCfg) : Nat := 1000 * c.holdDown

/-- The allowance of a class (R112). -/
def LinkCfg.allowance (c : LinkCfg) : Cls → Nat
  | .control => c.allowC
  | .data => c.allowD

/-! ## Live states -/

/-- HUNT, GREET and ACTIVE are the live states (section 3.1). -/
def LinkState.live : LinkState → Bool
  | .hunt | .greet | .active => true
  | .disabled | .fault => false

/-- Whether the line of a link is quiet: it carries no block at all (R43). -/
def State.lineQuiet (s : State) (l : LinkId) : Bool :=
  !(s.port l).state.live

/-- Entry to HUNT: runs 0, KEEPs one after another, a hold-down timer stopped (R45). -/
def State.enterHunt (s : State) (l : LinkId) : State :=
  s.modPort l fun p =>
    { p with
      state := .hunt
      validRun := 0
      invalidRun := 0
      holdTimer := none
      tx := { p.tx with line := .control .keep } }

/-- A HAIL begins to go out, carrying the node address, revision 1 and the seen flag; the HAIL timer starts (R49). -/
def State.beginHail (s : State) (l : LinkId) : State :=
  s.modPort l fun p =>
    { p with
      hailTimer := some p.cfg.hailIntervalUs
      tx := { p.tx with hailDue := false, line := .control (.hail s.nodeAddr 1 p.hailReceived) } }

/-- A HAIL due: it begins at once on a free line, and waits for the block going out otherwise (R48, R49).
DESIGN CHOICE: R49 does not say whether two HAILs that come due while one block is still going out are sent as two or as one;
the model keeps one due flag, so that one HAIL follows that block (log entry 28). -/
def State.hailNow (s : State) (l : LinkId) : State :=
  if (s.port l).tx.line = .none then s.beginHail l
  else s.modTx l fun t => { t with hailDue := true }

/-- The Credit Unit of a class at the entry to GREET: counts 0, the live allowance latched, in-use kept (R48, R126). -/
def CreditClass.greet (k : CreditClass) (allowance : Nat) : CreditClass :=
  { CreditClass.reset with live := allowance, inUse := k.inUse }

/-- Entry to GREET: a new session begins and its first HAIL is due (R48, R93). -/
def State.enterGreet (s : State) (l : LinkId) : State :=
  State.hailNow
    (s.modPort l fun p =>
      { p with
        state := .greet
        partner := 0
        hailReceived := false
        yesSent := false
        validRun := 0
        invalidRun := 0
        greetTimer := some p.cfg.greetTimeoutUs
        refreshTimer := none
        rx := { p.rx with expected := 0 }
        tx := { p.tx with nextSeq := 0, liveWindow := p.cfg.window }
        ctl := p.ctl.greet p.cfg.allowC
        dat := p.dat.greet p.cfg.allowD }) l

/-- A GRANT due at the entry to ACTIVE where the grantable amount is above 0 (R53, R118). -/
def State.dueAtEntry (s : State) (l : LinkId) (c : Cls) : State :=
  if 0 < s.grantable l c then s.makeDue l c else s

/-- Entry to ACTIVE (R53, R120). -/
def State.enterActive (s : State) (l : LinkId) : State :=
  let t := s.modPort l fun p =>
    { p with
      state := .active
      align := .aligned
      validRun := 0
      invalidRun := 0
      greetTimer := none
      hailTimer := none
      silenceTimer := some p.cfg.silenceTimeoutUs
      refreshTimer := some p.cfg.grantRefreshUs
      tx := { p.tx with hailDue := false } }
  ((t.dueAtEntry l .control).dueAtEntry l .data).raise (.linkUp l)

/-! ## Teardown (section 3.8) -/

/-- Step 1: the record being filled is freed from FILLING; no drop is counted (R61). -/
def State.clearFilling (s : State) (l : LinkId) : State :=
  match (s.port l).rx.frame with
  | some f => s.freeRecord f.handle
  | none => s

/-- One link holder removed by teardown and one TEARDOWN_DROP counted (R61). -/
def State.teardownDrop (s : State) (l : LinkId) (h : Nat) : State :=
  (s.removeLinkHolder l h).countPart .teardownDrop

/-- Step 2: the frame of a first transmission; a frame being resent is on the list and taken there (R61). -/
def State.clearSending (s : State) (l : LinkId) : State :=
  match (s.port l).tx.line with
  | .frame f => if f.resend then s else s.teardownDrop l f.handle
  | .control _ => s
  | .none => s

/-- Step 3: the unacknowledged list, oldest first (R61). -/
def State.clearUnacked (s : State) (l : LinkId) : State :=
  ((s.port l).tx.unacked.foldl (fun t h => t.teardownDrop l h) s).modTx l fun t => { t with unacked := [] }

/-- Steps 4 and 5: a transmit queue, head first, with the completion of a flush of it (R34, R37, R61). -/
def State.clearTxQueue (s : State) (l : LinkId) (c : Cls) : State :=
  (s.queue (.tx l c)).entries.foldl (fun t h => (t.dropHead (.tx l c) h).countPart .teardownDrop) s

/-- The Credit Unit of a class after teardown: counts and live allowance 0, in-use kept (R62, R126). -/
def CreditClass.teardown (k : CreditClass) : CreditClass :=
  { CreditClass.reset with inUse := k.inUse }

/-- The session of a link cleared: sequence state, episodes, pending blocks, credits, alignment and timers (R62, R89, R109). -/
def State.clearSession (s : State) (l : LinkId) : State :=
  s.modPort l fun p =>
    { p with
      align := .none
      validRun := 0
      invalidRun := 0
      hailTimer := none
      greetTimer := none
      silenceTimer := none
      realignTimer := none
      holdTimer := none
      refreshTimer := none
      rx := .reset
      tx := { Transmitter.reset with liveWindow := p.tx.liveWindow, lastEnd := p.tx.lastEnd }
      ctl := p.ctl.teardown
      dat := p.dat.teardown }

/-- Teardown on the way to FAULT or DISABLED (R61, R62, R109). -/
def State.teardown (s : State) (l : LinkId) (target : LinkState) : State :=
  let t := s.modPort l fun p => { p with state := target }
  let u := ((((t.clearFilling l).clearSending l).clearUnacked l).clearTxQueue l .control).clearTxQueue l .data
  let v := u.clearSession l
  if s.isActive l then (v.countLink l .linkDowns).raise (.linkDown l) else v

/-- Entry to FAULT: reason, teardown, hold-down timer (R59). -/
def State.enterFault (s : State) (l : LinkId) (reason : FaultReason) : State :=
  let t := State.teardown (s.modPort l fun p => { p with lastFault := reason }) l .fault
  t.modPort l fun p => { p with holdTimer := some p.cfg.holdDownUs }

end Sys2Proof.Machine
end

