-- ==== Sys2Proof/Machine/Arbiter.lean ====
section
/-! DEFINITION. The transmit arbiter, the beginnings of blocks, and what follows every step that may give a line something to send
(sections 5.2, 5.3, 5.6, 5.7). -/

namespace Sys2Proof.Machine

/-! ## Candidates (Table 5-2) -/

/-- Whether a seq lies at or after a replay point (R102). -/
def atOrAfter (s p : Byte) : Bool :=
  decide ((s - p).toNat < 128)

/-- Whether a frame of the unacknowledged list lies at or after a replay point. -/
def State.handleAtOrAfter (s : State) (l : LinkId) (p : Byte) (h : Nat) : Bool :=
  match s.seqOn l h with
  | some q => atOrAfter q p
  | none => false

/-- The next replay frame: the oldest list entry at or after the replay point (R102, R104). -/
def State.nextReplay (s : State) (l : LinkId) : Option Nat :=
  match (s.port l).tx.replay with
  | some p => (s.port l).tx.unacked.find? (s.handleAtOrAfter l p)
  | none => none

/-- The head of a transmit queue, where R92 allows its first transmission: no replay, room in the window, credit for its cells (R122). -/
def State.eligibleHead (s : State) (l : LinkId) (c : Cls) : Option Nat :=
  match (s.queue (.tx l c)).entries with
  | [] => none
  | h :: _ =>
    match s.record h with
    | some r =>
      if (s.port l).windowOpen ∧ r.cells.length ≤ ((s.port l).credit c).available then some h else none
    | none => none

/-- What the arbiter may begin to send, in the order of Table 5-2. -/
inductive Candidate where
  | nak
  | ack
  | grant (c : Cls)
  | replay (h : Nat)
  | head (c : Cls) (h : Nat)
  | keep
deriving DecidableEq, Repr

/-- Whether the arbiter of a link makes a choice: in ACTIVE with no block on the line (R91). -/
def State.lineFree (s : State) (l : LinkId) : Bool :=
  s.isActive l && (s.port l).tx.line == .none

/-- The first eligible candidate in the order of Table 5-2; KEEP is eligible once the idle timer has expired (R91, R107). -/
def State.candidate (s : State) (l : LinkId) (keep : Bool) : Option Candidate :=
  let p := s.port l
  if p.rx.nakDue then some .nak
  else if p.rx.ackDue then some .ack
  else if p.ctl.due then some (.grant .control)
  else if p.dat.due then some (.grant .data)
  else match s.nextReplay l with
    | some h => some (.replay h)
    | none =>
      match s.eligibleHead l .control with
      | some h => some (.head .control h)
      | none =>
        match s.eligibleHead l .data with
        | some h => some (.head .data h)
        | none => if keep then some .keep else none

/-! ## Beginnings of blocks -/

/-- A block begins to go out, and the idle timer stops (R107). -/
def State.beginBlock (s : State) (l : LinkId) (b : LineBlock) : State :=
  s.modTx l fun t => { t with line := b, idleTimer := none }

/-- The NAK of the episode begins, carrying expected-seq (R79). -/
def State.beginNak (s : State) (l : LinkId) : State :=
  let t := s.modRx l fun r =>
    { r with nakDue := false, nak := .sent, ackPending := 0, ackTimer := none, ackDue := false }
  (t.countLink l .naksSent).beginBlock l (.control (.nak (s.port l).rx.expected))

/-- An ACK begins, carrying expected-seq − 1 (R81). -/
def State.beginAck (s : State) (l : LinkId) : State :=
  let t := s.modRx l fun r => { r with ackDue := false, ackPending := 0, ackTimer := none }
  t.beginBlock l (.control (.ack ((s.port l).rx.expected - 1)))

/-- A GRANT begins, with its grant decision; the change may make other GRANTs due (R118, R119). -/
def State.beginGrant (s : State) (l : LinkId) (c : Cls) : State :=
  let t := s.decideGrant l c
  (t.noteGrants s).beginBlock l (.control (.grant c ((t.port l).credit c).granted))

/-- The header of a frame block, from the record's fields and its seq on the link's side (R95, R104, R177). -/
def frameHeader (r : Record) (seq : Byte) : BitVec 128 :=
  HeaderFields.encode
    { cls := r.cls
      seq := seq
      destination := r.destination.getD 0
      source := r.source.getD 0
      hops := r.hops
      length := BitVec.ofNat 16 r.length }

/-- A frame block that begins to go out. -/
def txFrame (h : Nat) (r : Record) (seq : Byte) (resend : Bool) : TxFrame where
  handle := h
  seq := seq
  resend := resend
  header := frameHeader r seq
  length := r.length
  nextWord := 0
  sent := []
  aborting := false
  overtaken := false

/-- A first transmission begins: the handle leaves its queue, its holder becomes SENDING with next-seq (R95). -/
def State.beginFirst (s : State) (l : LinkId) (c : Cls) (h : Nat) : State :=
  match s.record h with
  | none => s
  | some r =>
    let seq := (s.port l).tx.nextSeq
    let t := ((s.popHead (.tx l c)).setLinkHolder l h (.sending seq)).entryLeft (.tx l c) h
    t.beginBlock l (.frame (txFrame h r seq false))

/-- A resend begins: the frame keeps its holder, its place on the list and its seq (R104). -/
def State.beginResend (s : State) (l : LinkId) (h : Nat) : State :=
  match s.record h with
  | none => s
  | some r => s.beginBlock l (.frame (txFrame h r ((r.holder l).seq.getD 0) true))

/-- A poisoned head dropped without being sent; the free may make GRANTs due (R94, R118). -/
def State.poisonDrop (s : State) (l : LinkId) (c : Cls) (h : Nat) : State :=
  ((s.dropHead (.tx l c) h).countLink l .poisonDrops).noteGrants s

/-- The line stays idle, and the idle timer starts if it is not running (R107). -/
def State.stayIdle (s : State) (l : LinkId) : State :=
  s.modPort l fun p =>
    { p with tx := { p.tx with idleTimer := some (p.tx.idleTimer.getD p.cfg.keepIntervalUs) } }

/-! ## The choice -/

/-- A choice of the arbiter of a link whose line is free, made again after each poison drop: `fuel` bounds the heads dropped (R91, R94).
A poisoned replay frame ends the session (R104). -/
def State.arbitrate : Nat → LinkId → Bool → State → State
  | 0, _, _, s => s
  | fuel + 1, l, keep, s =>
    if s.lineFree l then
      match s.candidate l keep with
      | some .nak => s.beginNak l
      | some .ack => s.beginAck l
      | some (.grant c) => s.beginGrant l c
      | some (.replay h) =>
        if s.isPoisoned h then (s.enterFault l .replayDataLost).noteGrants s else s.beginResend l h
      | some (.head c h) =>
        if s.isPoisoned h then State.arbitrate fuel l keep (s.poisonDrop l c h) else s.beginFirst l c h
      | some .keep => s.beginBlock l (.control .keep)
      | none => s.stayIdle l
    else s

/-- The heads that a link's arbiter could drop, and the choice after the last of them. -/
def State.arbiterFuel (s : State) (l : LinkId) : Nat :=
  (s.queue (.tx l .control)).entries.length + (s.queue (.tx l .data)).entries.length + 1

/-- The choice of one link's arbiter, where its line is free. -/
def State.choose (s : State) (l : LinkId) (keep : Bool := false) : State :=
  State.arbitrate (s.arbiterFuel l) l keep s

/-- Whether a link's next choice touches what the two links share, the free list: a grant decision, a poison drop or a teardown. -/
def State.sharedChoice (s : State) (l : LinkId) : Bool :=
  s.lineFree l &&
    match s.candidate l false with
    | some (.grant _) => true
    | some (.replay h) => s.isPoisoned h
    | some (.head _ h) => s.isPoisoned h
    | some .nak => false
    | some .ack => false
    | some .keep => false
    | none => false

/-- The choices of both arbiters, a link first. A choice of one may give the other something to send, so each is asked twice. -/
def State.chooseBoth (s : State) (first : LinkId) : State :=
  (((s.choose first).choose first.other).choose first).choose first.other

/-- The choices of both arbiters after a step. Where both touch the free list, either may be taken first:
a free value decides (R6, R119, log entry 4). -/
def State.arbiters (s : State) : State :=
  if s.sharedChoice .a ∧ s.sharedChoice .b then
    State.chooseBoth { s with choices := s.choices + 1 } (if Config.linkAFirst s.choices then .a else .b)
  else s.chooseBoth .a

/-- What follows the own effect of a step, from the state `before` it: the GRANTs its change of the counts makes due,
the choices of the arbiters whose lines are free, and the credit-stall timers (R91, R118, R123). -/
def State.settle (s before : State) : State :=
  ((s.noteGrants before).arbiters).refreshStalls

end Sys2Proof.Machine
end

