-- ==== Sys2Proof/Machine/Receive.lean ====
section
/-! DEFINITION. The receiver: valid, damaged and missing blocks, the checks at a header, payload, trailer and delivery
(chapter 4, sections 3.2 to 3.6). -/

namespace Sys2Proof.Machine

/-! ## NAK episodes and failed frames -/

/-- A NAK episode started, unless one is in progress; its NAK is due at once except while REALIGNING (R78). -/
def State.startNak (s : State) (l : LinkId) : State :=
  s.modPort l fun p =>
    if p.rx.nak = .none then
      { p with rx := { p.rx with nak := .pending, nakDue := p.align != .realigning } }
    else p

/-- The class of the frame a receiver is writing, from its header. -/
def RxFrame.cls (f : RxFrame) : Cls :=
  (headerFields f.header).cls

/-- The length of the frame a receiver is writing, from its header. -/
def RxFrame.length (f : RxFrame) : Nat :=
  headerLength f.header

/-- The record freed from FILLING and its consumption reversed, in one step; the receiver has no frame in progress (R76, R77, R115). -/
def State.giveBack (s : State) (l : LinkId) (f : RxFrame) : State :=
  ((s.freeRecord f.handle).unconsume l f.cls (cellsFor f.length)).modRx l fun r => { r with frame := none }

/-- A frame fails: given back, CHECK_ERRORS counted, a NAK episode started (R76). -/
def State.failFrame (s : State) (l : LinkId) (f : RxFrame) : State :=
  ((s.giveBack l f).countLink l .checkErrors).startNak l

/-- A block marker: it ends a frame in progress as truncated, and the passing over of a block, and opens the next block
(R69, R74, log entry 9). -/
def State.marker (s : State) (l : LinkId) : State :=
  State.modRx
    (match (s.port l).rx.frame with
      | some f => s.failFrame l f
      | none => s) l fun r => { r with passing := .no }

/-- The receiver set to pass over the rest of a frame block, to its trailer terminator or a marker (R69). -/
def State.passOver (s : State) (l : LinkId) : State :=
  s.modRx l fun r => { r with passing := .toTrailer }

/-! ## Checks at the header -/

/-- The record of an arrival (R12). -/
def arrivalRecord (l : LinkId) (f : HeaderFields) : Record where
  phase := .filling (.link l)
  origin := .link l
  cls := f.cls
  length := f.length.toNat
  cells := []
  destination := some f.destination
  source := some f.source
  hops := f.hops
  host := .none
  linkA := .none
  linkB := .none
  poisoned := false

/-- A header taken in: its cells allocated, consumed and in-use raised, the frame in progress, in one step (R72). -/
def State.takeIn (s : State) (l : LinkId) (header : BitVec 128) : State :=
  let f := headerFields header
  let k := cellsFor f.length.toNat
  ((s.allocate k (arrivalRecord l f)).consume l f.cls k).modRx l fun r =>
    { r with
      frame := some
        { handle := s.nextHandle
          header := header
          count := 0
          crc := crc32Run crc32Start (bytesOf header 16)
          gather := [] } }

/-- A behind frame: discarded, an ACK due at once (R68). -/
def State.behind (s : State) (l : LinkId) : State :=
  ((s.modRx l fun r => { r with ackDue := true }).countLink l .seqDiscards).passOver l

/-- An ahead frame: discarded, a NAK episode started (R68). -/
def State.ahead (s : State) (l : LinkId) : State :=
  ((s.countLink l .seqDiscards).startNak l).passOver l

/-- A header judged in ALIGNED: by seq, then length and source, then credit (R68, R70, R71, R72).
An allocation that finds too few cells, which R5 excludes, stops the model (log entry 12). -/
def State.judgeHeader (s : State) (l : LinkId) (header : BitVec 128) : Except Fault State :=
  let f := headerFields header
  let d := ((s.port l).rx.expected - f.seq).toNat
  if d = 0 then
    if f.length.toNat = 0 ∨ Config.maxLength < f.length.toNat ∨ f.source = 0 ∨ f.source = 255 then
      .ok (s.enterFault l .malformed)
    else if ((s.port l).credit f.cls).outstanding < cellsFor f.length.toNat then
      .ok (s.enterFault l .creditViolation)
    else if s.freeCount < cellsFor f.length.toNat then
      .error .allocationShort
    else .ok (s.takeIn l header)
  else if d ≤ 128 then .ok (s.behind l)
  else .ok (s.ahead l)

/-! ## Alignment runs -/

/-- A valid block counted in the runs (R44). -/
def State.countValid (s : State) (l : LinkId) : State :=
  s.modPort l fun p => { p with validRun := p.validRun + 1, invalidRun := 0 }

/-- A valid block in HUNT: only counted; the fourth in a row takes the link into GREET (R47). -/
def State.huntBlock (s : State) (l : LinkId) : State :=
  let t := s.countValid l
  if 4 ≤ (t.port l).validRun then t.enterGreet l else t

/-- The return to ALIGNED: the realign timer stops and a NAK not yet sent is due at once (R57). -/
def State.realigned (s : State) (l : LinkId) : State :=
  s.modPort l fun p =>
    { p with
      align := .aligned
      realignTimer := none
      rx := { p.rx with nakDue := p.rx.nakDue || p.rx.nak == .pending } }

/-- A valid block in ACTIVE, before it is handled: counted, the silence timer restarted, and the link back in ALIGNED at the fourth
in a row while REALIGNING (R44, R57, R58). -/
def State.activeBlock (s : State) (l : LinkId) : State :=
  let t := (s.countValid l).modPort l fun p => { p with silenceTimer := some p.cfg.silenceTimeoutUs }
  if (t.port l).align = .realigning ∧ 4 ≤ (t.port l).validRun then t.realigned l else t

/-- Entry to REALIGNING: a NAK episode started, its NAK not due, the realign timer started (R56). -/
def State.enterRealigning (s : State) (l : LinkId) : State :=
  (s.modPort l fun p => { p with align := .realigning, realignTimer := some p.cfg.realignTimeoutUs }).startNak l

/-- Whether the receiver is inside a block: a frame in progress, or one being passed over. It then reads on to the trailer or to a
marker, and the line is at no place where a block should begin (R66, R67, R69). -/
def Receiver.inBlock (r : Receiver) : Bool :=
  r.frame.isSome || r.passing != .no

/-- A place where a block should begin and no marker is found (R44, R56).
Inside a block there is no such place, and what is read there counts nothing (R44, R66, R69, log entry 27). -/
def State.noMarker (s : State) (l : LinkId) : State :=
  if (s.port l).rx.inBlock then s
  else
    let t := s.modPort l fun p => { p with validRun := 0, invalidRun := p.invalidRun + 1 }
    (if t.isActive l ∧ (t.port l).align = .aligned ∧ 3 ≤ (t.port l).invalidRun then t.enterRealigning l else t).settle s

/-- A checked-out block: both runs 0; in ALIGNED it is counted, and a frame block starts a NAK episode.
What follows a damaged frame header is discarded up to the next marker (R44, R67). -/
def State.checkedOut (s : State) (l : LinkId) (kind : BlockKind) : State :=
  if (s.port l).state.live then
    let t := (s.marker l).modPort l fun p => { p with validRun := 0, invalidRun := 0 }
    let u := if t.isActive l ∧ (t.port l).align = .aligned then
        match kind with
        | .control => t.countLink l .checkErrors
        | .frame => (t.countLink l .checkErrors).startNak l
      else t
    match kind with
    | .control => u
    | .frame => u.modRx l fun r => { r with passing := .toMarker }
  else s

/-! ## Valid control blocks -/

/-- A valid control block other than HAIL: counted in HUNT; in GREET discarded before the partner's HAIL and completing the greeting
after it; in ACTIVE handled by `act` (R44, R47, R52, R56). -/
def State.validControl (s : State) (l : LinkId) (act : State → State) : State :=
  match (s.port l).state with
  | .disabled => s
  | .fault => s
  | .hunt => (s.marker l).huntBlock l
  | .greet =>
    let t := (s.marker l).countValid l
    if (t.port l).hailReceived then act (t.enterActive l) else t
  | .active => act ((s.marker l).activeBlock l)

/-- A HAIL that passes the checks of R50: the partner recorded at the first of the greeting, and R51 tested. -/
def State.greetHail (s : State) (l : LinkId) (sender : Byte) (seen : Bool) : State :=
  let t := if (s.port l).hailReceived then s
    else (s.modPort l fun p => { p with partner := sender, hailReceived := true }).hailNow l
  if seen ∧ (t.port l).yesSent then t.enterActive l else t

/-- A valid HAIL: counted in HUNT; checked in GREET in the order of R50; handled by its seen flag alone in ACTIVE (R50, R51, R55). -/
def State.takeHail (s : State) (l : LinkId) (sender revision : Byte) (seen : Bool) : State :=
  match (s.port l).state with
  | .disabled => s
  | .fault => s
  | .hunt => (s.marker l).huntBlock l
  | .greet =>
    let t := (s.marker l).countValid l
    if revision ≠ 1 then t.enterFault l .revisionMismatch
    else if sender = 0 ∨ sender = 255 then t.enterFault l .malformed
    else if sender = t.nodeAddr then t.enterFault l .addressClash
    else if (t.port l).hailReceived ∧ sender ≠ (t.port l).partner then t.enterFault l .partnerRestart
    else t.greetHail l sender seen
  | .active =>
    let t := (s.marker l).activeBlock l
    if seen then t else t.enterFault l .partnerRestart

/-! ## Valid frame headers -/

/-- A valid frame header: counted and passed over in HUNT, in GREET before the partner's HAIL and in REALIGNING;
judged in ALIGNED and where it completes a greeting or a return to ALIGNED (R44, R52, R56, R57, R65). -/
def State.validFrame (s : State) (l : LinkId) (header : BitVec 128) : Except Fault State :=
  match (s.port l).state with
  | .disabled => .ok s
  | .fault => .ok s
  | .hunt => .ok (((s.marker l).huntBlock l).passOver l)
  | .greet =>
    let t := (s.marker l).countValid l
    if (t.port l).hailReceived then (t.enterActive l).judgeHeader l header else .ok (t.passOver l)
  | .active =>
    let t := (s.marker l).activeBlock l
    if (t.port l).align = .realigning then .ok (t.passOver l) else t.judgeHeader l header

/-! ## Payload -/

/-- A word made of gathered bytes, the places beyond them 0 (R73). -/
def wordOfBytes (bytes : List Byte) : CellWord :=
  bytes.foldr (fun b acc => (acc <<< 8) ||| b.setWidth 64) 0

/-- One payload byte of the frame in progress: gathered, and the word written when it is full or holds the last byte (R73). -/
def State.payloadByte (s : State) (l : LinkId) (f : RxFrame) (b : Byte) : State :=
  let gathered := f.gather ++ [b]
  let whole := gathered.length = 8 ∨ f.count + 1 = f.length
  let g := { f with count := f.count + 1, crc := crc32Byte f.crc b, gather := if whole then [] else gathered }
  let t := s.modRx l fun r => { r with frame := some g }
  match s.record f.handle with
  | some r => if whole then t.writeWord (wordPosition r.cells f.count) (wordOfBytes gathered) else t
  | none => t

/-- The next payload byte on the line: written, or the overrun that makes the frame fail and the rest passed over (R73). -/
def State.takeByte (s : State) (l : LinkId) (b : Byte) : State :=
  match (s.port l).rx.frame with
  | some f =>
    if f.count < f.length then s.payloadByte l f b else (s.failFrame l f).passOver l
  | none => s

/-! ## Trailer and delivery -/

/-- The action for a destination: the lowest matching table entry, else the default (R85). -/
def State.deliveryAction (s : State) (destination : Byte) : Action :=
  match (if destination = 0 then none else s.table.find? fun e => e.valid && e.address == destination) with
  | some e => e.action
  | none =>
    if destination = s.nodeAddr ∨ destination = 0 then .host
    else if destination = 255 then .hostAndForward
    else .forward

/-- The parts of a delivery that an action gives, requested of the queues (R85, R86, R87). -/
def State.deliverParts (s : State) (l : LinkId) (h : Nat) (r : Record) : State :=
  match s.deliveryAction (r.destination.getD 0) with
  | .host => s.admitHost r.cls h
  | .forward => s.admitForward l.other r.cls h r.hops
  | .hostAndForward => (s.admitHost r.cls h).admitForward l.other r.cls h r.hops
  | .discard => s.countPart .tableDiscard

/-- The delivery decision of an accepted frame; a frame that ends with no holder is freed from FILLING (R13, R84, R88). -/
def State.deliver (s : State) (l : LinkId) (h : Nat) : State :=
  match s.record h with
  | none => s
  | some r =>
    let t := if r.source = some s.nodeAddr then s.countPart .loopDiscard else s.deliverParts l h r
    if t.isHeld h then t else t.freeRecord h

/-- The ACK rules at an acceptance: ack-pending up, the ACK delay timer started at the first, an ACK due at ACK_STEP (R75, R80). -/
def Receiver.accept (r : Receiver) (cfg : LinkCfg) : Receiver :=
  let n := min 255 (r.ackPending + 1)
  { r with
    expected := r.expected + 1
    frame := none
    ackPending := n
    ackTimer := if r.ackPending = 0 then some cfg.ackDelayUs else r.ackTimer
    ackDue := r.ackDue || decide (cfg.ackStep ≤ n)
    nak := .none
    nakDue := false }

/-- A frame accepted and delivered (R75, R79). -/
def State.acceptFrame (s : State) (l : LinkId) (f : RxFrame) : State :=
  ((s.modPort l fun p => { p with rx := p.rx.accept p.cfg }).countLink l .framesIn).deliver l f.handle

/-- The passing over of a discarded block ends at its trailer terminator; a search for a marker goes on (R67, R69). -/
def State.passTrailer (s : State) (l : LinkId) : State :=
  s.modRx l fun r => { r with passing := if r.passing = .toTrailer then .no else r.passing }

/-- A trailer ending with END: the frame in progress is accepted, or it fails by its check or its byte count (R75, R76). -/
def State.trailerEnd (s : State) (l : LinkId) (check : BitVec 32) : State :=
  match (s.port l).rx.frame with
  | some f =>
    if check = crc32Stored f.crc ∧ f.count = f.length then s.acceptFrame l f else s.failFrame l f
  | none => s.passTrailer l

/-- A trailer ending with ABORT: the frame in progress is given back (R77). -/
def State.trailerAbort (s : State) (l : LinkId) : State :=
  match (s.port l).rx.frame with
  | some f => (s.giveBack l f).countLink l .abortsReceived
  | none => s.passTrailer l

end Sys2Proof.Machine
end

