-- ==== Sys2Proof/Machine/Transmit.lean ====
section
/-! DEFINITION. The transmitter: payload words read, the ends of blocks, confirmations, replay episodes (sections 5.3 to 5.6). -/

namespace Sys2Proof.Machine

/-! ## The unacknowledged list -/

/-- The place, from the oldest, of the list entry with a seq (R98). -/
def State.entryIndex (s : State) (l : LinkId) (seq : Byte) : Option Nat :=
  (s.port l).tx.unacked.findIdx? fun h => s.seqOn l h == some seq

/-- The oldest `k` entries leave the list, oldest first, each losing its holder UNACKED on the link's side (R98). -/
def State.dropOldestEntries (s : State) (l : LinkId) (k : Nat) : State :=
  (((s.port l).tx.unacked.take k).foldl (fun t h => t.removeLinkHolder l h) s).modTx l fun t =>
    { t with unacked := t.unacked.drop k }

/-- The frame being resent, if the block on the line is one. -/
def Transmitter.resending (t : Transmitter) : Option TxFrame :=
  match t.line with
  | .frame f => if f.resend then some f else none
  | .control _ => none
  | .none => none

/-- The newer of a held point and a new one, in list order counted from the frame being resent (R99). -/
def newerPoint (first : Byte) (old : Option Byte) (point : Byte) : Byte :=
  match old with
  | some q => if (q - first).toNat < (point - first).toNat then point else q
  | none => point

/-- The replay timer after a confirmation: restarted where the list still holds an entry, else stopped (R98). -/
def State.restartReplay (s : State) (l : LinkId) : State :=
  s.modPort l fun p =>
    { p with tx := { p.tx with replayTimer := if p.tx.unacked = [] then none else some p.cfg.replayTimeoutUs } }

/-- The test of the end of an episode: it ends when no entry lies at or after its point (R106). -/
def State.testEpisode (s : State) (l : LinkId) : State :=
  if (s.nextReplay l).isNone then s.modTx l fun t => { t with replay := none } else s

/-- A confirmation of the oldest `k` entries up to `point`; where it reaches the frame being resent, the entries from that frame
onward are held (R98, R99). -/
def State.confirm (s : State) (l : LinkId) (k : Nat) (point : Byte) : State :=
  let t := match (s.port l).tx.resending with
    | none => s.dropOldestEntries l k
    | some f =>
      match (s.port l).tx.unacked.findIdx? (fun h => h == f.handle) with
      | none => s.dropOldestEntries l k
      | some j =>
        if j < k then
          (s.dropOldestEntries l j).modTx l fun t => { t with held := some (newerPoint f.seq t.held point) }
        else s.dropOldestEntries l k
  State.restartReplay (t.modTx l fun t => { t with replayCount := 0 }) l

/-! ## Episodes -/

/-- The block on the line once an episode has started: a resend is marked, so that its end does not move the new point (R103). -/
def LineBlock.overtake : LineBlock → LineBlock
  | .frame f => .frame { f with overtaken := f.resend }
  | .control b => .control b
  | .none => .none

/-- A replay episode started at a point, or the fault of too many of them (R103). -/
def State.startEpisode (s : State) (l : LinkId) (point : Byte) : State :=
  let t := (s.countLink l .replays).modTx l fun t => { t with replayCount := t.replayCount + 1 }
  if (t.port l).cfg.replayLimit < (t.port l).tx.replayCount then t.enterFault l .replayLimit
  else t.modPort l fun p =>
    { p with tx := { p.tx with
        replay := some point
        replayTimer := some p.cfg.replayTimeoutUs
        line := p.tx.line.overtake } }

/-- A received ACK (R98). -/
def State.takeAck (s : State) (l : LinkId) (n : Byte) : State :=
  match s.entryIndex l n with
  | some i => (s.confirm l (i + 1) n).testEpisode l
  | none => s.countLink l .staleAcks

/-- A received NAK (R100). -/
def State.takeNak (s : State) (l : LinkId) (n : Byte) : State :=
  match s.entryIndex l n with
  | some i => (if i = 0 then s else s.confirm l i (n - 1)).startEpisode l n
  | none => if n = (s.port l).tx.nextSeq then s.takeAck l (n - 1) else s.countLink l .staleAcks

/-- The expiry of a running replay timer: an episode from the oldest entry of the list (R101). -/
def State.replayExpired (s : State) (l : LinkId) : State :=
  match (s.port l).tx.unacked with
  | [] => s
  | h :: _ =>
    match s.seqOn l h with
    | some q => s.startEpisode l q
    | none => s

/-! ## Payload words -/

/-- The payload bytes of a word that go out: those below the length (R95). -/
def payloadOf (w : CellWord) (length word : Nat) : List Byte :=
  (bytesOf w 8).take (length - 8 * word)

/-- The frame on the line after the read of its next word: the bytes delivered go out, or, at an uncorrectable word, the ABORT
takes their place (R95, R96, R105). -/
def TxFrame.afterRead (f : TxFrame) (v : Verdict) (w : CellWord) : TxFrame :=
  match v with
  | .uncorrectable => { f with aborting := true }
  | .corrected _ => { f with nextWord := f.nextWord + 1, sent := f.sent ++ payloadOf w f.length f.nextWord }
  | .good => { f with nextWord := f.nextWord + 1, sent := f.sent ++ payloadOf w f.length f.nextWord }

/-- The word position of the next payload word of the frame on the line. -/
def State.txPosition (s : State) (f : TxFrame) : Nat :=
  match s.record f.handle with
  | some r => wordPosition r.cells (8 * f.nextWord)
  | none => 0

/-- Whether a payload word of the frame on the line is still to be read. -/
def TxFrame.wordsLeft (f : TxFrame) : Bool :=
  !f.aborting && decide (f.nextWord < wordsFor f.length)

/-- The transmitter reads the next payload word of the frame on the line (R2, R95). -/
def State.readTxWord (s : State) (l : LinkId) : State :=
  match (s.port l).tx.line with
  | .frame f =>
    if f.wordsLeft then
      let pos := s.txPosition f
      (s.noteRead (.tx l) pos).modTx l fun t => { t with line := .frame (f.afterRead (s.judge pos) (s.delivered pos)) }
    else s
  | .control _ => s
  | .none => s

/-! ## Ends of blocks -/

/-- The block on the line has ended. -/
def State.endBlock (s : State) (l : LinkId) : State :=
  s.modTx l fun t => { t with line := .none }

/-- A frame block on the line has ended, in a way that its trailer shows (R177). -/
def State.endFrame (s : State) (l : LinkId) (e : FrameEnd) : State :=
  s.modTx l fun t => { t with line := .none, lastEnd := some e }

/-- Whether a frame block may end with END: every payload word has been read, none of them uncorrectable (R95). -/
def TxFrame.complete (f : TxFrame) : Bool :=
  !f.aborting && decide (f.nextWord = wordsFor f.length)

/-- The END of a frame block, with the bytes of its check (R176, R177). -/
def TxFrame.ending (f : TxFrame) : FrameEnd :=
  .ended (checkBytes (trailerCheck f.header f.sent))

/-- A first transmission ends with END (R97). -/
def State.firstEnd (s : State) (l : LinkId) (f : TxFrame) : State :=
  match s.record f.handle with
  | none => s
  | some r =>
    let t := (s.endFrame l f.ending).setLinkHolder l f.handle (.unacked f.seq)
    let u := t.modPort l fun p =>
      { p with tx := { p.tx with
          nextSeq := p.tx.nextSeq + 1
          unacked := p.tx.unacked ++ [f.handle]
          replayTimer := some (p.tx.replayTimer.getD p.cfg.replayTimeoutUs) } }
    (u.modCredit l r.cls fun k => { k with sent := k.sent + BitVec.ofNat 16 r.cells.length }).countLink l .framesOut

/-- A first transmission ends with ABORT (R96). -/
def State.firstAbort (s : State) (l : LinkId) (f : TxFrame) : State :=
  ((s.endFrame l .aborted).removeLinkHolder l f.handle).countLink l .poisonDrops

/-- The held acknowledgement applied: every entry up to the held point leaves the list, and the timer stops at an empty one (R99). -/
def State.applyHeld (s : State) (l : LinkId) : State :=
  match (s.port l).tx.held with
  | none => s
  | some q =>
    (s.dropOldestEntries l (match s.entryIndex l q with | some i => i + 1 | none => 0)).modTx l fun t =>
      { t with held := none, replayTimer := if t.unacked = [] then none else t.replayTimer }

/-- A resend ends with END (R99, R106). -/
def State.resendEnded (s : State) (l : LinkId) (f : TxFrame) : State :=
  let t := (s.endFrame l f.ending).modTx l fun t =>
    { t with replay := if f.overtaken then t.replay else t.replay.map fun _ => f.seq + 1 }
  (t.applyHeld l).testEpisode l

/-- A resend ends with ABORT (R105). -/
def State.resendAborted (s : State) (l : LinkId) : State :=
  (s.endFrame l .aborted).enterFault l .replayDataLost

/-- A HAIL that has gone out: its seen flag is remembered if it was yes (R49). -/
def State.noteHailSent (s : State) (l : LinkId) (seen : Bool) : State :=
  s.modPort l fun p => { p with yesSent := p.yesSent || seen }

/-- The line of a link in GREET once a block has ended: a HAIL that waited begins (R49). -/
def State.nextHail (s : State) (l : LinkId) : State :=
  if (s.port l).tx.hailDue then s.beginHail l else s

/-- A HAIL finishes going out, in GREET or as the last HAIL of a greeting in ACTIVE (R49, R53). -/
def State.hailSent (s : State) (l : LinkId) : State :=
  match (s.port l).tx.line with
  | .control (.hail _ _ seen) =>
    let t := (s.noteHailSent l seen).endBlock l
    if (t.port l).state = .greet then t.nextHail l else t
  | _ => s

/-- A control block ends on the line in ACTIVE (R91). -/
def State.controlSent (s : State) (l : LinkId) : State :=
  if s.isActive l then
    match (s.port l).tx.line with
    | .control (.hail _ _ seen) => (s.noteHailSent l seen).endBlock l
    | .control (.ack _) => s.endBlock l
    | .control (.nak _) => s.endBlock l
    | .control (.grant _ _) => s.endBlock l
    | .control .keep => s.endBlock l
    | .frame _ => s
    | .none => s
  else s

/-- The KEEP on the line in HUNT or GREET ends: the next KEEP begins, or the HAIL that is due (R45, R48). -/
def State.keepSent (s : State) (l : LinkId) : State :=
  if (s.port l).tx.line = .control .keep then
    match (s.port l).state with
    | .hunt => s.modTx l fun t => { t with line := .control .keep }
    | .greet => (s.endBlock l).nextHail l
    | .disabled => s
    | .fault => s
    | .active => s
  else s

end Sys2Proof.Machine
end

