-- ==== Sys2Proof/Machine/Scrub.lean ====
section
/-! DEFINITION. The scrubber (section 8.3) and the removals of a flush in progress (section 2.7). -/

namespace Sys2Proof.Machine

/-! ## Passes -/

/-- A pass starts at word position 0, its first step timed with a length (R154). -/
def State.startPass (s : State) (length : Nat) : State :=
  { s with scrub := { s.scrub with running := true, position := 0, timer := some length } }

/-- The scrubber idle: no pass, position 0, step timer stopped (Table 8-2). -/
def Scrubber.idle (k : Scrubber) : Scrubber :=
  { k with running := false, position := 0, timer := none }

/-- The end of a pass; in CONTINUOUS a new one begins at once (R157). -/
def State.endPass (s : State) : State :=
  let t := State.raise (State.countPart { s with scrub := s.scrub.idle } .scrubPasses) .scrubPassDone
  if s.scrub.mode = .continuous then t.startPass s.scrub.interval else t

/-- The read of a word by the scrubber, and what it writes back; `free` says that the cell has no owner (R156). -/
def State.scrubWord (s : State) (position : Nat) (free : Bool) : State :=
  let t := s.noteRead .scrub position
  match s.judge position with
  | .good => t
  | .corrected _ => t.writeWord position (s.delivered position)
  | .uncorrectable => if free then t.writeWord position 0 else t

/-- The word at the position taken: skipped in a FILLING record, read otherwise (R156). -/
def State.scrubTake (s : State) (position : Nat) : State :=
  match s.ownerOf (position / Config.cellWords) with
  | none => s.scrubWord position true
  | some (_, r) =>
    match r.phase with
    | .filling _ => s
    | .live => s.scrubWord position false

/-- The position one further on, and the step timer started again; position 8191 ends the pass (R154, R157). -/
def State.scrubAdvance (s : State) : State :=
  if Config.wordCount ≤ s.scrub.position + 1 then s.endPass
  else { s with scrub := { s.scrub with position := s.scrub.position + 1, timer := some s.scrub.interval } }

/-- The expiry of the scrubber's step timer while a pass is in progress (R154, R156). -/
def State.scrubExpired (s : State) : State :=
  if s.scrub.running then (s.scrubTake s.scrub.position).scrubAdvance else s

/-! ## SCRUB_CONTROL -/

/-- A write of a scrubber mode; `length` times the first step of the pass it starts. While READY is 0 it starts nothing (R155). -/
def State.writeScrubMode (s : State) (m : ScrubMode) (length : Nat) : State :=
  let t := { s with scrub := { s.scrub with mode := m } }
  if m = .off then { t with scrub := t.scrub.idle }
  else if s.ready && !s.scrub.running then t.startPass length
  else t

/-- The length of the first step of a pass that a write of SCRUB_CONTROL starts, where that same write changes the interval: the
manual states no order between the two fields (log entry 6). -/
def firstStepLength (old new : Nat) : Nat :=
  if Config.passStartsWithOldInterval then old else new

/-- A write of SCRUB_CONTROL, field by field: SCRUB_INTERVAL at 25:16 and the mode at 1:0 (R155, R158, R173). -/
def State.writeScrubControl (s : State) (v : Word) : State :=
  let old := s.scrub.interval
  let new := taken 1 1023 (field v 25 16) old
  let t := { s with scrub := { s.scrub with interval := new } }
  match scrubModeOfCode (field v 1 0) with
  | none => t
  | some m => t.writeScrubMode m (firstStepLength old new)

/-! ## Flush removals -/

/-- A flush in progress removes the head of its queue (R36), and completes if that was the marked entry (R37). -/
def State.flushStep (s : State) : State :=
  match s.flush.active with
  | none => s
  | some (q, _) =>
    match (s.queue q).entries with
    | [] => s
    | h :: _ => State.dropHead { s with flush := { s.flush with removed := s.flush.removed + 1 } } q h

end Sys2Proof.Machine
end

