-- ==== Sys2Proof/Machine/HostPort.lean ====
section
/-! DEFINITION. The data port (section 7.5, R175). -/

namespace Sys2Proof.Machine

/-- The 32-bit lanes of a read: the bytes from an offset, 0 in a lane at or beyond the length (R145, R175). -/
def portLanes (w : CellWord) (offset length : Nat) : Word :=
  (List.range 4).foldr (fun j acc =>
    acc ||| ((if offset + j < length then byteOf w (offset % 8 + j) else 0).setWidth 32 <<< (8 * j))) 0

/-- The word of a merge: the written bytes at positions below the length, the old bytes elsewhere (R146, R175). -/
def mergeWord (w : CellWord) (offset length : Nat) (v : Word) : CellWord :=
  wordOfBytes ((List.range 8).map fun i =>
    if offset % 8 ≤ i ∧ i < offset % 8 + 4 ∧ offset - offset % 8 + i < length then byteOf v (i - offset % 8)
    else byteOf w i)

/-- An access that is ignored: PORT_ERROR is set (R147). -/
def State.portIgnored (s : State) : State :=
  s.raise .portError

/-- What D[31:0] carries after a read of PORT_DATA. -/
def State.setBusData (s : State) (v : Word) : State :=
  { s with hcu := { s.hcu with busData := v } }

/-- The offset of the open port 4 further on (R144). -/
def State.stepPort (s : State) : State :=
  { s with hcu := { s.hcu with port := s.hcu.port.map fun p => { p with offset := p.offset + 4 } } }

/-- The port where it is open on a record with its offset below the length: the port and the record. -/
def State.portReady (s : State) : Option (DataPort × Record) :=
  match s.hcu.port with
  | none => none
  | some p =>
    match s.record p.handle with
    | none => none
    | some r => if p.offset < r.length then some (p, r) else none

/-- A read of PORT_DATA that moves bytes (R145). -/
def State.portMoveOut (s : State) (p : DataPort) (r : Record) : State :=
  let pos := wordPosition r.cells p.offset
  let t := s.noteRead .host pos
  let u := if s.judge pos = .uncorrectable then t.raise .portError else t
  u.stepPort.setBusData (portLanes (s.delivered pos) p.offset r.length)

/-- A read of PORT_DATA (R145, R147). -/
def State.portRead (s : State) : State :=
  match s.portReady with
  | some (p, r) => s.portMoveOut p r
  | none => s.portIgnored.setBusData 0

/-- A write of PORT_DATA that moves bytes, as a merge into the word that holds them (R146). -/
def State.portMoveIn (s : State) (p : DataPort) (r : Record) (v : Word) : State :=
  let pos := wordPosition r.cells p.offset
  ((s.noteRead .host pos).writeWord pos (mergeWord (s.delivered pos) p.offset r.length v)).stepPort

/-- A write of PORT_DATA (R146, R147). -/
def State.portWrite (s : State) (v : Word) : State :=
  match s.portReady with
  | some (p, r) => if p.mode = .write then s.portMoveIn p r v else s.portIgnored
  | none => s.portIgnored

end Sys2Proof.Machine
end

