-- ==== Sys2Proof/Machine/HostCommands.lean ====
section
/-! DEFINITION. The Host Command Unit: taking a command, and the body of each of the thirteen (chapter 7). -/

namespace Sys2Proof.Machine

/-! ## Taking a command -/

/-- A command taken, refused or carried out, is answered with a code and its results, as the command last written to CMD (R127). -/
def State.answer (s : State) (code : ResultCode) (res : Results := {}) : State :=
  s.complete (s.hcu.cmd.setWidth 8) code res

/-- A write of CMD with a code: overrun while BUSY (R128); otherwise the code is kept, NOT_READY answers while READY is 0, and
the body of the command judges it (R20, R127). -/
def State.takeCommand (s : State) (code : Word) (body : State → State) : State :=
  if s.hcu.busy then s.raise .cmdOverrun
  else
    let t := { s with hcu := { s.hcu with cmd := code } }
    if s.ready then body t else t.answer .notReady

/-- A code that names no command (R127). The completed command it shows is the code where that fits its 8 bits (log entries 5, 17). -/
def State.unknownCode (s : State) (code : Word) : State :=
  let shown := if code.toNat < 256 then code.setWidth 8 else Config.completedOfUnknown code
  if s.hcu.busy then s.raise .cmdOverrun
  else
    State.complete { s with hcu := { s.hcu with cmd := code } } shown (if s.ready then .badArg else .notReady) {}

/-! ## Records the host names -/

/-- The record of a handle given as an argument; none for a FREE slot and above 1023 (R138). -/
def State.namedRecord (s : State) (h : Nat) : Option Record :=
  if h < Config.cellCount then s.record h else none

/-- The record of a handle whose host holder is FILLING or CLAIMED (R133, R137). -/
def State.hostHeld (s : State) (h : Nat) : Option Record :=
  match s.namedRecord h with
  | some r => if r.host = .filling ∨ r.host = .claimed then some r else none
  | none => none

/-- The host-held count changed. -/
def State.setHeld (s : State) (n : Nat) : State :=
  { s with hcu := { s.hcu with held := n } }

/-- The data port closed if it is open on a handle (R144). -/
def State.closePort (s : State) (h : Nat) : State :=
  match s.hcu.port with
  | some p => if p.handle = h then { s with hcu := { s.hcu with port := none } } else s
  | none => s

/-! ## ALLOC -/

/-- The record of an ALLOC (R11). -/
def hostRecord (length : Nat) (c : Cls) : Record where
  phase := .filling .host
  origin := .host
  cls := c
  length := length
  cells := []
  destination := none
  source := none
  hops := 0
  host := .filling
  linkA := .none
  linkB := .none
  poisoned := false

/-- An ALLOC that passes its tests (R11, R132). -/
def State.allocTaken (s : State) (length : Nat) (c : Cls) : State :=
  let k := cellsFor length
  let h := s.nextHandle
  let cells := s.buf.free.take k
  (((s.allocate k (hostRecord length c)).zeroCells cells).setHeld (s.hcu.held + 1)).answer .ok { r0 := wordOfNat h }

/-- ALLOC (R131). -/
def State.allocBody (s : State) : State :=
  let length := s.hcu.arg0.toNat
  match classOfCode s.hcu.arg1.toNat with
  | none => s.answer .badArg
  | some c =>
    if length = 0 ∨ Config.maxLength < length then s.answer .badArg
    else if Config.maxHostHeld ≤ s.hcu.held then s.answer .handleLimit
    else if s.freeCount < cellsFor length + s.totalOutstanding then s.answer .noCells
    else (s.allocTaken length c).settle s

/-! ## OPEN -/

/-- OPEN (R133). -/
def State.openBody (s : State) : State :=
  let offset := s.hcu.arg1.toNat
  match portModeOfCode s.hcu.arg2.toNat with
  | none => s.answer .badArg
  | some m =>
    if offset % 4 ≠ 0 then s.answer .badArg
    else match s.hostHeld s.hcu.arg0.toNat with
      | none => s.answer .badHandle
      | some r =>
        if m = .write ∧ r.host = .claimed then s.answer .wrongState
        else if r.length ≤ offset then s.answer .badArg
        else
          State.answer
            { s with hcu := { s.hcu with
                port := some { handle := s.hcu.arg0.toNat, offset := offset, mode := m } } }
            .ok { r0 := wordOfNat r.length }

/-! ## POST -/

/-- The record change of a POST (R14). -/
def Record.posted (r : Record) (destination source : Byte) (hops : BitVec 4) (links : List LinkId) : Record :=
  links.foldl (fun r l => r.setHolder l .queued)
    { r with
      destination := some destination
      source := some source
      hops := hops
      host := .none
      phase := .live }

/-- A POST that passes its tests, up to what the arbiters do with it (R26, R135). -/
def State.postTaken (s : State) (h : Nat) (c : Cls) (destination : Byte) (hops : BitVec 4) (links : List LinkId) : State :=
  let t := s.modRecord h fun r => r.posted destination s.nodeAddr hops links
  let u := links.foldl (fun u l => u.append (.tx l c) h) t
  ((u.setHeld (s.hcu.held - 1)).closePort h).answer .ok { r0 := wordOfNat h }

/-- POST (R134). -/
def State.postBody (s : State) : State :=
  let h := s.hcu.arg0.toNat
  match selectionOfCode s.hcu.arg2.toNat with
  | none => s.answer .badArg
  | some links =>
    if 255 < s.hcu.arg1.toNat ∨ 15 < s.hcu.arg3.toNat then s.answer .badArg
    else match s.namedRecord h with
      | none => s.answer .badHandle
      | some r =>
        if r.host ≠ .filling then s.answer .badHandle
        else if links.any (fun l => !s.isActive l) then s.answer .linkDown
        else if links.any (fun l => (s.queue (.tx l r.cls)).full) then s.answer .queueFull
        else (s.postTaken h r.cls (s.hcu.arg1.setWidth 8) (s.hcu.arg3.setWidth 4) links).settle s

/-! ## CLAIM -/

/-- The results of a CLAIM (R136, R174). -/
def claimResults (h : Nat) (r : Record) (remaining : Nat) : Results where
  r0 := wordOfNat h
  r1 := wordOfNat r.length
  r2 := wordOfNat (Cls.code r.cls)
  r3 := wordOfOptByte r.destination
  r4 := wordOfOptByte r.source
  r5 := wordOfNat r.origin.code
  r6 := placeBit r.poisoned 0
  r7 := wordOfNat remaining

/-- A CLAIM that passes its tests (R32, R136). -/
def State.claimTaken (s : State) (c : Cls) (h : Nat) : State :=
  let t := ((s.popHead (.host c)).modRecord h fun r => { r with host := .claimed }).setHeld (s.hcu.held + 1)
  match s.record h with
  | some r => t.answer .ok (claimResults h r (s.queue (.host c)).entries.tail.length)
  | none => t.answer .ok

/-- CLAIM (R136). -/
def State.claimBody (s : State) : State :=
  match hostQueueOfCode s.hcu.arg0.toNat with
  | none => s.answer .badArg
  | some c =>
    match (s.queue (.host c)).entries with
    | [] => s.answer .empty
    | h :: _ => if Config.maxHostHeld ≤ s.hcu.held then s.answer .handleLimit else s.claimTaken c h

/-! ## RELEASE and QUERY -/

/-- A RELEASE that passes its test, up to what the arbiters do with it (R137). -/
def State.releaseTaken (s : State) (h : Nat) : State :=
  (((s.removeHostHolder h).setHeld (s.hcu.held - 1)).closePort h).answer .ok

/-- RELEASE (R137). -/
def State.releaseBody (s : State) : State :=
  match s.hostHeld s.hcu.arg0.toNat with
  | none => s.answer .badHandle
  | some _ => (s.releaseTaken s.hcu.arg0.toNat).settle s

/-- Three cells of a chain in one result register, from a place in the chain (R174). -/
def threeCells (cells : List Nat) (i : Nat) : Word :=
  place (cells.getD i 0) 9 0 ||| place (cells.getD (i + 1) 0) 19 10 ||| place (cells.getD (i + 2) 0) 29 20

/-- The seq of a side in RES2: its value at a bit and its presence at another (R174). -/
def seqField (q : Option Byte) (lo presence : Nat) : Word :=
  place (q.getD 0).toNat (lo + 7) lo ||| placeBit q.isSome presence

/-- The results of a QUERY (R138, R174). -/
def queryResults (r : Record) : Results where
  r0 := place r.length 10 0 ||| place r.cells.length 20 16 ||| place r.phase.code 24 24
    ||| place r.phase.fillerCode 27 26 ||| place r.origin.code 29 28 ||| place (Cls.code r.cls) 31 30
  r1 := seqField r.destination 0 8 ||| seqField r.source 16 24 ||| place r.hops.toNat 31 28
  r2 := place r.host.code 1 0 ||| place r.linkA.code 3 2 ||| place r.linkB.code 5 4 ||| placeBit r.poisoned 6
    ||| seqField r.linkA.seq 8 16 ||| seqField r.linkB.seq 24 17
  r3 := threeCells r.cells 1
  r4 := threeCells r.cells 4
  r5 := threeCells r.cells 7
  r6 := threeCells r.cells 10
  r7 := threeCells r.cells 13

/-- QUERY (R138). -/
def State.queryBody (s : State) : State :=
  match s.namedRecord s.hcu.arg0.toNat with
  | none => s.answer .badHandle
  | some r => s.answer .ok (queryResults r)

/-! ## FLUSH -/

/-- A FLUSH of a queue with a tail: the mark is recorded and the unit is BUSY, its result registers cleared (R35, R128). -/
def State.flushTaken (s : State) (q : QueueId) (mark : Nat) : State :=
  { s with
    flush := { active := some (q, mark), removed := 0 }
    hcu := { s.hcu with busy := true, result := .none, completed := 7, res := {} } }

/-- FLUSH (R139). -/
def State.flushBody (s : State) : State :=
  match queueOfCode s.hcu.arg0.toNat with
  | none => s.answer .badArg
  | some q =>
    match (s.queue q).entries.getLast? with
    | none => State.answer { s with flush := { s.flush with removed := 0 } } .ok
    | some mark => s.flushTaken q mark

/-! ## LINK_START and LINK_STOP -/

/-- LINK_START (R45, R140). -/
def State.linkStartBody (s : State) : State :=
  match linkOfCode s.hcu.arg0.toNat with
  | none => s.answer .badArg
  | some l =>
    if s.nodeAddr = 0 then s.answer .notConfigured
    else if (s.port l).state.live then s.answer .wrongState
    else (s.enterHunt l).answer .ok

/-- LINK_STOP (R46, R140). -/
def State.linkStopBody (s : State) : State :=
  match linkOfCode s.hcu.arg0.toNat with
  | none => s.answer .badArg
  | some l =>
    if (s.port l).state = .disabled then s.answer .ok
    else ((s.teardown l .disabled).answer .ok).settle s

/-! ## Table, report and scrubber commands -/

/-- TABLE_SET (R141). -/
def State.tableSetBody (s : State) : State :=
  match actionOfCode s.hcu.arg3.toNat with
  | none => s.answer .badArg
  | some a =>
    if Config.tableSize ≤ s.hcu.arg0.toNat ∨ 255 < s.hcu.arg2.toNat then s.answer .badArg
    else
      let e : DeliveryEntry := { valid := s.hcu.arg1.getLsbD 0, address := s.hcu.arg2.setWidth 8, action := a }
      State.answer { s with table := s.table.set s.hcu.arg0.toNat e } .ok

/-- TABLE_GET (R141). -/
def State.tableGetBody (s : State) : State :=
  if Config.tableSize ≤ s.hcu.arg0.toNat then s.answer .badArg
  else
    let e := s.table.getD s.hcu.arg0.toNat .reset
    s.answer .ok { r0 := placeBit e.valid 0, r1 := wordOfByte e.address, r2 := wordOfNat e.action.code }

/-- The results of a REPORT_TAKE (R142, R174). -/
def reportResults (e : ReportEntry) (left : Nat) : Results where
  r0 := wordOfNat e.cell
  r1 := wordOfNat e.word
  r2 := wordOfNat e.kind.code
  r3 := wordOfNat e.reader.code
  r4 := place (e.handle.getD 0) 9 0 ||| placeBit e.handle.isSome 16
  r5 := place (e.bit.getD 0) 6 0 ||| placeBit e.bit.isSome 16
  r6 := wordOfNat e.occurrences
  r7 := wordOfNat left

/-- REPORT_TAKE (R142). -/
def State.reportTakeBody (s : State) : State :=
  match s.reports with
  | [] => s.answer .empty
  | e :: rest => State.answer { s with reports := rest } .ok (reportResults e rest.length)

/-- SCRUB_START (R143). -/
def State.scrubStartBody (s : State) : State :=
  if s.scrub.running then s.answer .wrongState
  else (s.startPass s.scrub.interval).answer .ok

/-! ## A write of CMD by its value -/

/-- A write of CMD with any value (R127, R128, R174). -/
def State.commandWrite (s : State) (code : Word) : State :=
  match code.toNat with
  | 1 => s.takeCommand code State.allocBody
  | 2 => s.takeCommand code State.openBody
  | 3 => s.takeCommand code State.postBody
  | 4 => s.takeCommand code State.claimBody
  | 5 => s.takeCommand code State.releaseBody
  | 6 => s.takeCommand code State.queryBody
  | 7 => s.takeCommand code State.flushBody
  | 8 => s.takeCommand code State.linkStartBody
  | 9 => s.takeCommand code State.linkStopBody
  | 10 => s.takeCommand code State.tableSetBody
  | 11 => s.takeCommand code State.tableGetBody
  | 12 => s.takeCommand code State.reportTakeBody
  | 13 => s.takeCommand code State.scrubStartBody
  | _ => s.unknownCode code

end Sys2Proof.Machine
end

