-- ==== Sys2Proof/Machine/Resets.lean ====
section
/-! DEFINITION. The reset input, the end of power-on initialization and soft reset (R19 to R22 and the reset rule of each block). -/

namespace Sys2Proof.Machine

/-- The free list 0, 1, …, 1023 (R4). -/
def wholeFreeList : List Nat :=
  List.range Config.cellCount

/-- The reset input: every block at its reset values; initialization will write the memory, whatever it held (R19, R21).
DESIGN CHOICE: until then the stored words and codes are as they were (log entry 10). R21 gives the next-cell links no value; links
already written are kept (log entry 11). -/
def State.resetTaken (s : State) : State :=
  { State.reset with
    buf := { Buffer.reset with mem := s.buf.mem, wrong := s.buf.wrong, links := s.buf.links }
    choices := s.choices
    pending := s.pending }

/-- The pass that begins when READY becomes 1, in mode SINGLE or CONTINUOUS (R20, R155). -/
def State.passAtReady (s : State) : State :=
  if s.scrub.mode = .off then s else s.startPass s.scrub.interval

/-- Initialization writes its last word: every word zero with a valid code, every record FREE, the free list whole, READY (R19).
DESIGN CHOICE: R19 gives the next-cell links no value; links already written are kept (log entry 11). -/
def State.initTaken (s : State) : State :=
  State.passAtReady
    { s with
      ready := true
      buf := { mem := [], wrong := [], links := s.buf.links, free := wholeFreeList, records := [] } }

/-- The Buffer Manager after soft reset; while READY is 0 initialization goes on and will build the free list (R20, R22). -/
def Buffer.softReset (b : Buffer) (ready : Bool) : Buffer :=
  { b with
    records := []
    free := if ready then wholeFreeList else b.free }

/-- A queue emptied, its limit kept (R42). -/
def FrameQueue.emptied (q : FrameQueue) : FrameQueue :=
  { q with entries := [] }

/-- The queues after soft reset (R42). -/
def Queues.softReset (q : Queues) : Queues :=
  { q with
    hrc := q.hrc.emptied
    hrd := q.hrd.emptied
    txaC := q.txaC.emptied
    txaD := q.txaD.emptied
    txbC := q.txbC.emptied
    txbD := q.txbD.emptied }

/-- A link port after soft reset: settings, counters and live window kept (R64, R89, R110, R126, R172). -/
def LinkPort.softReset (p : LinkPort) : LinkPort :=
  { LinkPort.reset with
    cfg := p.cfg
    counters := p.counters
    tx := { Transmitter.reset with liveWindow := p.tx.liveWindow } }

/-- The scrubber after soft reset: mode and interval kept; a new pass in CONTINUOUS while READY is 1 (R163). -/
def Scrubber.softReset (k : Scrubber) (ready : Bool) : Scrubber :=
  if k.mode = .continuous ∧ ready then { k with running := true, position := 0, timer := some k.interval } else k.idle

/-- Soft reset, one step at every block (R149). -/
def State.softResetTaken (s : State) : State :=
  { s with
    buf := s.buf.softReset s.ready
    queues := s.queues.softReset
    flush := { active := none, removed := 0 }
    portA := s.portA.softReset
    portB := s.portB.softReset
    hcu := .reset
    scrub := s.scrub.softReset s.ready
    reports := []
    ev := { s.ev with flags := 0 } }

end Sys2Proof.Machine
end

