-- ==== Sys2Proof/Machine/Window.lean ====
section
/-! DEFINITION. The register window: what every register reads, and what a write of each does, field by field (section 10.1, R173). -/

namespace Sys2Proof.Machine

/-! ## What a register reads -/

/-- PORT_STATE. -/
def State.portStateWord (s : State) : Word :=
  match s.hcu.port with
  | none => 0
  | some p => place p.handle 9 0 ||| place p.offset 26 16 ||| place p.mode.code 29 28 ||| placeBit true 31

/-- QUEUE_HRC to QUEUE_TXB_D. -/
def FrameQueue.statusWord (q : FrameQueue) : Word :=
  place q.entries.length 8 0 ||| placeBit (q.entries.isEmpty) 9 ||| placeBit q.full 10 ||| place q.limit 24 16

/-- FLUSH_STATUS (R40). -/
def State.flushWord (s : State) : Word :=
  place s.flush.removed 8 0 |||
    match s.flush.active with
    | none => 0
    | some (q, mark) => place mark 25 16 ||| place q.code 30 28 ||| placeBit true 31

/-- HR_CONFIG (R30, R31). -/
def State.hrConfigWord (s : State) : Word :=
  place s.queues.hrcCfg.mode.code 0 0 ||| place s.queues.hrdCfg.mode.code 1 1
    ||| place s.queues.hrcCfg.notify 12 4 ||| place s.queues.hrdCfg.notify 24 16

/-- RESULT (R129). -/
def State.resultWord (s : State) : Word :=
  place s.hcu.result.code 7 0 ||| place s.hcu.completed.toNat 15 8 ||| placeBit s.hcu.busy 31

/-- The drop and integrity counters in the order of Table 10-1. -/
def partCounterAt : Nat → Option PartCounter
  | 0 => some .hrTailDrop
  | 1 => some .hrOldestDrop
  | 2 => some .fwdQueueFull
  | 3 => some .fwdLinkDown
  | 4 => some .hopLimit
  | 5 => some .loopDiscard
  | 6 => some .tableDiscard
  | 7 => some .teardownDrop
  | 8 => some .eccCorrectedTotal
  | 9 => some .eccUncorrectableTotal
  | 10 => some .reportLost
  | 11 => some .scrubPasses
  | _ => none

/-- The per-link counters in the order of Table 10-2. -/
def linkCounterAt : Nat → Option LinkCounter
  | 0 => some .framesIn
  | 1 => some .framesOut
  | 2 => some .checkErrors
  | 3 => some .seqDiscards
  | 4 => some .abortsReceived
  | 5 => some .naksSent
  | 6 => some .replays
  | 7 => some .staleAcks
  | 8 => some .linkDowns
  | 9 => some .creditStallDrops
  | 10 => some .poisonDrops
  | _ => none

/-- The seq of the oldest list entry, 0 where the list is empty (R90). -/
def State.oldestSeq (s : State) (l : LinkId) : Byte :=
  match (s.port l).tx.unacked with
  | [] => 0
  | h :: _ => (s.seqOn l h).getD 0

/-- CREDIT_x_ALLOW, _GRANT, _PARTNER and _STATE of a class (Table 10-2). -/
def CreditClass.word (k : CreditClass) : Nat → Word
  | 0 => place k.live 10 0 ||| place k.inUse 26 16
  | 1 => place k.granted.toNat 15 0 ||| place k.consumed.toNat 31 16
  | 2 => place k.partnerGranted.toNat 15 0 ||| place k.sent.toNat 31 16
  | _ => place k.outstanding 10 0 ||| placeBit k.due 12 ||| placeBit k.stallTimer.isSome 13 ||| place k.available 30 16

/-- A register of a link block, by its place from the link's base (Table 10-2). -/
def State.linkWord (s : State) (l : LinkId) (i : Nat) : Word :=
  let p := s.port l
  let c := p.cfg
  match i with
  | 0 => place p.state.code 2 0 ||| place p.align.code 5 4 ||| place p.lastFault.code 11 8 ||| place p.partner.toNat 23 16
  | 1 => place p.rx.expected.toNat 7 0 ||| place p.rx.ackPending 15 8 ||| place p.rx.nak.code 17 16
  | 2 => place p.tx.nextSeq.toNat 7 0 ||| place p.tx.liveWindow 13 8 ||| place p.tx.unacked.length 21 16
    ||| place (s.oldestSeq l).toNat 31 24
  | 3 => placeBit p.tx.replay.isSome 0 ||| place p.tx.replayCount 12 8
  | 4 => p.ctl.word 0
  | 5 => p.ctl.word 1
  | 6 => p.ctl.word 2
  | 7 => p.ctl.word 3
  | 8 => p.dat.word 0
  | 9 => p.dat.word 1
  | 10 => p.dat.word 2
  | 11 => p.dat.word 3
  | 12 => place c.allowC 6 0 ||| place c.allowD 25 16
  | 13 => place c.window 5 0 ||| place c.ackStep 11 8 ||| place c.ackDelay 22 16 ||| place c.grantStep 30 24
  | 14 => place c.replayTimeout 7 0 ||| place c.replayLimit 11 8 ||| place c.keepInterval 22 16 ||| place c.grantRefresh 31 24
  | 15 => place c.silenceTimeout 6 0 ||| place c.realignTimeout 14 8 ||| place c.stallLimit 23 16 ||| place c.hailInterval 28 24
  | 16 => place c.greetTimeout 6 0 ||| place c.holdDown 15 8 ||| placeBit c.autoRestart 16
  | _ =>
    match linkCounterAt (i - 17) with
    | some n => p.counters.get n
    | none => 0

/-- A part register, by its word index (Table 10-1). A read of PORT_DATA returns what `portRead` puts on the bus. -/
def State.partWord (s : State) (i : Nat) : Word :=
  match i with
  | 1 => placeBit s.ready 0
  | 2 => wordOfByte s.nodeAddr
  | 3 => place s.freeCount 10 0 ||| place s.totalOutstanding 26 16
  | 4 => s.ev.flags.setWidth 32
  | 5 => s.ev.enables.setWidth 32
  | 6 => s.pendingSet.setWidth 32 ||| placeBit s.interruptActive 31
  | 7 => place s.hcu.held 6 0
  | 8 => s.hcu.arg0
  | 9 => s.hcu.arg1
  | 10 => s.hcu.arg2
  | 11 => s.hcu.arg3
  | 12 => s.hcu.cmd
  | 13 => s.resultWord
  | 14 => s.hcu.res.r0
  | 15 => s.hcu.res.r1
  | 16 => s.hcu.res.r2
  | 17 => s.hcu.res.r3
  | 18 => s.hcu.res.r4
  | 19 => s.hcu.res.r5
  | 20 => s.hcu.res.r6
  | 21 => s.hcu.res.r7
  | 22 => s.portRead.hcu.busData
  | 23 => s.portStateWord
  | 24 => s.queues.hrc.statusWord
  | 25 => s.queues.hrd.statusWord
  | 26 => s.queues.txaC.statusWord
  | 27 => s.queues.txaD.statusWord
  | 28 => s.queues.txbC.statusWord
  | 29 => s.queues.txbD.statusWord
  | 30 => s.hrConfigWord
  | 31 => s.flushWord
  | 32 => place s.scrub.mode.code 1 0 ||| place s.scrub.interval 25 16
  | 33 => place s.scrub.position 12 0 ||| placeBit s.scrub.running 31
  | 34 => place s.reports.length 3 0
  | _ =>
    if 36 ≤ i then
      match partCounterAt (i - 36) with
      | some n => s.ev.counters.get n
      | none => 0
    else 0

/-- What a read of a register returns: A[8:2] selects it (R173). Unused offsets read 0. -/
def State.readRegister (s : State) (reg : BitVec 7) : Word :=
  let i := reg.toNat
  if i < 64 then s.partWord i
  else if i < 92 then s.linkWord .a (i - 64)
  else if i < 96 then 0
  else if i < 124 then s.linkWord .b (i - 96)
  else 0

/-! ## What a write does -/

/-- NODE_ADDR: taken while both links are DISABLED, for 1 to 254 (R148). -/
def State.writeNodeAddr (s : State) (v : Word) : State :=
  if s.portA.state = .disabled ∧ s.portB.state = .disabled then
    { s with nodeAddr := BitVec.ofNat 8 (taken 1 254 (field v 7 0) s.nodeAddr.toNat) }
  else s

/-- EVENT_FLAGS: each bit written 1 clears its flag (R165). -/
def State.clearFlags (s : State) (v : Word) : State :=
  { s with ev := { s.ev with flags := s.ev.flags &&& ~~~ v.setWidth 14 } }

/-- EVENT_ENABLE: written whole (R167). -/
def State.writeEnables (s : State) (v : Word) : State :=
  { s with ev := { s.ev with enables := v.setWidth 14 } }

/-- The limit of a queue (R27). -/
def State.writeLimit (s : State) (q : QueueId) (v : Word) : State :=
  let old := s.queues.get q
  let new : FrameQueue := { old with limit := taken 1 Config.maxLimit (field v 24 16) old.limit }
  { s with queues := s.queues.set q new }

/-- The admission mode that a bit of HR_CONFIG names (Table 10-3). -/
def admissionModeOfBit (b : Bool) : AdmissionMode :=
  if b then .dropOldest else .tailDrop

/-- HR_CONFIG (R30, R31). -/
def State.writeHrConfig (s : State) (v : Word) : State :=
  let q := s.queues
  let c : HostQueueCfg := { mode := admissionModeOfBit (v.getLsbD 0), notify := taken 1 256 (field v 12 4) q.hrcCfg.notify }
  let d : HostQueueCfg := { mode := admissionModeOfBit (v.getLsbD 1), notify := taken 1 256 (field v 24 16) q.hrdCfg.notify }
  { s with queues := { q with hrcCfg := c, hrdCfg := d } }

/-- A part counter set to the value written; no flag is set (R170). -/
def State.writePartCounter (s : State) (c : PartCounter) (v : Word) : State :=
  { s with ev := { s.ev with counters := s.ev.counters.set c v } }

/-- A link's counter set to the value written; no flag is set (R170). -/
def State.writeLinkCounter (s : State) (l : LinkId) (c : LinkCounter) (v : Word) : State :=
  s.modPort l fun p => { p with counters := p.counters.set c v }

/-- CFG_ALLOW (R112). -/
def LinkCfg.writeAllow (c : LinkCfg) (v : Word) : LinkCfg :=
  { c with
    allowC := taken 0 64 (field v 6 0) c.allowC
    allowD := taken 0 1008 (field v 25 16) c.allowD }

/-- CFG_FLOW (R82, R93, R125). -/
def LinkCfg.writeFlow (c : LinkCfg) (v : Word) : LinkCfg :=
  { c with
    window := taken 1 32 (field v 5 0) c.window
    ackStep := taken 1 8 (field v 11 8) c.ackStep
    ackDelay := taken 1 64 (field v 22 16) c.ackDelay
    grantStep := taken 1 64 (field v 30 24) c.grantStep }

/-- CFG_REPLAY (R108, R125). -/
def LinkCfg.writeReplay (c : LinkCfg) (v : Word) : LinkCfg :=
  { c with
    replayTimeout := taken 1 255 (field v 7 0) c.replayTimeout
    replayLimit := taken 1 15 (field v 11 8) c.replayLimit
    keepInterval := taken 1 64 (field v 22 16) c.keepInterval
    grantRefresh := taken 1 255 (field v 31 24) c.grantRefresh }

/-- CFG_SESSION (R63, R125). -/
def LinkCfg.writeSession (c : LinkCfg) (v : Word) : LinkCfg :=
  { c with
    silenceTimeout := taken 1 64 (field v 6 0) c.silenceTimeout
    realignTimeout := taken 1 64 (field v 14 8) c.realignTimeout
    stallLimit := taken 0 255 (field v 23 16) c.stallLimit
    hailInterval := taken 1 16 (field v 28 24) c.hailInterval }

/-- CFG_START (R63). -/
def LinkCfg.writeStart (c : LinkCfg) (v : Word) : LinkCfg :=
  { c with
    greetTimeout := taken 1 64 (field v 6 0) c.greetTimeout
    holdDown := taken 1 255 (field v 15 8) c.holdDown
    autoRestart := v.getLsbD 16 }

/-- The settings of a link changed. -/
def State.modCfg (s : State) (l : LinkId) (f : LinkCfg → LinkCfg) : State :=
  s.modPort l fun p => { p with cfg := f p.cfg }

/-- CFG_SESSION, with what a write of CREDIT_STALL_LIMIT does at the write itself: 0 stops both credit-stall timers of the link,
another value starts that of a head that already waits only for credit (R125). -/
def State.writeSession (s : State) (l : LinkId) (v : Word) : State :=
  ((s.modCfg l fun c => c.writeSession v).refreshStall l .control).refreshStall l .data

/-- A write of a register of a link block, by its place from the link's base (Table 10-2). -/
def State.writeLinkWord (s : State) (l : LinkId) (i : Nat) (v : Word) : State :=
  match i with
  | 12 => s.modCfg l fun c => c.writeAllow v
  | 13 => s.modCfg l fun c => c.writeFlow v
  | 14 => s.modCfg l fun c => c.writeReplay v
  | 15 => s.writeSession l v
  | 16 => s.modCfg l fun c => c.writeStart v
  | _ =>
    if 17 ≤ i then
      match linkCounterAt (i - 17) with
      | some n => s.writeLinkCounter l n v
      | none => s
    else s

/-- CONTROL: a write of 1 to bit 0 is the soft reset (R149). -/
def State.writeControl (s : State) (v : Word) : State :=
  if v.getLsbD 0 then s.softResetTaken else s

/-- A write of a part register, by its word index (Table 10-1). Read-only registers and unused offsets ignore it. -/
def State.writePartWord (s : State) (i : Nat) (v : Word) : State :=
  match i with
  | 0 => s.writeControl v
  | 2 => s.writeNodeAddr v
  | 4 => s.clearFlags v
  | 5 => s.writeEnables v
  | 8 => { s with hcu := { s.hcu with arg0 := v } }
  | 9 => { s with hcu := { s.hcu with arg1 := v } }
  | 10 => { s with hcu := { s.hcu with arg2 := v } }
  | 11 => { s with hcu := { s.hcu with arg3 := v } }
  | 12 => s.commandWrite v
  | 22 => s.portWrite v
  | 24 => s.writeLimit (.host .control) v
  | 25 => s.writeLimit (.host .data) v
  | 26 => s.writeLimit (.tx .a .control) v
  | 27 => s.writeLimit (.tx .a .data) v
  | 28 => s.writeLimit (.tx .b .control) v
  | 29 => s.writeLimit (.tx .b .data) v
  | 30 => s.writeHrConfig v
  | 32 => s.writeScrubControl v
  | _ =>
    if 36 ≤ i then
      match partCounterAt (i - 36) with
      | some n => s.writePartCounter n v
      | none => s
    else s

/-- A write of a register: A[8:2] selects it (R173). -/
def State.writeRegister (s : State) (reg : BitVec 7) (v : Word) : State :=
  let i := reg.toNat
  if i < 64 then s.writePartWord i v
  else if i < 92 then s.writeLinkWord .a (i - 64) v
  else if i < 96 then s
  else if i < 124 then s.writeLinkWord .b (i - 96) v
  else s

end Sys2Proof.Machine
end

