-- ==== Sys2Proof/Machine/HostMeanings.lean ====
section
/-! DEFINITION. The meanings of the host commands, of the data port and of the register writes. -/

namespace Sys2Proof.Machine

/-- ALLOC (R131). -/
def execAlloc (s : State) : Answer :=
  .next (s.takeCommand 1 State.allocBody)

/-- OPEN (R133). -/
def execOpen (s : State) : Answer :=
  .next (s.takeCommand 2 State.openBody)

/-- POST (R134). -/
def execPost (s : State) : Answer :=
  .next (s.takeCommand 3 State.postBody)

/-- CLAIM (R136). -/
def execClaim (s : State) : Answer :=
  .next (s.takeCommand 4 State.claimBody)

/-- RELEASE (R137). -/
def execRelease (s : State) : Answer :=
  .next (s.takeCommand 5 State.releaseBody)

/-- QUERY (R138). -/
def execQuery (s : State) : Answer :=
  .next (s.takeCommand 6 State.queryBody)

/-- FLUSH (R139). -/
def execFlush (s : State) : Answer :=
  .next (s.takeCommand 7 State.flushBody)

/-- LINK_START (R45). -/
def execLinkStart (s : State) : Answer :=
  .next (s.takeCommand 8 State.linkStartBody)

/-- LINK_STOP (R46). -/
def execLinkStop (s : State) : Answer :=
  .next (s.takeCommand 9 State.linkStopBody)

/-- TABLE_SET (R141). -/
def execTableSet (s : State) : Answer :=
  .next (s.takeCommand 10 State.tableSetBody)

/-- TABLE_GET (R141). -/
def execTableGet (s : State) : Answer :=
  .next (s.takeCommand 11 State.tableGetBody)

/-- REPORT_TAKE (R142). -/
def execReportTake (s : State) : Answer :=
  .next (s.takeCommand 12 State.reportTakeBody)

/-- SCRUB_START (R143). -/
def execScrubStart (s : State) : Answer :=
  .next (s.takeCommand 13 State.scrubStartBody)

/-- UNKNOWN_COMMAND (R127, R174). -/
def execUnknownCommand (code : Word) (s : State) : Answer :=
  .next (s.unknownCode code)

/-- CMD_OVERRUN (R128). The same write of CMD, where it finds the unit IDLE, is taken as the command that its value names (R127). -/
def execCmdOverrun (code : Word) (s : State) : Answer :=
  .next (if s.hcu.busy then s.raise .cmdOverrun else s.commandWrite code)

/-- PORT_DATA_READ (R145, R147). -/
def execPortDataRead (s : State) : Answer :=
  .next s.portRead

/-- PORT_DATA_WRITE (R146, R147). -/
def execPortDataWrite (v : Word) (s : State) : Answer :=
  .next (s.portWrite v)

/-- EVENT_FLAGS_CLEAR (R165). -/
def execEventFlagsClear (v : Word) (s : State) : Answer :=
  .next (s.clearFlags v)

/-- EVENT_ENABLE_WRITE (R167). -/
def execEventEnableWrite (v : Word) (s : State) : Answer :=
  .next (s.writeEnables v)

/-- NODE_ADDR_WRITE (R148). -/
def execNodeAddrWrite (v : Word) (s : State) : Answer :=
  .next (s.writeNodeAddr v)

/-- SCRUB_MODE_WRITE: the write of SCRUB_CONTROL, whose fields are the mode and SCRUB_INTERVAL (R155, R158, R173). -/
def execScrubModeWrite (v : Word) (s : State) : Answer :=
  .next (s.writeScrubControl v)

/-- CREDIT_STALL_LIMIT_WRITE: the write of a link's CFG_SESSION (R125, R173). -/
def execCreditStallLimitWrite (l : LinkId) (v : Word) (s : State) : Answer :=
  .next (s.writeSession l v)

/-- REGISTER_WRITE (R173). -/
def execRegisterWrite (reg : BitVec 7) (v : Word) (s : State) : Answer :=
  .next (s.writeRegister reg v)

end Sys2Proof.Machine
end

