-- ==== Sys2Proof/Machine/ReceiveMeanings.lean ====
section
/-! DEFINITION. The meanings of what arrives on a link: markers, blocks and parts of frame blocks. -/

namespace Sys2Proof.Machine

/-- What a link's receiver does with what arrives, and what follows it. In DISABLED and FAULT the receiver is off (R44). -/
def State.received (s : State) (l : LinkId) (act : State → State) : State :=
  if (s.port l).state.live then (act s).settle s else s

/-- INVALID_MARKER (R44, R56). In DISABLED and FAULT the receiver is off (R44). -/
def execInvalidMarker (l : LinkId) (s : State) : Answer :=
  .next (if (s.port l).state.live then s.noMarker l else s)

/-- CHECKED_OUT_BLOCK (R67). -/
def execCheckedOutBlock (l : LinkId) (kind : BlockKind) (s : State) : Answer :=
  .next (s.received l fun t => t.checkedOut l kind)

/-- KEEP_RECEIVED (R44, R52). -/
def execKeepReceived (l : LinkId) (s : State) : Answer :=
  .next (s.received l fun t => t.validControl l fun u => u)

/-- HAIL_RECEIVED (R50, R55). -/
def execHailReceived (l : LinkId) (sender revision : Byte) (seen : Bool) (s : State) : Answer :=
  .next (s.received l fun t => t.takeHail l sender revision seen)

/-- ACK_RECEIVED (R98). -/
def execAckReceived (l : LinkId) (seq : Byte) (s : State) : Answer :=
  .next (s.received l fun t => t.validControl l fun u => u.takeAck l seq)

/-- NAK_RECEIVED (R100). -/
def execNakReceived (l : LinkId) (seq : Byte) (s : State) : Answer :=
  .next (s.received l fun t => t.validControl l fun u => u.takeNak l seq)

/-- GRANT_RECEIVED (R121). -/
def execGrantReceived (l : LinkId) (c : Cls) (v : Credit) (s : State) : Answer :=
  .next (s.received l fun t => t.validControl l fun u => u.takeGrant l c v)

/-- FRAME_HEADER_RECEIVED (R66). A header whose check fails is a checked-out block (R67). -/
def execFrameHeaderReceived (l : LinkId) (header : BitVec 128) (s : State) : Answer :=
  if (s.port l).state.live then
    if headerCheckOk header then
      match s.validFrame l header with
      | .ok t => .next (t.settle s)
      | .error e => .fault e
    else .next ((s.checkedOut l .frame).settle s)
  else .next s

/-- FRAME_PAYLOAD_BYTES (R73). -/
def execFramePayloadBytes (l : LinkId) (bytes : List Byte) (s : State) : Answer :=
  .next (s.received l fun t => bytes.foldl (fun u b => u.takeByte l b) t)

/-- FRAME_TRUNCATED (R74). -/
def execFrameTruncated (l : LinkId) (s : State) : Answer :=
  .next (s.received l fun t => t.marker l)

/-- FRAME_TRAILER_END (R75, R76). -/
def execFrameTrailerEnd (l : LinkId) (check : BitVec 32) (s : State) : Answer :=
  .next (s.received l fun t => t.trailerEnd l check)

/-- FRAME_TRAILER_ABORT (R77). -/
def execFrameTrailerAbort (l : LinkId) (s : State) : Answer :=
  .next (s.received l fun t => t.trailerAbort l)

end Sys2Proof.Machine
end

