-- ==== Sys2Proof/Machine/ResetCommands.lean ====
section
/-! DEFINITION. The meanings of RESET_INPUT, INIT_COMPLETE and SOFT_RESET. -/

namespace Sys2Proof.Machine

/-- RESET_INPUT (R21, R41, R64, R89, R110, R126, R150, R163, R171, R172). -/
def execResetInput (s : State) : Answer :=
  .next s.resetTaken

/-- INIT_COMPLETE (R19). It cannot come while READY is 1: then it acts on nothing (log entry 8). -/
def execInitComplete (s : State) : Answer :=
  .next (if s.ready then s else s.initTaken)

/-- SOFT_RESET (R149). -/
def execSoftReset (s : State) : Answer :=
  .next s.softResetTaken

end Sys2Proof.Machine
end

