-- ==== Sys2Proof/Machine/TimerMeanings.lean ====
section
/-! DEFINITION. The meanings of the expiries of the part's own timers, and of the flush and scrubber steps.
An expiry of a timer that is not running, or outside the state in which it acts, acts on nothing (log entry 8). -/

namespace Sys2Proof.Machine

/-- HAIL_TIMER_EXPIRY (R49). -/
def execHailTimerExpiry (l : LinkId) (s : State) : Answer :=
  .next (if (s.port l).state = .greet ∧ (s.port l).hailTimer.isSome then
      (s.modPort l fun p => { p with hailTimer := none }).hailNow l
    else s)

/-- GREET_TIMEOUT (R54). -/
def execGreetTimeout (l : LinkId) (s : State) : Answer :=
  .next (if (s.port l).state = .greet ∧ (s.port l).greetTimer.isSome then (s.enterFault l .greetTimeout).settle s else s)

/-- SILENCE_TIMEOUT (R58). -/
def execSilenceTimeout (l : LinkId) (s : State) : Answer :=
  .next (if s.isActive l ∧ (s.port l).silenceTimer.isSome then (s.enterFault l .silent).settle s else s)

/-- REALIGN_TIMEOUT (R57). -/
def execRealignTimeout (l : LinkId) (s : State) : Answer :=
  .next (if s.isActive l ∧ (s.port l).align = .realigning ∧ (s.port l).realignTimer.isSome then
      (s.enterFault l .alignLost).settle s
    else s)

/-- HOLD_DOWN_EXPIRY (R60). -/
def execHoldDownExpiry (l : LinkId) (s : State) : Answer :=
  .next (if (s.port l).state = .fault ∧ (s.port l).holdTimer.isSome then
      if (s.port l).cfg.autoRestart then s.enterHunt l else s.modPort l fun p => { p with holdTimer := none }
    else s)

/-- REPLAY_TIMER_EXPIRY (R101). -/
def execReplayTimerExpiry (l : LinkId) (s : State) : Answer :=
  .next (if s.isActive l ∧ (s.port l).tx.replayTimer.isSome then (s.replayExpired l).settle s else s)

/-- ACK_DELAY_EXPIRY (R80). -/
def execAckDelayExpiry (l : LinkId) (s : State) : Answer :=
  .next (if s.isActive l ∧ (s.port l).rx.ackTimer.isSome then
      (s.modRx l fun r => { r with ackTimer := none, ackDue := true }).settle s
    else s)

/-- IDLE_TIMER_EXPIRY (R107). -/
def execIdleTimerExpiry (l : LinkId) (s : State) : Answer :=
  .next (if s.lineFree l ∧ (s.port l).tx.idleTimer.isSome then
      ((s.modTx l fun t => { t with idleTimer := none }).choose l true).settle s
    else s)

/-- The grant refresh timer expires: both GRANTs due, and the timer restarted with the length then configured (R120). -/
def State.refreshGrants (s : State) (l : LinkId) : State :=
  State.makeDue (State.makeDue (s.modPort l fun p => { p with refreshTimer := some p.cfg.grantRefreshUs }) l .control) l .data

/-- GRANT_REFRESH_EXPIRY (R120). -/
def execGrantRefreshExpiry (l : LinkId) (s : State) : Answer :=
  .next (if s.isActive l ∧ (s.port l).refreshTimer.isSome then (s.refreshGrants l).settle s else s)

/-- The head of a transmit queue dropped by a credit stall (R124). -/
def State.stallDrop (s : State) (l : LinkId) (c : Cls) : State :=
  match (s.queue (.tx l c)).entries with
  | [] => s
  | h :: _ => (s.dropHead (.tx l c) h).countLink l .creditStallDrops

/-- CREDIT_STALL_EXPIRY (R124). -/
def execCreditStallExpiry (l : LinkId) (c : Cls) (s : State) : Answer :=
  .next (if s.isActive l ∧ ((s.port l).credit c).stallTimer.isSome then (s.stallDrop l c).settle s else s)

/-- FLUSH_REMOVAL (R36). -/
def execFlushRemoval (s : State) : Answer :=
  .next (if s.flush.active.isSome then s.flushStep.settle s else s)

/-- SCRUB_STEP (R156). -/
def execScrubStep (s : State) : Answer :=
  .next s.scrubExpired

end Sys2Proof.Machine
end

