-- ==== Sys2Proof/Machine/TransmitMeanings.lean ====
section
/-! DEFINITION. The meanings of the ends of blocks that go out, and of the reads of payload words. -/

namespace Sys2Proof.Machine

/-- The frame block on the line of an ACTIVE link. -/
def State.frameOnLine (s : State) (l : LinkId) : Option TxFrame :=
  if s.isActive l then
    match (s.port l).tx.line with
    | .frame f => some f
    | .control _ => none
    | .none => none
  else none

/-- Whether a control block is on the line of an ACTIVE link. -/
def State.controlOnLine (s : State) (l : LinkId) : Bool :=
  s.isActive l &&
    match (s.port l).tx.line with
    | .control _ => true
    | .frame _ => false
    | .none => false

/-- Whether a HAIL is on the line of a link. -/
def State.hailOnLine (s : State) (l : LinkId) : Bool :=
  match (s.port l).tx.line with
  | .control (.hail _ _ _) => true
  | _ => false

/-- HAIL_SEND_END (R49, R53). -/
def execHailSendEnd (l : LinkId) (s : State) : Answer :=
  .next (if s.hailOnLine l then (s.hailSent l).settle s else s)

/-- CONTROL_BLOCK_SENT (R91). -/
def execControlBlockSent (l : LinkId) (s : State) : Answer :=
  .next (if s.controlOnLine l then (s.controlSent l).settle s else s)

/-- TX_WORD_READ (R95). -/
def execTxWordRead (l : LinkId) (s : State) : Answer :=
  .next (if (s.frameOnLine l).isSome then s.readTxWord l else s)

/-- FIRST_TRANSMISSION_END (R97): every payload word has gone out, none of them uncorrectable (log entry 19). -/
def execFirstTransmissionEnd (l : LinkId) (s : State) : Answer :=
  .next (match s.frameOnLine l with
    | some f => if !f.resend && f.complete then (s.firstEnd l f).settle s else s
    | none => s)

/-- FIRST_TRANSMISSION_ABORT (R96): a word read was uncorrectable (log entry 19). -/
def execFirstTransmissionAbort (l : LinkId) (s : State) : Answer :=
  .next (match s.frameOnLine l with
    | some f => if !f.resend && f.aborting then (s.firstAbort l f).settle s else s
    | none => s)

/-- RESEND_END (R106). -/
def execResendEnd (l : LinkId) (s : State) : Answer :=
  .next (match s.frameOnLine l with
    | some f => if f.resend && f.complete then (s.resendEnded l f).settle s else s
    | none => s)

/-- RESEND_ABORT (R105). -/
def execResendAbort (l : LinkId) (s : State) : Answer :=
  .next (match s.frameOnLine l with
    | some f => if f.resend && f.aborting then (s.resendAborted l).settle s else s
    | none => s)

/-- KEEP_SEND_END (R45, R48). -/
def execKeepSendEnd (l : LinkId) (s : State) : Answer :=
  .next (s.keepSent l)

end Sys2Proof.Machine
end

