-- ==== Sys2Proof/Machine/Dispatch.lean ====
section
/-! DEFINITION. The meaning of each command, one arm for each row of the table. -/

namespace Sys2Proof.Machine

/-- The effect of a command on everything but the queue of waiting commands. -/
def exec (i : Instr) (s : State) : Host.Outcome State Fault Refusal :=
  match i with
  | .resetInput => Sys2Proof.Machine.execResetInput s
  | .initComplete => Sys2Proof.Machine.execInitComplete s
  | .softReset => Sys2Proof.Machine.execSoftReset s
  | .alloc => Sys2Proof.Machine.execAlloc s
  | .openPort => Sys2Proof.Machine.execOpen s
  | .post => Sys2Proof.Machine.execPost s
  | .claim => Sys2Proof.Machine.execClaim s
  | .release => Sys2Proof.Machine.execRelease s
  | .query => Sys2Proof.Machine.execQuery s
  | .flush => Sys2Proof.Machine.execFlush s
  | .linkStart => Sys2Proof.Machine.execLinkStart s
  | .linkStop => Sys2Proof.Machine.execLinkStop s
  | .tableSet => Sys2Proof.Machine.execTableSet s
  | .tableGet => Sys2Proof.Machine.execTableGet s
  | .reportTake => Sys2Proof.Machine.execReportTake s
  | .scrubStart => Sys2Proof.Machine.execScrubStart s
  | .unknownCommand code => Sys2Proof.Machine.execUnknownCommand code s
  | .cmdOverrun code => Sys2Proof.Machine.execCmdOverrun code s
  | .portDataRead => Sys2Proof.Machine.execPortDataRead s
  | .portDataWrite value => Sys2Proof.Machine.execPortDataWrite value s
  | .eventFlagsClear value => Sys2Proof.Machine.execEventFlagsClear value s
  | .eventEnableWrite value => Sys2Proof.Machine.execEventEnableWrite value s
  | .nodeAddrWrite value => Sys2Proof.Machine.execNodeAddrWrite value s
  | .scrubModeWrite value => Sys2Proof.Machine.execScrubModeWrite value s
  | .creditStallLimitWrite link value => Sys2Proof.Machine.execCreditStallLimitWrite link value s
  | .registerWrite reg value => Sys2Proof.Machine.execRegisterWrite reg value s
  | .invalidMarker link => Sys2Proof.Machine.execInvalidMarker link s
  | .checkedOutBlock link kind => Sys2Proof.Machine.execCheckedOutBlock link kind s
  | .keepReceived link => Sys2Proof.Machine.execKeepReceived link s
  | .hailReceived link sender revision seen => Sys2Proof.Machine.execHailReceived link sender revision seen s
  | .ackReceived link seq => Sys2Proof.Machine.execAckReceived link seq s
  | .nakReceived link seq => Sys2Proof.Machine.execNakReceived link seq s
  | .grantReceived link cls value => Sys2Proof.Machine.execGrantReceived link cls value s
  | .frameHeaderReceived link header => Sys2Proof.Machine.execFrameHeaderReceived link header s
  | .framePayloadBytes link bytes => Sys2Proof.Machine.execFramePayloadBytes link bytes s
  | .frameTruncated link => Sys2Proof.Machine.execFrameTruncated link s
  | .frameTrailerEnd link check => Sys2Proof.Machine.execFrameTrailerEnd link check s
  | .frameTrailerAbort link => Sys2Proof.Machine.execFrameTrailerAbort link s
  | .hailSendEnd link => Sys2Proof.Machine.execHailSendEnd link s
  | .controlBlockSent link => Sys2Proof.Machine.execControlBlockSent link s
  | .txWordRead link => Sys2Proof.Machine.execTxWordRead link s
  | .firstTransmissionEnd link => Sys2Proof.Machine.execFirstTransmissionEnd link s
  | .firstTransmissionAbort link => Sys2Proof.Machine.execFirstTransmissionAbort link s
  | .resendEnd link => Sys2Proof.Machine.execResendEnd link s
  | .resendAbort link => Sys2Proof.Machine.execResendAbort link s
  | .hailTimerExpiry link => Sys2Proof.Machine.execHailTimerExpiry link s
  | .greetTimeout link => Sys2Proof.Machine.execGreetTimeout link s
  | .silenceTimeout link => Sys2Proof.Machine.execSilenceTimeout link s
  | .realignTimeout link => Sys2Proof.Machine.execRealignTimeout link s
  | .holdDownExpiry link => Sys2Proof.Machine.execHoldDownExpiry link s
  | .replayTimerExpiry link => Sys2Proof.Machine.execReplayTimerExpiry link s
  | .ackDelayExpiry link => Sys2Proof.Machine.execAckDelayExpiry link s
  | .idleTimerExpiry link => Sys2Proof.Machine.execIdleTimerExpiry link s
  | .grantRefreshExpiry link => Sys2Proof.Machine.execGrantRefreshExpiry link s
  | .creditStallExpiry link cls => Sys2Proof.Machine.execCreditStallExpiry link cls s
  | .flushRemoval => Sys2Proof.Machine.execFlushRemoval s
  | .scrubStep => Sys2Proof.Machine.execScrubStep s
  | .keepSendEnd link => Sys2Proof.Machine.execKeepSendEnd link s

end Sys2Proof.Machine
end

