-- ==== Sys2Proof/Safety.lean ====
section
/-! DEFINITION. What a safe run keeps, and the words that the statements about commands use. -/

namespace Sys2Proof.Machine

/-! ## Laws that every step keeps -/

/-- The settings of a link within the ranges of Table 0-3. -/
def LinkCfg.InRange (c : LinkCfg) : Prop :=
  c.allowC ≤ 64 ∧ c.allowD ≤ 1008 ∧ (1 ≤ c.window ∧ c.window ≤ 32) ∧ (1 ≤ c.ackStep ∧ c.ackStep ≤ 8) ∧
  (1 ≤ c.ackDelay ∧ c.ackDelay ≤ 64) ∧ (1 ≤ c.grantStep ∧ c.grantStep ≤ 64) ∧
  (1 ≤ c.replayTimeout ∧ c.replayTimeout ≤ 255) ∧ (1 ≤ c.replayLimit ∧ c.replayLimit ≤ 15) ∧
  (1 ≤ c.keepInterval ∧ c.keepInterval ≤ 64) ∧ (1 ≤ c.grantRefresh ∧ c.grantRefresh ≤ 255) ∧
  (1 ≤ c.silenceTimeout ∧ c.silenceTimeout ≤ 64) ∧ (1 ≤ c.realignTimeout ∧ c.realignTimeout ≤ 64) ∧
  c.stallLimit ≤ 255 ∧ (1 ≤ c.hailInterval ∧ c.hailInterval ≤ 16) ∧ (1 ≤ c.greetTimeout ∧ c.greetTimeout ≤ 64) ∧
  (1 ≤ c.holdDown ∧ c.holdDown ≤ 255)

/-- Every setting within its range (Table 0-3, R148). -/
def State.SettingsInRange (s : State) : Prop :=
  s.portA.cfg.InRange ∧ s.portB.cfg.InRange ∧ (1 ≤ s.scrub.interval ∧ s.scrub.interval ≤ 1023) ∧
  (∀ c : Cls, 1 ≤ (s.queues.hostCfg c).notify ∧ (s.queues.hostCfg c).notify ≤ 256) ∧ s.nodeAddr ≠ 255

/-- Every limit from 1 to 256 and every count at most 256 (R24, R27). -/
def State.QueuesBounded (s : State) : Prop :=
  ∀ q : QueueId, (1 ≤ (s.queue q).limit ∧ (s.queue q).limit ≤ 256) ∧ (s.queue q).entries.length ≤ 256

/-- The law of the error report table: at most 8 entries, never two of one cell, word and kind, occurrences from 1 to 255 (R159). -/
def State.ReportsDistinct (s : State) : Prop :=
  s.reports.length ≤ 8 ∧ s.reports.Pairwise (fun e f => ¬(e.cell = f.cell ∧ e.word = f.word ∧ e.kind = f.kind)) ∧
  ∀ e ∈ s.reports, 1 ≤ e.occurrences ∧ e.occurrences ≤ 255

/-- Every chain of the records that are not FREE, one after another. -/
def State.chains (s : State) : List Nat :=
  s.buf.records.flatMap fun e => e.2.cells

/-- The law of cell accounting: while READY is 1 every cell is on the free list or in one chain, and never both; a record stands in
the slot of its first cell. While READY is 0 there is no record, no free cell and no live link (R4, R7, R18, R20, R21). -/
def State.CellsAccounted (s : State) : Prop :=
  (s.ready = true → (s.buf.free ++ s.chains).Perm (List.range 1024)) ∧
  (s.ready = false → s.buf.free = [] ∧ s.buf.records = [] ∧ s.portA.state = .disabled ∧ s.portB.state = .disabled) ∧
  (∀ e ∈ s.buf.records, e.2.cells.head? = some e.1) ∧ Sparse.sorted s.buf.records = true

/-- Whether the line carries a frame block. -/
def LineBlock.isFrame : LineBlock → Bool
  | .frame _ => true
  | .control _ => false
  | .none => false

/-- The four cumulative counts of a class at 0. -/
def CreditClass.CountsZero (k : CreditClass) : Prop :=
  k.granted = 0 ∧ k.consumed = 0 ∧ k.partnerGranted = 0 ∧ k.sent = 0

/-- A link with nothing on its side: queues and list empty, counts 0, no holder, no record being filled, no frame on the line (R62). -/
def State.SideClear (s : State) (l : LinkId) : Prop :=
  (s.queue (.tx l .control)).entries = [] ∧ (s.queue (.tx l .data)).entries = [] ∧ (s.port l).tx.unacked = [] ∧
  (s.port l).ctl.CountsZero ∧ (s.port l).dat.CountsZero ∧ (s.port l).rx.frame = none ∧
  (s.port l).tx.line.isFrame = false ∧ ∀ e ∈ s.buf.records, e.2.holder l = .none

/-- Where a record with a link holder stands: QUEUED in the queue of its class, SENDING on the line, UNACKED on the list (Table 1-2). -/
def State.HolderPlaced (s : State) (l : LinkId) (h : Nat) (r : Record) : Prop :=
  match r.holder l with
  | .none => True
  | .queued => h ∈ (s.queue (.tx l r.cls)).entries
  | .sending _ => ∃ f, (s.port l).tx.line = .frame f ∧ f.resend = false ∧ f.handle = h
  | .unacked _ => h ∈ (s.port l).tx.unacked

/-- The law of quiet links: a link that is not ACTIVE has nothing on its side; every link holder has its place (R9, R24, R62). -/
def State.QuietLinksClear (s : State) : Prop :=
  (∀ l : LinkId, (s.port l).state ≠ .active → s.SideClear l) ∧
  (∀ l : LinkId, ∀ e ∈ s.buf.records, s.HolderPlaced l e.1 e.2) ∧ Sparse.sorted s.buf.records = true

/-- Each queue and each list names a record once, by the holder that stands for its place; the frame of a first transmission is SENDING
with its seq; the frame being received is its receiver's own, with the class and the cells of its header (Table 1-2, R12, R24, R72, R90). -/
def State.ListsNameHolders (s : State) : Prop :=
  (∀ c : Cls, (s.queue (.host c)).entries.Nodup ∧
    ∀ h ∈ (s.queue (.host c)).entries, ∃ r, s.record h = some r ∧ r.cls = c ∧ r.host = .queued) ∧
  (∀ (l : LinkId) (c : Cls), (s.queue (.tx l c)).entries.Nodup ∧
    ∀ h ∈ (s.queue (.tx l c)).entries, ∃ r, s.record h = some r ∧ r.cls = c ∧ r.holder l = .queued) ∧
  (∀ l : LinkId, (s.port l).tx.unacked.Nodup ∧
    ∀ h ∈ (s.port l).tx.unacked, ∃ r seq, s.record h = some r ∧ r.holder l = .unacked seq) ∧
  (∀ (l : LinkId) (f : TxFrame), (s.port l).tx.line = .frame f → f.resend = false →
    ∃ r, s.record f.handle = some r ∧ r.holder l = .sending f.seq) ∧
  ∀ (l : LinkId) (f : RxFrame), (s.port l).rx.frame = some f →
    ∃ r, s.record f.handle = some r ∧ r.phase = .filling (.link l) ∧ r.origin = .link l ∧
      r.cls = (headerFields f.header).cls ∧ r.cells.length = (headerLength f.header + 63) / 64

/-- The holders that the state of a record goes with: host FILLING alone, none for an arrival, and at least one other than host FILLING
for a LIVE record (R9, section 1.5). -/
def Record.HoldersFit (r : Record) : Prop :=
  match r.phase with
  | .filling .host => r.host = .filling ∧ r.linkA = .none ∧ r.linkB = .none
  | .filling (.link _) => r.host = .none ∧ r.linkA = .none ∧ r.linkB = .none
  | .live => r.host ≠ .filling ∧ ¬(r.host = .none ∧ r.linkA = .none ∧ r.linkB = .none)

/-- The law of records and holders: cells are accounted for; a record is LIVE exactly when it has a holder other than host FILLING;
an arrival in FILLING is its receiver's frame; a record queued for the host stands in its queue (R9, R12, R24). -/
def State.HoldersAgree (s : State) : Prop :=
  s.CellsAccounted ∧ s.ListsNameHolders ∧
  ∀ e ∈ s.buf.records, e.2.HoldersFit ∧
    (e.2.host = .queued → e.1 ∈ (s.queue (.host e.2.cls)).entries) ∧
    ∀ l : LinkId, e.2.phase = .filling (.link l) → ∃ f, (s.port l).rx.frame = some f ∧ f.handle = e.1

/-- The host-held count is the number of records that the host is filling or has claimed, at most 64 (R130). -/
def State.HeldCounted (s : State) : Prop :=
  s.hcu.held = (s.buf.records.filter fun e => e.2.host == .filling || e.2.host == .claimed).length ∧ s.hcu.held ≤ 64

/-- The cells of those of some records that came from a link in a class (R113). -/
def cellsFrom (rs : List Record) (l : LinkId) (c : Cls) : Nat :=
  ((rs.filter fun r => r.origin == .link l && r.cls == c).map fun r => r.cells.length).sum

/-- The cells that the frame being received in a class has consumed and may yet give back (R72, R76). -/
def LinkPort.tentative (p : LinkPort) (c : Cls) : Nat :=
  match p.rx.frame with
  | some f => if (headerFields f.header).cls = c then (headerLength f.header + 63) / 64 else 0
  | none => 0

/-- The laws of the Credit Unit: in-use counts the cells of a link's records (R113); the outstanding grant, with what a frame being
received may give back, is within the live allowance (R116); the free cells cover the total outstanding grant (R117). -/
def State.CreditsCovered (s : State) : Prop :=
  (∀ (l : LinkId) (c : Cls), ((s.port l).credit c).inUse = cellsFrom (s.buf.records.map Prod.snd) l c) ∧
  (∀ (l : LinkId) (c : Cls), ((s.port l).credit c).outstanding + (s.port l).tentative c ≤ ((s.port l).credit c).live) ∧
  s.totalOutstanding ≤ s.buf.free.length

/-- The unit is BUSY exactly while a flush is in progress, and the mark then stands in the flushed queue (R35, R37, R128). -/
def State.FlushMarked (s : State) : Prop :=
  (s.hcu.busy = true ↔ s.flush.active.isSome = true) ∧
  ∀ q m, s.flush.active = some (q, m) → m ∈ (s.queue q).entries

/-! ## Words for the statements -/

/-- READY is 1 and the Host Command Unit is IDLE. -/
def State.UnitIdle (s : State) : Prop :=
  s.ready = true ∧ s.hcu.busy = false

/-- The state with a command answered and nothing else changed: CMD, completed command, result code and results written,
CMD_DONE set (R127). -/
def State.answered (s : State) (code : Word) (rc : ResultCode) (res : Results) : State :=
  { s with
    hcu := { s.hcu with cmd := code, completed := code.setWidth 8, result := rc, res := res }
    ev := { s.ev with flags := s.ev.flags ||| 4#14 } }

/-- The commands of Table 7-3 with their codes (Table 10-3). -/
def commandCodes : List (Instr × Word) :=
  [(.alloc, 1), (.openPort, 2), (.post, 3), (.claim, 4), (.release, 5), (.query, 6), (.flush, 7), (.linkStart, 8),
    (.linkStop, 9), (.tableSet, 10), (.tableGet, 11), (.reportTake, 12), (.scrubStart, 13)]

/-- A link in ACTIVE, in either alignment sub-state, whose receiver has no frame in progress. -/
def State.Receiving (s : State) (l : LinkId) : Prop :=
  (s.port l).state = .active ∧ (s.port l).rx.frame = none

/-- A receiving link that takes the next valid frame block: not REALIGNING, or at the block that completes the return (R57, R65). -/
def State.TakesFrames (s : State) (l : LinkId) : Prop :=
  s.Receiving l ∧ ((s.port l).align = .realigning → 4 ≤ (s.port l).validRun + 1)

/-- A port in ACTIVE with no frame in progress, after a valid block has been counted: the silence timer restarted, a block passed over
left; at the fourth valid block in a row while REALIGNING, back in ALIGNED with a pending NAK due (R44, R57, R58, R69). -/
def LinkPort.afterValid (p : LinkPort) : LinkPort :=
  let q :=
    { p with
      validRun := p.validRun + 1, invalidRun := 0, silenceTimer := some (1000 * p.cfg.silenceTimeout)
      rx := { p.rx with passing := .no } }
  if p.align = .realigning ∧ 4 ≤ p.validRun + 1 then
    { q with
      align := .aligned, realignTimer := none
      rx := { q.rx with nakDue := p.rx.nakDue || p.rx.nak == .pending } }
  else q

/-- What the entry of a link to ACTIVE leaves, at a block that completes its greeting (R53, R118, R120). -/
def State.EnteredActive (s e : State) (l : LinkId) : Prop :=
  let p := s.port l
  e.port l =
    { p with
      state := .active, align := .aligned, validRun := 0, invalidRun := 0, greetTimer := none, hailTimer := none
      silenceTimer := some (1000 * p.cfg.silenceTimeout), refreshTimer := some (100 * p.cfg.grantRefresh)
      rx := { p.rx with passing := .no }
      tx := { p.tx with hailDue := false }
      ctl := { p.ctl with due := p.ctl.due || decide (0 < s.grantable l .control) }
      dat := { p.dat with due := p.dat.due || decide (0 < s.grantable l .data) } } ∧
  (∀ x : Event, e.flag x = (s.flag x || x == .linkUp l)) ∧
  e = { s.setPort l (e.port l) with ev := { s.ev with flags := e.ev.flags } }

/-- A byte of the cell memory. -/
def State.byteAt (s : State) (address : Nat) : Byte :=
  Memory.readByte s.buf.mem address

/-- Everything of two states but the buffer, the ports, the queues, the flush, the Host Command Unit and the event unit is the same. -/
def State.SameElsewhere (s t : State) : Prop :=
  t.ready = s.ready ∧ t.table = s.table ∧ t.nodeAddr = s.nodeAddr ∧ t.scrub = s.scrub ∧ t.reports = s.reports ∧
  t.pending = s.pending

/-- Memory, check codes and next-cell links are the same. -/
def State.SameCells (s t : State) : Prop :=
  t.buf.mem = s.buf.mem ∧ t.buf.wrong = s.buf.wrong ∧ t.buf.links = s.buf.links

/-- The handle of the frame that a link is receiving. -/
def State.fillingHandles (s : State) (l : LinkId) : List Nat :=
  match (s.port l).rx.frame with
  | some f => [f.handle]
  | none => []

/-- Those records of some handles that no side but a link's holds: the ones freed when that holder goes (R16). -/
def State.heldByLinkAlone (s : State) (l : LinkId) (hs : List Nat) : List Record :=
  (hs.filterMap s.record).filter fun r => r.host == .none && r.holder l.other == .none

/-- A link's holder gone from the records of some handles: freed where it was the last holder, else LIVE on the other sides; no other
record changed (R10, R16). -/
def State.HoldersRemoved (s t : State) (l : LinkId) (hs : List Nat) : Prop :=
  (∀ h ∈ hs, ∀ r, s.record h = some r →
    (r.host = .none → r.holder l.other = .none → t.record h = none) ∧
    (¬(r.host = .none ∧ r.holder l.other = .none) → t.record h = some (r.setHolder l .none))) ∧
  ∀ h, h ∉ hs → t.record h = s.record h

/-- The chains of some freed records at the tail of the free list, in their order, and in-use lowered by each (R6, R17, R113). -/
def State.ChainsFreed (s t : State) (rs : List Record) : Prop :=
  t.buf.free = s.buf.free ++ rs.flatMap Record.cells ∧
  ∀ (k : LinkId) (c : Cls), ((t.port k).credit c).inUse = ((s.port k).credit c).inUse - cellsFrom rs k c

/-- The entries of a link's unacknowledged list confirmed: their holders gone, and the chains of those freed, oldest first (R98). -/
def State.Confirmed (s t : State) (l : LinkId) (hs : List Nat) : Prop :=
  s.HoldersRemoved t l hs ∧ (hs.Nodup → s.ChainsFreed t (s.heldByLinkAlone l hs))

/-- Whether the entry that the flush in progress has marked is among some entries of a queue (R35, R37). -/
def State.Marks (s : State) (q : QueueId) (hs : List Nat) : Prop :=
  ∃ m ∈ hs, s.flush.active = some (q, m)

/-- Whether a flush in progress has its mark in one of a link's transmit queues. -/
def State.MarksSide (s : State) (l : LinkId) : Prop :=
  s.Marks (.tx l .control) (s.queue (.tx l .control)).entries ∨ s.Marks (.tx l .data) (s.queue (.tx l .data)).entries

/-- The flush with its mark discarded, the removed count kept (R37). -/
def State.flushDone (s : State) : FlushUnit :=
  { s.flush with active := none }

/-- What a party other than the flush does to it by taking entries off a queue: where the marked entry is among them the FLUSH completes
with the removed count as it stands, and the unit leaves BUSY; otherwise nothing of it changes (R37, R127, R139). -/
def State.FlushFollows (s t : State) (marked : Prop) : Prop :=
  (marked →
    t.flush = s.flushDone ∧ t.flag .cmdDone = true ∧
    t.hcu = { s.hcu with busy := false, result := .ok, completed := 7, res := { r0 := wordOfNat s.flush.removed } }) ∧
  (¬ marked → t.flush = s.flush ∧ t.flag .cmdDone = s.flag .cmdDone ∧ t.hcu = s.hcu)

/-- Whether an entry of a link's unacknowledged list lies at or after a point (R102). -/
def State.EntryFrom (s : State) (l : LinkId) (point : Byte) : Prop :=
  ∃ h ∈ (s.port l).tx.unacked, ∃ n, s.seqOn l h = some n ∧ (n - point).toNat < 128

/-- The test of the end of a replay episode whose point was `point`: it goes on exactly while an entry lies at or after it (R106). -/
def State.EpisodeTested (t : State) (l : LinkId) (point : Option Byte) : Prop :=
  (point = none → (t.port l).tx.replay = none) ∧
  ∀ q, point = some q →
    (t.EntryFrom l q → (t.port l).tx.replay = some q) ∧ (¬ t.EntryFrom l q → (t.port l).tx.replay = none)

/-- The newer of the held point, if one is held, and a new point, in list order: the seqs of the list are consecutive, so that the newer
lies further from the seq of the frame being resent (R93, R99). -/
def newerOf (first : Byte) (held : Option Byte) (point : Byte) : Byte :=
  match held with
  | none => point
  | some q => if (point - first).toNat < (q - first).toNat then q else point

/-- The counter of the test that a forward part on a link fails first, of hops, the link's state and the queue's limit (R87). -/
def State.forwardRefusal (s : State) (l : LinkId) (r : Record) : Option PartCounter :=
  if r.hops = 0 then some .hopLimit
  else if (s.port l).state ≠ .active then some .fwdLinkDown
  else if (s.queue (.tx l r.cls)).limit ≤ (s.queue (.tx l r.cls)).entries.length then some .fwdQueueFull
  else none

/-- The frames that a teardown of a link takes off its side, one TEARDOWN_DROP each (R61). -/
def State.droppedHandles (s : State) (l : LinkId) : List Nat :=
  (match (s.port l).tx.line with
    | .frame f => if f.resend then [] else [f.handle]
    | .control _ => []
    | .none => []) ++
  (s.port l).tx.unacked ++ (s.queue (.tx l .control)).entries ++ (s.queue (.tx l .data)).entries

/-- What a teardown of a link leaves (R61, R62, R109, Table 3-3), `s` being the state before it.
The record being filled is freed; each frame dropped loses its holder on the link's side, and is freed where that was the last;
the chains of the freed join the free list in the order of the steps of R61, and in-use falls with them (R16, R17, R23).
The mark of a flush of one of its queues goes with the marked entry (R37). -/
def State.TornDown (s t : State) (l : LinkId) : Prop :=
  let p := s.port l
  let q := t.port l
  (t.queue (.tx l .control)).entries = [] ∧ (t.queue (.tx l .data)).entries = [] ∧
  q.tx.unacked = [] ∧ q.tx.line = .none ∧ q.tx.nextSeq = 0 ∧ q.tx.replay = none ∧ q.tx.replayCount = 0 ∧
  q.tx.held = none ∧ q.tx.replayTimer = none ∧ q.tx.idleTimer = none ∧ q.tx.liveWindow = p.tx.liveWindow ∧
  q.rx = .reset ∧ q.ctl.CountsZero ∧ q.dat.CountsZero ∧ q.ctl.live = 0 ∧ q.dat.live = 0 ∧
  q.ctl.due = false ∧ q.dat.due = false ∧ q.ctl.stallTimer = none ∧ q.dat.stallTimer = none ∧
  q.align = .none ∧ q.validRun = 0 ∧ q.invalidRun = 0 ∧ q.hailTimer = none ∧ q.greetTimer = none ∧
  q.silenceTimer = none ∧ q.realignTimer = none ∧ q.refreshTimer = none ∧
  q.partner = p.partner ∧ q.cfg = p.cfg ∧
  (∀ h ∈ s.fillingHandles l, t.record h = none) ∧
  (∀ h ∈ s.droppedHandles l, h ∉ s.fillingHandles l → ∀ r, s.record h = some r →
    (r.host = .none → r.holder l.other = .none → t.record h = none) ∧
    (¬(r.host = .none ∧ r.holder l.other = .none) → t.record h = some (r.setHolder l .none))) ∧
  (∀ h, h ∉ s.fillingHandles l ++ s.droppedHandles l → t.record h = s.record h) ∧
  ((s.fillingHandles l ++ s.droppedHandles l).Nodup →
    s.ChainsFreed t ((s.fillingHandles l).filterMap s.record ++ s.heldByLinkAlone l (s.droppedHandles l))) ∧
  t.ev.counters.teardownDrop = s.ev.counters.teardownDrop + BitVec.ofNat 32 (s.droppedHandles l).length ∧
  q.counters.linkDowns = (if p.state = .active then p.counters.linkDowns + 1 else p.counters.linkDowns) ∧
  (p.state = .active → t.flag (.linkDown l) = true) ∧
  (s.MarksSide l → t.flush = s.flushDone) ∧ (¬ s.MarksSide l → t.flush = s.flush) ∧
  (∀ c, (t.queue (.host c)).entries = (s.queue (.host c)).entries) ∧
  (∀ c, (t.queue (.tx l.other c)).entries = (s.queue (.tx l.other c)).entries) ∧
  (t.port l.other).state = (s.port l.other).state ∧ (t.port l.other).rx = (s.port l.other).rx ∧
  (t.port l.other).tx = (s.port l.other).tx ∧ s.SameElsewhere t ∧ s.SameCells t

/-- What the entry to FAULT leaves, and the completion of a flush whose marked entry its teardown removes (R37, R59, R61). -/
def State.FaultedBy (s t : State) (l : LinkId) (reason : FaultReason) : Prop :=
  (t.port l).state = .fault ∧ (t.port l).lastFault = reason ∧
  (t.port l).holdTimer = some (1000 * (s.port l).cfg.holdDown) ∧ s.TornDown t l ∧
  s.FlushFollows t (s.MarksSide l)

end Sys2Proof.Machine
end

