-- ==== Sys2Proof/Certificates/Slice0/Obligations.lean ====
section
/-! DEFINITION. The statements for the provers. -/

open Sys2Proof Sys2Proof.Machine

/-! ## The machine -/

/-- A step is `exec` of the command at the front, on the state with the queue's rest; an empty queue idles (log entry 7). -/
def Obligations.StepRunsFrontCommand : Prop :=
  (∀ (c : Instr) (s : State), step { s with pending := c :: s.pending } = exec c s) ∧
  ∀ s : State, s.pending = [] → step s = .next s

/-- No command changes the queue of waiting commands.
The only stop is that of a header whose allocation finds too few cells (R5, log entry 12). -/
def Obligations.EveryCommandAnswers : Prop :=
  (∀ (c : Instr) (s t : State), exec c s = .next t → t.pending = s.pending) ∧
  (∀ (c : Instr) (s : State), (∃ t, exec c s = .next t) ∨
     ∃ l header, c = .frameHeaderReceived l header ∧ exec c s = .fault .allocationShort)

/-! ## Resets -/

/-- The reset input: every field at its reset value but the stored memory, which initialization will write (that it is kept until then
is the model's choice, log entry 10, and so is that the next-cell links already written are kept, log entry 11; the values of the
model's own fields are log entries 4, 7 and 13).
The settings then read as the text under Table 10-2 lists them. -/
def Obligations.ResetInputResult : Prop :=
  ∀ s : State,
    exec .resetInput s = .next
      { State.reset with
        buf := { State.reset.buf with mem := s.buf.mem, wrong := s.buf.wrong, links := s.buf.links }
        choices := s.choices
        pending := s.pending } ∧
    State.reset.ready = false ∧ State.reset.buf.free = [] ∧ State.reset.buf.records = [] ∧
    (∀ q, (State.reset.queue q).entries = [] ∧ (State.reset.queue q).limit = 64) ∧
    (∀ l, (State.reset.port l).state = .disabled ∧ (State.reset.port l).lastFault = .none ∧
      (State.reset.port l).partner = 0 ∧ (State.reset.port l).cfg = .default ∧
      (State.reset.port l).tx.liveWindow = 16) ∧
    State.reset.nodeAddr = 0 ∧ State.reset.hcu.busy = false ∧ State.reset.hcu.port = none ∧
    State.reset.scrub.mode = .off ∧ State.reset.scrub.interval = 16 ∧ State.reset.reports = [] ∧
    State.reset.ev.flags = 0 ∧ State.reset.ev.enables = 0 ∧ State.reset.interruptActive = false ∧
    ∀ l : LinkId,
      let base : Nat := match l with | .a => 64 | .b => 96
      let read := fun i => State.reset.readRegister (BitVec.ofNat 7 i)
      (field (read (base + 13)) 5 0 = 16 ∧ field (read (base + 13)) 11 8 = 4 ∧ field (read (base + 13)) 22 16 = 5 ∧
        field (read (base + 13)) 30 24 = 8) ∧
      (field (read (base + 14)) 7 0 = 20 ∧ field (read (base + 14)) 11 8 = 4 ∧ field (read (base + 14)) 22 16 = 4 ∧
        field (read (base + 14)) 31 24 = 10) ∧
      (field (read (base + 15)) 6 0 = 4 ∧ field (read (base + 15)) 14 8 = 10 ∧ field (read (base + 15)) 23 16 = 0 ∧
        field (read (base + 15)) 28 24 = 2) ∧
      (field (read (base + 16)) 6 0 = 10 ∧ field (read (base + 16)) 15 8 = 20 ∧ field (read (base + 16)) 16 16 = 0) ∧
      (field (read (base + 12)) 6 0 = 16 ∧ field (read (base + 12)) 25 16 = 240) ∧
      (field (read 32) 1 0 = 0 ∧ field (read 32) 25 16 = 16) ∧
      (∀ q : QueueId, field (read (23 + q.code)) 24 16 = 64) ∧
      (field (read 30) 1 0 = 0 ∧ field (read 30) 12 4 = 1 ∧ field (read 30) 24 16 = 1)

/-- The end of initialization: every word zero with a valid code, every record FREE, the free list 0 to 1023, READY,
and a pass in mode SINGLE or CONTINUOUS. That the whole memory is written in this one step is the model's choice (log entry 10); of
the next-cell links, to which R19 gives no value (log entry 11), it says nothing. -/
def Obligations.InitCompleteResult : Prop :=
  ∀ s : State, s.ready = false →
    ∃ t, exec .initComplete s = .next t ∧
      t.ready = true ∧ t.buf.free = List.range 1024 ∧ t.buf.records = [] ∧
      (∀ a, t.byteAt a = 0) ∧ (∀ p, t.judge p = .good) ∧
      t.scrub = (if s.scrub.mode = .off then s.scrub
        else { s.scrub with running := true, position := 0, timer := some s.scrub.interval }) ∧
      t = { s with ready := true, buf := t.buf, scrub := t.scrub }

/-- Soft reset: working state at its reset values, configuration, counters, enables and memory kept.
The values of the two views of what the part puts out, `busData` 0 and `lastEnd` none, are the model's (log entry 13). -/
def Obligations.SoftResetResult : Prop :=
  ∀ s : State, ∃ t, exec .softReset s = .next t ∧
    t.buf.records = [] ∧ (s.ready = true → t.buf.free = List.range 1024) ∧
    (s.ready = false → t.buf.free = s.buf.free) ∧ s.SameCells t ∧ t.ready = s.ready ∧
    (∀ q, (t.queue q).entries = [] ∧ (t.queue q).limit = (s.queue q).limit) ∧
    t.queues.hrcCfg = s.queues.hrcCfg ∧ t.queues.hrdCfg = s.queues.hrdCfg ∧
    t.flush = { active := none, removed := 0 } ∧
    (∀ l, t.port l = { LinkPort.reset with
      cfg := (s.port l).cfg
      counters := (s.port l).counters
      tx := { Transmitter.reset with liveWindow := (s.port l).tx.liveWindow } }) ∧
    t.hcu = HostUnit.reset ∧ t.reports = [] ∧ t.ev.flags = 0 ∧ t.ev.enables = s.ev.enables ∧
    t.ev.counters = s.ev.counters ∧ t.table = s.table ∧ t.nodeAddr = s.nodeAddr ∧
    t.scrub.mode = s.scrub.mode ∧ t.scrub.interval = s.scrub.interval ∧ t.scrub.position = 0 ∧
    t.scrub.running = (s.scrub.mode == .continuous && s.ready) ∧
    t.scrub.timer = (if s.scrub.mode = .continuous ∧ s.ready = true then some s.scrub.interval else none)

/-! ## Taking a command -/

/-- While the unit is BUSY every write of CMD is ignored and sets CMD_OVERRUN; writes of ARG0 to ARG3 are taken.
While READY is 0 every command is answered NOT_READY and changes nothing else.
A code that names no command is answered BAD_ARG and changes nothing else. The completed command it shows is the model's
(log entries 5 and 17). -/
def Obligations.CommandsTurnedAway : Prop :=
  (∀ s : State, s.hcu.busy = true →
     (∀ c code, (c, code) ∈ commandCodes →
       exec c s = .next { s with ev := { s.ev with flags := s.ev.flags ||| 8#14 } }) ∧
     (∀ code, exec (.unknownCommand code) s = .next { s with ev := { s.ev with flags := s.ev.flags ||| 8#14 } }) ∧
     (∀ code, exec (.cmdOverrun code) s = .next { s with ev := { s.ev with flags := s.ev.flags ||| 8#14 } }) ∧
     ∀ v,
       exec (.registerWrite 8 v) s = .next { s with hcu := { s.hcu with arg0 := v } } ∧
       exec (.registerWrite 9 v) s = .next { s with hcu := { s.hcu with arg1 := v } } ∧
       exec (.registerWrite 10 v) s = .next { s with hcu := { s.hcu with arg2 := v } } ∧
       exec (.registerWrite 11 v) s = .next { s with hcu := { s.hcu with arg3 := v } }) ∧
  (∀ s : State, s.ready = false → s.hcu.busy = false →
     (∀ c code, (c, code) ∈ commandCodes → exec c s = .next (s.answered code .notReady {})) ∧
     ∀ code : Word, code.toNat < 256 → exec (.unknownCommand code) s = .next (s.answered code .notReady {})) ∧
  (∀ (s : State) (code : Word), s.UnitIdle →
     ∃ shown : Byte, exec (.unknownCommand code) s = .next
       { s with
         hcu := { s.hcu with cmd := code, completed := shown, result := .badArg, res := {} }
         ev := { s.ev with flags := s.ev.flags ||| 4#14 } } ∧
       (code.toNat < 256 → shown = code.setWidth 8))

/-! ## Frame commands -/

/-- ALLOC carried out, up to what the GRANTs and the arbiters do with it.
ALLOC refused: the tests in their order, and nothing else changed. -/
def Obligations.AllocResult : Prop :=
  (∀ (s : State) (c : Cls), s.UnitIdle →
     1 ≤ s.hcu.arg0.toNat → s.hcu.arg0.toNat ≤ 1024 →
     s.hcu.arg1 = (match c with | .control => 1 | .data => 2) →
     s.hcu.held < 64 → (s.hcu.arg0.toNat + 63) / 64 + s.totalOutstanding ≤ s.buf.free.length →
     let k := (s.hcu.arg0.toNat + 63) / 64
     let h := s.buf.free.headD 0
     let chain := s.buf.free.take k
     ∃ t : State, exec .alloc s = .next (t.settle { s with hcu := { s.hcu with cmd := 1 } }) ∧
       t.buf.free = s.buf.free.drop k ∧
       t.record h = some
         { phase := .filling .host, origin := .host, cls := c, length := s.hcu.arg0.toNat, cells := chain
           destination := none, source := none, hops := 0, host := .filling, linkA := .none, linkB := .none
           poisoned := false } ∧
       (∀ g, g ≠ h → t.record g = s.record g) ∧
       (∀ a, a / 64 ∈ chain → t.byteAt a = 0) ∧ (∀ a, a / 64 ∉ chain → t.byteAt a = s.byteAt a) ∧
       (∀ p, p / 8 ∈ chain → t.wrongBits p = []) ∧
       (chain.Nodup → followLinks t.buf.links k h = chain) ∧
       t = State.answered { s with buf := t.buf, hcu := { s.hcu with held := s.hcu.held + 1 } } 1 .ok { r0 := wordOfNat h }) ∧
  (∀ s : State, s.UnitIdle →
     let L := s.hcu.arg0.toNat
     let argsOk := (1 ≤ L ∧ L ≤ 1024) ∧ (s.hcu.arg1 = 1 ∨ s.hcu.arg1 = 2)
     (¬ argsOk → exec .alloc s = .next (s.answered 1 .badArg {})) ∧
     (argsOk → 64 ≤ s.hcu.held → exec .alloc s = .next (s.answered 1 .handleLimit {})) ∧
     (argsOk → s.hcu.held < 64 → s.buf.free.length < (L + 63) / 64 + s.totalOutstanding →
       exec .alloc s = .next (s.answered 1 .noCells {})))

/-- OPEN: the port set on a host-held record, and its refusals in their order. -/
def Obligations.OpenResult : Prop :=
  ∀ s : State, s.UnitIdle →
    let h := s.hcu.arg0.toNat
    let offset := s.hcu.arg1.toNat
    let mode := s.hcu.arg2
    let held := h < 1024 ∧ ∃ r, s.record h = some r ∧ (r.host = .filling ∨ r.host = .claimed)
    ((mode ≠ 1 ∧ mode ≠ 2) ∨ offset % 4 ≠ 0 → exec .openPort s = .next (s.answered 2 .badArg {})) ∧
    ((mode = 1 ∨ mode = 2) → offset % 4 = 0 → ¬ held → exec .openPort s = .next (s.answered 2 .badHandle {})) ∧
    ∀ r, (mode = 1 ∨ mode = 2) → offset % 4 = 0 → h < 1024 → s.record h = some r →
      (r.host = .filling ∨ r.host = .claimed) →
      (mode = 2 → r.host = .claimed → exec .openPort s = .next (s.answered 2 .wrongState {})) ∧
      (¬(mode = 2 ∧ r.host = .claimed) → r.length ≤ offset → exec .openPort s = .next (s.answered 2 .badArg {})) ∧
      (¬(mode = 2 ∧ r.host = .claimed) → offset < r.length →
        exec .openPort s = .next
          (State.answered
            { s with hcu := { s.hcu with
                port := some { handle := h, offset := offset, mode := if mode = 1 then .read else .write } } }
            2 .ok { r0 := wordOfNat r.length }))

/-- POST carried out: the record change of R14 and the joint admission of R26, up to what the arbiters do with it.
POST refused: the tests in their order, and nothing else changed. -/
def Obligations.PostResult : Prop :=
  (∀ (s : State) (r : Record) (onA onB : Bool), s.UnitIdle →
     s.hcu.arg0.toNat < 1024 → s.record s.hcu.arg0.toNat = some r → r.host = .filling →
     s.hcu.arg1.toNat ≤ 255 → s.hcu.arg3.toNat ≤ 15 →
     ((onA = true ∧ onB = false ∧ s.hcu.arg2 = 1) ∨ (onA = false ∧ onB = true ∧ s.hcu.arg2 = 2) ∨
       (onA = true ∧ onB = true ∧ s.hcu.arg2 = 3)) →
     (onA = true → s.portA.state = .active ∧ (s.queue (.tx .a r.cls)).entries.length < (s.queue (.tx .a r.cls)).limit) →
     (onB = true → s.portB.state = .active ∧ (s.queue (.tx .b r.cls)).entries.length < (s.queue (.tx .b r.cls)).limit) →
     let h := s.hcu.arg0.toNat
     ∃ t : State, exec .post s = .next (t.settle { s with hcu := { s.hcu with cmd := 3 } }) ∧
       t.record h = some
         { r with
           destination := some (s.hcu.arg1.setWidth 8), source := some s.nodeAddr, hops := s.hcu.arg3.setWidth 4
           host := .none, phase := .live
           linkA := if onA then .queued else r.linkA
           linkB := if onB then .queued else r.linkB } ∧
       (∀ g, g ≠ h → t.record g = s.record g) ∧
       (t.queue (.tx .a r.cls)).entries = (s.queue (.tx .a r.cls)).entries ++ (if onA then [h] else []) ∧
       (t.queue (.tx .b r.cls)).entries = (s.queue (.tx .b r.cls)).entries ++ (if onB then [h] else []) ∧
       (∀ q, q ≠ .tx .a r.cls → q ≠ .tx .b r.cls → t.queue q = s.queue q) ∧
       s.SameCells t ∧ t.buf.free = s.buf.free ∧
       t = State.answered
         { s with
           buf := t.buf, queues := t.queues
           hcu := { s.hcu with
             held := s.hcu.held - 1
             port := match s.hcu.port with
               | some p => if p.handle = h then none else some p
               | none => none } }
         3 .ok { r0 := wordOfNat h }) ∧
  (∀ s : State, s.UnitIdle →
     let argsOk := s.hcu.arg1.toNat ≤ 255 ∧ s.hcu.arg3.toNat ≤ 15 ∧
       (s.hcu.arg2 = 1 ∨ s.hcu.arg2 = 2 ∨ s.hcu.arg2 = 3)
     let onA := s.hcu.arg2 = 1 ∨ s.hcu.arg2 = 3
     let onB := s.hcu.arg2 = 2 ∨ s.hcu.arg2 = 3
     let fillingAt := fun r => s.hcu.arg0.toNat < 1024 ∧ s.record s.hcu.arg0.toNat = some r ∧ r.host = .filling
     let down := (onA ∧ s.portA.state ≠ .active) ∨ (onB ∧ s.portB.state ≠ .active)
     (¬ argsOk → exec .post s = .next (s.answered 3 .badArg {})) ∧
     (argsOk → (¬ ∃ r, fillingAt r) → exec .post s = .next (s.answered 3 .badHandle {})) ∧
     ∀ r, argsOk → fillingAt r →
       (down → exec .post s = .next (s.answered 3 .linkDown {})) ∧
       (¬ down →
         (onA ∧ (s.queue (.tx .a r.cls)).limit ≤ (s.queue (.tx .a r.cls)).entries.length ∨
           onB ∧ (s.queue (.tx .b r.cls)).limit ≤ (s.queue (.tx .b r.cls)).entries.length) →
         exec .post s = .next (s.answered 3 .queueFull {})))

/-- CLAIM: the head of a host receive queue becomes CLAIMED and its fields are returned; its refusals in their order. -/
def Obligations.ClaimResult : Prop :=
  ∀ (s : State) (c : Cls), s.UnitIdle →
    (s.hcu.arg0 ≠ 1 → s.hcu.arg0 ≠ 2 → exec .claim s = .next (s.answered 4 .badArg {})) ∧
    (s.hcu.arg0 = (match c with | .control => 1 | .data => 2) →
      ((s.queue (.host c)).entries = [] → exec .claim s = .next (s.answered 4 .empty {})) ∧
      ∀ h rest, (s.queue (.host c)).entries = h :: rest →
        (64 ≤ s.hcu.held → exec .claim s = .next (s.answered 4 .handleLimit {})) ∧
        ∀ r, s.hcu.held < 64 → s.record h = some r →
          ∃ t : State, exec .claim s = .next t ∧
            t.record h = some { r with host := .claimed } ∧ (∀ g, g ≠ h → t.record g = s.record g) ∧
            (t.queue (.host c)).entries = rest ∧ (∀ q, q ≠ .host c → t.queue q = s.queue q) ∧
            s.SameCells t ∧ t.buf.free = s.buf.free ∧
            t = State.answered
              { s with buf := t.buf, queues := t.queues, hcu := { s.hcu with held := s.hcu.held + 1 } } 4 .ok
              { r0 := wordOfNat h
                r1 := wordOfNat r.length
                r2 := (match r.cls with | .control => 1 | .data => 2)
                r3 := (match r.destination with | some d => d.setWidth 32 | none => 0)
                r4 := (match r.source with | some d => d.setWidth 32 | none => 0)
                r5 := (match r.origin with | .host => 1 | .link .a => 2 | .link .b => 3)
                r6 := (if r.poisoned then 1 else 0)
                r7 := wordOfNat rest.length })

/-- RELEASE: the host holder removed, and the record freed where it was the last holder; BAD_HANDLE otherwise. -/
def Obligations.ReleaseResult : Prop :=
  ∀ s : State, s.UnitIdle →
    let h := s.hcu.arg0.toNat
    let held := h < 1024 ∧ ∃ r, s.record h = some r ∧ (r.host = .filling ∨ r.host = .claimed)
    (¬ held → exec .release s = .next (s.answered 5 .badHandle {})) ∧
    ∀ r, h < 1024 → s.record h = some r → (r.host = .filling ∨ r.host = .claimed) →
      ∃ t : State, exec .release s = .next (t.settle { s with hcu := { s.hcu with cmd := 5 } }) ∧
        (r.linkA = .none → r.linkB = .none →
          t.record h = none ∧ t.buf.free = s.buf.free ++ r.cells ∧
          ∀ l c, ((t.port l).credit c).inUse = ((s.port l).credit c).inUse -
            (if r.origin = .link l ∧ r.cls = c then r.cells.length else 0)) ∧
        (¬(r.linkA = .none ∧ r.linkB = .none) →
          t.record h = some { r with host := .none } ∧ t.buf.free = s.buf.free ∧ t.portA = s.portA ∧ t.portB = s.portB) ∧
        (∀ l, t.port l =
          { s.port l with
            ctl := { (s.port l).ctl with inUse := (t.port l).ctl.inUse }
            dat := { (s.port l).dat with inUse := (t.port l).dat.inUse } }) ∧
        (∀ g, g ≠ h → t.record g = s.record g) ∧ s.SameCells t ∧
        t = State.answered
          { s with
            buf := t.buf, portA := t.portA, portB := t.portB
            hcu := { s.hcu with
              held := s.hcu.held - 1
              port := match s.hcu.port with
                | some p => if p.handle = h then none else some p
                | none => none } }
          5 .ok {}

/-- QUERY: every field of a record that is not FREE, and nothing changed. -/
def Obligations.QueryResult : Prop :=
  ∀ s : State, s.UnitIdle →
    let h := s.hcu.arg0.toNat
    (1024 ≤ h ∨ s.record h = none → exec .query s = .next (s.answered 6 .badHandle {})) ∧
    ∀ r, h < 1024 → s.record h = some r → r.length ≤ 1024 → r.cells.length ≤ 16 →
      ∃ res : Results, exec .query s = .next (s.answered 6 .ok res) ∧
        field res.r0 10 0 = r.length ∧ field res.r0 20 16 = r.cells.length ∧
        field res.r0 24 24 = (match r.phase with | .filling _ => 0 | .live => 1) ∧
        field res.r0 27 26 = (match r.phase with
          | .filling .host => 1 | .filling (.link .a) => 2 | .filling (.link .b) => 3 | .live => 0) ∧
        field res.r0 29 28 = (match r.origin with | .host => 1 | .link .a => 2 | .link .b => 3) ∧
        field res.r0 31 30 = (match r.cls with | .control => 1 | .data => 2) ∧
        field res.r1 8 0 = (match r.destination with | some d => 256 + d.toNat | none => 0) ∧
        field res.r1 24 16 = (match r.source with | some d => 256 + d.toNat | none => 0) ∧
        field res.r1 31 28 = r.hops.toNat ∧
        field res.r2 1 0 = (match r.host with | .none => 0 | .filling => 1 | .queued => 2 | .claimed => 3) ∧
        field res.r2 3 2 = (match r.linkA with | .none => 0 | .queued => 1 | .sending _ => 2 | .unacked _ => 3) ∧
        field res.r2 5 4 = (match r.linkB with | .none => 0 | .queued => 1 | .sending _ => 2 | .unacked _ => 3) ∧
        field res.r2 6 6 = (if r.poisoned then 1 else 0) ∧
        field res.r2 15 8 = (match r.linkA with
          | .sending q => q.toNat | .unacked q => q.toNat | .none => 0 | .queued => 0) ∧
        field res.r2 31 24 = (match r.linkB with
          | .sending q => q.toNat | .unacked q => q.toNat | .none => 0 | .queued => 0) ∧
        field res.r2 16 16 = (match r.linkA with | .sending _ => 1 | .unacked _ => 1 | .none => 0 | .queued => 0) ∧
        field res.r2 17 17 = (match r.linkB with | .sending _ => 1 | .unacked _ => 1 | .none => 0 | .queued => 0) ∧
        ((∀ x ∈ r.cells, x < 1024) →
          field res.r3 9 0 = r.cells.getD 1 0 ∧ field res.r3 19 10 = r.cells.getD 2 0 ∧ field res.r3 29 20 = r.cells.getD 3 0 ∧
          field res.r4 9 0 = r.cells.getD 4 0 ∧ field res.r4 19 10 = r.cells.getD 5 0 ∧ field res.r4 29 20 = r.cells.getD 6 0 ∧
          field res.r5 9 0 = r.cells.getD 7 0 ∧ field res.r5 19 10 = r.cells.getD 8 0 ∧ field res.r5 29 20 = r.cells.getD 9 0 ∧
          field res.r6 9 0 = r.cells.getD 10 0 ∧ field res.r6 19 10 = r.cells.getD 11 0 ∧
          field res.r6 29 20 = r.cells.getD 12 0 ∧ field res.r7 9 0 = r.cells.getD 13 0 ∧
          field res.r7 19 10 = r.cells.getD 14 0 ∧ field res.r7 29 20 = r.cells.getD 15 0)

/-! ## Queue, link, table, report and scrubber commands -/

/-- FLUSH: an empty queue completes at once with 0; otherwise the tail is marked and the unit is BUSY.
A removal of a flush in progress: the head entry and its holder on the queue's side leave, the removed count rises, no counter
counts, and the marked entry's removal completes the FLUSH with the removed count. -/
def Obligations.FlushResult : Prop :=
  (∀ (s : State) (q : QueueId), s.UnitIdle →
     ((∀ p : QueueId, s.hcu.arg0.toNat ≠ p.code) → exec .flush s = .next (s.answered 7 .badArg {})) ∧
     (s.hcu.arg0.toNat = q.code →
       ((s.queue q).entries = [] →
         exec .flush s = .next (State.answered { s with flush := { s.flush with removed := 0 } } 7 .ok {})) ∧
       ∀ front mark, (s.queue q).entries = front ++ [mark] →
         exec .flush s = .next
           { s with
             flush := { active := some (q, mark), removed := 0 }
             hcu := { s.hcu with cmd := 7, busy := true, result := .none, completed := 7, res := {} } })) ∧
  (∀ (s : State) (q : QueueId) (mark h : Nat) (rest : List Nat) (r : Record), s.flush.active = some (q, mark) →
     (s.queue q).entries = h :: rest → s.record h = some r →
     let cleared := match q with
       | .host _ => { r with host := .none }
       | .tx l _ => r.setHolder l .none
     ∃ t : State, exec .flushRemoval s = .next (t.settle s) ∧
       (t.queue q).entries = rest ∧ (∀ p, p ≠ q → t.queue p = s.queue p) ∧ t.flush.removed = s.flush.removed + 1 ∧
       (cleared.host = .none → cleared.linkA = .none → cleared.linkB = .none →
         t.record h = none ∧ t.buf.free = s.buf.free ++ r.cells) ∧
       (¬(cleared.host = .none ∧ cleared.linkA = .none ∧ cleared.linkB = .none) →
         t.record h = some cleared ∧ t.buf.free = s.buf.free) ∧
       (∀ g, g ≠ h → t.record g = s.record g) ∧ s.SameCells t ∧ t.ev.counters = s.ev.counters ∧
       (∀ l, (t.port l).counters = (s.port l).counters) ∧
       (h = mark →
         t.flush.active = none ∧ t.hcu.busy = false ∧ t.hcu.result = .ok ∧ t.hcu.completed = 7 ∧
         t.hcu.res = { r0 := wordOfNat (s.flush.removed + 1) } ∧ t.flag .cmdDone = true) ∧
       (h ≠ mark → t.flush.active = some (q, mark) ∧ t.hcu = s.hcu))

/-- LINK_START: DISABLED or FAULT to HUNT, with runs 0, KEEPs and a stopped hold-down timer; its refusals in their order.
LINK_STOP: nothing changes in DISABLED; any other state ends in DISABLED with a teardown and the last fault reason kept. -/
def Obligations.LinkCommands : Prop :=
  (∀ (s : State) (l : LinkId), s.UnitIdle →
     (s.hcu.arg0 ≠ 1 → s.hcu.arg0 ≠ 2 → exec .linkStart s = .next (s.answered 8 .badArg {})) ∧
     (s.hcu.arg0 = (match l with | .a => 1 | .b => 2) →
       (s.nodeAddr = 0 → exec .linkStart s = .next (s.answered 8 .notConfigured {})) ∧
       (s.nodeAddr ≠ 0 → (s.port l).state ≠ .disabled → (s.port l).state ≠ .fault →
         exec .linkStart s = .next (s.answered 8 .wrongState {})) ∧
       (s.nodeAddr ≠ 0 → ((s.port l).state = .disabled ∨ (s.port l).state = .fault) →
         exec .linkStart s = .next
           (State.answered
             (s.setPort l
               { s.port l with
                 state := .hunt, validRun := 0, invalidRun := 0, holdTimer := none
                 tx := { (s.port l).tx with line := .control .keep } })
             8 .ok {})))) ∧
  (∀ (s : State) (l : LinkId), s.UnitIdle →
     (s.hcu.arg0 ≠ 1 → s.hcu.arg0 ≠ 2 → exec .linkStop s = .next (s.answered 9 .badArg {})) ∧
     (s.hcu.arg0 = (match l with | .a => 1 | .b => 2) →
       ((s.port l).state = .disabled → exec .linkStop s = .next (s.answered 9 .ok {})) ∧
       ((s.port l).state ≠ .disabled →
         ∃ t : State, exec .linkStop s = .next (t.settle { s with hcu := { s.hcu with cmd := 9 } }) ∧
           (t.port l).state = .disabled ∧ (t.port l).lastFault = (s.port l).lastFault ∧ (t.port l).holdTimer = none ∧
           s.TornDown t l ∧ t.hcu = { s.hcu with cmd := 9, result := .ok, completed := 9, res := {} } ∧
           t.flag .cmdDone = true)))

/-- TABLE_SET writes an entry whole, and TABLE_GET returns it; an index, address or action out of range is refused.
REPORT_TAKE: EMPTY, or the oldest entry removed and returned with the number left.
SCRUB_START: WRONG_STATE while a pass is in progress; otherwise a pass from word position 0, the mode unchanged. -/
def Obligations.TableReportScrubCommands : Prop :=
  (∀ s : State, s.UnitIdle →
     let i := s.hcu.arg0.toNat
     let a := s.hcu.arg2.toNat
     let x := s.hcu.arg3
     (16 ≤ i ∨ 256 ≤ a ∨ (x ≠ 1 ∧ x ≠ 2 ∧ x ≠ 3 ∧ x ≠ 4) → exec .tableSet s = .next (s.answered 10 .badArg {})) ∧
     (∀ act : Action, i < 16 → a < 256 → x = wordOfNat act.code →
       let e : DeliveryEntry := { valid := s.hcu.arg1.getLsbD 0, address := s.hcu.arg2.setWidth 8, action := act }
       exec .tableSet s = .next (State.answered { s with table := s.table.set i e } 10 .ok {})) ∧
     (16 ≤ i → exec .tableGet s = .next (s.answered 11 .badArg {})) ∧
     ∀ e, i < 16 → s.table[i]? = some e →
       exec .tableGet s = .next (s.answered 11 .ok
         { r0 := (if e.valid then 1 else 0), r1 := e.address.setWidth 32
           r2 := (match e.action with | .host => 1 | .forward => 2 | .hostAndForward => 3 | .discard => 4) })) ∧
  (∀ s : State, s.UnitIdle →
     (s.reports = [] → exec .reportTake s = .next (s.answered 12 .empty {})) ∧
     ∀ e rest, s.reports = e :: rest →
       exec .reportTake s = .next
         (State.answered { s with reports := rest } 12 .ok
           { r0 := wordOfNat e.cell, r1 := wordOfNat e.word
             r2 := (match e.kind with | .corrected => 1 | .uncorrectable => 2)
             r3 := (match e.reader with | .tx .a => 1 | .tx .b => 2 | .host => 3 | .scrub => 4)
             r4 := (match e.handle with | some h => place h 9 0 ||| 0x10000 | none => 0)
             r5 := (match e.bit with | some b => place b 6 0 ||| 0x10000 | none => 0)
             r6 := wordOfNat e.occurrences, r7 := wordOfNat rest.length })) ∧
  (∀ s : State, s.UnitIdle →
     (s.scrub.running = true → exec .scrubStart s = .next (s.answered 13 .wrongState {})) ∧
     (s.scrub.running = false →
       exec .scrubStart s = .next
         (State.answered
           { s with scrub := { s.scrub with running := true, position := 0, timer := some s.scrub.interval } } 13 .ok {})))

/-! ## Data port -/

/-- The judgement of a word read (R151): good and as stored with no wrong bit, corrected with one and that bit put right, a wrong check
bit leaving the data as stored, uncorrectable and as stored with two; with three or more one of these outcomes, a free value
(log entry 3). `wrongBits` is the model's account of the stored bits (log entry 2).
A read of PORT_DATA below the length moves 4 bytes, 0 beyond the length; the offset rises by 4; an uncorrectable word sets
PORT_ERROR and poisons its owner; a faulty word is reported by its cell, word, kind, reader, owner and bit (R152). What the bus carries
is kept in `busData`, the model's view (log entry 13). -/
def Obligations.PortReadResult : Prop :=
  (∀ (s : State) (p : Nat),
    (∀ i, i < 8 → byteOf (s.storedData p) i = s.byteAt (8 * p + i)) ∧
    (s.wrongBits p = [] → s.judge p = .good) ∧
    (∀ b, s.wrongBits p = [b] → s.judge p = .corrected b) ∧
    (∀ b c, s.wrongBits p = [b, c] → s.judge p = .uncorrectable) ∧
    (3 ≤ (s.wrongBits p).length → s.judge p = .good ∨ s.judge p = .uncorrectable ∨ ∃ b, b < 72 ∧ s.judge p = .corrected b) ∧
    (s.judge p = .good ∨ s.judge p = .uncorrectable → s.delivered p = s.storedData p) ∧
    ∀ b, s.judge p = .corrected b →
      (∀ i, i < 64 → b < 64 → (s.delivered p).getLsbD i = ((s.storedData p).getLsbD i != decide (i = b))) ∧
      (64 ≤ b → s.delivered p = s.storedData p)) ∧
  ∀ (s : State) (p : DataPort) (r : Record), s.hcu.port = some p → s.record p.handle = some r → p.offset < r.length →
    p.offset % 4 = 0 →
    let word := r.cells.getD (p.offset / 64) 0 * 8 + p.offset % 64 / 8
    let report := fun kind bit =>
      { cell := word / 8, word := word % 8, kind := kind, reader := .host
        handle := (s.ownerOf (word / 8)).map Prod.fst, bit := bit, occurrences := 1 : ReportEntry }
    ∃ t : State, exec .portDataRead s = .next t ∧
      t.hcu.port = some { p with offset := p.offset + 4 } ∧
      (∀ j, j < 4 → byteOf t.hcu.busData j = if p.offset + j < r.length then byteOf (s.delivered word) (p.offset % 8 + j) else 0) ∧
      s.SameCells t ∧ t.buf.free = s.buf.free ∧
      (s.judge word = .good →
        t = { s with hcu := { s.hcu with port := some { p with offset := p.offset + 4 }, busData := t.hcu.busData } }) ∧
      (∀ b, s.judge word = .corrected b →
        t.buf = s.buf ∧ t.reports = (s.makeReport (report .corrected (some b))).reports ∧
        t.ev.counters.eccCorrectedTotal = s.ev.counters.eccCorrectedTotal + 1 ∧
        t.flag .eccCorrected = true ∧ t.flag .portError = s.flag .portError) ∧
      (s.judge word = .uncorrectable →
        t.reports = (s.makeReport (report .uncorrectable none)).reports ∧
        t.ev.counters.eccUncorrectableTotal = s.ev.counters.eccUncorrectableTotal + 1 ∧
        t.flag .eccUncorrectable = true ∧ t.flag .portError = true ∧
        ∀ h o, s.ownerOf (word / 8) = some (h, o) → t.isPoisoned h = true)

/-- A write of PORT_DATA below the length in WRITE mode merges its bytes below the length into one word, with a fresh code; a faulty
old word is reported by its cell, word, kind, reader, owner and bit (R152).
The data port accesses that are ignored: PORT_ERROR is set, an ignored read returns 0, and nothing else changes. -/
def Obligations.PortWriteResult : Prop :=
  (∀ (s : State) (p : DataPort) (r : Record) (v : Word), s.hcu.port = some p → p.mode = .write →
     s.record p.handle = some r → p.offset < r.length → p.offset % 4 = 0 →
     let word := r.cells.getD (p.offset / 64) 0 * 8 + p.offset % 64 / 8
     let report := fun kind bit =>
       { cell := word / 8, word := word % 8, kind := kind, reader := .host
         handle := (s.ownerOf (word / 8)).map Prod.fst, bit := bit, occurrences := 1 : ReportEntry }
     ∃ t : State, exec (.portDataWrite v) s = .next t ∧
       t.hcu.port = some { p with offset := p.offset + 4 } ∧
       (∀ i, i < 8 → t.byteAt (8 * word + i) =
         if p.offset % 8 ≤ i ∧ i < p.offset % 8 + 4 ∧ p.offset - p.offset % 8 + i < r.length
         then byteOf v (i - p.offset % 8) else byteOf (s.delivered word) i) ∧
       (∀ a, a / 8 ≠ word → t.byteAt a = s.byteAt a) ∧
       t.judge word = .good ∧ (∀ q, q ≠ word → t.wrongBits q = s.wrongBits q) ∧
       t.buf.free = s.buf.free ∧ t.buf.links = s.buf.links ∧ t.flag .portError = s.flag .portError ∧
       (s.judge word = .good → t.reports = s.reports) ∧
       (∀ b, s.judge word = .corrected b → t.reports = (s.makeReport (report .corrected (some b))).reports) ∧
       (s.judge word = .uncorrectable → t.reports = (s.makeReport (report .uncorrectable none)).reports) ∧
       (s.judge word = .uncorrectable → ∀ h o, s.ownerOf (word / 8) = some (h, o) → t.isPoisoned h = true)) ∧
  (∀ (s : State) (v : Word),
     let failed : State := { s with ev := { s.ev with flags := s.ev.flags ||| 0x1000#14 } }
     (s.hcu.port = none →
       exec .portDataRead s = .next { failed with hcu := { s.hcu with busData := 0 } } ∧
       exec (.portDataWrite v) s = .next failed) ∧
     ∀ p r, s.hcu.port = some p → s.record p.handle = some r →
       (r.length ≤ p.offset →
         exec .portDataRead s = .next { failed with hcu := { s.hcu with busData := 0 } } ∧
         exec (.portDataWrite v) s = .next failed) ∧
       (p.mode = .read → exec (.portDataWrite v) s = .next failed))

/-! ## Registers, events and counters -/

/-- A write of EVENT_FLAGS clears each flag written 1 and keeps each written 0; it changes no other state. A clear and a cause that
fall together give the outcome of the order they are taken in. -/
def Obligations.EventFlagsClearResult : Prop :=
  ∀ (s : State) (v : Word), ∃ t : State, exec (.eventFlagsClear v) s = .next t ∧
    (∀ e : Event, t.flag e = (s.flag e && !v.getLsbD e.bit)) ∧
    t = { s with ev := { s.ev with flags := t.ev.flags } } ∧
    ∀ e : Event, v.getLsbD e.bit = true →
      (∃ u, exec (.eventFlagsClear v) (s.raise e) = .next u ∧ u.flag e = false) ∧ (t.raise e).flag e = true

/-- A write of EVENT_ENABLE sets every enable to the value written, whatever READY is, and changes no flag; the register reads it back
and the interrupt output is active exactly while some flag is set and enabled. The reset input clears the enables, soft reset keeps
them. -/
def Obligations.EventEnableResult : Prop :=
  (∀ (s : State) (v : Word), ∃ t : State, exec (.eventEnableWrite v) s = .next t ∧
    (∀ i, i < 14 → t.ev.enables.getLsbD i = v.getLsbD i ∧ (t.readRegister 5).getLsbD i = v.getLsbD i) ∧
    t = { s with ev := { s.ev with enables := t.ev.enables } } ∧
    (t.interruptActive = true ↔ ∃ e : Event, t.flag e = true ∧ v.getLsbD e.bit = true)) ∧
  ∀ s : State,
    (∃ t : State, exec .resetInput s = .next t ∧ t.ev.enables = 0 ∧ t.interruptActive = false) ∧
    ∃ t : State, exec .softReset s = .next t ∧ t.ev.enables = s.ev.enables

/-- A write of the scrubber mode acts by the value and the activity, and a mode that names nothing is ignored. Here the interval field
repeats the interval in force.
SCRUB_INTERVAL is taken for 1 to 1023 and a value of 0 is ignored; the step being timed keeps its length. -/
def Obligations.ScrubControlResult : Prop :=
  (∀ (s : State) (v : Word), v.toNat / 65536 % 1024 = s.scrub.interval → 1 ≤ s.scrub.interval → s.scrub.interval ≤ 1023 →
     (v.toNat % 4 = 3 → exec (.scrubModeWrite v) s = .next s) ∧
     (v.toNat % 4 = 0 →
       exec (.scrubModeWrite v) s = .next
         { s with scrub := { s.scrub with mode := .off, running := false, position := 0, timer := none } }) ∧
     ∀ m : ScrubMode, m ≠ .off → v.toNat % 4 = m.code →
       (s.scrub.running = true ∨ s.ready = false →
         exec (.scrubModeWrite v) s = .next { s with scrub := { s.scrub with mode := m } }) ∧
       (s.scrub.running = false → s.ready = true →
         exec (.scrubModeWrite v) s = .next
           { s with scrub := { s.scrub with mode := m, running := true, position := 0, timer := some s.scrub.interval } })) ∧
  (∀ (s : State) (v : Word), s.scrub.running = true → v.toNat % 4 = s.scrub.mode.code → s.scrub.mode ≠ .off →
     let n := v.toNat / 65536 % 1024
     exec (.scrubModeWrite v) s = .next
       { s with scrub := { s.scrub with interval := if n = 0 then s.scrub.interval else n } })

/-- A write of a counter's register sets it to the value written, whatever READY is, and sets no flag; later counts raise it from
there, and a count taken before the write is lost to the counter. -/
def Obligations.CounterWriteResult : Prop :=
  ∀ (s : State) (v : Word),
    (∀ i (c : PartCounter), partCounterAt i = some c →
      ∃ t : State, exec (.registerWrite (BitVec.ofNat 7 (36 + i)) v) s = .next t ∧ t.ev.counters.get c = v ∧
        (∀ d, d ≠ c → t.ev.counters.get d = s.ev.counters.get d) ∧
        t = { s with ev := { s.ev with counters := t.ev.counters } } ∧
        (t.countPart c).ev.counters.get c = v + 1 ∧
        ∃ u, exec (.registerWrite (BitVec.ofNat 7 (36 + i)) v) (s.countPart c) = .next u ∧ u.ev.counters.get c = v) ∧
    ∀ (l : LinkId) i (c : LinkCounter), linkCounterAt i = some c →
      ∃ t : State, exec (.registerWrite (BitVec.ofNat 7 ((match l with | .a => 81 | .b => 113) + i)) v) s = .next t ∧
        (t.port l).counters.get c = v ∧
        (∀ d, d ≠ c → (t.port l).counters.get d = (s.port l).counters.get d) ∧
        t = s.setPort l { s.port l with counters := (t.port l).counters } ∧
        ((t.countLink l c).port l).counters.get c = v + 1 ∧
        ∃ u, exec (.registerWrite (BitVec.ofNat 7 ((match l with | .a => 81 | .b => 113) + i)) v) (s.countLink l c) = .next u ∧
          (u.port l).counters.get c = v

/-- A write of a queue's register sets its limit to a value from 1 to 256, and ignores any other; the entries stay.
HR_CONFIG sets the two admission modes and each notify level from 1 to 256.
A write of CFG_ALLOW, CFG_FLOW, CFG_REPLAY or CFG_START takes each field within its range and keeps each other field; nothing else
changes, the live allowances and the live window among it. CFG_SESSION is in CreditStallResult, ARG0 to ARG3 in CommandsTurnedAway.
The node address is taken while both links are DISABLED, for 1 to 254; any other write changes nothing. -/
def Obligations.SettingsWriteResult : Prop :=
  (∀ (s : State) (q : QueueId) (v : Word),
     let n := v.toNat / 65536 % 512
     ∃ t : State, exec (.registerWrite (BitVec.ofNat 7 (23 + q.code)) v) s = .next t ∧
       t.queue q = { s.queue q with limit := if 1 ≤ n ∧ n ≤ 256 then n else (s.queue q).limit } ∧
       (∀ p, p ≠ q → t.queue p = s.queue p) ∧
       t = { s with queues := t.queues } ∧ t.queues.hrcCfg = s.queues.hrcCfg ∧ t.queues.hrdCfg = s.queues.hrdCfg) ∧
  (∀ (s : State) (l : LinkId) (v : Word),
     let c := (s.port l).cfg
     let w := v.toNat % 64
     let a := v.toNat / 256 % 16
     let d := v.toNat / 65536 % 128
     let g := v.toNat / 16777216 % 128
     exec (.registerWrite (match l with | .a => 77 | .b => 109) v) s = .next
       (s.setPort l
         { s.port l with cfg :=
             { c with
               window := if 1 ≤ w ∧ w ≤ 32 then w else c.window
               ackStep := if 1 ≤ a ∧ a ≤ 8 then a else c.ackStep
               ackDelay := if 1 ≤ d ∧ d ≤ 64 then d else c.ackDelay
               grantStep := if 1 ≤ g ∧ g ≤ 64 then g else c.grantStep } })) ∧
  (∀ (s : State) (v : Word),
     let cn := v.toNat / 16 % 512
     let dn := v.toNat / 65536 % 512
     exec (.registerWrite 30 v) s = .next
       { s with queues := { s.queues with
           hrcCfg :=
             { mode := if v.toNat % 2 = 1 then .dropOldest else .tailDrop
               notify := if 1 ≤ cn ∧ cn ≤ 256 then cn else s.queues.hrcCfg.notify }
           hrdCfg :=
             { mode := if v.toNat / 2 % 2 = 1 then .dropOldest else .tailDrop
               notify := if 1 ≤ dn ∧ dn ≤ 256 then dn else s.queues.hrdCfg.notify } } }) ∧
  (∀ (s : State) (l : LinkId) (v : Word),
     let c := (s.port l).cfg
     let f0 := v.toNat % 128
     let f1 := v.toNat / 65536 % 1024
     exec (.registerWrite (match l with | .a => 76 | .b => 108) v) s = .next
       (s.setPort l
         { s.port l with cfg :=
             { c with
               allowC := if f0 ≤ 64 then f0 else c.allowC
               allowD := if f1 ≤ 1008 then f1 else c.allowD } })) ∧
  (∀ (s : State) (l : LinkId) (v : Word),
     let c := (s.port l).cfg
     let f0 := v.toNat % 256
     let f1 := v.toNat / 256 % 16
     let f2 := v.toNat / 65536 % 128
     let f3 := v.toNat / 16777216 % 256
     exec (.registerWrite (match l with | .a => 78 | .b => 110) v) s = .next
       (s.setPort l
         { s.port l with cfg :=
             { c with
               replayTimeout := if 1 ≤ f0 then f0 else c.replayTimeout
               replayLimit := if 1 ≤ f1 then f1 else c.replayLimit
               keepInterval := if 1 ≤ f2 ∧ f2 ≤ 64 then f2 else c.keepInterval
               grantRefresh := if 1 ≤ f3 then f3 else c.grantRefresh } })) ∧
  (∀ (s : State) (l : LinkId) (v : Word),
     let c := (s.port l).cfg
     let f0 := v.toNat % 128
     let f1 := v.toNat / 256 % 256
     exec (.registerWrite (match l with | .a => 80 | .b => 112) v) s = .next
       (s.setPort l
         { s.port l with cfg :=
             { c with
               greetTimeout := if 1 ≤ f0 ∧ f0 ≤ 64 then f0 else c.greetTimeout
               holdDown := if 1 ≤ f1 then f1 else c.holdDown
               autoRestart := v.toNat / 65536 % 2 == 1 } })) ∧
  ∀ (s : State) (v : Word),
    let a := v.toNat % 256
    (s.portA.state = .disabled → s.portB.state = .disabled → 1 ≤ a → a ≤ 254 →
      exec (.nodeAddrWrite v) s = .next { s with nodeAddr := v.setWidth 8 }) ∧
    (s.portA.state ≠ .disabled ∨ s.portB.state ≠ .disabled ∨ a = 0 ∨ a = 255 →
      exec (.nodeAddrWrite v) s = .next s)

/-- Every bus write is carried out as the write of its register: the rows of the table cover the window (Table 10-1). -/
def Obligations.BusWriteAgrees : Prop :=
  ∀ (s : State) (reg : BitVec 7) (v : Word),
    exec (busWrite s.hcu.busy reg v) s = .next (s.writeRegister reg v) ∧ (busWrite s.hcu.busy reg v).wellFormed = true

/-! ## What arrives on a link -/

/-- DISABLED and FAULT: the receiver is off, and nothing that arrives changes anything. -/
def Obligations.ReceiverOff : Prop :=
  ∀ (s : State) (l : LinkId), ((s.port l).state = .disabled ∨ (s.port l).state = .fault) →
    exec (.invalidMarker l) s = .next s ∧ (∀ k, exec (.checkedOutBlock l k) s = .next s) ∧
    exec (.keepReceived l) s = .next s ∧ (∀ a b c, exec (.hailReceived l a b c) s = .next s) ∧
    (∀ n, exec (.ackReceived l n) s = .next s) ∧ (∀ n, exec (.nakReceived l n) s = .next s) ∧
    (∀ c v, exec (.grantReceived l c v) s = .next s) ∧ (∀ h, exec (.frameHeaderReceived l h) s = .next s) ∧
    (∀ b, exec (.framePayloadBytes l b) s = .next s) ∧ exec (.frameTruncated l) s = .next s ∧
    (∀ k, exec (.frameTrailerEnd l k) s = .next s) ∧ exec (.frameTrailerAbort l) s = .next s

/-- An invalid marker: the invalid-marker run rises, the valid-block run is 0; the third in ALIGNED enters REALIGNING with a NAK
episode whose NAK is not due. Inside a block, received or passed over, there is no place for a marker to be missing, and nothing changes:
that is the model's deduction (log entry 27).
A checked-out block with no frame in progress: both runs 0; in ALIGNED it counts CHECK_ERRORS, and a frame block starts a NAK
episode; what follows a frame block is passed over to the next marker. -/
def Obligations.DamagedBlockResult : Prop :=
  (∀ (s : State) (l : LinkId), ((s.port l).rx.frame ≠ none ∨ (s.port l).rx.passing ≠ .no) →
     exec (.invalidMarker l) s = .next s) ∧
  (∀ (s : State) (l : LinkId), ((s.port l).state = .hunt ∨ (s.port l).state = .greet ∨ (s.port l).state = .active) →
     (s.port l).rx.frame = none → (s.port l).rx.passing = .no →
     let p := s.port l
     let counted := { p with validRun := 0, invalidRun := p.invalidRun + 1 }
     (¬(p.state = .active ∧ p.align = .aligned ∧ 3 ≤ p.invalidRun + 1) →
       exec (.invalidMarker l) s = .next ((s.setPort l counted).settle s)) ∧
     (p.state = .active → p.align = .aligned → 3 ≤ p.invalidRun + 1 →
       ∃ rx : Receiver, exec (.invalidMarker l) s = .next
           ((s.setPort l
             { counted with align := .realigning, realignTimer := some (100 * p.cfg.realignTimeout), rx := rx }).settle s) ∧
         (p.rx.nak = .none → rx = { p.rx with nak := .pending, nakDue := false }) ∧ (p.rx.nak ≠ .none → rx = p.rx))) ∧
  (∀ (s : State) (l : LinkId) (kind : BlockKind),
     ((s.port l).state = .hunt ∨ (s.port l).state = .greet ∨ (s.port l).state = .active) → (s.port l).rx.frame = none →
     let p := s.port l
     let aligned := p.state = .active ∧ p.align = .aligned
     ∃ t : State, exec (.checkedOutBlock l kind) s = .next (t.settle s) ∧
       (t.port l).validRun = 0 ∧ (t.port l).invalidRun = 0 ∧
       (aligned → (t.port l).counters.checkErrors = p.counters.checkErrors + 1) ∧
       (¬ aligned → (t.port l).counters = p.counters) ∧
       (t.port l).rx.passing = (match kind with | .control => .no | .frame => .toMarker) ∧
       (aligned → kind = .frame → p.rx.nak = .none → (t.port l).rx.nak = .pending ∧ (t.port l).rx.nakDue = true) ∧
       (¬(aligned ∧ kind = .frame ∧ p.rx.nak = .none) →
         (t.port l).rx.nak = p.rx.nak ∧ (t.port l).rx.nakDue = p.rx.nakDue) ∧
       t = s.setPort l
         { p with
           validRun := 0, invalidRun := 0, counters := (t.port l).counters
           rx := { p.rx with
             passing := (t.port l).rx.passing, nak := (t.port l).rx.nak, nakDue := (t.port l).rx.nakDue } })

/-- A valid KEEP: counted in HUNT, where the fourth in a row begins a session; discarded in GREET before the partner's HAIL, and
completing the greeting after it; counted in ACTIVE, where it restarts the silence timer (RealigningResult says what the count does). -/
def Obligations.KeepReceivedResult : Prop :=
  ∀ (s : State) (l : LinkId), (s.port l).rx.frame = none → (s.port l).rx.passing = .no →
    let p := s.port l
    let counted := { p with validRun := p.validRun + 1, invalidRun := 0 }
    (p.state = .hunt → p.validRun + 1 < 4 → exec (.keepReceived l) s = .next ((s.setPort l counted).settle s)) ∧
    (p.state = .hunt → 4 ≤ p.validRun + 1 →
      ∃ t : State, exec (.keepReceived l) s = .next (t.settle s) ∧
        (t.port l).state = .greet ∧ (t.port l).tx.nextSeq = 0 ∧ (t.port l).rx.expected = 0 ∧
        (t.port l).ctl.CountsZero ∧ (t.port l).dat.CountsZero ∧
        (t.port l).ctl.live = p.cfg.allowC ∧ (t.port l).dat.live = p.cfg.allowD ∧
        (t.port l).ctl.inUse = p.ctl.inUse ∧ (t.port l).dat.inUse = p.dat.inUse ∧
        (t.port l).tx.liveWindow = p.cfg.window ∧ (t.port l).partner = 0 ∧ (t.port l).hailReceived = false ∧
        (t.port l).yesSent = false ∧ (t.port l).validRun = 0 ∧ (t.port l).invalidRun = 0 ∧
        (t.port l).greetTimer = some (10000 * p.cfg.greetTimeout) ∧
        (p.tx.line = .control .keep → (t.port l).tx.line = .control .keep ∧ (t.port l).tx.hailDue = true) ∧
        t = s.setPort l (t.port l)) ∧
    (p.state = .greet → p.hailReceived = false → exec (.keepReceived l) s = .next ((s.setPort l counted).settle s)) ∧
    (p.state = .greet → p.hailReceived = true →
      ∃ t : State, exec (.keepReceived l) s = .next (t.settle s) ∧
        (t.port l).state = .active ∧ (t.port l).align = .aligned ∧ (t.port l).validRun = 0 ∧ (t.port l).invalidRun = 0 ∧
        (t.port l).greetTimer = none ∧ (t.port l).hailTimer = none ∧ (t.port l).tx.hailDue = false ∧
        (t.port l).silenceTimer = some (1000 * p.cfg.silenceTimeout) ∧
        (t.port l).refreshTimer = some (100 * p.cfg.grantRefresh) ∧ t.flag (.linkUp l) = true ∧
        (∀ c, 0 < s.grantable l c → ((t.port l).credit c).due = true)) ∧
    (p.state = .active → exec (.keepReceived l) s = .next ((s.setPort l p.afterValid).settle s))

/-- A HAIL in GREET: the checks in their order, then the partner recorded and ACTIVE reached where a HAIL with seen = yes has been
sent; a further HAIL of the partner with seen = no, or before a HAIL with seen = yes has been sent, is only counted; in ACTIVE a HAIL
with seen = no ends the session. That at most one HAIL waits for the line is the model's choice (log entry 28). -/
def Obligations.HailReceivedResult : Prop :=
  ∀ (s : State) (l : LinkId) (sender revision : Byte) (seen : Bool), (s.port l).rx.frame = none →
    let p := s.port l
    let legal := revision = 1 ∧ sender ≠ 0 ∧ sender ≠ 255 ∧ sender ≠ s.nodeAddr
    let faults := fun reason => ∃ t : State,
      exec (.hailReceived l sender revision seen) s = .next (t.settle s) ∧ s.FaultedBy t l reason
    (p.state = .greet → revision ≠ 1 → faults .revisionMismatch) ∧
    (p.state = .greet → revision = 1 → (sender = 0 ∨ sender = 255) → faults .malformed) ∧
    (p.state = .greet → revision = 1 → sender ≠ 0 → sender ≠ 255 → sender = s.nodeAddr → faults .addressClash) ∧
    (p.state = .greet → legal → p.hailReceived = true → sender ≠ p.partner → faults .partnerRestart) ∧
    (p.state = .greet → legal → p.hailReceived = false → (seen = false ∨ p.yesSent = false) →
      ∃ t : State, exec (.hailReceived l sender revision seen) s = .next (t.settle s) ∧
        (t.port l).state = .greet ∧ (t.port l).partner = sender ∧ (t.port l).hailReceived = true ∧
        (p.tx.line = .none → (t.port l).tx.line = .control (.hail s.nodeAddr 1 true) ∧
          (t.port l).hailTimer = some (1000 * p.cfg.hailInterval)) ∧
        (p.tx.line ≠ .none → (t.port l).tx.line = p.tx.line ∧ (t.port l).tx.hailDue = true) ∧
        t = s.setPort l (t.port l)) ∧
    (p.state = .greet → legal → p.hailReceived = true → sender = p.partner → seen = true → p.yesSent = true →
      ∃ t : State, exec (.hailReceived l sender revision seen) s = .next (t.settle s) ∧
        (t.port l).state = .active ∧ (t.port l).align = .aligned ∧ t.flag (.linkUp l) = true) ∧
    (p.state = .greet → legal → p.hailReceived = true → sender = p.partner → (seen = false ∨ p.yesSent = false) →
      exec (.hailReceived l sender revision seen) s = .next
        ((s.setPort l
          { p with validRun := p.validRun + 1, invalidRun := 0, rx := { p.rx with passing := .no } }).settle s)) ∧
    (p.state = .active → seen = false → faults .partnerRestart) ∧
    (p.state = .active → seen = true →
      exec (.hailReceived l sender revision seen) s = .next ((s.setPort l p.afterValid).settle s))

/-- The return to ALIGNED (R56, R57): while REALIGNING a valid block before the fourth in a row is counted and a frame block passed over
with nothing else counted; at the fourth the sub-state is ALIGNED, the realign timer stopped, and a NAK that is pending is due.
ACK, NAK, GRANT and HAIL act in either sub-state as their own statements give, and so does a frame header at the fourth block. -/
def Obligations.RealigningResult : Prop :=
  ∀ (s : State) (l : LinkId), s.Receiving l → (s.port l).align = .realigning →
    let p := s.port l
    let counted := { p with
      validRun := p.validRun + 1, invalidRun := 0, silenceTimer := some (1000 * p.cfg.silenceTimeout)
      rx := { p.rx with passing := .no } }
    (p.validRun + 1 < 4 →
      exec (.keepReceived l) s = .next ((s.setPort l counted).settle s) ∧
      ∀ header, headerCheckOk header = true →
        exec (.frameHeaderReceived l header) s = .next
          ((s.setPort l { counted with rx := { p.rx with passing := .toTrailer } }).settle s)) ∧
    (4 ≤ p.validRun + 1 →
      ∃ t : State, exec (.keepReceived l) s = .next (t.settle s) ∧
        (t.port l).align = .aligned ∧ (t.port l).realignTimer = none ∧ (t.port l).rx.nak = p.rx.nak ∧
        (p.rx.nak = .pending → (t.port l).rx.nakDue = true) ∧ (p.rx.nak ≠ .pending → (t.port l).rx.nakDue = p.rx.nakDue) ∧
        t = s.setPort l
          { counted with
            align := .aligned, realignTimer := none
            rx := { p.rx with passing := .no, nakDue := (t.port l).rx.nakDue } })

/-- Blocks other than HAIL before and at the end of a greeting (R47, R52): in HUNT, and in GREET before the partner's HAIL, they are
counted as a KEEP is, and a frame block is passed over; after the partner's HAIL the first of them brings the link to ACTIVE and is then
handled: a GRANT is applied, an ACK or NAK finds the list empty and is stale, a frame fails its length, source or credit check. -/
def Obligations.GreetingCompleted : Prop :=
  ∀ (s : State) (l : LinkId), (s.port l).rx.frame = none →
    let p := s.port l
    let passedOver := { p with
      validRun := p.validRun + 1, invalidRun := 0, rx := { p.rx with passing := .toTrailer } }
    (p.state = .hunt ∨ (p.state = .greet ∧ p.hailReceived = false) →
      (∀ n, exec (.ackReceived l n) s = exec (.keepReceived l) s ∧ exec (.nakReceived l n) s = exec (.keepReceived l) s) ∧
      ∀ c v, exec (.grantReceived l c v) s = exec (.keepReceived l) s) ∧
    (p.state = .hunt → ∀ a r seen, exec (.hailReceived l a r seen) s = exec (.keepReceived l) s) ∧
    ((p.state = .hunt ∧ p.validRun + 1 < 4) ∨ (p.state = .greet ∧ p.hailReceived = false) →
      ∀ header, headerCheckOk header = true →
        exec (.frameHeaderReceived l header) s = .next ((s.setPort l passedOver).settle s)) ∧
    (p.state = .greet → p.hailReceived = true →
      ∃ e : State, s.EnteredActive e l ∧
        exec (.keepReceived l) s = .next (e.settle s) ∧
        (∀ (c : Cls) (v : Credit),
          (v.toNat + 65536 - (p.credit c).partnerGranted.toNat) % 65536 < 32768 →
          (v.toNat + 65536 - (p.credit c).sent.toNat) % 65536 < 32768 →
          exec (.grantReceived l c v) s = .next
            ((e.setPort l ((e.port l).modCredit c fun x => { x with partnerGranted := v })).settle s)) ∧
        (∀ n, p.tx.unacked = [] →
          let stale := e.setPort l
            { e.port l with counters := { p.counters with staleAcks := p.counters.staleAcks + 1 } }
          exec (.ackReceived l n) s = .next (stale.settle s) ∧ exec (.nakReceived l n) s = .next (stale.settle s)) ∧
        ∀ header : BitVec 128, headerCheckOk header = true → header.extractLsb' 8 8 = p.rx.expected →
          let L := (header.extractLsb' 40 16).toNat
          let c : Cls := if header.getLsbD 0 then .data else .control
          let source := header.extractLsb' 24 8
          let legal := 1 ≤ L ∧ L ≤ 1024 ∧ source ≠ 0 ∧ source ≠ 255
          (¬ legal →
            ∃ t : State, exec (.frameHeaderReceived l header) s = .next (t.settle s) ∧ e.FaultedBy t l .malformed) ∧
          (legal → (p.credit c).outstanding < (L + 63) / 64 →
            ∃ t : State, exec (.frameHeaderReceived l header) s = .next (t.settle s) ∧ e.FaultedBy t l .creditViolation))

/-- A received ACK that does not reach a frame being resent: the entries up to its seq leave the list, the replay count is 0, and the
replay timer restarts or stops; a seq that no entry carries is stale.
A received ACK that reaches the frame being resent: the older entries leave at once, that frame and those behind it are held, and
the held point is that of the ACK, or stays where it is the newer. Either confirmation tests the end of the episode (R106). A confirmed record that no other side holds is freed, and its chain joins the free list (`Confirmed`). -/
def Obligations.AckReceivedResult : Prop :=
  (∀ (s : State) (l : LinkId) (n : Byte), s.Receiving l →
     let p := s.port l
     ((∀ h ∈ p.tx.unacked, s.seqOn l h ≠ some n) →
       ∃ t : State, exec (.ackReceived l n) s = .next (t.settle s) ∧
         (t.port l).counters = { p.counters with staleAcks := p.counters.staleAcks + 1 } ∧
         (t.port l).tx = p.tx ∧ t.buf = s.buf ∧ t.queues = s.queues) ∧
     ∀ xs h ys, p.tx.unacked = xs ++ h :: ys → s.seqOn l h = some n → (∀ x ∈ xs, s.seqOn l x ≠ some n) →
       (∀ f, p.tx.line = .frame f → f.resend = true → f.handle ∉ xs ++ [h]) →
       ∃ t : State, exec (.ackReceived l n) s = .next (t.settle s) ∧
         (t.port l).tx.unacked = ys ∧ (t.port l).tx.replayCount = 0 ∧
         (t.port l).tx.replayTimer = (if ys = [] then none else some (20 * p.cfg.replayTimeout)) ∧
         s.Confirmed t l (xs ++ [h]) ∧
         s.SameCells t ∧ t.queues = s.queues ∧ t.hcu = s.hcu ∧ t.ev = s.ev ∧
         (t.port l).tx.nextSeq = p.tx.nextSeq ∧ (t.port l).tx.line = p.tx.line ∧
         (t.port l).counters = p.counters ∧ t.EpisodeTested l p.tx.replay) ∧
  (∀ (s : State) (l : LinkId) (n : Byte) (f : TxFrame) (older newer : List Nat) (h : Nat) (rest : List Nat), s.Receiving l →
     (s.port l).tx.line = .frame f → f.resend = true →
     (s.port l).tx.unacked = older ++ newer ++ h :: rest → (newer ++ [h]).head? = some f.handle → f.handle ∉ older →
     s.seqOn l h = some n → (∀ x ∈ older ++ newer, s.seqOn l x ≠ some n) →
     ∃ t : State, exec (.ackReceived l n) s = .next (t.settle s) ∧
       (t.port l).tx.unacked = newer ++ h :: rest ∧ (t.port l).tx.replayCount = 0 ∧
       (t.port l).tx.held = some (newerOf f.seq (s.port l).tx.held n) ∧
       (t.port l).tx.replayTimer = some (20 * (s.port l).cfg.replayTimeout) ∧ t.EpisodeTested l (s.port l).tx.replay ∧
       s.Confirmed t l older ∧ (t.port l).tx.line = (s.port l).tx.line)

/-- A received NAK whose seq is the oldest entry's: an episode from it, or the fault of too many. One whose seq is a later entry's
confirms the entries before it, sets the replay count to 0 and starts an episode; where the confirmation reaches the frame being resent,
that frame and those behind it are held up to the seq before the NAK's, and the resend is marked as overtaken. One whose seq neither
an entry nor next-seq carries is stale. -/
def Obligations.NakReceivedResult : Prop :=
  ∀ (s : State) (l : LinkId) (n : Byte), s.Receiving l →
    let p := s.port l
    ((∀ h ∈ p.tx.unacked, s.seqOn l h ≠ some n) → n ≠ p.tx.nextSeq →
      ∃ t : State, exec (.nakReceived l n) s = .next (t.settle s) ∧
        (t.port l).counters = { p.counters with staleAcks := p.counters.staleAcks + 1 } ∧
        (t.port l).tx = p.tx ∧ t.buf = s.buf ∧ t.queues = s.queues) ∧
    ((∀ h ∈ p.tx.unacked, s.seqOn l h ≠ some n) → n = p.tx.nextSeq →
      exec (.nakReceived l n) s = exec (.ackReceived l (n - 1)) s) ∧
    (∀ xs h ys, p.tx.unacked = xs ++ h :: ys → xs ≠ [] → s.seqOn l h = some n → (∀ x ∈ xs, s.seqOn l x ≠ some n) →
      1 ≤ p.cfg.replayLimit →
      ∃ t : State, exec (.nakReceived l n) s = .next (t.settle s) ∧
        (t.port l).tx.replay = some n ∧ (t.port l).tx.replayCount = 1 ∧
        (t.port l).tx.replayTimer = some (20 * p.cfg.replayTimeout) ∧
        (t.port l).counters = { p.counters with replays := p.counters.replays + 1 } ∧
        s.SameCells t ∧ t.queues = s.queues ∧
        ((∀ f, p.tx.line = .frame f → f.resend = true → f.handle ∉ xs) →
          (t.port l).tx.unacked = h :: ys ∧ (t.port l).tx.held = p.tx.held ∧ s.Confirmed t l xs) ∧
        ∀ f older newer, p.tx.line = .frame f → f.resend = true →
          xs = older ++ newer → newer.head? = some f.handle → f.handle ∉ older →
          (t.port l).tx.unacked = newer ++ h :: ys ∧ (t.port l).tx.held = some (newerOf f.seq p.tx.held (n - 1)) ∧
          (t.port l).tx.line = .frame { f with overtaken := true } ∧ s.Confirmed t l older) ∧
    ∀ h rest, p.tx.unacked = h :: rest → s.seqOn l h = some n →
      (p.tx.replayCount + 1 ≤ p.cfg.replayLimit →
        ∃ t : State, exec (.nakReceived l n) s = .next (t.settle s) ∧
          (t.port l).tx.replay = some n ∧ (t.port l).tx.replayCount = p.tx.replayCount + 1 ∧
          (t.port l).tx.replayTimer = some (20 * p.cfg.replayTimeout) ∧ (t.port l).tx.unacked = p.tx.unacked ∧
          (t.port l).counters = { p.counters with replays := p.counters.replays + 1 } ∧
          t.buf = s.buf ∧ t.queues = s.queues) ∧
      (p.cfg.replayLimit < p.tx.replayCount + 1 →
        ∃ t : State, exec (.nakReceived l n) s = .next (t.settle s) ∧ s.FaultedBy t l .replayLimit)

/-- A received GRANT is applied unless it is stale or would carry the available credit to 32768 or above. -/
def Obligations.GrantReceivedResult : Prop :=
  ∀ (s : State) (l : LinkId) (c : Cls) (v : Credit), s.Receiving l →
    let p := s.port l
    let k := p.credit c
    let counted := p.afterValid
    let pGranted := k.partnerGranted.toNat
    let sent := k.sent.toNat
    ((v.toNat + 65536 - pGranted) % 65536 < 32768 → (v.toNat + 65536 - sent) % 65536 < 32768 →
      exec (.grantReceived l c v) s = .next
        ((s.setPort l (counted.modCredit c fun x => { x with partnerGranted := v })).settle s)) ∧
    (32768 ≤ (v.toNat + 65536 - pGranted) % 65536 ∨ 32768 ≤ (v.toNat + 65536 - sent) % 65536 →
      exec (.grantReceived l c v) s = .next ((s.setPort l counted).settle s))

/-- A valid frame header in ALIGNED, or at the block that completes the return to it: judged by seq, then length and source, then credit.
A header that finds too few cells, which the law of R117 excludes, is the one stop of the model (log entry 12). -/
def Obligations.FrameHeaderResult : Prop :=
  ∀ (s : State) (l : LinkId) (header : BitVec 128), s.TakesFrames l → headerCheckOk header = true →
    let p := s.port l
    let rx := p.afterValid.rx
    let L := (header.extractLsb' 40 16).toNat
    let c : Cls := if header.getLsbD 0 then .data else .control
    let k := (L + 63) / 64
    let d := (p.rx.expected - header.extractLsb' 8 8).toNat
    let source := header.extractLsb' 24 8
    let legal := 1 ≤ L ∧ L ≤ 1024 ∧ source ≠ 0 ∧ source ≠ 255
    (1 ≤ d → d ≤ 128 →
      ∃ t : State, exec (.frameHeaderReceived l header) s = .next (t.settle s) ∧
        (t.port l).rx = { rx with ackDue := true, passing := .toTrailer } ∧
        (t.port l).counters = { p.counters with seqDiscards := p.counters.seqDiscards + 1 } ∧ t.buf = s.buf) ∧
    (129 ≤ d →
      ∃ t : State, exec (.frameHeaderReceived l header) s = .next (t.settle s) ∧
        (t.port l).rx = (if p.rx.nak = .none then { rx with nak := .pending, nakDue := true, passing := .toTrailer }
          else { rx with passing := .toTrailer }) ∧
        (t.port l).counters = { p.counters with seqDiscards := p.counters.seqDiscards + 1 } ∧ t.buf = s.buf) ∧
    (d = 0 → ¬ legal →
      ∃ t : State, exec (.frameHeaderReceived l header) s = .next (t.settle s) ∧ s.FaultedBy t l .malformed) ∧
    (d = 0 → legal → (p.credit c).outstanding < k →
      ∃ t : State, exec (.frameHeaderReceived l header) s = .next (t.settle s) ∧ s.FaultedBy t l .creditViolation) ∧
    (d = 0 → legal → k ≤ (p.credit c).outstanding → s.buf.free.length < k →
      exec (.frameHeaderReceived l header) s = .fault .allocationShort) ∧
    (d = 0 → legal → k ≤ (p.credit c).outstanding → k ≤ s.buf.free.length →
      let h := s.buf.free.headD 0
      ∃ t : State, exec (.frameHeaderReceived l header) s = .next (t.settle s) ∧
        t.buf.free = s.buf.free.drop k ∧
        t.record h = some
          { phase := .filling (.link l), origin := .link l, cls := c, length := L, cells := s.buf.free.take k
            destination := some (header.extractLsb' 16 8), source := some source, hops := header.extractLsb' 32 4
            host := .none, linkA := .none, linkB := .none, poisoned := false } ∧
        (∀ g, g ≠ h → t.record g = s.record g) ∧ t.buf.mem = s.buf.mem ∧ t.buf.wrong = s.buf.wrong ∧
        ((t.port l).credit c).consumed = (p.credit c).consumed + BitVec.ofNat 16 k ∧
        ((t.port l).credit c).inUse = (p.credit c).inUse + k ∧
        (∃ f, (t.port l).rx.frame = some f ∧ f.handle = h ∧ f.header = header ∧ f.count = 0 ∧ f.gather = [] ∧
          f.crc = crc32Run 0xFFFFFFFF (bytesOf header 16)) ∧
        (t.port l).rx.expected = p.rx.expected ∧ t.queues = s.queues ∧ (t.port l).tx = p.tx)

/-- Payload bytes below the length: eight that fill a word are written to it whole, with a fresh code.
The byte that reaches the length writes its word at once, with zeros beyond it; the first byte beyond the length makes the frame
fail: its record is freed, its consumption reversed, CHECK_ERRORS counted, a NAK episode started, the rest passed over. -/
def Obligations.PayloadResult : Prop :=
  (∀ (s : State) (l : LinkId) (f : RxFrame) (r : Record) (bytes : List Byte),
     (s.port l).state = .active → (s.port l).rx.frame = some f → s.record f.handle = some r →
     f.gather = [] → f.count % 8 = 0 → bytes.length = 8 → f.count + 8 ≤ headerLength f.header →
     let word := r.cells.getD (f.count / 64) 0 * 8 + f.count % 64 / 8
     ∃ t : State, exec (.framePayloadBytes l bytes) s = .next (t.settle s) ∧
       (∀ i, i < 8 → t.byteAt (8 * word + i) = bytes.getD i 0) ∧
       (∀ a, a / 8 ≠ word → t.byteAt a = s.byteAt a) ∧ t.judge word = .good ∧
       (t.port l).rx.frame = some { f with count := f.count + 8, crc := crc32Run f.crc bytes } ∧
       t.buf.free = s.buf.free ∧ t.buf.records = s.buf.records) ∧
  (∀ (s : State) (l : LinkId) (f : RxFrame) (r : Record) (b : Byte),
     (s.port l).state = .active → (s.port l).rx.frame = some f → s.record f.handle = some r →
     let p := s.port l
     let L := headerLength f.header
     let word := r.cells.getD (f.count / 64) 0 * 8 + f.count % 64 / 8
     (f.count + 1 = L → f.gather.length = f.count % 8 →
       ∃ t : State, exec (.framePayloadBytes l [b]) s = .next (t.settle s) ∧
         (∀ i, i < 8 → t.byteAt (8 * word + i) = (f.gather ++ [b]).getD i 0) ∧
         (∀ a, a / 8 ≠ word → t.byteAt a = s.byteAt a) ∧
         (t.port l).rx.frame = some { f with count := L, crc := crc32Byte f.crc b, gather := [] }) ∧
     (f.count = L → r.origin = .link l → r.cls = (headerFields f.header).cls →
       ∃ t : State, exec (.framePayloadBytes l [b]) s = .next (t.settle s) ∧
         t.record f.handle = none ∧ t.buf.free = s.buf.free ++ r.cells ∧ (t.port l).rx.frame = none ∧
         ((t.port l).credit r.cls).consumed = (p.credit r.cls).consumed - BitVec.ofNat 16 ((L + 63) / 64) ∧
         ((t.port l).credit r.cls).inUse = (p.credit r.cls).inUse - r.cells.length ∧
         (t.port l).counters = { p.counters with checkErrors := p.counters.checkErrors + 1 } ∧
         (p.rx.nak = .none → (t.port l).rx.nak = .pending) ∧ (t.port l).rx.expected = p.rx.expected ∧
         (t.port l).rx.passing = .toTrailer))

/-- A marker that truncates a frame, or a trailer END that does not agree: the frame fails as R76 gives; ABORT gives it back and
counts ABORTS_RECEIVED, with no NAK episode. -/
def Obligations.FailedFrameResult : Prop :=
  ∀ (s : State) (l : LinkId) (f : RxFrame) (r : Record) (check : BitVec 32),
    (s.port l).state = .active → (s.port l).align = .aligned → (s.port l).rx.frame = some f →
    s.record f.handle = some r → r.origin = .link l → r.cls = (headerFields f.header).cls →
    let p := s.port l
    let k := (headerLength f.header + 63) / 64
    let givenBack := fun t : State =>
      t.record f.handle = none ∧ t.buf.free = s.buf.free ++ r.cells ∧ (∀ g, g ≠ f.handle → t.record g = s.record g) ∧
      s.SameCells t ∧ (t.port l).rx.frame = none ∧ (t.port l).rx.expected = p.rx.expected ∧
      ((t.port l).credit r.cls).consumed = (p.credit r.cls).consumed - BitVec.ofNat 16 k ∧
      ((t.port l).credit r.cls).inUse = (p.credit r.cls).inUse - r.cells.length
    let failed := fun t : State => givenBack t ∧
      (t.port l).counters = { p.counters with checkErrors := p.counters.checkErrors + 1 } ∧
      (p.rx.nak = .none → (t.port l).rx.nak = .pending ∧ (t.port l).rx.nakDue = true) ∧
      (p.rx.nak ≠ .none → (t.port l).rx.nak = p.rx.nak ∧ (t.port l).rx.nakDue = p.rx.nakDue)
    (∃ t : State, exec (.frameTruncated l) s = .next (t.settle s) ∧ failed t) ∧
    (check ≠ crc32Stored f.crc ∨ f.count ≠ headerLength f.header →
      ∃ t : State, exec (.frameTrailerEnd l check) s = .next (t.settle s) ∧ failed t) ∧
    ∃ t : State, exec (.frameTrailerAbort l) s = .next (t.settle s) ∧ givenBack t ∧
      (t.port l).counters = { p.counters with abortsReceived := p.counters.abortsReceived + 1 } ∧
      (t.port l).rx.nak = p.rx.nak ∧ (t.port l).rx.nakDue = p.rx.nakDue

/-- A trailer END that agrees: the frame is accepted, with the ACK rules, and its delivery decision is made. -/
def Obligations.AcceptedFrameResult : Prop :=
  ∀ (s : State) (l : LinkId) (f : RxFrame), (s.port l).state = .active → (s.port l).rx.frame = some f →
    f.count = headerLength f.header →
    let p := s.port l
    let n := min 255 (p.rx.ackPending + 1)
    ∃ t : State, exec (.frameTrailerEnd l (crc32Stored f.crc)) s = .next ((t.deliver l f.handle).settle s) ∧
      (t.port l).rx.expected = p.rx.expected + 1 ∧ (t.port l).rx.frame = none ∧ (t.port l).rx.ackPending = n ∧
      (t.port l).rx.ackTimer = (if p.rx.ackPending = 0 then some (10 * p.cfg.ackDelay) else p.rx.ackTimer) ∧
      ((t.port l).rx.ackDue = true ↔ p.rx.ackDue = true ∨ p.cfg.ackStep ≤ n) ∧
      (t.port l).rx.nak = .none ∧ (t.port l).rx.nakDue = false ∧
      (t.port l).counters = { p.counters with framesIn := p.counters.framesIn + 1 } ∧
      t = s.setPort l { p with rx := (t.port l).rx, counters := (t.port l).counters }

/-- The delivery decision of a FILLING arrival: the loop check, the table's lowest match or the default, and the parts requested;
a frame with no holder is freed, and in-use falls by its cells; of HOST_AND_FORWARD each part is admitted or refused on its own (R88).
A full DROP_OLDEST host queue is in DropOldestResult.
The lookup of the delivery decision: the lowest valid entry of the destination's address, else the default of the destination. -/
def Obligations.DeliveryDecision : Prop :=
  (∀ (s : State) (l : LinkId) (h : Nat) (r : Record), s.record h = some r → r.refCount = 0 → r.origin = .link l →
     let act := s.deliveryAction (r.destination.getD 0)
     let freedBy := fun (t : State) (n : PartCounter) =>
       t.record h = none ∧ t.buf.free = s.buf.free ++ r.cells ∧ t.ev.counters.get n = s.ev.counters.get n + 1 ∧
       ((t.port l).credit r.cls).inUse = ((s.port l).credit r.cls).inUse - r.cells.length ∧
       t.flag .drop = true ∧ t.queues = s.queues
     (r.source = some s.nodeAddr → freedBy (s.deliver l h) .loopDiscard) ∧
     (r.source ≠ some s.nodeAddr → act = .discard → freedBy (s.deliver l h) .tableDiscard) ∧
     (r.source ≠ some s.nodeAddr → act = .forward → r.hops = 0 → freedBy (s.deliver l h) .hopLimit) ∧
     (r.source ≠ some s.nodeAddr → act = .forward → r.hops ≠ 0 → (s.port l.other).state ≠ .active →
       freedBy (s.deliver l h) .fwdLinkDown) ∧
     (r.source ≠ some s.nodeAddr → act = .forward → r.hops ≠ 0 → (s.port l.other).state = .active →
       (s.queue (.tx l.other r.cls)).entries.length < (s.queue (.tx l.other r.cls)).limit →
       let t := s.deliver l h
       t.record h = some { (r.setHolder l.other .queued) with phase := .live, hops := r.hops - 1 } ∧
       (t.queue (.tx l.other r.cls)).entries = (s.queue (.tx l.other r.cls)).entries ++ [h] ∧
       (∀ q, q ≠ .tx l.other r.cls → t.queue q = s.queue q)) ∧
     (r.source ≠ some s.nodeAddr → act = .forward → r.hops ≠ 0 → (s.port l.other).state = .active →
       (s.queue (.tx l.other r.cls)).limit ≤ (s.queue (.tx l.other r.cls)).entries.length →
       freedBy (s.deliver l h) .fwdQueueFull) ∧
     (r.source ≠ some s.nodeAddr → act = .hostAndForward → r.hops ≠ 0 → (s.port l.other).state = .active →
       (s.queue (.tx l.other r.cls)).entries.length < (s.queue (.tx l.other r.cls)).limit →
       (s.queue (.host r.cls)).entries.length < (s.queue (.host r.cls)).limit →
       let t := s.deliver l h
       t.record h = some { (r.setHolder l.other .queued) with host := .queued, phase := .live, hops := r.hops - 1 } ∧
       (t.queue (.host r.cls)).entries = (s.queue (.host r.cls)).entries ++ [h] ∧
       (t.queue (.tx l.other r.cls)).entries = (s.queue (.tx l.other r.cls)).entries ++ [h] ∧
       (∀ q, q ≠ .host r.cls → q ≠ .tx l.other r.cls → t.queue q = s.queue q)) ∧
     (r.source ≠ some s.nodeAddr → act = .host →
       (s.queue (.host r.cls)).entries.length < (s.queue (.host r.cls)).limit →
       let t := s.deliver l h
       let n := (s.queue (.host r.cls)).entries.length
       let level := (s.queues.hostCfg r.cls).notify
       t.record h = some { r with host := .queued, phase := .live } ∧
       (t.queue (.host r.cls)).entries = (s.queue (.host r.cls)).entries ++ [h] ∧
       (t.flag (.arrival r.cls) = true ↔ s.flag (.arrival r.cls) = true ∨ (n < level ∧ level ≤ n + 1))) ∧
     (r.source ≠ some s.nodeAddr → act = .host →
       (s.queue (.host r.cls)).limit ≤ (s.queue (.host r.cls)).entries.length →
       (s.queues.hostCfg r.cls).mode = .tailDrop → freedBy (s.deliver l h) .hrTailDrop) ∧
     (r.source ≠ some s.nodeAddr → act = .hostAndForward → ∀ n, s.forwardRefusal l.other r = some n →
       let t := s.deliver l h
       ((s.queue (.host r.cls)).entries.length < (s.queue (.host r.cls)).limit →
         t.record h = some { r with host := .queued, phase := .live } ∧
         (t.queue (.host r.cls)).entries = (s.queue (.host r.cls)).entries ++ [h] ∧
         (∀ q, q ≠ .host r.cls → t.queue q = s.queue q) ∧ t.buf.free = s.buf.free ∧
         t.ev.counters.get n = s.ev.counters.get n + 1 ∧ t.flag .drop = true) ∧
       ((s.queue (.host r.cls)).limit ≤ (s.queue (.host r.cls)).entries.length →
         (s.queues.hostCfg r.cls).mode = .tailDrop →
         freedBy t n ∧ t.ev.counters.hrTailDrop = s.ev.counters.hrTailDrop + 1)) ∧
     (r.source ≠ some s.nodeAddr → act = .hostAndForward → s.forwardRefusal l.other r = none →
       (s.queue (.host r.cls)).limit ≤ (s.queue (.host r.cls)).entries.length →
       (s.queues.hostCfg r.cls).mode = .tailDrop →
       let t := s.deliver l h
       t.record h = some { (r.setHolder l.other .queued) with phase := .live, hops := r.hops - 1 } ∧
       (t.queue (.tx l.other r.cls)).entries = (s.queue (.tx l.other r.cls)).entries ++ [h] ∧
       (∀ q, q ≠ .tx l.other r.cls → t.queue q = s.queue q) ∧ t.buf.free = s.buf.free ∧
       t.ev.counters.hrTailDrop = s.ev.counters.hrTailDrop + 1 ∧ t.flag .drop = true)) ∧
  (∀ (s : State) (d : Byte),
     (∀ front e back, s.table = front ++ e :: back → d ≠ 0 → e.valid = true → e.address = d →
       (∀ x ∈ front, ¬(x.valid = true ∧ x.address = d)) → s.deliveryAction d = e.action) ∧
     ((d = 0 ∨ ∀ x ∈ s.table, ¬(x.valid = true ∧ x.address = d)) →
       s.deliveryAction d =
         if d = s.nodeAddr ∨ d = 0 then .host else if d = 255 then .hostAndForward else .forward))

/-- An arrival at a full DROP_OLDEST host queue: the head loses its host holder, HR_OLDEST_DROP is counted, the new frame joins the
tail, the count is unchanged and no arrival event is set; a flush marked at that head completes (R37). It is so of the admission itself
and of a delivery with action HOST, and with HOST_AND_FORWARD, whose forward part is admitted or refused on its own. -/
def Obligations.DropOldestResult : Prop :=
  ∀ (s : State) (c : Cls) (h g : Nat) (rest : List Nat) (r o : Record),
    (s.queue (.host c)).entries = g :: rest → (s.queue (.host c)).limit ≤ (g :: rest).length →
    (s.queues.hostCfg c).mode = .dropOldest → s.record h = some r → s.record g = some o → h ≠ g →
    let exchanged := fun (t : State) (n : Record) =>
      (t.queue (.host c)).entries = rest ++ [h] ∧ t.record h = some n ∧
      (o.linkA = .none → o.linkB = .none → t.record g = none ∧ t.buf.free = s.buf.free ++ o.cells) ∧
      (¬(o.linkA = .none ∧ o.linkB = .none) →
        t.record g = some { o with host := .none } ∧ t.buf.free = s.buf.free) ∧
      (∀ k, k ≠ h → k ≠ g → t.record k = s.record k) ∧
      t.ev.counters.hrOldestDrop = s.ev.counters.hrOldestDrop + 1 ∧ t.flag .drop = true ∧
      (∀ x, t.flag (.arrival x) = s.flag (.arrival x)) ∧ s.FlushFollows t (s.Marks (.host c) [g])
    let hosted := { r with host := .queued, phase := .live }
    exchanged (s.admitHost c h) hosted ∧ (∀ q, q ≠ .host c → (s.admitHost c h).queue q = s.queue q) ∧
    ∀ l : LinkId, r.cls = c → r.source ≠ some s.nodeAddr →
      let act := s.deliveryAction (r.destination.getD 0)
      let t := s.deliver l h
      (act = .host → exchanged t hosted ∧ ∀ q, q ≠ .host c → t.queue q = s.queue q) ∧
      (act = .hostAndForward → ∀ n, s.forwardRefusal l.other r = some n →
        exchanged t hosted ∧ t.ev.counters.get n = s.ev.counters.get n + 1 ∧ ∀ q, q ≠ .host c → t.queue q = s.queue q) ∧
      (act = .hostAndForward → s.forwardRefusal l.other r = none →
        exchanged t { (r.setHolder l.other .queued) with host := .queued, phase := .live, hops := r.hops - 1 } ∧
        (t.queue (.tx l.other c)).entries = (s.queue (.tx l.other c)).entries ++ [h] ∧
        ∀ q, q ≠ .host c → q ≠ .tx l.other c → t.queue q = s.queue q)

/-! ## What a link sends -/

/-- The end of a control block in ACTIVE, of a HAIL and of a KEEP: the line is free, or the HAIL that waits begins; a HAIL sent with
seen = yes is remembered. In HUNT the next KEEP begins. That at most one HAIL waits is the model's choice (log entry 28). -/
def Obligations.ControlBlockEnds : Prop :=
  ∀ (s : State) (l : LinkId),
    let p := s.port l
    let hailing := fun (yes : Bool) => s.setPort l
      { p with
        yesSent := yes, hailTimer := some (1000 * p.cfg.hailInterval)
        tx := { p.tx with hailDue := false, line := .control (.hail s.nodeAddr 1 p.hailReceived) } }
    let quiet := fun (yes : Bool) => s.setPort l { p with yesSent := yes, tx := { p.tx with line := .none } }
    (∀ b, p.state = .active → p.tx.line = .control b →
      exec (.controlBlockSent l) s = .next
        ((quiet (match b with
          | .hail _ _ seen => p.yesSent || seen
          | .ack _ => p.yesSent | .nak _ => p.yesSent | .grant _ _ => p.yesSent | .keep => p.yesSent)).settle s)) ∧
    (∀ a r seen, p.tx.line = .control (.hail a r seen) →
      (p.state = .greet → p.tx.hailDue = true →
        exec (.hailSendEnd l) s = .next ((hailing (p.yesSent || seen)).settle s)) ∧
      (¬(p.state = .greet ∧ p.tx.hailDue = true) →
        exec (.hailSendEnd l) s = .next ((quiet (p.yesSent || seen)).settle s))) ∧
    (p.tx.line = .control .keep →
      (p.state = .hunt → exec (.keepSendEnd l) s = .next s) ∧
      (p.state = .greet → p.tx.hailDue = true → exec (.keepSendEnd l) s = .next (hailing p.yesSent)) ∧
      (p.state = .greet → p.tx.hailDue = false → exec (.keepSendEnd l) s = .next (quiet p.yesSent)))

/-- The read of the next payload word of the frame on the line: its bytes below the length go out; an uncorrectable word sends none,
ends the frame and poisons the record. A faulty word is reported by its cell, word, kind, reader, owner and bit (R152). -/
def Obligations.TxWordReadResult : Prop :=
  ∀ (s : State) (l : LinkId) (f : TxFrame) (r : Record), (s.port l).state = .active → (s.port l).tx.line = .frame f →
    f.aborting = false → 8 * f.nextWord < f.length → s.record f.handle = some r →
    let p := s.port l
    let word := r.cells.getD (8 * f.nextWord / 64) 0 * 8 + 8 * f.nextWord % 64 / 8
    let report := fun kind bit =>
      { cell := word / 8, word := word % 8, kind := kind, reader := .tx l
        handle := (s.ownerOf (word / 8)).map Prod.fst, bit := bit, occurrences := 1 : ReportEntry }
    let moved := LineBlock.frame
      { f with
        nextWord := f.nextWord + 1
        sent := f.sent ++ (List.range (min 8 (f.length - 8 * f.nextWord))).map (byteOf (s.delivered word)) }
    ∃ t : State, exec (.txWordRead l) s = .next t ∧
      t.port l = { p with tx := { p.tx with line := (t.port l).tx.line } } ∧
      t.port l.other = s.port l.other ∧ t.queues = s.queues ∧ t.hcu = s.hcu ∧ s.SameCells t ∧ t.buf.free = s.buf.free ∧
      (s.judge word = .good → (t.port l).tx.line = moved ∧ t.buf = s.buf ∧ t.ev = s.ev ∧ t.reports = s.reports) ∧
      (∀ b, s.judge word = .corrected b →
        (t.port l).tx.line = moved ∧ t.buf = s.buf ∧ t.reports = (s.makeReport (report .corrected (some b))).reports ∧
        t.ev.counters.eccCorrectedTotal = s.ev.counters.eccCorrectedTotal + 1 ∧ t.flag .eccCorrected = true) ∧
      (s.judge word = .uncorrectable →
        (t.port l).tx.line = .frame { f with aborting := true } ∧
        t.reports = (s.makeReport (report .uncorrectable none)).reports ∧
        t.ev.counters.eccUncorrectableTotal = s.ev.counters.eccUncorrectableTotal + 1 ∧
        t.flag .eccUncorrectable = true ∧ ∀ h o, s.ownerOf (word / 8) = some (h, o) → t.isPoisoned h = true)

/-- The two ends of a first transmission: END takes the frame onto the unacknowledged list and charges its cells; ABORT removes its
holder, counts POISON_DROPS, and leaves next-seq, the sent count, the list, the replay timer and FRAMES_OUT. How the block ended is
kept in `lastEnd`, the model's view of the line (log entry 13). -/
def Obligations.FirstTransmissionResult : Prop :=
  ∀ (s : State) (l : LinkId) (f : TxFrame) (r : Record), (s.port l).state = .active → (s.port l).tx.line = .frame f →
    f.resend = false → s.record f.handle = some r →
    let p := s.port l
    (f.aborting = false → f.nextWord = (f.length + 7) / 8 →
      ∃ t : State, exec (.firstTransmissionEnd l) s = .next (t.settle s) ∧
        t.record f.handle = some (r.setHolder l (.unacked f.seq)) ∧ (∀ g, g ≠ f.handle → t.record g = s.record g) ∧
        (t.port l).tx =
          { p.tx with
            line := .none, nextSeq := p.tx.nextSeq + 1, unacked := p.tx.unacked ++ [f.handle]
            replayTimer := (match p.tx.replayTimer with | some k => some k | none => some (20 * p.cfg.replayTimeout))
            lastEnd := some (.ended (bytesOf (~~~ crc32Run (crc32Run 0xFFFFFFFF (bytesOf f.header 16)) f.sent) 4)) } ∧
        ((t.port l).credit r.cls).sent = (p.credit r.cls).sent + BitVec.ofNat 16 r.cells.length ∧
        (t.port l).counters = { p.counters with framesOut := p.counters.framesOut + 1 } ∧
        (t.port l).rx = p.rx ∧ t.port l.other = s.port l.other ∧ t.queues = s.queues ∧ t.buf.free = s.buf.free ∧
        s.SameCells t ∧ t.ev = s.ev ∧ t.hcu = s.hcu) ∧
    (f.aborting = true →
      ∃ t : State, exec (.firstTransmissionAbort l) s = .next (t.settle s) ∧
        (t.port l).tx = { p.tx with line := .none, lastEnd := some .aborted } ∧
        (∀ c, ((t.port l).credit c).sent = (p.credit c).sent) ∧
        (t.port l).counters = { p.counters with poisonDrops := p.counters.poisonDrops + 1 } ∧ t.flag .drop = true ∧
        (r.host = .none → r.holder l.other = .none →
          t.record f.handle = none ∧ t.buf.free = s.buf.free ++ r.cells) ∧
        (¬(r.host = .none ∧ r.holder l.other = .none) →
          t.record f.handle = some (r.setHolder l .none) ∧ t.buf.free = s.buf.free) ∧
        (∀ g, g ≠ f.handle → t.record g = s.record g) ∧ t.queues = s.queues ∧ s.SameCells t ∧ t.hcu = s.hcu)

/-- The two ends of a resend: END moves the replay point past the frame and tests the episode's end, then applies a held
acknowledgement, whose records are freed where no other side holds them (`Confirmed`); ABORT ends the session. How the block ended is
kept in `lastEnd`, the model's view of the line, which a teardown keeps (log entry 13). -/
def Obligations.ResendResult : Prop :=
  ∀ (s : State) (l : LinkId) (f : TxFrame), (s.port l).state = .active → (s.port l).tx.line = .frame f → f.resend = true →
    let p := s.port l
    let ended := FrameEnd.ended (bytesOf (~~~ crc32Run (crc32Run 0xFFFFFFFF (bytesOf f.header 16)) f.sent) 4)
    (f.aborting = false → f.nextWord = (f.length + 7) / 8 → p.tx.held = none →
      ∃ t : State, exec (.resendEnd l) s = .next (t.settle s) ∧
        (t.port l).tx.line = .none ∧ (t.port l).tx.lastEnd = some ended ∧ (t.port l).tx.unacked = p.tx.unacked ∧ (t.port l).counters = p.counters ∧
        (t.port l).tx.replayTimer = p.tx.replayTimer ∧ t.buf = s.buf ∧ t.queues = s.queues ∧
        (p.tx.replay = none → (t.port l).tx.replay = none) ∧
        ∀ q, ((f.overtaken = false ∧ p.tx.replay ≠ none ∧ q = f.seq + 1) ∨ (f.overtaken = true ∧ p.tx.replay = some q)) →
          ((∃ h ∈ p.tx.unacked, ∃ n, s.seqOn l h = some n ∧ (n - q).toNat < 128) → (t.port l).tx.replay = some q) ∧
          ((¬ ∃ h ∈ p.tx.unacked, ∃ n, s.seqOn l h = some n ∧ (n - q).toNat < 128) → (t.port l).tx.replay = none)) ∧
    (∀ xs h ys n, f.aborting = false → f.nextWord = (f.length + 7) / 8 → p.tx.held = some n →
      p.tx.unacked = xs ++ h :: ys → s.seqOn l h = some n → (∀ x ∈ xs, s.seqOn l x ≠ some n) →
      ∃ t : State, exec (.resendEnd l) s = .next (t.settle s) ∧
        (t.port l).tx.line = .none ∧ (t.port l).tx.lastEnd = some ended ∧ (t.port l).tx.unacked = ys ∧
        (t.port l).tx.held = none ∧
        (t.port l).tx.replayTimer = (if ys = [] then none else p.tx.replayTimer) ∧ (t.port l).counters = p.counters ∧
        t.EpisodeTested l (if f.overtaken then p.tx.replay else p.tx.replay.map fun _ => f.seq + 1) ∧
        s.Confirmed t l (xs ++ [h]) ∧ s.SameCells t ∧ t.queues = s.queues) ∧
    (f.aborting = true →
      ∃ t : State, exec (.resendAbort l) s = .next (t.settle s) ∧ s.FaultedBy t l .replayDataLost ∧
        (t.port l).tx.lastEnd = some .aborted)

/-- The arbiter of a free line takes the first eligible candidate: NAK, ACK, GRANT CONTROL, GRANT DATA, replay frame, head of the
CONTROL queue, head of the DATA queue; with no replay and room in the window a head goes out where its cells have credit, and stays
where they have not; a flush whose marked entry goes out completes (R37).
What follows every step begins with the GRANTs: one becomes due where the step changed the grantable amount and left it at or above
GRANT_STEP, as the model reads R118 (log entry 18). After every step that settles, a free line of ACTIVE has no eligible candidate (log
entry 24) and its idle timer runs, and a credit-stall timer runs exactly while a head waits only for credit and the limit is not 0. -/
def Obligations.ArbiterChoice : Prop :=
  (∀ (s : State) (l : LinkId), s.lineFree l = true →
    let p := s.port l
    let t := s.choose l
    let q := t.port l
    (p.rx.nakDue = true →
      q.tx.line = .control (.nak p.rx.expected) ∧ q.rx.nak = .sent ∧ q.rx.nakDue = false ∧ q.rx.ackDue = false ∧
      q.rx.ackPending = 0 ∧ q.rx.ackTimer = none ∧ q.counters = { p.counters with naksSent := p.counters.naksSent + 1 }) ∧
    (p.rx.nakDue = false → p.rx.ackDue = true →
      q.tx.line = .control (.ack (p.rx.expected - 1)) ∧ q.rx.ackDue = false ∧ q.rx.ackPending = 0 ∧ q.rx.ackTimer = none) ∧
    (p.rx.nakDue = false → p.rx.ackDue = false →
      (p.ctl.due = true →
        q.ctl.granted = p.ctl.granted + BitVec.ofNat 16 (s.grantable l .control) ∧
        q.tx.line = .control (.grant .control q.ctl.granted)) ∧
      (p.ctl.due = false → p.dat.due = true →
        q.dat.granted = p.dat.granted + BitVec.ofNat 16 (s.grantable l .data) ∧
        q.tx.line = .control (.grant .data q.dat.granted)) ∧
      (p.ctl.due = false → p.dat.due = false →
        (∀ n xs h ys r k, p.tx.replay = some n → p.tx.unacked = xs ++ h :: ys → s.record h = some r → r.poisoned = false →
          s.seqOn l h = some k → (k - n).toNat < 128 → (∀ x ∈ xs, ∀ j, s.seqOn l x = some j → 128 ≤ (j - n).toNat) →
          q.tx.line = .frame (txFrame h r k true) ∧ t.buf = s.buf ∧ q.tx.unacked = p.tx.unacked) ∧
        ∀ c h rest r, p.tx.replay = none → (s.queue (.tx l c)).entries = h :: rest → s.record h = some r →
          p.tx.unacked.length < p.tx.liveWindow →
          (c = .data → (s.queue (.tx l .control)).entries = []) →
          (r.cells.length ≤ (p.credit c).available → r.poisoned = false →
            q.tx.line = .frame (txFrame h r p.tx.nextSeq false) ∧ (t.queue (.tx l c)).entries = rest ∧
            t.record h = some (r.setHolder l (.sending p.tx.nextSeq)) ∧ q.tx.nextSeq = p.tx.nextSeq ∧
            (q.credit c).sent = (p.credit c).sent ∧ s.FlushFollows t (s.Marks (.tx l c) [h])) ∧
          ((p.credit c).available < r.cells.length → (c = .control → (s.queue (.tx l .data)).entries = []) →
            q.tx.line = .none ∧ q.tx.idleTimer.isSome = true ∧ t.queues = s.queues)))) ∧
  (∀ (s b : State) (l : LinkId) (c : Cls),
    let p := s.port l
    let k := p.credit c
    let t := s.noteGrants b
    s.grantable l c = min (k.live - k.inUse - k.outstanding) (s.buf.free.length - s.totalOutstanding) ∧
    s.settle b = t.settle t ∧
    (((t.port l).credit c).due = true ↔
      k.due = true ∨
      (p.state = .active ∧ s.grantable l c ≠ b.grantable l c ∧ p.cfg.grantStep ≤ s.grantable l c)) ∧
    t.port l =
      { p with ctl := { p.ctl with due := (t.port l).ctl.due }, dat := { p.dat with due := (t.port l).dat.due } } ∧
    t = { s with portA := t.portA, portB := t.portB }) ∧
  ∀ (s b : State) (l : LinkId),
    let t := s.settle b
    let q := t.port l
    (q.state = .active → q.tx.line = .none →
      q.tx.idleTimer.isSome = true ∧ t.candidate l false = none ∧
      q.rx.nakDue = false ∧ q.rx.ackDue = false ∧ q.ctl.due = false ∧ q.dat.due = false ∧
      (∀ n, q.tx.replay = some n → ¬ t.EntryFrom l n) ∧
      ∀ c h rest r, q.tx.replay = none → (t.queue (.tx l c)).entries = h :: rest → t.record h = some r →
        q.tx.unacked.length < q.tx.liveWindow → (q.credit c).available < r.cells.length) ∧
    ∀ c, (((t.port l).credit c).stallTimer.isSome = true ↔
      t.waitsForCredit l c = true ∧ (t.port l).cfg.stallLimit ≠ 0)

/-- What the arbiter of a free line does with poisoned frames and with a CONTROL head that lacks credit, where no NAK, ACK or GRANT is due.
A poisoned head that may be sent is dropped, POISON_DROPS counted, and the choice made again (R94); a poisoned replay frame ends the
session with REPLAY_DATA_LOST (R104); a DATA head goes out while the CONTROL head lacks credit (R92). A flush whose marked entry is taken so completes (R37). -/
def Obligations.PoisonedChoice : Prop :=
  ∀ (s : State) (l : LinkId), s.lineFree l = true →
    let p := s.port l
    p.rx.nakDue = false → p.rx.ackDue = false → p.ctl.due = false → p.dat.due = false →
    (∀ n xs h ys r k, p.tx.replay = some n → p.tx.unacked = xs ++ h :: ys → s.record h = some r → r.poisoned = true →
      s.seqOn l h = some k → (k - n).toNat < 128 → (∀ x ∈ xs, ∀ j, s.seqOn l x = some j → 128 ≤ (j - n).toNat) →
      s.FaultedBy (s.choose l) l .replayDataLost) ∧
    ∀ c h rest r, p.tx.replay = none → (s.queue (.tx l c)).entries = h :: rest → s.record h = some r →
      p.tx.unacked.length < p.tx.liveWindow → r.cells.length ≤ (p.credit c).available →
      (c = .data → ∀ g others o, (s.queue (.tx l .control)).entries = g :: others → s.record g = some o →
        p.ctl.available < o.cells.length) →
      (r.poisoned = true →
        ∃ t : State, s.choose l = t.choose l ∧ t.lineFree l = true ∧
          (t.queue (.tx l c)).entries = rest ∧ (∀ q, q ≠ .tx l c → t.queue q = s.queue q) ∧
          (t.port l).counters = { p.counters with poisonDrops := p.counters.poisonDrops + 1 } ∧ t.flag .drop = true ∧
          (t.port l).tx = p.tx ∧ s.SameCells t ∧ s.FlushFollows t (s.Marks (.tx l c) [h]) ∧
          s.HoldersRemoved t l [h] ∧ s.ChainsFreed t (s.heldByLinkAlone l [h])) ∧
      (r.poisoned = false →
        ((s.choose l).port l).tx.line = .frame (txFrame h r p.tx.nextSeq false) ∧
        ((s.choose l).queue (.tx l c)).entries = rest ∧ (∀ q, q ≠ .tx l c → (s.choose l).queue q = s.queue q) ∧
        (s.choose l).record h = some (r.setHolder l (.sending p.tx.nextSeq)) ∧
        s.FlushFollows (s.choose l) (s.Marks (.tx l c) [h]))

/-! ## The part's own timers -/

/-- The timers of a link's bring-up and session: the next HAIL, the faults GREET_TIMEOUT, SILENT and ALIGN_LOST, and what the end of
hold-down does by AUTO_RESTART. That a HAIL due beside one that already waits is the same HAIL is the model's choice (log entry 28). -/
def Obligations.LinkTimerExpiries : Prop :=
  ∀ (s : State) (l : LinkId),
    let p := s.port l
    let faults := fun c reason => ∃ t : State, exec c s = .next (t.settle s) ∧ s.FaultedBy t l reason
    (p.state = .greet → p.hailTimer.isSome = true →
      (p.tx.line = .none →
        exec (.hailTimerExpiry l) s = .next
          (s.setPort l
            { p with
              hailTimer := some (1000 * p.cfg.hailInterval)
              tx := { p.tx with hailDue := false, line := .control (.hail s.nodeAddr 1 p.hailReceived) } })) ∧
      (p.tx.line ≠ .none →
        exec (.hailTimerExpiry l) s = .next
          (s.setPort l { p with hailTimer := none, tx := { p.tx with hailDue := true } }))) ∧
    (p.state = .greet → p.greetTimer.isSome = true → faults (.greetTimeout l) .greetTimeout) ∧
    (p.state = .active → p.silenceTimer.isSome = true → faults (.silenceTimeout l) .silent) ∧
    (p.state = .active → p.align = .realigning → p.realignTimer.isSome = true → faults (.realignTimeout l) .alignLost) ∧
    (p.state = .fault → p.holdTimer.isSome = true →
      (p.cfg.autoRestart = true →
        exec (.holdDownExpiry l) s = .next
          (s.setPort l
            { p with
              state := .hunt, validRun := 0, invalidRun := 0, holdTimer := none
              tx := { p.tx with line := .control .keep } })) ∧
      (p.cfg.autoRestart = false → exec (.holdDownExpiry l) s = .next (s.setPort l { p with holdTimer := none })))

/-- The timers of a link's transmission: the replay timer starts an episode from the oldest entry or ends the session, the ACK delay
timer makes an ACK due, the grant refresh timer makes both GRANTs due, and the idle timer sends a KEEP where nothing else can go. -/
def Obligations.TransmitTimerExpiries : Prop :=
  ∀ (s : State) (l : LinkId), (s.port l).state = .active →
    let p := s.port l
    (∀ h rest n, p.tx.replayTimer.isSome = true → p.tx.unacked = h :: rest → s.seqOn l h = some n →
      (p.tx.replayCount + 1 ≤ p.cfg.replayLimit →
        ∃ t : State, exec (.replayTimerExpiry l) s = .next (t.settle s) ∧
          (t.port l).tx.replay = some n ∧ (t.port l).tx.replayCount = p.tx.replayCount + 1 ∧
          (t.port l).tx.replayTimer = some (20 * p.cfg.replayTimeout) ∧ (t.port l).tx.unacked = p.tx.unacked ∧
          (∀ f, p.tx.line = .frame f → (t.port l).tx.line = .frame { f with overtaken := f.resend }) ∧
          (∀ b, p.tx.line = .control b → (t.port l).tx.line = .control b) ∧
          (t.port l).counters = { p.counters with replays := p.counters.replays + 1 } ∧
          t.buf = s.buf ∧ t.queues = s.queues) ∧
      (p.cfg.replayLimit < p.tx.replayCount + 1 →
        ∃ t : State, exec (.replayTimerExpiry l) s = .next (t.settle s) ∧ s.FaultedBy t l .replayLimit)) ∧
    (p.rx.ackTimer.isSome = true →
      exec (.ackDelayExpiry l) s = .next
        ((s.setPort l { p with rx := { p.rx with ackTimer := none, ackDue := true } }).settle s)) ∧
    (p.refreshTimer.isSome = true →
      exec (.grantRefreshExpiry l) s = .next
        ((s.setPort l
          { p with
            refreshTimer := some (100 * p.cfg.grantRefresh)
            ctl := { p.ctl with due := true }, dat := { p.dat with due := true } }).settle s)) ∧
    (p.tx.idleTimer.isSome = true → p.tx.line = .none → p.rx.nakDue = false → p.rx.ackDue = false →
      p.ctl.due = false → p.dat.due = false → p.tx.replay = none →
      (∀ c h rest r, (s.queue (.tx l c)).entries = h :: rest → s.record h = some r →
        p.tx.liveWindow ≤ p.tx.unacked.length ∨ (p.credit c).available < r.cells.length) →
      exec (.idleTimerExpiry l) s = .next
        ((s.setPort l { p with tx := { p.tx with line := .control .keep, idleTimer := none } }).settle s))

/-- A write of CREDIT_STALL_LIMIT 0 stops both stall timers of the link; another value starts the timer of a head that already waits
only for credit, and a running one keeps its length. The other fields of the same register, CFG_SESSION, are each taken within their
range and kept otherwise.
An expiry of a credit-stall timer drops the head of its queue and counts CREDIT_STALL_DROPS; a flush marked at that entry
completes. -/
def Obligations.CreditStallResult : Prop :=
  (∀ (s : State) (l : LinkId) (v : Word),
     let c := (s.port l).cfg
     let silence := v.toNat % 128
     let realign := v.toNat / 256 % 128
     let n := v.toNat / 65536 % 256
     let hail := v.toNat / 16777216 % 32
     ∃ t : State, exec (.creditStallLimitWrite l v) s = .next t ∧
       (n = 0 → ∀ c, ((t.port l).credit c).stallTimer = none) ∧
       (n ≠ 0 → ∀ c, s.waitsForCredit l c = true →
         ((t.port l).credit c).stallTimer =
           (match ((s.port l).credit c).stallTimer with | some k => some k | none => some (1000 * n))) ∧
       t = s.setPort l
         { s.port l with
           cfg :=
             { c with
               silenceTimeout := if 1 ≤ silence ∧ silence ≤ 64 then silence else c.silenceTimeout
               realignTimeout := if 1 ≤ realign ∧ realign ≤ 64 then realign else c.realignTimeout
               stallLimit := n
               hailInterval := if 1 ≤ hail ∧ hail ≤ 16 then hail else c.hailInterval }
           ctl := { (s.port l).ctl with stallTimer := (t.port l).ctl.stallTimer }
           dat := { (s.port l).dat with stallTimer := (t.port l).dat.stallTimer } }) ∧
  (∀ (s : State) (l : LinkId) (c : Cls) (h : Nat) (rest : List Nat) (r : Record), (s.port l).state = .active →
     ((s.port l).credit c).stallTimer.isSome = true → (s.queue (.tx l c)).entries = h :: rest → s.record h = some r →
     let p := s.port l
     ∃ t : State, exec (.creditStallExpiry l c) s = .next (t.settle s) ∧
       (t.queue (.tx l c)).entries = rest ∧ (∀ q, q ≠ .tx l c → t.queue q = s.queue q) ∧
       ((t.port l).credit c).stallTimer = none ∧ (t.port l).tx = p.tx ∧
       (t.port l).counters = { p.counters with creditStallDrops := p.counters.creditStallDrops + 1 } ∧ t.flag .drop = true ∧
       (r.host = .none → r.holder l.other = .none → t.record h = none ∧ t.buf.free = s.buf.free ++ r.cells) ∧
       (¬(r.host = .none ∧ r.holder l.other = .none) →
         t.record h = some (r.setHolder l .none) ∧ t.buf.free = s.buf.free) ∧
       (∀ g, g ≠ h → t.record g = s.record g) ∧ s.SameCells t ∧
       (s.flush.active = some (.tx l c, h) →
         t.flush.active = none ∧ t.hcu.busy = false ∧ t.hcu.result = .ok ∧ t.hcu.completed = 7 ∧
         t.hcu.res = { r0 := wordOfNat s.flush.removed } ∧ t.flag .cmdDone = true) ∧
       (s.flush.active ≠ some (.tx l c, h) → t.flush = s.flush ∧ t.hcu = s.hcu))

/-! ## The Integrity Unit -/

/-- A step of a pass: a word of a FILLING record is skipped, a corrected word is written back, an uncorrectable word of a free cell is
written to zero and that of a LIVE record poisons it; the position moves on, and position 8191 ends the pass. A faulty
word is reported by its cell, word, kind, reader, owner and bit (R152). -/
def Obligations.ScrubStepResult : Prop :=
  ∀ s : State, s.scrub.running = true →
    let pos := s.scrub.position
    let owner := s.ownerOf (pos / 8)
    let report := fun kind bit =>
      { cell := pos / 8, word := pos % 8, kind := kind, reader := .scrub
        handle := (s.ownerOf (pos / 8)).map Prod.fst, bit := bit, occurrences := 1 : ReportEntry }
    let taken := ∀ h r, owner = some (h, r) → r.phase = .live
    ∃ t : State, exec .scrubStep s = .next t ∧
      (pos + 1 < 8192 →
        t.scrub = { s.scrub with position := pos + 1, timer := some s.scrub.interval } ∧
        t.ev.counters.scrubPasses = s.ev.counters.scrubPasses) ∧
      (8192 ≤ pos + 1 →
        t.ev.counters.scrubPasses = s.ev.counters.scrubPasses + 1 ∧ t.flag .scrubPassDone = true ∧
        t.scrub =
          (if s.scrub.mode = .continuous
            then { s.scrub with running := true, position := 0, timer := some s.scrub.interval }
            else { s.scrub with running := false, position := 0, timer := none })) ∧
      (∀ h r p, owner = some (h, r) → r.phase = .filling p → t.buf = s.buf ∧ t.reports = s.reports) ∧
      (taken → s.judge pos = .good → t.buf = s.buf ∧ t.reports = s.reports) ∧
      (∀ b, taken → s.judge pos = .corrected b →
        (∀ i, i < 8 → t.byteAt (8 * pos + i) = byteOf (s.delivered pos) i) ∧ t.judge pos = .good ∧
        t.buf.records = s.buf.records ∧ t.reports = (s.makeReport (report .corrected (some b))).reports ∧
        t.ev.counters.eccCorrectedTotal = s.ev.counters.eccCorrectedTotal + 1 ∧ t.flag .eccCorrected = true) ∧
      (owner = none → s.judge pos = .uncorrectable →
        (∀ i, i < 8 → t.byteAt (8 * pos + i) = 0) ∧ t.judge pos = .good ∧
        t.reports = (s.makeReport (report .uncorrectable none)).reports ∧
        t.ev.counters.eccUncorrectableTotal = s.ev.counters.eccUncorrectableTotal + 1) ∧
      (∀ h r, owner = some (h, r) → r.phase = .live → s.judge pos = .uncorrectable →
        s.SameCells t ∧ t.isPoisoned h = true ∧
        t.reports = (s.makeReport (report .uncorrectable none)).reports ∧ t.flag .eccUncorrectable = true) ∧
      (∀ a, a / 8 ≠ pos → t.byteAt a = s.byteAt a) ∧ t.buf.free = s.buf.free ∧
      t.queues = s.queues ∧ t.portA = s.portA ∧ t.portB = s.portB ∧ t.hcu = s.hcu

/-- A report made: matched, appended, or at a full table displacing the oldest CORRECTED entry or lost; and counted in the totals
whatever the table does with it. -/
def Obligations.ReportTableResult : Prop :=
  ∀ (s : State) (e : ReportEntry), e.occurrences = 1 →
    let t := s.makeReport e
    let same := fun f : ReportEntry => f.cell = e.cell ∧ f.word = e.word ∧ f.kind = e.kind
    let lost := t.ev.counters.reportLost = s.ev.counters.reportLost + 1 ∧ t.flag .reportLost = true
    let kept := t.ev.counters.reportLost = s.ev.counters.reportLost ∧ t.flag .reportLost = s.flag .reportLost
    (∀ xs f ys, s.reports = xs ++ f :: ys → same f → (∀ x ∈ xs ++ ys, ¬ same x) →
      t.reports = xs ++ { f with occurrences := min 255 (f.occurrences + 1) } :: ys ∧ kept) ∧
    ((∀ f ∈ s.reports, ¬ same f) → s.reports.length < 8 → t.reports = s.reports ++ [e] ∧ kept) ∧
    (∀ xs f ys, (∀ x ∈ s.reports, ¬ same x) → 8 ≤ s.reports.length → e.kind = .uncorrectable →
      s.reports = xs ++ f :: ys → f.kind = .corrected → (∀ x ∈ xs, x.kind = .uncorrectable) →
      t.reports = xs ++ ys ++ [e] ∧ lost) ∧
    ((∀ f ∈ s.reports, ¬ same f) → 8 ≤ s.reports.length →
      (e.kind = .corrected ∨ ∀ f ∈ s.reports, f.kind = .uncorrectable) → t.reports = s.reports ∧ lost) ∧
    (e.kind = .corrected →
      t.ev.counters.eccCorrectedTotal = s.ev.counters.eccCorrectedTotal + 1 ∧ t.flag .eccCorrected = true) ∧
    (e.kind = .uncorrectable →
      t.ev.counters.eccUncorrectableTotal = s.ev.counters.eccUncorrectableTotal + 1 ∧ t.flag .eccUncorrectable = true)

/-! ## Laws that every step keeps -/

/-- The canonical form of the cell memory is kept by every step. The form, addresses rising and no byte listed that is 0, is the model's
own representation of section 1.1's bytes (log entry 10). -/
def Obligations.MemoryFormKept : Prop :=
  ∀ s t : State, Memory.wf s.buf.mem = true → step s = .next t → Memory.wf t.buf.mem = true

/-- The law of the error report table is kept by every step. -/
def Obligations.ReportLawKept : Prop :=
  ∀ s t : State, s.ReportsDistinct → step s = .next t → t.ReportsDistinct

/-- Every setting stays within its range, and every limit and count of a queue at most 256, at every step. -/
def Obligations.SettingsAndQueuesKept : Prop :=
  (∀ s t : State, s.SettingsInRange → step s = .next t → t.SettingsInRange) ∧
  ∀ s t : State, s.QueuesBounded → step s = .next t → t.QueuesBounded

/-- The law of cell accounting is kept by every step: while READY is 1 every cell is on the free list or in one chain, and never both.
What the law adds for READY at 0 is deduced from R20 and R21. -/
def Obligations.CellLawKept : Prop :=
  ∀ s t : State, s.CellsAccounted → step s = .next t → t.CellsAccounted

/-- The law of quiet links and of link holders is kept by every step. -/
def Obligations.QuietLinkLawKept : Prop :=
  ∀ s t : State, s.QuietLinksClear → step s = .next t → t.QuietLinksClear

/-- The unit is BUSY exactly while a flush is in progress, whose mark stands in its queue: kept by every step. -/
def Obligations.FlushLawKept : Prop :=
  ∀ s t : State, s.FlushMarked → step s = .next t → t.FlushMarked

/-- The law of records and holders is kept by every step: a record is LIVE exactly while it has a holder other than host FILLING, every
queue and list names records by the holder of its place, and a record being received is its receiver's frame (R9). -/
def Obligations.HolderLawKept : Prop :=
  ∀ s t : State, s.HoldersAgree → step s = .next t → t.HoldersAgree

/-- The host-held count stays the number of records FILLING or CLAIMED at the host, at most 64, at every step from a state that meets
the law of records and holders. -/
def Obligations.HeldCountKept : Prop :=
  ∀ s t : State, s.HoldersAgree → s.HeldCounted → step s = .next t → t.HeldCounted

/-- The laws of the Credit Unit are kept by every step from a state that meets the law of records and holders: in-use counts the cells of
each link's records, the outstanding grant stays within the live allowance, and the free cells cover the total outstanding grant.
So a header within its credit always finds its cells, and no step of such a state stops. -/
def Obligations.CreditLawKept : Prop :=
  ∀ s : State, s.HoldersAgree → s.CreditsCovered →
    (∀ t : State, step s = .next t → t.CreditsCovered) ∧ ∃ t, step s = .next t

/-- The state after the reset input meets every law that a step keeps. -/
def Obligations.ResetMeetsLaws : Prop :=
  Memory.wf State.reset.buf.mem = true ∧ State.reset.ReportsDistinct ∧ State.reset.SettingsInRange ∧
  State.reset.QueuesBounded ∧ State.reset.CellsAccounted ∧ State.reset.QuietLinksClear ∧ State.reset.FlushMarked ∧
  State.reset.HoldersAgree ∧ State.reset.HeldCounted ∧ State.reset.CreditsCovered

/-! ## The blocks on the line -/

/-- What the layouts write is read back: every control block and every frame header, with every field at every value, passes its check
and is received as the command it stands for. A block whose check fails is a checked-out block. A trailer check goes out as 4 bytes, low
byte first, and is read back from them; fewer bytes before the next marker are a truncated frame. -/
def Obligations.LineEncodingAgrees : Prop :=
  (∀ (l : LinkId) (b : ControlBlock),
    controlCheckOk b.encode = true ∧ controlFields b.encode = some b ∧
    receiveControlBlock l b.encode =
      (match b with
        | .hail sender revision seen => .hailReceived l sender revision seen
        | .ack n => .ackReceived l n
        | .nak n => .nakReceived l n
        | .grant c v => .grantReceived l c v
        | .keep => .keepReceived l)) ∧
  (∀ (l : LinkId) (f : HeaderFields),
    headerCheckOk f.encode = true ∧ headerFields f.encode = f ∧
    receiveFrameHeader l f.encode = .frameHeaderReceived l f.encode) ∧
  (∀ (l : LinkId) (block : BitVec 64), controlCheckOk block = false →
    receiveControlBlock l block = .checkedOutBlock l .control) ∧
  (∀ (l : LinkId) (header : BitVec 128), headerCheckOk header = false →
    receiveFrameHeader l header = .checkedOutBlock l .frame) ∧
  (∀ (l : LinkId) (check : BitVec 32),
    checkBytes check = [check.extractLsb' 0 8, check.extractLsb' 8 8, check.extractLsb' 16 8, check.extractLsb' 24 8] ∧
    receiveTrailer l (checkBytes check) = .frameTrailerEnd l check) ∧
  ∀ (l : LinkId) (bytes : List Byte), bytes.length < 4 → receiveTrailer l bytes = .frameTruncated l
end

