-- ==== Sys2Proof/Laws/Memory.lean ====
section
/-! SUPPORT. Keyed lists and the cell memory: what a lookup reads after each update, and the canonical form that every update keeps. -/

namespace Sys2Proof.Machine

-- The theorems of this file are elaborated one after another: many at once take a thread each.
set_option Elab.async false

/-! ## The canonical form of the keys -/

theorem Sparse.sorted_iff_pairwise {α : Type} (xs : List (Nat × α)) :
    Sparse.sorted xs = true ↔ xs.Pairwise (fun a b => a.1 < b.1) := by
  induction xs with
  | nil => simp [Sparse.sorted]
  | cons a rest ih =>
    cases rest with
    | nil => simp [Sparse.sorted]
    | cons b rest =>
      rw [Sparse.sorted, Bool.and_eq_true, ih]
      constructor
      · rintro ⟨hab, hr⟩
        refine List.pairwise_cons.2 ⟨?_, hr⟩
        intro c hc
        rcases List.mem_cons.1 hc with rfl | hc
        · exact of_decide_eq_true hab
        · exact Nat.lt_trans (of_decide_eq_true hab) ((List.pairwise_cons.1 hr).1 c hc)
      · intro h
        obtain ⟨ha, hr⟩ := List.pairwise_cons.1 h
        exact ⟨decide_eq_true (ha b (by simp)), hr⟩

theorem Sparse.mem_insert {α : Type} {xs : List (Nat × α)} {key : Nat} {v : α} {e : Nat × α}
    (h : e ∈ Sparse.insert xs key v) : e = (key, v) ∨ e ∈ xs := by
  induction xs with
  | nil => simpa [Sparse.insert] using h
  | cons a rest ih =>
    unfold Sparse.insert at h
    split at h
    · simpa using h
    · split at h
      · rcases List.mem_cons.1 h with h | h
        · exact .inl h
        · exact .inr (List.mem_cons_of_mem _ h)
      · rcases List.mem_cons.1 h with h | h
        · exact .inr (h ▸ List.mem_cons_self)
        · exact (ih h).imp_right (List.mem_cons_of_mem _)

theorem Sparse.sorted_insert {α : Type} {xs : List (Nat × α)} (key : Nat) (v : α) (h : Sparse.sorted xs = true) :
    Sparse.sorted (Sparse.insert xs key v) = true := by
  rw [Sparse.sorted_iff_pairwise] at *
  induction xs with
  | nil => simp [Sparse.insert]
  | cons a rest ih =>
    obtain ⟨ha, hr⟩ := List.pairwise_cons.1 h
    unfold Sparse.insert
    split
    · rename_i hk
      refine List.pairwise_cons.2 ⟨?_, h⟩
      intro e he
      rcases List.mem_cons.1 he with rfl | he
      · exact hk
      · exact Nat.lt_trans hk (ha e he)
    · split
      · rename_i hk
        exact List.pairwise_cons.2 ⟨fun e he => hk ▸ ha e he, hr⟩
      · refine List.pairwise_cons.2 ⟨?_, ih hr⟩
        intro e he
        rcases Sparse.mem_insert he with rfl | he
        · simp only; omega
        · exact ha e he

theorem Sparse.sorted_filter {α : Type} {xs : List (Nat × α)} (f : Nat × α → Bool) (h : Sparse.sorted xs = true) :
    Sparse.sorted (xs.filter f) = true := by
  rw [Sparse.sorted_iff_pairwise] at *
  exact h.filter f

theorem Sparse.sorted_erase {α : Type} {xs : List (Nat × α)} (key : Nat) (h : Sparse.sorted xs = true) :
    Sparse.sorted (Sparse.erase xs key) = true :=
  Sparse.sorted_filter _ h

theorem Sparse.sorted_modify {α : Type} {xs : List (Nat × α)} (key : Nat) (f : α → α) (h : Sparse.sorted xs = true) :
    Sparse.sorted (Sparse.modify xs key f) = true := by
  rw [Sparse.sorted_iff_pairwise] at *
  refine List.pairwise_map.2 (h.imp ?_)
  intro a b hab
  split <;> split <;> exact hab

/-! ## Lookups -/

@[simp] theorem Sparse.lookup_nil {α : Type} (key : Nat) : Sparse.lookup ([] : List (Nat × α)) key = none := rfl

theorem Sparse.lookup_insert {α : Type} (xs : List (Nat × α)) (key k : Nat) (v : α) :
    Sparse.lookup (Sparse.insert xs key v) k = if key = k then some v else Sparse.lookup xs k := by
  induction xs with
  | nil => simp [Sparse.insert, Sparse.lookup]
  | cons a rest ih =>
    obtain ⟨j, w⟩ := a
    simp only [Sparse.insert]
    split
    · simp [Sparse.lookup]
    · split
      · rename_i hk
        subst hk
        simp only [Sparse.lookup]
        split <;> simp_all
      · simp only [Sparse.lookup, ih]
        split <;> split <;> first | rfl | omega

theorem Sparse.lookup_erase {α : Type} (xs : List (Nat × α)) (key k : Nat) :
    Sparse.lookup (Sparse.erase xs key) k = if key = k then none else Sparse.lookup xs k := by
  induction xs with
  | nil => simp [Sparse.erase, Sparse.lookup]
  | cons a rest ih =>
    obtain ⟨j, w⟩ := a
    unfold Sparse.erase at ih ⊢
    rw [List.filter_cons]
    by_cases hj : j = key
    · subst hj
      simp only [bne_self_eq_false, Bool.false_eq_true, if_false, Sparse.lookup, ih]
      split <;> rfl
    · have : (j != key) = true := by simpa using hj
      simp only [this, if_true, Sparse.lookup, ih]
      split <;> split <;> first | rfl | omega

theorem Sparse.lookup_modify {α : Type} (xs : List (Nat × α)) (key k : Nat) (f : α → α) :
    Sparse.lookup (Sparse.modify xs key f) k = if key = k then (Sparse.lookup xs k).map f else Sparse.lookup xs k := by
  induction xs with
  | nil => simp [Sparse.modify, Sparse.lookup]
  | cons a rest ih =>
    obtain ⟨j, w⟩ := a
    unfold Sparse.modify at ih ⊢
    rw [List.map_cons]
    by_cases hj : j = key
    · subst hj
      simp only [if_true, Sparse.lookup, ih]
      split <;> simp_all
    · simp only [hj, if_false, Sparse.lookup, ih]
      split <;> split <;> first | rfl | omega

/-! ## The cell memory -/

theorem Memory.readByte_writeByte (mem : List Host.Cell) (a b : Nat) (v : Byte) :
    Memory.readByte (Memory.writeByte mem a v) b = if a = b then v else Memory.readByte mem b := by
  unfold Memory.readByte Memory.writeByte
  split
  · rename_i hv
    rw [Sparse.lookup_erase]
    split
    · simp [hv]
    · rfl
  · rw [Sparse.lookup_insert]
    split <;> rfl

theorem Memory.wf_nil : Memory.wf [] = true := rfl

theorem Memory.wf_filter {mem : List Host.Cell} (f : Host.Cell → Bool) (h : Memory.wf mem = true) :
    Memory.wf (mem.filter f) = true := by
  rw [Memory.wf, Bool.and_eq_true] at *
  refine ⟨Sparse.sorted_filter f h.1, ?_⟩
  rw [List.all_eq_true] at *
  exact fun e he => h.2 e (List.mem_of_mem_filter he)

/-- A write of a byte keeps the canonical form of the memory. -/
theorem Memory.wf_writeByte {mem : List Host.Cell} (a : Nat) (v : Byte) (h : Memory.wf mem = true) :
    Memory.wf (Memory.writeByte mem a v) = true := by
  unfold Memory.writeByte
  split
  · exact Memory.wf_filter _ h
  · rename_i hv
    rw [Memory.wf, Bool.and_eq_true] at *
    refine ⟨Sparse.sorted_insert a v h.1, ?_⟩
    rw [List.all_eq_true] at *
    intro e he
    rcases Sparse.mem_insert he with rfl | he
    · simpa using hv
    · exact h.2 e he

/-- A write of a word keeps the canonical form of the memory. -/
theorem Memory.wf_writeWord {mem : List Host.Cell} (p : Nat) (w : CellWord) (h : Memory.wf mem = true) :
    Memory.wf (Memory.writeWord mem p w) = true := by
  unfold Memory.writeWord
  generalize List.range 8 = js
  induction js generalizing mem with
  | nil => exact h
  | cons j js ih => exact ih (Memory.wf_writeByte _ _ h)

/-- Zeroing cells keeps the canonical form of the memory. -/
theorem Memory.wf_zeroCells {mem : List Host.Cell} (cells : List Nat) (h : Memory.wf mem = true) :
    Memory.wf (Memory.zeroCells mem cells) = true :=
  Memory.wf_filter _ h

/-- The memory after the reset input has the canonical form. -/
theorem Memory.wf_reset : Memory.wf State.reset.buf.mem = true := rfl

/-- A byte of a word just written reads the byte written; every other byte reads as before. -/
theorem Memory.readByte_writeWord (mem : List Host.Cell) (p a : Nat) (w : CellWord) :
    Memory.readByte (Memory.writeWord mem p w) a = if a / 8 = p then byteOf w (a % 8) else Memory.readByte mem a := by
  simp only [Memory.writeWord, show List.range 8 = [0, 1, 2, 3, 4, 5, 6, 7] from rfl, List.foldl_cons, List.foldl_nil,
    Memory.readByte_writeByte]
  by_cases h : a / 8 = p
  · subst h
    have key : ∀ r, a % 8 = r → a = 8 * (a / 8) + r := fun r hr => by omega
    rcases (show a % 8 = 0 ∨ a % 8 = 1 ∨ a % 8 = 2 ∨ a % 8 = 3 ∨ a % 8 = 4 ∨ a % 8 = 5 ∨ a % 8 = 6 ∨ a % 8 = 7 by omega) with
      h | h | h | h | h | h | h | h
    all_goals
      have ha := key _ h
      generalize a / 8 = q at *
      subst ha
      simp [h]
  · have : ∀ j, j < 8 → 8 * p + j ≠ a := fun j hj he => h (by omega)
    have h0 : 8 * p ≠ a := fun he => h (by omega)
    simp [h, h0, this]

/-- Zeroed cells read zero; every other byte reads as before. -/
theorem Memory.readByte_zeroCells (mem : List Host.Cell) (cells : List Nat) (a : Nat) :
    Memory.readByte (Memory.zeroCells mem cells) a = if a / 64 ∈ cells then 0 else Memory.readByte mem a := by
  unfold Memory.readByte Memory.zeroCells
  induction mem with
  | nil => simp [Sparse.lookup]
  | cons e rest ih =>
    obtain ⟨j, w⟩ := e
    rw [List.filter_cons]
    by_cases hj : j / 64 ∈ cells
    · simp only [Config.cellBytes, List.contains_eq_mem, hj, decide_true, Bool.not_true, Bool.false_eq_true, if_false] at ih ⊢
      rw [ih]
      split
      · rfl
      · simp only [Sparse.lookup]
        split
        · subst_vars; contradiction
        · rfl
    · simp only [Config.cellBytes, List.contains_eq_mem, hj, decide_false, Bool.not_false, if_true, Sparse.lookup] at ih ⊢
      split
      · subst_vars; simp [hj]
      · exact ih

end Sys2Proof.Machine
end

