-- ==== Sys2Proof/Laws/State.lean ====
section
/-! SUPPORT. One small lemma per field per update of the state, so that no later proof unfolds a record update. -/

namespace Sys2Proof.Machine

-- The theorems of this file are elaborated one after another: many at once take a thread each.
set_option Elab.async false

/-! ## Ports -/

@[simp] theorem State.setPort_ready (s : State) (l : LinkId) (p : LinkPort) :
    (s.setPort l p).ready = s.ready := by cases l <;> rfl
@[simp] theorem State.setPort_buf (s : State) (l : LinkId) (p : LinkPort) :
    (s.setPort l p).buf = s.buf := by cases l <;> rfl
@[simp] theorem State.setPort_queues (s : State) (l : LinkId) (p : LinkPort) :
    (s.setPort l p).queues = s.queues := by cases l <;> rfl
@[simp] theorem State.setPort_flush (s : State) (l : LinkId) (p : LinkPort) :
    (s.setPort l p).flush = s.flush := by cases l <;> rfl
@[simp] theorem State.setPort_table (s : State) (l : LinkId) (p : LinkPort) :
    (s.setPort l p).table = s.table := by cases l <;> rfl
@[simp] theorem State.setPort_hcu (s : State) (l : LinkId) (p : LinkPort) :
    (s.setPort l p).hcu = s.hcu := by cases l <;> rfl
@[simp] theorem State.setPort_nodeAddr (s : State) (l : LinkId) (p : LinkPort) :
    (s.setPort l p).nodeAddr = s.nodeAddr := by cases l <;> rfl
@[simp] theorem State.setPort_scrub (s : State) (l : LinkId) (p : LinkPort) :
    (s.setPort l p).scrub = s.scrub := by cases l <;> rfl
@[simp] theorem State.setPort_reports (s : State) (l : LinkId) (p : LinkPort) :
    (s.setPort l p).reports = s.reports := by cases l <;> rfl
@[simp] theorem State.setPort_ev (s : State) (l : LinkId) (p : LinkPort) :
    (s.setPort l p).ev = s.ev := by cases l <;> rfl
@[simp] theorem State.setPort_choices (s : State) (l : LinkId) (p : LinkPort) :
    (s.setPort l p).choices = s.choices := by cases l <;> rfl
@[simp] theorem State.setPort_pending (s : State) (l : LinkId) (p : LinkPort) :
    (s.setPort l p).pending = s.pending := by cases l <;> rfl

@[simp] theorem State.modPort_ready (s : State) (l : LinkId) (f : LinkPort → LinkPort) :
    (s.modPort l f).ready = s.ready := by cases l <;> rfl
@[simp] theorem State.modPort_buf (s : State) (l : LinkId) (f : LinkPort → LinkPort) :
    (s.modPort l f).buf = s.buf := by cases l <;> rfl
@[simp] theorem State.modPort_queues (s : State) (l : LinkId) (f : LinkPort → LinkPort) :
    (s.modPort l f).queues = s.queues := by cases l <;> rfl
@[simp] theorem State.modPort_flush (s : State) (l : LinkId) (f : LinkPort → LinkPort) :
    (s.modPort l f).flush = s.flush := by cases l <;> rfl
@[simp] theorem State.modPort_table (s : State) (l : LinkId) (f : LinkPort → LinkPort) :
    (s.modPort l f).table = s.table := by cases l <;> rfl
@[simp] theorem State.modPort_hcu (s : State) (l : LinkId) (f : LinkPort → LinkPort) :
    (s.modPort l f).hcu = s.hcu := by cases l <;> rfl
@[simp] theorem State.modPort_nodeAddr (s : State) (l : LinkId) (f : LinkPort → LinkPort) :
    (s.modPort l f).nodeAddr = s.nodeAddr := by cases l <;> rfl
@[simp] theorem State.modPort_scrub (s : State) (l : LinkId) (f : LinkPort → LinkPort) :
    (s.modPort l f).scrub = s.scrub := by cases l <;> rfl
@[simp] theorem State.modPort_reports (s : State) (l : LinkId) (f : LinkPort → LinkPort) :
    (s.modPort l f).reports = s.reports := by cases l <;> rfl
@[simp] theorem State.modPort_ev (s : State) (l : LinkId) (f : LinkPort → LinkPort) :
    (s.modPort l f).ev = s.ev := by cases l <;> rfl
@[simp] theorem State.modPort_choices (s : State) (l : LinkId) (f : LinkPort → LinkPort) :
    (s.modPort l f).choices = s.choices := by cases l <;> rfl
@[simp] theorem State.modPort_pending (s : State) (l : LinkId) (f : LinkPort → LinkPort) :
    (s.modPort l f).pending = s.pending := by cases l <;> rfl

@[simp] theorem State.modRx_ready (s : State) (l : LinkId) (f : Receiver → Receiver) :
    (s.modRx l f).ready = s.ready := by cases l <;> rfl
@[simp] theorem State.modRx_buf (s : State) (l : LinkId) (f : Receiver → Receiver) :
    (s.modRx l f).buf = s.buf := by cases l <;> rfl
@[simp] theorem State.modRx_queues (s : State) (l : LinkId) (f : Receiver → Receiver) :
    (s.modRx l f).queues = s.queues := by cases l <;> rfl
@[simp] theorem State.modRx_flush (s : State) (l : LinkId) (f : Receiver → Receiver) :
    (s.modRx l f).flush = s.flush := by cases l <;> rfl
@[simp] theorem State.modRx_table (s : State) (l : LinkId) (f : Receiver → Receiver) :
    (s.modRx l f).table = s.table := by cases l <;> rfl
@[simp] theorem State.modRx_hcu (s : State) (l : LinkId) (f : Receiver → Receiver) :
    (s.modRx l f).hcu = s.hcu := by cases l <;> rfl
@[simp] theorem State.modRx_nodeAddr (s : State) (l : LinkId) (f : Receiver → Receiver) :
    (s.modRx l f).nodeAddr = s.nodeAddr := by cases l <;> rfl
@[simp] theorem State.modRx_scrub (s : State) (l : LinkId) (f : Receiver → Receiver) :
    (s.modRx l f).scrub = s.scrub := by cases l <;> rfl
@[simp] theorem State.modRx_reports (s : State) (l : LinkId) (f : Receiver → Receiver) :
    (s.modRx l f).reports = s.reports := by cases l <;> rfl
@[simp] theorem State.modRx_ev (s : State) (l : LinkId) (f : Receiver → Receiver) :
    (s.modRx l f).ev = s.ev := by cases l <;> rfl
@[simp] theorem State.modRx_choices (s : State) (l : LinkId) (f : Receiver → Receiver) :
    (s.modRx l f).choices = s.choices := by cases l <;> rfl
@[simp] theorem State.modRx_pending (s : State) (l : LinkId) (f : Receiver → Receiver) :
    (s.modRx l f).pending = s.pending := by cases l <;> rfl

@[simp] theorem State.modTx_ready (s : State) (l : LinkId) (f : Transmitter → Transmitter) :
    (s.modTx l f).ready = s.ready := by cases l <;> rfl
@[simp] theorem State.modTx_buf (s : State) (l : LinkId) (f : Transmitter → Transmitter) :
    (s.modTx l f).buf = s.buf := by cases l <;> rfl
@[simp] theorem State.modTx_queues (s : State) (l : LinkId) (f : Transmitter → Transmitter) :
    (s.modTx l f).queues = s.queues := by cases l <;> rfl
@[simp] theorem State.modTx_flush (s : State) (l : LinkId) (f : Transmitter → Transmitter) :
    (s.modTx l f).flush = s.flush := by cases l <;> rfl
@[simp] theorem State.modTx_table (s : State) (l : LinkId) (f : Transmitter → Transmitter) :
    (s.modTx l f).table = s.table := by cases l <;> rfl
@[simp] theorem State.modTx_hcu (s : State) (l : LinkId) (f : Transmitter → Transmitter) :
    (s.modTx l f).hcu = s.hcu := by cases l <;> rfl
@[simp] theorem State.modTx_nodeAddr (s : State) (l : LinkId) (f : Transmitter → Transmitter) :
    (s.modTx l f).nodeAddr = s.nodeAddr := by cases l <;> rfl
@[simp] theorem State.modTx_scrub (s : State) (l : LinkId) (f : Transmitter → Transmitter) :
    (s.modTx l f).scrub = s.scrub := by cases l <;> rfl
@[simp] theorem State.modTx_reports (s : State) (l : LinkId) (f : Transmitter → Transmitter) :
    (s.modTx l f).reports = s.reports := by cases l <;> rfl
@[simp] theorem State.modTx_ev (s : State) (l : LinkId) (f : Transmitter → Transmitter) :
    (s.modTx l f).ev = s.ev := by cases l <;> rfl
@[simp] theorem State.modTx_choices (s : State) (l : LinkId) (f : Transmitter → Transmitter) :
    (s.modTx l f).choices = s.choices := by cases l <;> rfl
@[simp] theorem State.modTx_pending (s : State) (l : LinkId) (f : Transmitter → Transmitter) :
    (s.modTx l f).pending = s.pending := by cases l <;> rfl

@[simp] theorem State.modCredit_ready (s : State) (l : LinkId) (c : Cls) (f : CreditClass → CreditClass) :
    (s.modCredit l c f).ready = s.ready := by cases l <;> rfl
@[simp] theorem State.modCredit_buf (s : State) (l : LinkId) (c : Cls) (f : CreditClass → CreditClass) :
    (s.modCredit l c f).buf = s.buf := by cases l <;> rfl
@[simp] theorem State.modCredit_queues (s : State) (l : LinkId) (c : Cls) (f : CreditClass → CreditClass) :
    (s.modCredit l c f).queues = s.queues := by cases l <;> rfl
@[simp] theorem State.modCredit_flush (s : State) (l : LinkId) (c : Cls) (f : CreditClass → CreditClass) :
    (s.modCredit l c f).flush = s.flush := by cases l <;> rfl
@[simp] theorem State.modCredit_table (s : State) (l : LinkId) (c : Cls) (f : CreditClass → CreditClass) :
    (s.modCredit l c f).table = s.table := by cases l <;> rfl
@[simp] theorem State.modCredit_hcu (s : State) (l : LinkId) (c : Cls) (f : CreditClass → CreditClass) :
    (s.modCredit l c f).hcu = s.hcu := by cases l <;> rfl
@[simp] theorem State.modCredit_nodeAddr (s : State) (l : LinkId) (c : Cls) (f : CreditClass → CreditClass) :
    (s.modCredit l c f).nodeAddr = s.nodeAddr := by cases l <;> rfl
@[simp] theorem State.modCredit_scrub (s : State) (l : LinkId) (c : Cls) (f : CreditClass → CreditClass) :
    (s.modCredit l c f).scrub = s.scrub := by cases l <;> rfl
@[simp] theorem State.modCredit_reports (s : State) (l : LinkId) (c : Cls) (f : CreditClass → CreditClass) :
    (s.modCredit l c f).reports = s.reports := by cases l <;> rfl
@[simp] theorem State.modCredit_ev (s : State) (l : LinkId) (c : Cls) (f : CreditClass → CreditClass) :
    (s.modCredit l c f).ev = s.ev := by cases l <;> rfl
@[simp] theorem State.modCredit_choices (s : State) (l : LinkId) (c : Cls) (f : CreditClass → CreditClass) :
    (s.modCredit l c f).choices = s.choices := by cases l <;> rfl
@[simp] theorem State.modCredit_pending (s : State) (l : LinkId) (c : Cls) (f : CreditClass → CreditClass) :
    (s.modCredit l c f).pending = s.pending := by cases l <;> rfl

@[simp] theorem State.port_setPort (s : State) (l : LinkId) (p : LinkPort) :
    (s.setPort l p).port l = p := by cases l <;> rfl
@[simp] theorem State.port_setPort_other (s : State) (l : LinkId) (p : LinkPort) :
    (s.setPort l p).port l.other = s.port l.other := by cases l <;> rfl
@[simp] theorem State.port_modPort (s : State) (l : LinkId) (f : LinkPort → LinkPort) :
    (s.modPort l f).port l = f (s.port l) := by cases l <;> rfl
@[simp] theorem State.port_modPort_other (s : State) (l : LinkId) (f : LinkPort → LinkPort) :
    (s.modPort l f).port l.other = s.port l.other := by cases l <;> rfl
@[simp] theorem State.port_modRx (s : State) (l : LinkId) (f : Receiver → Receiver) :
    (s.modRx l f).port l = { s.port l with rx := f (s.port l).rx } := by cases l <;> rfl
@[simp] theorem State.port_modTx (s : State) (l : LinkId) (f : Transmitter → Transmitter) :
    (s.modTx l f).port l = { s.port l with tx := f (s.port l).tx } := by cases l <;> rfl
@[simp] theorem State.port_modCredit (s : State) (l : LinkId) (c : Cls) (f : CreditClass → CreditClass) :
    (s.modCredit l c f).port l = (s.port l).modCredit c f := by cases l <;> rfl
@[simp] theorem State.setPort_port (s : State) (l : LinkId) : s.setPort l (s.port l) = s := by cases l <;> rfl
@[simp] theorem State.setPort_setPort (s : State) (l : LinkId) (p q : LinkPort) :
    (s.setPort l p).setPort l q = s.setPort l q := by cases l <;> rfl
@[simp] theorem State.port_a (s : State) : s.port .a = s.portA := rfl
@[simp] theorem State.port_b (s : State) : s.port .b = s.portB := rfl
@[simp] theorem State.setPort_a (s : State) (p : LinkPort) : s.setPort .a p = { s with portA := p } := rfl
@[simp] theorem State.setPort_b (s : State) (p : LinkPort) : s.setPort .b p = { s with portB := p } := rfl

/-! ## Credit classes of a port -/

@[simp] theorem LinkPort.modCredit_state (p : LinkPort) (c : Cls) (f : CreditClass → CreditClass) :
    (p.modCredit c f).state = p.state := by cases c <;> rfl
@[simp] theorem LinkPort.modCredit_align (p : LinkPort) (c : Cls) (f : CreditClass → CreditClass) :
    (p.modCredit c f).align = p.align := by cases c <;> rfl
@[simp] theorem LinkPort.modCredit_lastFault (p : LinkPort) (c : Cls) (f : CreditClass → CreditClass) :
    (p.modCredit c f).lastFault = p.lastFault := by cases c <;> rfl
@[simp] theorem LinkPort.modCredit_partner (p : LinkPort) (c : Cls) (f : CreditClass → CreditClass) :
    (p.modCredit c f).partner = p.partner := by cases c <;> rfl
@[simp] theorem LinkPort.modCredit_hailReceived (p : LinkPort) (c : Cls) (f : CreditClass → CreditClass) :
    (p.modCredit c f).hailReceived = p.hailReceived := by cases c <;> rfl
@[simp] theorem LinkPort.modCredit_yesSent (p : LinkPort) (c : Cls) (f : CreditClass → CreditClass) :
    (p.modCredit c f).yesSent = p.yesSent := by cases c <;> rfl
@[simp] theorem LinkPort.modCredit_validRun (p : LinkPort) (c : Cls) (f : CreditClass → CreditClass) :
    (p.modCredit c f).validRun = p.validRun := by cases c <;> rfl
@[simp] theorem LinkPort.modCredit_invalidRun (p : LinkPort) (c : Cls) (f : CreditClass → CreditClass) :
    (p.modCredit c f).invalidRun = p.invalidRun := by cases c <;> rfl
@[simp] theorem LinkPort.modCredit_hailTimer (p : LinkPort) (c : Cls) (f : CreditClass → CreditClass) :
    (p.modCredit c f).hailTimer = p.hailTimer := by cases c <;> rfl
@[simp] theorem LinkPort.modCredit_greetTimer (p : LinkPort) (c : Cls) (f : CreditClass → CreditClass) :
    (p.modCredit c f).greetTimer = p.greetTimer := by cases c <;> rfl
@[simp] theorem LinkPort.modCredit_silenceTimer (p : LinkPort) (c : Cls) (f : CreditClass → CreditClass) :
    (p.modCredit c f).silenceTimer = p.silenceTimer := by cases c <;> rfl
@[simp] theorem LinkPort.modCredit_realignTimer (p : LinkPort) (c : Cls) (f : CreditClass → CreditClass) :
    (p.modCredit c f).realignTimer = p.realignTimer := by cases c <;> rfl
@[simp] theorem LinkPort.modCredit_holdTimer (p : LinkPort) (c : Cls) (f : CreditClass → CreditClass) :
    (p.modCredit c f).holdTimer = p.holdTimer := by cases c <;> rfl
@[simp] theorem LinkPort.modCredit_refreshTimer (p : LinkPort) (c : Cls) (f : CreditClass → CreditClass) :
    (p.modCredit c f).refreshTimer = p.refreshTimer := by cases c <;> rfl
@[simp] theorem LinkPort.modCredit_cfg (p : LinkPort) (c : Cls) (f : CreditClass → CreditClass) :
    (p.modCredit c f).cfg = p.cfg := by cases c <;> rfl
@[simp] theorem LinkPort.modCredit_rx (p : LinkPort) (c : Cls) (f : CreditClass → CreditClass) :
    (p.modCredit c f).rx = p.rx := by cases c <;> rfl
@[simp] theorem LinkPort.modCredit_tx (p : LinkPort) (c : Cls) (f : CreditClass → CreditClass) :
    (p.modCredit c f).tx = p.tx := by cases c <;> rfl
@[simp] theorem LinkPort.modCredit_counters (p : LinkPort) (c : Cls) (f : CreditClass → CreditClass) :
    (p.modCredit c f).counters = p.counters := by cases c <;> rfl
@[simp] theorem LinkPort.credit_modCredit (p : LinkPort) (c : Cls) (f : CreditClass → CreditClass) :
    (p.modCredit c f).credit c = f (p.credit c) := by cases c <;> rfl

/-! ## Queues -/

@[simp] theorem State.setEntries_ready (s : State) (q : QueueId) (es : List Nat) :
    (s.setEntries q es).ready = s.ready := rfl
@[simp] theorem State.setEntries_buf (s : State) (q : QueueId) (es : List Nat) :
    (s.setEntries q es).buf = s.buf := rfl
@[simp] theorem State.setEntries_flush (s : State) (q : QueueId) (es : List Nat) :
    (s.setEntries q es).flush = s.flush := rfl
@[simp] theorem State.setEntries_portA (s : State) (q : QueueId) (es : List Nat) :
    (s.setEntries q es).portA = s.portA := rfl
@[simp] theorem State.setEntries_portB (s : State) (q : QueueId) (es : List Nat) :
    (s.setEntries q es).portB = s.portB := rfl
@[simp] theorem State.setEntries_table (s : State) (q : QueueId) (es : List Nat) :
    (s.setEntries q es).table = s.table := rfl
@[simp] theorem State.setEntries_hcu (s : State) (q : QueueId) (es : List Nat) :
    (s.setEntries q es).hcu = s.hcu := rfl
@[simp] theorem State.setEntries_nodeAddr (s : State) (q : QueueId) (es : List Nat) :
    (s.setEntries q es).nodeAddr = s.nodeAddr := rfl
@[simp] theorem State.setEntries_scrub (s : State) (q : QueueId) (es : List Nat) :
    (s.setEntries q es).scrub = s.scrub := rfl
@[simp] theorem State.setEntries_reports (s : State) (q : QueueId) (es : List Nat) :
    (s.setEntries q es).reports = s.reports := rfl
@[simp] theorem State.setEntries_ev (s : State) (q : QueueId) (es : List Nat) : (s.setEntries q es).ev = s.ev := rfl
@[simp] theorem State.setEntries_choices (s : State) (q : QueueId) (es : List Nat) :
    (s.setEntries q es).choices = s.choices := rfl
@[simp] theorem State.setEntries_pending (s : State) (q : QueueId) (es : List Nat) :
    (s.setEntries q es).pending = s.pending := rfl

@[simp] theorem Queues.get_set (q : Queues) (i : QueueId) (v : FrameQueue) :
    (q.set i v).get i = v := by
  rcases i with (_ | _) | ⟨_ | _, _ | _⟩ <;> rfl
theorem Queues.get_set_ne (q : Queues) (i j : QueueId) (v : FrameQueue) (h : j ≠ i) : (q.set i v).get j = q.get j := by
  rcases i with (_ | _) | ⟨_ | _, _ | _⟩ <;> rcases j with (_ | _) | ⟨_ | _, _ | _⟩ <;> first | rfl | exact absurd rfl h

@[simp] theorem Queues.hrcCfg_set (q : Queues) (i : QueueId) (v : FrameQueue) :
    (q.set i v).hrcCfg = q.hrcCfg := by
  rcases i with (_ | _) | ⟨_ | _, _ | _⟩ <;> rfl
@[simp] theorem Queues.hrdCfg_set (q : Queues) (i : QueueId) (v : FrameQueue) :
    (q.set i v).hrdCfg = q.hrdCfg := by
  rcases i with (_ | _) | ⟨_ | _, _ | _⟩ <;> rfl
@[simp] theorem State.queue_setEntries (s : State) (q : QueueId) (es : List Nat) :
    (s.setEntries q es).queue q = { s.queue q with entries := es } := by
  simp [State.setEntries, State.queue]
theorem State.queue_setEntries_ne (s : State) (q r : QueueId) (es : List Nat) (h : r ≠ q) :
    (s.setEntries q es).queue r = s.queue r := by
  simp [State.setEntries, State.queue, Queues.get_set_ne _ _ _ _ h]

/-! ## Records and cells -/

@[simp] theorem State.modRecord_ready (s : State) (h : Nat) (f : Record → Record) :
    (s.modRecord h f).ready = s.ready := rfl
@[simp] theorem State.modRecord_queues (s : State) (h : Nat) (f : Record → Record) :
    (s.modRecord h f).queues = s.queues := rfl
@[simp] theorem State.modRecord_flush (s : State) (h : Nat) (f : Record → Record) :
    (s.modRecord h f).flush = s.flush := rfl
@[simp] theorem State.modRecord_portA (s : State) (h : Nat) (f : Record → Record) :
    (s.modRecord h f).portA = s.portA := rfl
@[simp] theorem State.modRecord_portB (s : State) (h : Nat) (f : Record → Record) :
    (s.modRecord h f).portB = s.portB := rfl
@[simp] theorem State.modRecord_table (s : State) (h : Nat) (f : Record → Record) :
    (s.modRecord h f).table = s.table := rfl
@[simp] theorem State.modRecord_hcu (s : State) (h : Nat) (f : Record → Record) : (s.modRecord h f).hcu = s.hcu := rfl
@[simp] theorem State.modRecord_nodeAddr (s : State) (h : Nat) (f : Record → Record) :
    (s.modRecord h f).nodeAddr = s.nodeAddr := rfl
@[simp] theorem State.modRecord_scrub (s : State) (h : Nat) (f : Record → Record) :
    (s.modRecord h f).scrub = s.scrub := rfl
@[simp] theorem State.modRecord_reports (s : State) (h : Nat) (f : Record → Record) :
    (s.modRecord h f).reports = s.reports := rfl
@[simp] theorem State.modRecord_ev (s : State) (h : Nat) (f : Record → Record) : (s.modRecord h f).ev = s.ev := rfl
@[simp] theorem State.modRecord_choices (s : State) (h : Nat) (f : Record → Record) :
    (s.modRecord h f).choices = s.choices := rfl
@[simp] theorem State.modRecord_pending (s : State) (h : Nat) (f : Record → Record) :
    (s.modRecord h f).pending = s.pending := rfl

@[simp] theorem State.modRecord_buf_mem (s : State) (h : Nat) (f : Record → Record) :
    (s.modRecord h f).buf.mem = s.buf.mem := rfl
@[simp] theorem State.modRecord_buf_wrong (s : State) (h : Nat) (f : Record → Record) :
    (s.modRecord h f).buf.wrong = s.buf.wrong := rfl
@[simp] theorem State.modRecord_buf_links (s : State) (h : Nat) (f : Record → Record) :
    (s.modRecord h f).buf.links = s.buf.links := rfl
@[simp] theorem State.modRecord_buf_free (s : State) (h : Nat) (f : Record → Record) :
    (s.modRecord h f).buf.free = s.buf.free := rfl
@[simp] theorem State.writeWord_ready (s : State) (p : Nat) (w : CellWord) : (s.writeWord p w).ready = s.ready := rfl
@[simp] theorem State.writeWord_queues (s : State) (p : Nat) (w : CellWord) :
    (s.writeWord p w).queues = s.queues := rfl
@[simp] theorem State.writeWord_flush (s : State) (p : Nat) (w : CellWord) : (s.writeWord p w).flush = s.flush := rfl
@[simp] theorem State.writeWord_portA (s : State) (p : Nat) (w : CellWord) : (s.writeWord p w).portA = s.portA := rfl
@[simp] theorem State.writeWord_portB (s : State) (p : Nat) (w : CellWord) : (s.writeWord p w).portB = s.portB := rfl
@[simp] theorem State.writeWord_table (s : State) (p : Nat) (w : CellWord) : (s.writeWord p w).table = s.table := rfl
@[simp] theorem State.writeWord_hcu (s : State) (p : Nat) (w : CellWord) : (s.writeWord p w).hcu = s.hcu := rfl
@[simp] theorem State.writeWord_nodeAddr (s : State) (p : Nat) (w : CellWord) :
    (s.writeWord p w).nodeAddr = s.nodeAddr := rfl
@[simp] theorem State.writeWord_scrub (s : State) (p : Nat) (w : CellWord) : (s.writeWord p w).scrub = s.scrub := rfl
@[simp] theorem State.writeWord_reports (s : State) (p : Nat) (w : CellWord) :
    (s.writeWord p w).reports = s.reports := rfl
@[simp] theorem State.writeWord_ev (s : State) (p : Nat) (w : CellWord) : (s.writeWord p w).ev = s.ev := rfl
@[simp] theorem State.writeWord_choices (s : State) (p : Nat) (w : CellWord) :
    (s.writeWord p w).choices = s.choices := rfl
@[simp] theorem State.writeWord_pending (s : State) (p : Nat) (w : CellWord) :
    (s.writeWord p w).pending = s.pending := rfl

@[simp] theorem State.writeWord_buf_links (s : State) (p : Nat) (w : CellWord) :
    (s.writeWord p w).buf.links = s.buf.links := rfl
@[simp] theorem State.writeWord_buf_free (s : State) (p : Nat) (w : CellWord) :
    (s.writeWord p w).buf.free = s.buf.free := rfl
@[simp] theorem State.writeWord_buf_records (s : State) (p : Nat) (w : CellWord) :
    (s.writeWord p w).buf.records = s.buf.records := rfl
@[simp] theorem State.allocate_ready (s : State) (k : Nat) (r : Record) : (s.allocate k r).ready = s.ready := rfl
@[simp] theorem State.allocate_queues (s : State) (k : Nat) (r : Record) : (s.allocate k r).queues = s.queues := rfl
@[simp] theorem State.allocate_flush (s : State) (k : Nat) (r : Record) : (s.allocate k r).flush = s.flush := rfl
@[simp] theorem State.allocate_portA (s : State) (k : Nat) (r : Record) : (s.allocate k r).portA = s.portA := rfl
@[simp] theorem State.allocate_portB (s : State) (k : Nat) (r : Record) : (s.allocate k r).portB = s.portB := rfl
@[simp] theorem State.allocate_table (s : State) (k : Nat) (r : Record) : (s.allocate k r).table = s.table := rfl
@[simp] theorem State.allocate_hcu (s : State) (k : Nat) (r : Record) : (s.allocate k r).hcu = s.hcu := rfl
@[simp] theorem State.allocate_nodeAddr (s : State) (k : Nat) (r : Record) :
    (s.allocate k r).nodeAddr = s.nodeAddr := rfl
@[simp] theorem State.allocate_scrub (s : State) (k : Nat) (r : Record) : (s.allocate k r).scrub = s.scrub := rfl
@[simp] theorem State.allocate_reports (s : State) (k : Nat) (r : Record) :
    (s.allocate k r).reports = s.reports := rfl
@[simp] theorem State.allocate_ev (s : State) (k : Nat) (r : Record) : (s.allocate k r).ev = s.ev := rfl
@[simp] theorem State.allocate_choices (s : State) (k : Nat) (r : Record) :
    (s.allocate k r).choices = s.choices := rfl
@[simp] theorem State.allocate_pending (s : State) (k : Nat) (r : Record) :
    (s.allocate k r).pending = s.pending := rfl

@[simp] theorem State.allocate_buf_mem (s : State) (k : Nat) (r : Record) :
    (s.allocate k r).buf.mem = s.buf.mem := rfl
@[simp] theorem State.allocate_buf_wrong (s : State) (k : Nat) (r : Record) :
    (s.allocate k r).buf.wrong = s.buf.wrong := rfl
@[simp] theorem State.zeroCells_ready (s : State) (cells : List Nat) : (s.zeroCells cells).ready = s.ready := rfl
@[simp] theorem State.zeroCells_queues (s : State) (cells : List Nat) : (s.zeroCells cells).queues = s.queues := rfl
@[simp] theorem State.zeroCells_flush (s : State) (cells : List Nat) : (s.zeroCells cells).flush = s.flush := rfl
@[simp] theorem State.zeroCells_portA (s : State) (cells : List Nat) : (s.zeroCells cells).portA = s.portA := rfl
@[simp] theorem State.zeroCells_portB (s : State) (cells : List Nat) : (s.zeroCells cells).portB = s.portB := rfl
@[simp] theorem State.zeroCells_table (s : State) (cells : List Nat) : (s.zeroCells cells).table = s.table := rfl
@[simp] theorem State.zeroCells_hcu (s : State) (cells : List Nat) : (s.zeroCells cells).hcu = s.hcu := rfl
@[simp] theorem State.zeroCells_nodeAddr (s : State) (cells : List Nat) :
    (s.zeroCells cells).nodeAddr = s.nodeAddr := rfl
@[simp] theorem State.zeroCells_scrub (s : State) (cells : List Nat) : (s.zeroCells cells).scrub = s.scrub := rfl
@[simp] theorem State.zeroCells_reports (s : State) (cells : List Nat) :
    (s.zeroCells cells).reports = s.reports := rfl
@[simp] theorem State.zeroCells_ev (s : State) (cells : List Nat) : (s.zeroCells cells).ev = s.ev := rfl
@[simp] theorem State.zeroCells_choices (s : State) (cells : List Nat) :
    (s.zeroCells cells).choices = s.choices := rfl
@[simp] theorem State.zeroCells_pending (s : State) (cells : List Nat) :
    (s.zeroCells cells).pending = s.pending := rfl

@[simp] theorem State.zeroCells_buf_links (s : State) (cells : List Nat) :
    (s.zeroCells cells).buf.links = s.buf.links := rfl
@[simp] theorem State.zeroCells_buf_free (s : State) (cells : List Nat) :
    (s.zeroCells cells).buf.free = s.buf.free := rfl
@[simp] theorem State.zeroCells_buf_records (s : State) (cells : List Nat) :
    (s.zeroCells cells).buf.records = s.buf.records := rfl

/-! ## Events and counters -/

@[simp] theorem State.raise_ready (s : State) (e : Event) : (s.raise e).ready = s.ready := rfl
@[simp] theorem State.raise_buf (s : State) (e : Event) : (s.raise e).buf = s.buf := rfl
@[simp] theorem State.raise_queues (s : State) (e : Event) : (s.raise e).queues = s.queues := rfl
@[simp] theorem State.raise_flush (s : State) (e : Event) : (s.raise e).flush = s.flush := rfl
@[simp] theorem State.raise_portA (s : State) (e : Event) : (s.raise e).portA = s.portA := rfl
@[simp] theorem State.raise_portB (s : State) (e : Event) : (s.raise e).portB = s.portB := rfl
@[simp] theorem State.raise_table (s : State) (e : Event) : (s.raise e).table = s.table := rfl
@[simp] theorem State.raise_hcu (s : State) (e : Event) : (s.raise e).hcu = s.hcu := rfl
@[simp] theorem State.raise_nodeAddr (s : State) (e : Event) : (s.raise e).nodeAddr = s.nodeAddr := rfl
@[simp] theorem State.raise_scrub (s : State) (e : Event) : (s.raise e).scrub = s.scrub := rfl
@[simp] theorem State.raise_reports (s : State) (e : Event) : (s.raise e).reports = s.reports := rfl
@[simp] theorem State.raise_choices (s : State) (e : Event) : (s.raise e).choices = s.choices := rfl
@[simp] theorem State.raise_pending (s : State) (e : Event) : (s.raise e).pending = s.pending := rfl

@[simp] theorem State.raise_ev_enables (s : State) (e : Event) : (s.raise e).ev.enables = s.ev.enables := rfl
@[simp] theorem State.raise_ev_counters (s : State) (e : Event) : (s.raise e).ev.counters = s.ev.counters := rfl
@[simp] theorem State.flag_raise (s : State) (e : Event) :
    (s.raise e).flag e = true := by cases e <;> simp [State.raise, State.flag, Event.bit]

@[simp] theorem State.countPart_ready (s : State) (c : PartCounter) :
    (s.countPart c).ready = s.ready := by cases c <;> rfl
@[simp] theorem State.countPart_buf (s : State) (c : PartCounter) : (s.countPart c).buf = s.buf := by cases c <;> rfl
@[simp] theorem State.countPart_queues (s : State) (c : PartCounter) :
    (s.countPart c).queues = s.queues := by cases c <;> rfl
@[simp] theorem State.countPart_flush (s : State) (c : PartCounter) :
    (s.countPart c).flush = s.flush := by cases c <;> rfl
@[simp] theorem State.countPart_portA (s : State) (c : PartCounter) :
    (s.countPart c).portA = s.portA := by cases c <;> rfl
@[simp] theorem State.countPart_portB (s : State) (c : PartCounter) :
    (s.countPart c).portB = s.portB := by cases c <;> rfl
@[simp] theorem State.countPart_table (s : State) (c : PartCounter) :
    (s.countPart c).table = s.table := by cases c <;> rfl
@[simp] theorem State.countPart_hcu (s : State) (c : PartCounter) : (s.countPart c).hcu = s.hcu := by cases c <;> rfl
@[simp] theorem State.countPart_nodeAddr (s : State) (c : PartCounter) :
    (s.countPart c).nodeAddr = s.nodeAddr := by cases c <;> rfl
@[simp] theorem State.countPart_scrub (s : State) (c : PartCounter) :
    (s.countPart c).scrub = s.scrub := by cases c <;> rfl
@[simp] theorem State.countPart_reports (s : State) (c : PartCounter) :
    (s.countPart c).reports = s.reports := by cases c <;> rfl
@[simp] theorem State.countPart_choices (s : State) (c : PartCounter) :
    (s.countPart c).choices = s.choices := by cases c <;> rfl
@[simp] theorem State.countPart_pending (s : State) (c : PartCounter) :
    (s.countPart c).pending = s.pending := by cases c <;> rfl

@[simp] theorem State.countPart_ev_enables (s : State) (c : PartCounter) :
    (s.countPart c).ev.enables = s.ev.enables := by cases c <;> rfl
@[simp] theorem PartCounters.get_set (n : PartCounters) (c : PartCounter) (v : Word) :
    (n.set c v).get c = v := by cases c <;> rfl
theorem PartCounters.get_set_ne (n : PartCounters) (c d : PartCounter) (v : Word) (h : d ≠ c) :
    (n.set c v).get d = n.get d := by
  cases c <;> cases d <;> first | rfl | exact absurd rfl h

@[simp] theorem State.countPart_counter (s : State) (c : PartCounter) :
    (s.countPart c).ev.counters = s.ev.counters.set c (s.ev.counters.get c + 1) := by cases c <;> rfl

@[simp] theorem State.countLink_ready (s : State) (l : LinkId) (c : LinkCounter) :
    (s.countLink l c).ready = s.ready := by cases l <;> cases c <;> rfl
@[simp] theorem State.countLink_buf (s : State) (l : LinkId) (c : LinkCounter) :
    (s.countLink l c).buf = s.buf := by cases l <;> cases c <;> rfl
@[simp] theorem State.countLink_queues (s : State) (l : LinkId) (c : LinkCounter) :
    (s.countLink l c).queues = s.queues := by cases l <;> cases c <;> rfl
@[simp] theorem State.countLink_flush (s : State) (l : LinkId) (c : LinkCounter) :
    (s.countLink l c).flush = s.flush := by cases l <;> cases c <;> rfl
@[simp] theorem State.countLink_table (s : State) (l : LinkId) (c : LinkCounter) :
    (s.countLink l c).table = s.table := by cases l <;> cases c <;> rfl
@[simp] theorem State.countLink_hcu (s : State) (l : LinkId) (c : LinkCounter) :
    (s.countLink l c).hcu = s.hcu := by cases l <;> cases c <;> rfl
@[simp] theorem State.countLink_nodeAddr (s : State) (l : LinkId) (c : LinkCounter) :
    (s.countLink l c).nodeAddr = s.nodeAddr := by cases l <;> cases c <;> rfl
@[simp] theorem State.countLink_scrub (s : State) (l : LinkId) (c : LinkCounter) :
    (s.countLink l c).scrub = s.scrub := by cases l <;> cases c <;> rfl
@[simp] theorem State.countLink_reports (s : State) (l : LinkId) (c : LinkCounter) :
    (s.countLink l c).reports = s.reports := by cases l <;> cases c <;> rfl
@[simp] theorem State.countLink_choices (s : State) (l : LinkId) (c : LinkCounter) :
    (s.countLink l c).choices = s.choices := by cases l <;> cases c <;> rfl
@[simp] theorem State.countLink_pending (s : State) (l : LinkId) (c : LinkCounter) :
    (s.countLink l c).pending = s.pending := by cases l <;> cases c <;> rfl

@[simp] theorem State.countLink_ev_enables (s : State) (l : LinkId) (c : LinkCounter) :
    (s.countLink l c).ev.enables = s.ev.enables := by
  cases l <;> cases c <;> rfl
@[simp] theorem State.countLink_ev_counters (s : State) (l : LinkId) (c : LinkCounter) :
    (s.countLink l c).ev.counters = s.ev.counters := by
  cases l <;> cases c <;> rfl
@[simp] theorem State.port_countLink (s : State) (l : LinkId) (c : LinkCounter) :
    (s.countLink l c).port l = { s.port l with counters := (s.port l).counters.set c ((s.port l).counters.get c + 1) } := by
  cases l <;> cases c <;> rfl
@[simp] theorem State.port_countLink_other (s : State) (l : LinkId) (c : LinkCounter) :
    (s.countLink l c).port l.other = s.port l.other := by
  cases l <;> cases c <;> rfl
@[simp] theorem LinkCounters.get_set (n : LinkCounters) (c : LinkCounter) (v : Word) :
    (n.set c v).get c = v := by cases c <;> rfl
theorem LinkCounters.get_set_ne (n : LinkCounters) (c d : LinkCounter) (v : Word) (h : d ≠ c) :
    (n.set c v).get d = n.get d := by
  cases c <;> cases d <;> first | rfl | exact absurd rfl h

/-! ## The Host Command Unit and the scrubber -/

@[simp] theorem State.complete_ready (s : State) (b : Byte) (c : ResultCode) (r : Results) :
    (s.complete b c r).ready = s.ready := rfl
@[simp] theorem State.complete_buf (s : State) (b : Byte) (c : ResultCode) (r : Results) :
    (s.complete b c r).buf = s.buf := rfl
@[simp] theorem State.complete_queues (s : State) (b : Byte) (c : ResultCode) (r : Results) :
    (s.complete b c r).queues = s.queues := rfl
@[simp] theorem State.complete_flush (s : State) (b : Byte) (c : ResultCode) (r : Results) :
    (s.complete b c r).flush = s.flush := rfl
@[simp] theorem State.complete_portA (s : State) (b : Byte) (c : ResultCode) (r : Results) :
    (s.complete b c r).portA = s.portA := rfl
@[simp] theorem State.complete_portB (s : State) (b : Byte) (c : ResultCode) (r : Results) :
    (s.complete b c r).portB = s.portB := rfl
@[simp] theorem State.complete_table (s : State) (b : Byte) (c : ResultCode) (r : Results) :
    (s.complete b c r).table = s.table := rfl
@[simp] theorem State.complete_nodeAddr (s : State) (b : Byte) (c : ResultCode) (r : Results) :
    (s.complete b c r).nodeAddr = s.nodeAddr := rfl
@[simp] theorem State.complete_scrub (s : State) (b : Byte) (c : ResultCode) (r : Results) :
    (s.complete b c r).scrub = s.scrub := rfl
@[simp] theorem State.complete_reports (s : State) (b : Byte) (c : ResultCode) (r : Results) :
    (s.complete b c r).reports = s.reports := rfl
@[simp] theorem State.complete_choices (s : State) (b : Byte) (c : ResultCode) (r : Results) :
    (s.complete b c r).choices = s.choices := rfl
@[simp] theorem State.complete_pending (s : State) (b : Byte) (c : ResultCode) (r : Results) :
    (s.complete b c r).pending = s.pending := rfl

@[simp] theorem State.complete_hcu (s : State) (b : Byte) (c : ResultCode) (r : Results) :
    (s.complete b c r).hcu = { s.hcu with result := c, completed := b, res := r } := rfl
@[simp] theorem State.answer_ready (s : State) (c : ResultCode) (r : Results) : (s.answer c r).ready = s.ready := rfl
@[simp] theorem State.answer_buf (s : State) (c : ResultCode) (r : Results) : (s.answer c r).buf = s.buf := rfl
@[simp] theorem State.answer_queues (s : State) (c : ResultCode) (r : Results) :
    (s.answer c r).queues = s.queues := rfl
@[simp] theorem State.answer_flush (s : State) (c : ResultCode) (r : Results) : (s.answer c r).flush = s.flush := rfl
@[simp] theorem State.answer_portA (s : State) (c : ResultCode) (r : Results) : (s.answer c r).portA = s.portA := rfl
@[simp] theorem State.answer_portB (s : State) (c : ResultCode) (r : Results) : (s.answer c r).portB = s.portB := rfl
@[simp] theorem State.answer_table (s : State) (c : ResultCode) (r : Results) : (s.answer c r).table = s.table := rfl
@[simp] theorem State.answer_nodeAddr (s : State) (c : ResultCode) (r : Results) :
    (s.answer c r).nodeAddr = s.nodeAddr := rfl
@[simp] theorem State.answer_scrub (s : State) (c : ResultCode) (r : Results) : (s.answer c r).scrub = s.scrub := rfl
@[simp] theorem State.answer_reports (s : State) (c : ResultCode) (r : Results) :
    (s.answer c r).reports = s.reports := rfl
@[simp] theorem State.answer_choices (s : State) (c : ResultCode) (r : Results) :
    (s.answer c r).choices = s.choices := rfl
@[simp] theorem State.answer_pending (s : State) (c : ResultCode) (r : Results) :
    (s.answer c r).pending = s.pending := rfl

@[simp] theorem State.setHeld_ready (s : State) (n : Nat) : (s.setHeld n).ready = s.ready := rfl
@[simp] theorem State.setHeld_buf (s : State) (n : Nat) : (s.setHeld n).buf = s.buf := rfl
@[simp] theorem State.setHeld_queues (s : State) (n : Nat) : (s.setHeld n).queues = s.queues := rfl
@[simp] theorem State.setHeld_flush (s : State) (n : Nat) : (s.setHeld n).flush = s.flush := rfl
@[simp] theorem State.setHeld_portA (s : State) (n : Nat) : (s.setHeld n).portA = s.portA := rfl
@[simp] theorem State.setHeld_portB (s : State) (n : Nat) : (s.setHeld n).portB = s.portB := rfl
@[simp] theorem State.setHeld_table (s : State) (n : Nat) : (s.setHeld n).table = s.table := rfl
@[simp] theorem State.setHeld_nodeAddr (s : State) (n : Nat) : (s.setHeld n).nodeAddr = s.nodeAddr := rfl
@[simp] theorem State.setHeld_scrub (s : State) (n : Nat) : (s.setHeld n).scrub = s.scrub := rfl
@[simp] theorem State.setHeld_reports (s : State) (n : Nat) : (s.setHeld n).reports = s.reports := rfl
@[simp] theorem State.setHeld_ev (s : State) (n : Nat) : (s.setHeld n).ev = s.ev := rfl
@[simp] theorem State.setHeld_choices (s : State) (n : Nat) : (s.setHeld n).choices = s.choices := rfl
@[simp] theorem State.setHeld_pending (s : State) (n : Nat) : (s.setHeld n).pending = s.pending := rfl

@[simp] theorem State.setHeld_hcu (s : State) (n : Nat) : (s.setHeld n).hcu = { s.hcu with held := n } := rfl
@[simp] theorem State.closePort_ready (s : State) (h : Nat) :
    (s.closePort h).ready = s.ready := by
  unfold State.closePort; split <;> try split <;> rfl
  all_goals rfl
@[simp] theorem State.closePort_buf (s : State) (h : Nat) :
    (s.closePort h).buf = s.buf := by
  unfold State.closePort; split <;> try split <;> rfl
  all_goals rfl
@[simp] theorem State.closePort_queues (s : State) (h : Nat) :
    (s.closePort h).queues = s.queues := by
  unfold State.closePort; split <;> try split <;> rfl
  all_goals rfl
@[simp] theorem State.closePort_flush (s : State) (h : Nat) :
    (s.closePort h).flush = s.flush := by
  unfold State.closePort; split <;> try split <;> rfl
  all_goals rfl
@[simp] theorem State.closePort_portA (s : State) (h : Nat) :
    (s.closePort h).portA = s.portA := by
  unfold State.closePort; split <;> try split <;> rfl
  all_goals rfl
@[simp] theorem State.closePort_portB (s : State) (h : Nat) :
    (s.closePort h).portB = s.portB := by
  unfold State.closePort; split <;> try split <;> rfl
  all_goals rfl
@[simp] theorem State.closePort_table (s : State) (h : Nat) :
    (s.closePort h).table = s.table := by
  unfold State.closePort; split <;> try split <;> rfl
  all_goals rfl
@[simp] theorem State.closePort_nodeAddr (s : State) (h : Nat) :
    (s.closePort h).nodeAddr = s.nodeAddr := by
  unfold State.closePort; split <;> try split <;> rfl
  all_goals rfl
@[simp] theorem State.closePort_scrub (s : State) (h : Nat) :
    (s.closePort h).scrub = s.scrub := by
  unfold State.closePort; split <;> try split <;> rfl
  all_goals rfl
@[simp] theorem State.closePort_reports (s : State) (h : Nat) :
    (s.closePort h).reports = s.reports := by
  unfold State.closePort; split <;> try split <;> rfl
  all_goals rfl
@[simp] theorem State.closePort_ev (s : State) (h : Nat) :
    (s.closePort h).ev = s.ev := by
  unfold State.closePort; split <;> try split <;> rfl
  all_goals rfl
@[simp] theorem State.closePort_choices (s : State) (h : Nat) :
    (s.closePort h).choices = s.choices := by
  unfold State.closePort; split <;> try split <;> rfl
  all_goals rfl
@[simp] theorem State.closePort_pending (s : State) (h : Nat) :
    (s.closePort h).pending = s.pending := by
  unfold State.closePort; split <;> try split <;> rfl
  all_goals rfl

@[simp] theorem State.startPass_ready (s : State) (n : Nat) : (s.startPass n).ready = s.ready := rfl
@[simp] theorem State.startPass_buf (s : State) (n : Nat) : (s.startPass n).buf = s.buf := rfl
@[simp] theorem State.startPass_queues (s : State) (n : Nat) : (s.startPass n).queues = s.queues := rfl
@[simp] theorem State.startPass_flush (s : State) (n : Nat) : (s.startPass n).flush = s.flush := rfl
@[simp] theorem State.startPass_portA (s : State) (n : Nat) : (s.startPass n).portA = s.portA := rfl
@[simp] theorem State.startPass_portB (s : State) (n : Nat) : (s.startPass n).portB = s.portB := rfl
@[simp] theorem State.startPass_table (s : State) (n : Nat) : (s.startPass n).table = s.table := rfl
@[simp] theorem State.startPass_hcu (s : State) (n : Nat) : (s.startPass n).hcu = s.hcu := rfl
@[simp] theorem State.startPass_nodeAddr (s : State) (n : Nat) : (s.startPass n).nodeAddr = s.nodeAddr := rfl
@[simp] theorem State.startPass_reports (s : State) (n : Nat) : (s.startPass n).reports = s.reports := rfl
@[simp] theorem State.startPass_ev (s : State) (n : Nat) : (s.startPass n).ev = s.ev := rfl
@[simp] theorem State.startPass_choices (s : State) (n : Nat) : (s.startPass n).choices = s.choices := rfl
@[simp] theorem State.startPass_pending (s : State) (n : Nat) : (s.startPass n).pending = s.pending := rfl

@[simp] theorem State.setBusData_ready (s : State) (v : Word) : (s.setBusData v).ready = s.ready := rfl
@[simp] theorem State.setBusData_buf (s : State) (v : Word) : (s.setBusData v).buf = s.buf := rfl
@[simp] theorem State.setBusData_queues (s : State) (v : Word) : (s.setBusData v).queues = s.queues := rfl
@[simp] theorem State.setBusData_flush (s : State) (v : Word) : (s.setBusData v).flush = s.flush := rfl
@[simp] theorem State.setBusData_portA (s : State) (v : Word) : (s.setBusData v).portA = s.portA := rfl
@[simp] theorem State.setBusData_portB (s : State) (v : Word) : (s.setBusData v).portB = s.portB := rfl
@[simp] theorem State.setBusData_table (s : State) (v : Word) : (s.setBusData v).table = s.table := rfl
@[simp] theorem State.setBusData_nodeAddr (s : State) (v : Word) : (s.setBusData v).nodeAddr = s.nodeAddr := rfl
@[simp] theorem State.setBusData_scrub (s : State) (v : Word) : (s.setBusData v).scrub = s.scrub := rfl
@[simp] theorem State.setBusData_reports (s : State) (v : Word) : (s.setBusData v).reports = s.reports := rfl
@[simp] theorem State.setBusData_ev (s : State) (v : Word) : (s.setBusData v).ev = s.ev := rfl
@[simp] theorem State.setBusData_choices (s : State) (v : Word) : (s.setBusData v).choices = s.choices := rfl
@[simp] theorem State.setBusData_pending (s : State) (v : Word) : (s.setBusData v).pending = s.pending := rfl

@[simp] theorem State.stepPort_ready (s : State) : (s.stepPort).ready = s.ready := rfl
@[simp] theorem State.stepPort_buf (s : State) : (s.stepPort).buf = s.buf := rfl
@[simp] theorem State.stepPort_queues (s : State) : (s.stepPort).queues = s.queues := rfl
@[simp] theorem State.stepPort_flush (s : State) : (s.stepPort).flush = s.flush := rfl
@[simp] theorem State.stepPort_portA (s : State) : (s.stepPort).portA = s.portA := rfl
@[simp] theorem State.stepPort_portB (s : State) : (s.stepPort).portB = s.portB := rfl
@[simp] theorem State.stepPort_table (s : State) : (s.stepPort).table = s.table := rfl
@[simp] theorem State.stepPort_nodeAddr (s : State) : (s.stepPort).nodeAddr = s.nodeAddr := rfl
@[simp] theorem State.stepPort_scrub (s : State) : (s.stepPort).scrub = s.scrub := rfl
@[simp] theorem State.stepPort_reports (s : State) : (s.stepPort).reports = s.reports := rfl
@[simp] theorem State.stepPort_ev (s : State) : (s.stepPort).ev = s.ev := rfl
@[simp] theorem State.stepPort_choices (s : State) : (s.stepPort).choices = s.choices := rfl
@[simp] theorem State.stepPort_pending (s : State) : (s.stepPort).pending = s.pending := rfl

end Sys2Proof.Machine
end

