-- ==== Sys2Proof/Laws/Records.lean ====
section
/-! SUPPORT. What the shared operations over records, queues and the Host Command Unit can do, said once each. -/

namespace Sys2Proof.Machine

-- The theorems of this file are elaborated one after another: many at once take a thread each.
set_option Elab.async false

/-! ## Records -/

theorem State.record_modRecord (s : State) (h g : Nat) (f : Record → Record) :
    (s.modRecord h f).record g = if h = g then (s.record g).map f else s.record g :=
  Sparse.lookup_modify _ _ _ _

theorem State.record_allocate (s : State) (k g : Nat) (r : Record) :
    (s.allocate k r).record g = if s.nextHandle = g then some { r with cells := s.buf.free.take k } else s.record g :=
  Sparse.lookup_insert _ _ _ _

@[simp] theorem State.record_setPort (s : State) (l : LinkId) (p : LinkPort) (h : Nat) :
    (s.setPort l p).record h = s.record h := by cases l <;> rfl

@[simp] theorem State.record_setEntries (s : State) (q : QueueId) (es : List Nat) (h : Nat) :
    (s.setEntries q es).record h = s.record h := rfl

@[simp] theorem State.queue_setPort (s : State) (l : LinkId) (p : LinkPort) (q : QueueId) :
    (s.setPort l p).queue q = s.queue q := by cases l <;> rfl

@[simp] theorem State.queue_modRecord (s : State) (h : Nat) (f : Record → Record) (q : QueueId) :
    (s.modRecord h f).queue q = s.queue q := rfl

/-! ## The report of a free -/

@[simp] theorem State.reportFree_ready (s : State) (r : Record) : (s.reportFree r).ready = s.ready := by
  unfold State.reportFree; split <;> simp
@[simp] theorem State.reportFree_queues (s : State) (r : Record) : (s.reportFree r).queues = s.queues := by
  unfold State.reportFree; split <;> simp
@[simp] theorem State.reportFree_flush (s : State) (r : Record) : (s.reportFree r).flush = s.flush := by
  unfold State.reportFree; split <;> simp
@[simp] theorem State.reportFree_table (s : State) (r : Record) : (s.reportFree r).table = s.table := by
  unfold State.reportFree; split <;> simp
@[simp] theorem State.reportFree_hcu (s : State) (r : Record) : (s.reportFree r).hcu = s.hcu := by
  unfold State.reportFree; split <;> simp
@[simp] theorem State.reportFree_nodeAddr (s : State) (r : Record) : (s.reportFree r).nodeAddr = s.nodeAddr := by
  unfold State.reportFree; split <;> simp
@[simp] theorem State.reportFree_scrub (s : State) (r : Record) : (s.reportFree r).scrub = s.scrub := by
  unfold State.reportFree; split <;> simp
@[simp] theorem State.reportFree_reports (s : State) (r : Record) : (s.reportFree r).reports = s.reports := by
  unfold State.reportFree; split <;> simp
@[simp] theorem State.reportFree_ev (s : State) (r : Record) : (s.reportFree r).ev = s.ev := by
  unfold State.reportFree; split <;> simp
@[simp] theorem State.reportFree_choices (s : State) (r : Record) : (s.reportFree r).choices = s.choices := by
  unfold State.reportFree; split <;> simp
@[simp] theorem State.reportFree_pending (s : State) (r : Record) : (s.reportFree r).pending = s.pending := by
  unfold State.reportFree; split <;> simp
@[simp] theorem State.reportFree_buf (s : State) (r : Record) : (s.reportFree r).buf = s.buf := by
  unfold State.reportFree; split <;> simp

/-- A report of a free changes the in-use count of one class of one link and nothing else. -/
theorem State.reportFree_port (s : State) (r : Record) (l : LinkId) :
    (s.reportFree r).port l =
      if r.origin = .link l then
        (s.port l).modCredit r.cls fun k => { k with inUse := k.inUse - r.cells.length }
      else s.port l := by
  unfold State.reportFree
  split
  · rename_i h; simp [h]
  · rename_i m h
    rw [h]
    cases m <;> cases l <;> simp [State.modCredit, State.modPort]

/-! ## A record freed -/

@[simp] theorem State.freeRecord_ready (s : State) (h : Nat) : (s.freeRecord h).ready = s.ready := by
  unfold State.freeRecord; split <;> simp
@[simp] theorem State.freeRecord_queues (s : State) (h : Nat) : (s.freeRecord h).queues = s.queues := by
  unfold State.freeRecord; split <;> simp
@[simp] theorem State.freeRecord_flush (s : State) (h : Nat) : (s.freeRecord h).flush = s.flush := by
  unfold State.freeRecord; split <;> simp
@[simp] theorem State.freeRecord_table (s : State) (h : Nat) : (s.freeRecord h).table = s.table := by
  unfold State.freeRecord; split <;> simp
@[simp] theorem State.freeRecord_hcu (s : State) (h : Nat) : (s.freeRecord h).hcu = s.hcu := by
  unfold State.freeRecord; split <;> simp
@[simp] theorem State.freeRecord_nodeAddr (s : State) (h : Nat) : (s.freeRecord h).nodeAddr = s.nodeAddr := by
  unfold State.freeRecord; split <;> simp
@[simp] theorem State.freeRecord_scrub (s : State) (h : Nat) : (s.freeRecord h).scrub = s.scrub := by
  unfold State.freeRecord; split <;> simp
@[simp] theorem State.freeRecord_reports (s : State) (h : Nat) : (s.freeRecord h).reports = s.reports := by
  unfold State.freeRecord; split <;> simp
@[simp] theorem State.freeRecord_ev (s : State) (h : Nat) : (s.freeRecord h).ev = s.ev := by
  unfold State.freeRecord; split <;> simp
@[simp] theorem State.freeRecord_choices (s : State) (h : Nat) : (s.freeRecord h).choices = s.choices := by
  unfold State.freeRecord; split <;> simp
@[simp] theorem State.freeRecord_pending (s : State) (h : Nat) : (s.freeRecord h).pending = s.pending := by
  unfold State.freeRecord; split <;> simp
@[simp] theorem State.freeRecord_buf_mem (s : State) (h : Nat) : (s.freeRecord h).buf.mem = s.buf.mem := by
  unfold State.freeRecord; split <;> simp
@[simp] theorem State.freeRecord_buf_wrong (s : State) (h : Nat) : (s.freeRecord h).buf.wrong = s.buf.wrong := by
  unfold State.freeRecord; split <;> simp
@[simp] theorem State.freeRecord_buf_links (s : State) (h : Nat) : (s.freeRecord h).buf.links = s.buf.links := by
  unfold State.freeRecord; split <;> simp

theorem State.record_freeRecord (s : State) (h g : Nat) :
    (s.freeRecord h).record g = if h = g then none else s.record g := by
  unfold State.freeRecord
  split
  · rename_i hn
    split
    · rename_i hg; rw [← hg, hn]
    · rfl
  · simp only [State.record, State.reportFree_buf]
    exact Sparse.lookup_erase _ _ _

theorem State.free_freeRecord (s : State) (h : Nat) (r : Record) (hr : s.record h = some r) :
    (s.freeRecord h).buf.free = s.buf.free ++ r.cells := by
  simp [State.freeRecord, hr]

theorem State.port_freeRecord (s : State) (h : Nat) (r : Record) (hr : s.record h = some r) (l : LinkId) :
    (s.freeRecord h).port l =
      if r.origin = .link l then
        (s.port l).modCredit r.cls fun k => { k with inUse := k.inUse - r.cells.length }
      else s.port l := by
  simp only [State.freeRecord, hr]
  rw [State.reportFree_port]
  cases l <;> rfl

/-! ## A holder removed -/

@[simp] theorem State.removeHolder_ready (s : State) (h : Nat) (k : Record → Record) : (s.removeHolder h k).ready = s.ready := by
  unfold State.removeHolder; split <;> try split
  all_goals simp
@[simp] theorem State.removeHolder_queues (s : State) (h : Nat) (k : Record → Record) : (s.removeHolder h k).queues = s.queues := by
  unfold State.removeHolder; split <;> try split
  all_goals simp
@[simp] theorem State.removeHolder_flush (s : State) (h : Nat) (k : Record → Record) : (s.removeHolder h k).flush = s.flush := by
  unfold State.removeHolder; split <;> try split
  all_goals simp
@[simp] theorem State.removeHolder_table (s : State) (h : Nat) (k : Record → Record) : (s.removeHolder h k).table = s.table := by
  unfold State.removeHolder; split <;> try split
  all_goals simp
@[simp] theorem State.removeHolder_hcu (s : State) (h : Nat) (k : Record → Record) : (s.removeHolder h k).hcu = s.hcu := by
  unfold State.removeHolder; split <;> try split
  all_goals simp
@[simp] theorem State.removeHolder_nodeAddr (s : State) (h : Nat) (k : Record → Record) : (s.removeHolder h k).nodeAddr = s.nodeAddr := by
  unfold State.removeHolder; split <;> try split
  all_goals simp
@[simp] theorem State.removeHolder_scrub (s : State) (h : Nat) (k : Record → Record) : (s.removeHolder h k).scrub = s.scrub := by
  unfold State.removeHolder; split <;> try split
  all_goals simp
@[simp] theorem State.removeHolder_reports (s : State) (h : Nat) (k : Record → Record) : (s.removeHolder h k).reports = s.reports := by
  unfold State.removeHolder; split <;> try split
  all_goals simp
@[simp] theorem State.removeHolder_ev (s : State) (h : Nat) (k : Record → Record) : (s.removeHolder h k).ev = s.ev := by
  unfold State.removeHolder; split <;> try split
  all_goals simp
@[simp] theorem State.removeHolder_choices (s : State) (h : Nat) (k : Record → Record) : (s.removeHolder h k).choices = s.choices := by
  unfold State.removeHolder; split <;> try split
  all_goals simp
@[simp] theorem State.removeHolder_pending (s : State) (h : Nat) (k : Record → Record) : (s.removeHolder h k).pending = s.pending := by
  unfold State.removeHolder; split <;> try split
  all_goals simp
@[simp] theorem State.removeHolder_buf_mem (s : State) (h : Nat) (k : Record → Record) : (s.removeHolder h k).buf.mem = s.buf.mem := by
  unfold State.removeHolder; split <;> try split
  all_goals simp
@[simp] theorem State.removeHolder_buf_wrong (s : State) (h : Nat) (k : Record → Record) : (s.removeHolder h k).buf.wrong = s.buf.wrong := by
  unfold State.removeHolder; split <;> try split
  all_goals simp
@[simp] theorem State.removeHolder_buf_links (s : State) (h : Nat) (k : Record → Record) : (s.removeHolder h k).buf.links = s.buf.links := by
  unfold State.removeHolder; split <;> try split
  all_goals simp

/-- The record of a handle after a holder is removed: none where no holder remains, the cleared record otherwise; no other changes. -/
theorem State.record_removeHolder (s : State) (h g : Nat) (clear : Record → Record) :
    (s.removeHolder h clear).record g =
      if h = g then (s.record h).bind fun r => if (clear r).refCount = 0 then none else some (clear r)
      else s.record g := by
  unfold State.removeHolder
  split
  · rename_i hn
    split
    · rename_i hg; simp [← hg, hn]
    · rfl
  · rename_i r hr
    split
    · rename_i hc
      rw [State.record_freeRecord]
      split
      · simp [hr, hc]
      · rfl
    · rename_i hc
      rw [State.record_modRecord]
      split
      · rename_i hg; simp [← hg, hr, hc]
      · rfl

/-! ## Entries that leave a queue -/

/-- What the head's leaving a queue changes: its entries, and for a transmit queue the stall timer of its class. -/
theorem State.queue_popHead (s : State) (q r : QueueId) :
    (s.popHead q).queue r = if r = q then { s.queue q with entries := (s.queue q).entries.tail } else s.queue r := by
  have h : ∀ t : State, (t.stopStall q).queue r = t.queue r := by
    intro t
    unfold State.stopStall
    split <;> simp [State.queue]
  rw [State.popHead, h]
  split
  · rename_i he; subst he; simp
  · rename_i he; exact State.queue_setEntries_ne _ _ _ _ he

/-- The end of a flush changes the flush, the Host Command Unit and CMD_DONE alone. -/
theorem State.completeFlush_spec (s : State) :
    s.completeFlush =
      { s with
        flush := { s.flush with active := none }
        hcu := { s.hcu with
          busy := false, result := .ok, completed := 7, res := { r0 := wordOfNat s.flush.removed } }
        ev := { s.ev with flags := s.ev.flags ||| 4#14 } } := rfl

/-- An entry's leaving completes the flush of its queue where it was the mark, and does nothing otherwise. -/
theorem State.entryLeft_spec (s : State) (q : QueueId) (h : Nat) :
    s.entryLeft q h = if s.flush.active = some (q, h) then s.completeFlush else s := rfl

/-! ## Commands -/

/-- A command taken by an idle unit of a ready part is its body, on the state with the code kept. -/
theorem State.takeCommand_idle (s : State) (code : Word) (body : State → State)
    (hb : s.hcu.busy = false) (hr : s.ready = true) :
    s.takeCommand code body = body { s with hcu := { s.hcu with cmd := code } } := by
  simp [State.takeCommand, hb, hr]

/-- A write of CMD while BUSY sets CMD_OVERRUN and nothing else. -/
theorem State.takeCommand_busy (s : State) (code : Word) (body : State → State) (hb : s.hcu.busy = true) :
    s.takeCommand code body = s.raise .cmdOverrun := by
  simp [State.takeCommand, hb]

/-- While READY is 0 an idle unit answers NOT_READY. -/
theorem State.takeCommand_notReady (s : State) (code : Word) (body : State → State)
    (hb : s.hcu.busy = false) (hr : s.ready = false) :
    s.takeCommand code body = State.answer { s with hcu := { s.hcu with cmd := code } } .notReady := by
  simp [State.takeCommand, hb, hr]

/-! ## Reads of words -/

@[simp] theorem State.tableReport_ready (s : State) (e : ReportEntry) : (s.tableReport e).ready = s.ready := by
  unfold State.tableReport State.loseReport; split <;> try split
  all_goals first | rfl | (split <;> simp)
@[simp] theorem State.tableReport_queues (s : State) (e : ReportEntry) : (s.tableReport e).queues = s.queues := by
  unfold State.tableReport State.loseReport; split <;> try split
  all_goals first | rfl | (split <;> simp)
@[simp] theorem State.tableReport_flush (s : State) (e : ReportEntry) : (s.tableReport e).flush = s.flush := by
  unfold State.tableReport State.loseReport; split <;> try split
  all_goals first | rfl | (split <;> simp)
@[simp] theorem State.tableReport_portA (s : State) (e : ReportEntry) : (s.tableReport e).portA = s.portA := by
  unfold State.tableReport State.loseReport; split <;> try split
  all_goals first | rfl | (split <;> simp)
@[simp] theorem State.tableReport_portB (s : State) (e : ReportEntry) : (s.tableReport e).portB = s.portB := by
  unfold State.tableReport State.loseReport; split <;> try split
  all_goals first | rfl | (split <;> simp)
@[simp] theorem State.tableReport_table (s : State) (e : ReportEntry) : (s.tableReport e).table = s.table := by
  unfold State.tableReport State.loseReport; split <;> try split
  all_goals first | rfl | (split <;> simp)
@[simp] theorem State.tableReport_hcu (s : State) (e : ReportEntry) : (s.tableReport e).hcu = s.hcu := by
  unfold State.tableReport State.loseReport; split <;> try split
  all_goals first | rfl | (split <;> simp)
@[simp] theorem State.tableReport_nodeAddr (s : State) (e : ReportEntry) : (s.tableReport e).nodeAddr = s.nodeAddr := by
  unfold State.tableReport State.loseReport; split <;> try split
  all_goals first | rfl | (split <;> simp)
@[simp] theorem State.tableReport_scrub (s : State) (e : ReportEntry) : (s.tableReport e).scrub = s.scrub := by
  unfold State.tableReport State.loseReport; split <;> try split
  all_goals first | rfl | (split <;> simp)
@[simp] theorem State.tableReport_choices (s : State) (e : ReportEntry) : (s.tableReport e).choices = s.choices := by
  unfold State.tableReport State.loseReport; split <;> try split
  all_goals first | rfl | (split <;> simp)
@[simp] theorem State.tableReport_pending (s : State) (e : ReportEntry) : (s.tableReport e).pending = s.pending := by
  unfold State.tableReport State.loseReport; split <;> try split
  all_goals first | rfl | (split <;> simp)
@[simp] theorem State.tableReport_buf (s : State) (e : ReportEntry) : (s.tableReport e).buf = s.buf := by
  unfold State.tableReport State.loseReport; split <;> try split
  all_goals first | rfl | (split <;> simp)
@[simp] theorem State.makeReport_ready (s : State) (e : ReportEntry) : (s.makeReport e).ready = s.ready := by
  unfold State.makeReport; split <;> simp
@[simp] theorem State.makeReport_queues (s : State) (e : ReportEntry) : (s.makeReport e).queues = s.queues := by
  unfold State.makeReport; split <;> simp
@[simp] theorem State.makeReport_flush (s : State) (e : ReportEntry) : (s.makeReport e).flush = s.flush := by
  unfold State.makeReport; split <;> simp
@[simp] theorem State.makeReport_portA (s : State) (e : ReportEntry) : (s.makeReport e).portA = s.portA := by
  unfold State.makeReport; split <;> simp
@[simp] theorem State.makeReport_portB (s : State) (e : ReportEntry) : (s.makeReport e).portB = s.portB := by
  unfold State.makeReport; split <;> simp
@[simp] theorem State.makeReport_table (s : State) (e : ReportEntry) : (s.makeReport e).table = s.table := by
  unfold State.makeReport; split <;> simp
@[simp] theorem State.makeReport_hcu (s : State) (e : ReportEntry) : (s.makeReport e).hcu = s.hcu := by
  unfold State.makeReport; split <;> simp
@[simp] theorem State.makeReport_nodeAddr (s : State) (e : ReportEntry) : (s.makeReport e).nodeAddr = s.nodeAddr := by
  unfold State.makeReport; split <;> simp
@[simp] theorem State.makeReport_scrub (s : State) (e : ReportEntry) : (s.makeReport e).scrub = s.scrub := by
  unfold State.makeReport; split <;> simp
@[simp] theorem State.makeReport_choices (s : State) (e : ReportEntry) : (s.makeReport e).choices = s.choices := by
  unfold State.makeReport; split <;> simp
@[simp] theorem State.makeReport_pending (s : State) (e : ReportEntry) : (s.makeReport e).pending = s.pending := by
  unfold State.makeReport; split <;> simp
@[simp] theorem State.makeReport_buf (s : State) (e : ReportEntry) : (s.makeReport e).buf = s.buf := by
  unfold State.makeReport; split <;> simp
@[simp] theorem State.noteRead_ready (s : State) (k : Reader) (p : Nat) : (s.noteRead k p).ready = s.ready := by
  unfold State.noteRead; split
  · rfl
  · simp
  · rw [State.makeReport_ready]; split <;> rfl
@[simp] theorem State.noteRead_queues (s : State) (k : Reader) (p : Nat) : (s.noteRead k p).queues = s.queues := by
  unfold State.noteRead; split
  · rfl
  · simp
  · rw [State.makeReport_queues]; split <;> rfl
@[simp] theorem State.noteRead_flush (s : State) (k : Reader) (p : Nat) : (s.noteRead k p).flush = s.flush := by
  unfold State.noteRead; split
  · rfl
  · simp
  · rw [State.makeReport_flush]; split <;> rfl
@[simp] theorem State.noteRead_portA (s : State) (k : Reader) (p : Nat) : (s.noteRead k p).portA = s.portA := by
  unfold State.noteRead; split
  · rfl
  · simp
  · rw [State.makeReport_portA]; split <;> rfl
@[simp] theorem State.noteRead_portB (s : State) (k : Reader) (p : Nat) : (s.noteRead k p).portB = s.portB := by
  unfold State.noteRead; split
  · rfl
  · simp
  · rw [State.makeReport_portB]; split <;> rfl
@[simp] theorem State.noteRead_table (s : State) (k : Reader) (p : Nat) : (s.noteRead k p).table = s.table := by
  unfold State.noteRead; split
  · rfl
  · simp
  · rw [State.makeReport_table]; split <;> rfl
@[simp] theorem State.noteRead_hcu (s : State) (k : Reader) (p : Nat) : (s.noteRead k p).hcu = s.hcu := by
  unfold State.noteRead; split
  · rfl
  · simp
  · rw [State.makeReport_hcu]; split <;> rfl
@[simp] theorem State.noteRead_nodeAddr (s : State) (k : Reader) (p : Nat) : (s.noteRead k p).nodeAddr = s.nodeAddr := by
  unfold State.noteRead; split
  · rfl
  · simp
  · rw [State.makeReport_nodeAddr]; split <;> rfl
@[simp] theorem State.noteRead_scrub (s : State) (k : Reader) (p : Nat) : (s.noteRead k p).scrub = s.scrub := by
  unfold State.noteRead; split
  · rfl
  · simp
  · rw [State.makeReport_scrub]; split <;> rfl
@[simp] theorem State.noteRead_choices (s : State) (k : Reader) (p : Nat) : (s.noteRead k p).choices = s.choices := by
  unfold State.noteRead; split
  · rfl
  · simp
  · rw [State.makeReport_choices]; split <;> rfl
@[simp] theorem State.noteRead_pending (s : State) (k : Reader) (p : Nat) : (s.noteRead k p).pending = s.pending := by
  unfold State.noteRead; split
  · rfl
  · simp
  · rw [State.makeReport_pending]; split <;> rfl
@[simp] theorem State.noteRead_buf_mem (s : State) (k : Reader) (p : Nat) : (s.noteRead k p).buf.mem = s.buf.mem := by
  unfold State.noteRead; split
  · rfl
  · simp
  · rw [State.makeReport_buf]; split <;> rfl
@[simp] theorem State.noteRead_buf_wrong (s : State) (k : Reader) (p : Nat) : (s.noteRead k p).buf.wrong = s.buf.wrong := by
  unfold State.noteRead; split
  · rfl
  · simp
  · rw [State.makeReport_buf]; split <;> rfl
@[simp] theorem State.noteRead_buf_links (s : State) (k : Reader) (p : Nat) : (s.noteRead k p).buf.links = s.buf.links := by
  unfold State.noteRead; split
  · rfl
  · simp
  · rw [State.makeReport_buf]; split <;> rfl
@[simp] theorem State.noteRead_buf_free (s : State) (k : Reader) (p : Nat) : (s.noteRead k p).buf.free = s.buf.free := by
  unfold State.noteRead; split
  · rfl
  · simp
  · rw [State.makeReport_buf]; split <;> rfl

/-- A read of a good word is no step of the Integrity Unit. -/
theorem State.noteRead_good (s : State) (k : Reader) (p : Nat) (h : s.judge p = .good) : s.noteRead k p = s := by
  simp [State.noteRead, h]

/-- A word just written carries a fresh check code. -/
theorem State.judge_writeWord (s : State) (p : Nat) (w : CellWord) : (s.writeWord p w).judge p = .good := by
  simp [State.judge, State.wrongBits, State.writeWord, Sparse.lookup_erase]

end Sys2Proof.Machine
end

