-- ==== Sys2Proof/Laws/Settle.lean ====
section
/-! SUPPORT. What the shared operations of the links leave unchanged, up to what follows every step, and what the receiver's common
paths do. -/

namespace Sys2Proof.Machine

set_option Elab.async false

/-! ## What the operations of the links leave unchanged -/

theorem State.SameElsewhere.refl (s : State) : s.SameElsewhere s := ⟨rfl, rfl, rfl, rfl, rfl, rfl⟩

theorem State.SameElsewhere.trans {s t u : State} (h : s.SameElsewhere t) (k : t.SameElsewhere u) : s.SameElsewhere u :=
  ⟨k.1.trans h.1, k.2.1.trans h.2.1, k.2.2.1.trans h.2.2.1, k.2.2.2.1.trans h.2.2.2.1,
    k.2.2.2.2.1.trans h.2.2.2.2.1, k.2.2.2.2.2.trans h.2.2.2.2.2⟩

theorem State.setPort_same (s : State) (l : LinkId) (p : LinkPort) : s.SameElsewhere (s.setPort l p) := by
  simp [State.SameElsewhere]

theorem State.modPort_same (s : State) (l : LinkId) (f : LinkPort → LinkPort) : s.SameElsewhere (s.modPort l f) :=
  s.setPort_same l _

theorem State.modTx_same (s : State) (l : LinkId) (f : Transmitter → Transmitter) : s.SameElsewhere (s.modTx l f) :=
  s.modPort_same l _

theorem State.modRx_same (s : State) (l : LinkId) (f : Receiver → Receiver) : s.SameElsewhere (s.modRx l f) :=
  s.modPort_same l _

theorem State.modCredit_same (s : State) (l : LinkId) (c : Cls) (f : CreditClass → CreditClass) :
    s.SameElsewhere (s.modCredit l c f) :=
  s.modPort_same l _

theorem State.setEntries_same (s : State) (q : QueueId) (es : List Nat) : s.SameElsewhere (s.setEntries q es) :=
  .refl s

theorem State.modRecord_same (s : State) (h : Nat) (f : Record → Record) : s.SameElsewhere (s.modRecord h f) :=
  .refl s

theorem State.raise_same (s : State) (e : Event) : s.SameElsewhere (s.raise e) :=
  .refl s

theorem State.countPart_same (s : State) (c : PartCounter) : s.SameElsewhere (s.countPart c) := by
  simp [State.SameElsewhere]

theorem State.countLink_same (s : State) (l : LinkId) (c : LinkCounter) : s.SameElsewhere (s.countLink l c) := by
  simp [State.SameElsewhere]

theorem State.freeRecord_same (s : State) (h : Nat) : s.SameElsewhere (s.freeRecord h) := by
  simp [State.SameElsewhere]

theorem State.removeHolder_same (s : State) (h : Nat) (k : Record → Record) : s.SameElsewhere (s.removeHolder h k) := by
  simp [State.SameElsewhere]

theorem State.completeFlush_same (s : State) : s.SameElsewhere s.completeFlush :=
  .refl s

theorem State.entryLeft_same (s : State) (q : QueueId) (h : Nat) : s.SameElsewhere (s.entryLeft q h) := by
  rw [State.entryLeft_spec]
  split
  · exact s.completeFlush_same
  · exact .refl s

theorem State.stopStall_same (s : State) (q : QueueId) : s.SameElsewhere (s.stopStall q) := by
  unfold State.stopStall
  split
  · exact .refl s
  · exact s.modCredit_same _ _ _

theorem State.popHead_same (s : State) (q : QueueId) : s.SameElsewhere (s.popHead q) :=
  (s.setEntries_same q _).trans (State.stopStall_same _ q)

theorem State.dropHead_same (s : State) (q : QueueId) (h : Nat) : s.SameElsewhere (s.dropHead q h) := by
  unfold State.dropHead
  refine ((s.popHead_same q).trans ?_).trans (State.entryLeft_same _ q h)
  split
  · exact State.removeHolder_same _ _ _
  · exact State.removeHolder_same _ _ _

/-- A fold of a step that leaves these parts unchanged leaves them unchanged. -/
theorem State.foldl_same {α : Type} (f : State → α → State) (hf : ∀ (t : State) (a : α), t.SameElsewhere (f t a)) (xs : List α) (s : State) :
    s.SameElsewhere (xs.foldl f s) := by
  induction xs generalizing s with
  | nil => exact .refl s
  | cons a xs ih => exact (hf s a).trans (ih _)

theorem State.teardownDrop_same (s : State) (l : LinkId) (h : Nat) : s.SameElsewhere (s.teardownDrop l h) :=
  (s.removeHolder_same h _).trans (State.countPart_same _ _)

theorem State.clearFilling_same (s : State) (l : LinkId) : s.SameElsewhere (s.clearFilling l) := by
  unfold State.clearFilling
  split
  · exact s.freeRecord_same _
  · exact .refl s

theorem State.clearSending_same (s : State) (l : LinkId) : s.SameElsewhere (s.clearSending l) := by
  unfold State.clearSending
  split
  · split
    · exact .refl s
    · exact s.teardownDrop_same _ _
  · exact .refl s
  · exact .refl s

theorem State.clearUnacked_same (s : State) (l : LinkId) : s.SameElsewhere (s.clearUnacked l) :=
  (State.foldl_same _ (fun t h => t.teardownDrop_same l h) _ s).trans (State.modTx_same _ _ _)

theorem State.clearTxQueue_same (s : State) (l : LinkId) (c : Cls) : s.SameElsewhere (s.clearTxQueue l c) :=
  State.foldl_same _ (fun t h => (t.dropHead_same _ h).trans (State.countPart_same _ _)) _ s

theorem State.teardown_same (s : State) (l : LinkId) (target : LinkState) : s.SameElsewhere (s.teardown l target) := by
  unfold State.teardown
  have side : s.SameElsewhere
      (((((s.modPort l fun p => { p with state := target }).clearFilling l).clearSending l).clearUnacked l).clearTxQueue l .control
        |>.clearTxQueue l .data |>.clearSession l) :=
    ((((((s.modPort_same l _).trans (State.clearFilling_same _ l)).trans (State.clearSending_same _ l)).trans
      (State.clearUnacked_same _ l)).trans (State.clearTxQueue_same _ l .control)).trans (State.clearTxQueue_same _ l .data)).trans
      (State.modPort_same _ l _)
  simp only
  split
  · exact (side.trans (State.countLink_same _ _ _)).trans (State.raise_same _ _)
  · exact side

/-- An entry to FAULT changes the buffer, the ports, the queues, the flush, the Host Command Unit and the event unit alone. -/
theorem State.enterFault_same (s : State) (l : LinkId) (r : FaultReason) : s.SameElsewhere (s.enterFault l r) :=
  ((s.modPort_same l _).trans (State.teardown_same _ l _)).trans (State.modPort_same _ l _)

theorem State.noteGrant_same (s b : State) (l : LinkId) (c : Cls) : s.SameElsewhere (s.noteGrant b l c) := by
  unfold State.noteGrant
  split
  · exact s.modCredit_same _ _ _
  · exact .refl s

theorem State.noteGrants_same (s b : State) : s.SameElsewhere (s.noteGrants b) :=
  (((s.noteGrant_same b _ _).trans (State.noteGrant_same _ b _ _)).trans (State.noteGrant_same _ b _ _)).trans
    (State.noteGrant_same _ b _ _)

theorem State.refreshStall_same (s : State) (l : LinkId) (c : Cls) : s.SameElsewhere (s.refreshStall l c) := by
  unfold State.refreshStall
  simp only
  split
  · exact s.modCredit_same _ _ _
  · exact s.modCredit_same _ _ _

theorem State.refreshStalls_same (s : State) : s.SameElsewhere s.refreshStalls :=
  (((s.refreshStall_same _ _).trans (State.refreshStall_same _ _ _)).trans (State.refreshStall_same _ _ _)).trans
    (State.refreshStall_same _ _ _)

theorem State.beginBlock_same (s : State) (l : LinkId) (b : LineBlock) : s.SameElsewhere (s.beginBlock l b) :=
  s.modTx_same l _

theorem State.beginNak_same (s : State) (l : LinkId) : s.SameElsewhere (s.beginNak l) :=
  ((s.modRx_same l _).trans (State.countLink_same _ _ _)).trans (State.beginBlock_same _ _ _)

theorem State.beginAck_same (s : State) (l : LinkId) : s.SameElsewhere (s.beginAck l) :=
  (s.modRx_same l _).trans (State.beginBlock_same _ _ _)

theorem State.beginGrant_same (s : State) (l : LinkId) (c : Cls) : s.SameElsewhere (s.beginGrant l c) :=
  ((s.modCredit_same l c _).trans (State.noteGrants_same _ s)).trans (State.beginBlock_same _ _ _)

theorem State.beginFirst_same (s : State) (l : LinkId) (c : Cls) (h : Nat) : s.SameElsewhere (s.beginFirst l c h) := by
  unfold State.beginFirst
  split
  · exact .refl s
  · exact (((s.popHead_same _).trans (State.modRecord_same _ _ _)).trans (State.entryLeft_same _ _ _)).trans
      (State.beginBlock_same _ _ _)

theorem State.beginResend_same (s : State) (l : LinkId) (h : Nat) : s.SameElsewhere (s.beginResend l h) := by
  unfold State.beginResend
  split
  · exact .refl s
  · exact s.beginBlock_same _ _

theorem State.poisonDrop_same (s : State) (l : LinkId) (c : Cls) (h : Nat) : s.SameElsewhere (s.poisonDrop l c h) :=
  ((s.dropHead_same _ h).trans (State.countLink_same _ _ _)).trans (State.noteGrants_same _ s)

theorem State.arbitrate_same (fuel : Nat) (l : LinkId) (keep : Bool) (s : State) :
    s.SameElsewhere (State.arbitrate fuel l keep s) := by
  induction fuel generalizing s with
  | zero => exact .refl s
  | succ fuel ih =>
    unfold State.arbitrate
    split
    · split
      · exact s.beginNak_same l
      · exact s.beginAck_same l
      · exact s.beginGrant_same l _
      · split
        · exact (s.enterFault_same l _).trans (State.noteGrants_same _ s)
        · exact s.beginResend_same l _
      · split
        · exact (s.poisonDrop_same l _ _).trans (ih _)
        · exact s.beginFirst_same l _ _
      · exact s.beginBlock_same l _
      · exact s.modPort_same l _
    · exact .refl s

theorem State.choose_same (s : State) (l : LinkId) (keep : Bool) : s.SameElsewhere (s.choose l keep) :=
  State.arbitrate_same _ l keep s

theorem State.chooseBoth_same (s : State) (first : LinkId) : s.SameElsewhere (s.chooseBoth first) :=
  (((s.choose_same first _).trans (State.choose_same _ _ _)).trans (State.choose_same _ _ _)).trans (State.choose_same _ _ _)

theorem State.arbiters_same (s : State) : s.SameElsewhere s.arbiters := by
  unfold State.arbiters
  split
  · exact State.chooseBoth_same { s with choices := s.choices + 1 } _
  · exact s.chooseBoth_same _

/-- What follows a step changes the buffer, the ports, the queues, the flush, the Host Command Unit, the event unit and the count of free
choices alone. -/
theorem State.settle_same (s b : State) : s.SameElsewhere (s.settle b) :=
  ((s.noteGrants_same b).trans (State.arbiters_same _)).trans (State.refreshStalls_same _)

/-! ## The receiver's common paths -/

/-- In DISABLED and FAULT the receiver does nothing. -/
theorem State.received_off (s : State) (l : LinkId) (act : State → State) (h : (s.port l).state.live = false) :
    s.received l act = s := by
  simp [State.received, h]

/-- In a live state what arrives has its effect, and what follows every step follows it. -/
theorem State.received_live (s : State) (l : LinkId) (act : State → State) (h : (s.port l).state.live = true) :
    s.received l act = (act s).settle s := by
  simp [State.received, h]

/-- A marker with no frame in progress ends the passing over of a block and nothing else. -/
theorem State.marker_clear (s : State) (l : LinkId) (h : (s.port l).rx.frame = none) :
    s.marker l = s.modRx l fun r => { r with passing := .no } := by
  simp [State.marker, h]

/-- A valid block in ALIGNED: the runs, and the silence timer restarted. -/
theorem State.activeBlock_aligned (s : State) (l : LinkId) (h : (s.port l).align = .aligned) :
    s.activeBlock l =
      s.setPort l
        { s.port l with
          validRun := (s.port l).validRun + 1, invalidRun := 0, silenceTimer := some (s.port l).cfg.silenceTimeoutUs } := by
  cases l <;> simp_all [State.activeBlock, State.countValid, State.modPort]

/-- Inside a block no place is one where a block should begin. -/
theorem State.noMarker_inBlock (s : State) (l : LinkId) (h : (s.port l).rx.inBlock = true) : s.noMarker l = s := by
  simp [State.noMarker, h]

/-- The receiver is outside a block exactly where it has no frame in progress and passes none over. -/
theorem Receiver.inBlock_eq_false (r : Receiver) : r.inBlock = false ↔ r.frame = none ∧ r.passing = .no := by
  simp [Receiver.inBlock]

/-- A valid block in ACTIVE with no frame in progress, its marker and its count, in either alignment sub-state. -/
theorem State.marker_activeBlock (s : State) (l : LinkId) (h : (s.port l).rx.frame = none) :
    (s.marker l).activeBlock l = s.setPort l (s.port l).afterValid := by
  rw [State.marker_clear s l h]
  cases l <;>
    simp [State.activeBlock, State.countValid, State.realigned, State.modRx, State.modPort, LinkPort.afterValid,
      LinkCfg.silenceTimeoutUs] <;> split <;> simp_all

@[simp] theorem LinkPort.afterValid_state (p : LinkPort) : p.afterValid.state = p.state := by
  unfold LinkPort.afterValid; simp only; split <;> rfl

@[simp] theorem LinkPort.afterValid_cfg (p : LinkPort) : p.afterValid.cfg = p.cfg := by
  unfold LinkPort.afterValid; simp only; split <;> rfl

@[simp] theorem LinkPort.afterValid_counters (p : LinkPort) : p.afterValid.counters = p.counters := by
  unfold LinkPort.afterValid; simp only; split <;> rfl

@[simp] theorem LinkPort.afterValid_tx (p : LinkPort) : p.afterValid.tx = p.tx := by
  unfold LinkPort.afterValid; simp only; split <;> rfl

@[simp] theorem LinkPort.afterValid_ctl (p : LinkPort) : p.afterValid.ctl = p.ctl := by
  unfold LinkPort.afterValid; simp only; split <;> rfl

@[simp] theorem LinkPort.afterValid_dat (p : LinkPort) : p.afterValid.dat = p.dat := by
  unfold LinkPort.afterValid; simp only; split <;> rfl

@[simp] theorem LinkPort.afterValid_frame (p : LinkPort) : p.afterValid.rx.frame = p.rx.frame := by
  unfold LinkPort.afterValid; simp only; split <;> rfl

@[simp] theorem LinkPort.afterValid_expected (p : LinkPort) : p.afterValid.rx.expected = p.rx.expected := by
  unfold LinkPort.afterValid; simp only; split <;> rfl

/-- A NAK episode started where none is in progress; none otherwise. -/
theorem State.startNak_spec (s : State) (l : LinkId) :
    s.startNak l =
      if (s.port l).rx.nak = .none then
        s.setPort l
          { s.port l with rx := { (s.port l).rx with nak := .pending, nakDue := (s.port l).align != .realigning } }
      else s := by
  unfold State.startNak State.modPort
  by_cases h : (s.port l).rx.nak = .none
  · simp only [h, if_true]
  · simp only [h, if_false, State.setPort_port]

/-- A received GRANT is applied where both differences are below 32768, and changes nothing otherwise. -/
theorem State.takeGrant_spec (s : State) (l : LinkId) (c : Cls) (v : Credit) :
    s.takeGrant l c v =
      if (v - ((s.port l).credit c).partnerGranted).toNat < 32768 ∧ (v - ((s.port l).credit c).sent).toNat < 32768 then
        s.modCredit l c fun k => { k with partnerGranted := v }
      else s := rfl

/-! ## Holders removed, chains freed, frames ended -/

/-- How a frame block ends is kept, and the line is free. -/
@[simp] theorem State.endFrame_lastEnd (s : State) (l : LinkId) (e : FrameEnd) :
    ((s.endFrame l e).port l).tx.lastEnd = some e := by
  cases l <;> rfl

@[simp] theorem State.endFrame_line (s : State) (l : LinkId) (e : FrameEnd) : ((s.endFrame l e).port l).tx.line = .none := by
  cases l <;> rfl

@[simp] theorem cellsFrom_nil (l : LinkId) (c : Cls) : cellsFrom [] l c = 0 := rfl

theorem cellsFrom_cons (r : Record) (rs : List Record) (l : LinkId) (c : Cls) :
    cellsFrom (r :: rs) l c = (if r.origin = .link l ∧ r.cls = c then r.cells.length else 0) + cellsFrom rs l c := by
  unfold cellsFrom
  by_cases h : r.origin = .link l ∧ r.cls = c
  · simp [h]
  · have k : (r.origin == .link l && r.cls == c) = false := by simpa using h
    simp [h, k]

theorem cellsFrom_append (xs ys : List Record) (l : LinkId) (c : Cls) :
    cellsFrom (xs ++ ys) l c = cellsFrom xs l c + cellsFrom ys l c := by
  simp [cellsFrom]

theorem State.HoldersRemoved.nil (s : State) (l : LinkId) : s.HoldersRemoved s l [] :=
  ⟨by simp, fun _ _ => rfl⟩

theorem State.ChainsFreed.nil (s : State) : s.ChainsFreed s [] := by
  simp [State.ChainsFreed]

/-- Chains freed in two goes, one list after the other. -/
theorem State.ChainsFreed.append {s t u : State} {xs ys : List Record} (h : s.ChainsFreed t xs) (k : t.ChainsFreed u ys) :
    s.ChainsFreed u (xs ++ ys) := by
  refine ⟨by rw [k.1, h.1, List.flatMap_append, List.append_assoc], fun l c => ?_⟩
  rw [k.2, h.2, cellsFrom_append, Nat.sub_sub]

/-- A record is held by no side once a link's holder is gone exactly where neither the host nor the other link holds it. -/
theorem Record.refCount_setHolder_none (r : Record) (l : LinkId) :
    (r.setHolder l .none).refCount = 0 ↔ r.host = .none ∧ r.holder l.other = .none := by
  cases l <;> simp only [Record.refCount, Record.setHolder, Record.holder, LinkId.other] <;>
    by_cases hh : r.host = .none <;> by_cases ha : r.linkA = .none <;> by_cases hb : r.linkB = .none <;> simp [hh, ha, hb]

/-- A link's holder removed from one record: freed with its chain where it was the last holder. -/
theorem State.removeLinkHolder_removed (s : State) (l : LinkId) (h : Nat) :
    s.HoldersRemoved (s.removeLinkHolder l h) l [h] ∧ s.ChainsFreed (s.removeLinkHolder l h) (s.heldByLinkAlone l [h]) := by
  refine ⟨⟨fun g hg r hr => ?_, fun g hg => ?_⟩, ?_⟩
  · obtain rfl := List.mem_singleton.mp hg
    have e := Record.refCount_setHolder_none r l
    simp only [State.removeLinkHolder, State.record_removeHolder, if_pos, hr, Option.bind_some]
    exact ⟨fun a b => if_pos (e.mpr ⟨a, b⟩), fun n => if_neg (mt e.mp n)⟩
  · simp only [State.removeLinkHolder, State.record_removeHolder]
    exact if_neg fun e => hg (List.mem_singleton.mpr e.symm)
  · unfold State.removeLinkHolder State.removeHolder State.heldByLinkAlone
    cases hr : s.record h with
    | none => simpa [hr] using State.ChainsFreed.nil s
    | some r =>
      have e := Record.refCount_setHolder_none r l
      by_cases a : r.host = .none ∧ r.holder l.other = .none
      · have f : (r.host == .none && r.holder l.other == .none) = true := by simpa using a
        simp only [if_pos (e.mpr a), List.filterMap_cons, hr, List.filterMap_nil, List.filter_cons, f, if_true, List.filter_nil]
        refine ⟨by rw [s.free_freeRecord h r hr]; simp, fun k c => ?_⟩
        rw [s.port_freeRecord h r hr k, cellsFrom_cons, cellsFrom_nil]
        by_cases o : r.origin = .link k
        · cases hc : r.cls <;> cases c <;> simp [o, LinkPort.modCredit, LinkPort.credit]
        · simp [o]
      · have f : (r.host == .none && r.holder l.other == .none) = false := by simpa using a
        simp only [if_neg (mt e.mp a), List.filterMap_cons, hr, List.filterMap_nil, List.filter_cons, f, List.filter_nil]
        exact ⟨by simp [State.modRecord], fun k c => by cases k <;> simp [State.modRecord, State.port]⟩

/-! ## Flushes, episodes, forward parts and words read -/

/-- What an entry's leaving its queue does to the flush. -/
theorem State.entryLeft_follows (s : State) (q : QueueId) (h : Nat) : s.FlushFollows (s.entryLeft q h) (s.Marks q [h]) := by
  have e : s.Marks q [h] ↔ s.flush.active = some (q, h) := by simp [State.Marks]
  refine ⟨fun m => ?_, fun m => ?_⟩
  · rw [State.entryLeft, if_pos (e.mp m)]
    exact ⟨rfl, by simp [State.completeFlush, State.complete], rfl⟩
  · rw [State.entryLeft, if_neg (mt e.mpr m)]
    exact ⟨rfl, rfl, rfl⟩

theorem State.Marks.nil (s : State) (q : QueueId) : ¬ s.Marks q [] := by
  simp [State.Marks]

theorem State.Marks.cons (s : State) (q : QueueId) (h : Nat) (hs : List Nat) :
    s.Marks q (h :: hs) ↔ s.flush.active = some (q, h) ∨ s.Marks q hs := by
  simp [State.Marks]

/-- The newer point by the distances from the frame being resent. -/
theorem newerPoint_eq (first : Byte) (held : Option Byte) (point : Byte) : newerPoint first held point = newerOf first held point := by
  cases held with
  | none => rfl
  | some q =>
    simp only [newerPoint, newerOf]
    rcases Nat.lt_trichotomy (q - first).toNat (point - first).toNat with h | h | h
    · rw [if_pos h, if_neg (by omega)]
    · have : q = point := by
        have k := BitVec.eq_of_toNat_eq h
        simpa [BitVec.sub_add_cancel] using congrArg (· + first) k
      subst this; simp
    · rw [if_neg (by omega), if_pos h]

/-- An entry lies at or after the point of an episode in progress exactly where there is a next replay frame. -/
theorem State.nextReplay_isNone (s : State) (l : LinkId) (q : Byte) (h : (s.port l).tx.replay = some q) :
    (s.nextReplay l).isNone = true ↔ ¬ s.EntryFrom l q := by
  simp only [State.nextReplay, h, Option.isNone_iff_eq_none, List.find?_eq_none, State.EntryFrom, not_exists, not_and]
  refine forall_congr' fun x => imp_congr_right fun _ => ?_
  unfold State.handleAtOrAfter atOrAfter
  cases s.seqOn l x <;> simp

/-- The test of an episode's end, from the point that it finds. -/
theorem State.testEpisode_tested (s : State) (l : LinkId) : (s.testEpisode l).EpisodeTested l (s.port l).tx.replay := by
  have entry : ∀ q, (s.testEpisode l).EntryFrom l q ↔ s.EntryFrom l q := fun q => by
    unfold State.testEpisode
    split
    · cases l <;> rfl
    · rfl
  refine ⟨fun h => ?_, fun q h => ⟨fun e => ?_, fun e => ?_⟩⟩
  · unfold State.testEpisode
    split
    · cases l <;> rfl
    · exact h
  · unfold State.testEpisode
    rw [if_neg fun n => (s.nextReplay_isNone l q h).mp n ((entry q).mp e)]
    exact h
  · unfold State.testEpisode
    rw [if_pos ((s.nextReplay_isNone l q h).mpr (mt (entry q).mpr e))]
    cases l <;> rfl

/-- A forward part refused counts the test it fails first, and does nothing else. -/
theorem State.admitForward_refused (s : State) (l : LinkId) (h : Nat) (r : Record) (n : PartCounter)
    (e : s.forwardRefusal l r = some n) : s.admitForward l r.cls h r.hops = s.countPart n := by
  unfold State.forwardRefusal at e
  unfold State.admitForward
  split at e
  · rename_i z; rw [if_pos z]; cases e; rfl
  · rename_i z
    rw [if_neg z]
    split at e
    · rename_i a; cases e; simp [State.isActive, a]
    · rename_i a
      split at e
      · rename_i f; cases e; simp_all [State.isActive, FrameQueue.full]
      · cases e

/-- A forward part not refused is admitted, and its hops falls by 1. -/
theorem State.admitForward_admitted (s : State) (l : LinkId) (h : Nat) (r : Record) (e : s.forwardRefusal l r = none) :
    s.admitForward l r.cls h r.hops =
      (s.append (.tx l r.cls) h).modRecord h fun x => { x.withLinkQueued l with hops := x.hops - 1 } := by
  unfold State.forwardRefusal at e
  unfold State.admitForward
  split at e
  · cases e
  · split at e
    · cases e
    · split at e
      · cases e
      · simp_all [State.isActive, FrameQueue.full]

/-- The word with one bit turned over, bit by bit. -/
theorem flipBit_getLsbD (w : CellWord) (b i : Nat) (hi : i < 64) (hb : b < 64) :
    (flipBit w b).getLsbD i = (w.getLsbD i != decide (i = b)) := by
  have one : (1#64 <<< b).getLsbD i = decide (i = b) := by
    rw [BitVec.getLsbD_shiftLeft]
    by_cases h : i = b
    · subst h; simp [hi]
    · rcases Nat.lt_or_gt_of_ne h with k | k
      · simp [k, h]
      · have : i - b ≠ 0 := by omega
        simp [h, BitVec.getLsbD_one, this]
  simp [flipBit, hb, one, BitVec.getLsbD_xor]

/-- What a read delivers, by its outcome. -/
theorem State.delivered_spec (s : State) (p : Nat) :
    s.delivered p = match s.judge p with
      | .corrected b => flipBit (s.storedData p) b
      | .good => s.storedData p
      | .uncorrectable => s.storedData p := rfl

end Sys2Proof.Machine
end

