-- ==== Sys2Proof/Tests/Slice0.lean ====
section
/-! SUPPORT. The model's own tests: the checks of commands, one step on small states with the results that the manual's examples give,
and for each statement with hypotheses a state that meets them. -/

namespace Sys2Proof.Tests

-- The theorems of this file are elaborated one after another: many at once take a thread each.
set_option Elab.async false

open Sys2Proof.Machine

/-! ## Small states -/

/-- The state after a command, the same state where the command stops. -/
def after (c : Instr) (s : State) : State :=
  match exec c s with
  | .next t => t
  | .fault _ => s
  | .refused _ => s

/-- A ready part of node 6 whose free list holds four cells. -/
def idle : State :=
  { State.reset with
    ready := true
    nodeAddr := 6
    buf := { State.reset.buf with free := [37, 38, 39, 40] } }

/-- The part with its command arguments written. -/
def args (a b c d : Word) (s : State) : State :=
  { s with hcu := { s.hcu with arg0 := a, arg1 := b, arg2 := c, arg3 := d } }

/-- The part with a record in a slot. -/
def put (h : Nat) (r : Record) (s : State) : State :=
  { s with buf := { s.buf with records := Sparse.insert s.buf.records h r } }

/-- The part with a link in ACTIVE and ALIGNED. -/
def up (l : LinkId) (s : State) : State :=
  s.modPort l fun p => { p with state := .active, align := .aligned }

/-- The part with a link in a state. -/
def linkIn (l : LinkId) (st : LinkState) (s : State) : State :=
  s.modPort l fun p => { p with state := st }

/-- The part with a block on a link's line. -/
def onLine (l : LinkId) (b : LineBlock) (s : State) : State :=
  s.modTx l fun t => { t with line := b }

/-- A LIVE record of 100 bytes in two cells, come from link A for node 9, with its holders. -/
def rec (first : Nat) (host : HostHolder) (a b : LinkHolder) : Record where
  phase := .live
  origin := .link .a
  cls := .data
  length := 100
  cells := [first, first + 1]
  destination := some 9
  source := some 17
  hops := 3
  host := host
  linkA := a
  linkB := b
  poisoned := false

/-- A record that the host is filling. -/
def filling (first length : Nat) : Record :=
  { hostRecord length .data with cells := [first] }

/-- A frame on the line. -/
def sending (h : Nat) (resend : Bool) (words : Nat) (aborting : Bool) : TxFrame :=
  { txFrame h (rec h .none .none .none) 7 resend with nextWord := words, aborting := aborting }

/-- The header of a 10-byte DATA frame from node 17. -/
def header (destination : Byte) (seq : Byte) (length : BitVec 16) : BitVec 128 :=
  HeaderFields.encode
    { cls := .data, seq := seq, destination := destination, source := 17, hops := 2, length := length }

/-- A frame being received into the record of handle 3, after some payload bytes of a length. -/
def receiving (count : Nat) (length : BitVec 16) (gather : List Byte) : RxFrame where
  handle := 3
  header := header 6 0 length
  count := count
  crc := crc32Start
  gather := gather

/-- Link A in ACTIVE, receiving a frame into the record of handle 3. -/
def midFrame (count : Nat) (length : BitVec 16) (gather : List Byte) : State :=
  (put 3 { arrivalRecord .a (headerFields (header 6 0 length)) with cells := [3] } (up .a idle)).modRx .a fun r =>
    { r with frame := some (receiving count length gather) }

/-- Link A in ACTIVE with two frames unacknowledged, handles 3 and 5 with seqs 8 and 9, and next-seq 10. -/
def twoSent : State :=
  (put 5 (rec 5 .none (.unacked 9) .none) (put 3 (rec 3 .none (.unacked 8) .none) (up .a idle))).modTx .a fun t =>
    { t with unacked := [3, 5], nextSeq := 10, replayTimer := some 400 }

/-! ## The check of each row's operands -/

theorem test_wellFormed_refuses_known_command_code : (Instr.unknownCommand 7).wellFormed = false := by decide
theorem test_wellFormed_refuses_register_with_own_row : (Instr.registerWrite 12 0).wellFormed = false := by decide
theorem test_wellFormed_refuses_soft_reset_as_register_write : (Instr.registerWrite 0 1).wellFormed = false := by decide
theorem test_wellFormed_refuses_damaged_header : (Instr.frameHeaderReceived .a 0).wellFormed = false := by decide +kernel
theorem test_wellFormed_refuses_no_payload : (Instr.framePayloadBytes .a []).wellFormed = false := by decide
theorem test_wellFormed_takes_a_header : (Instr.frameHeaderReceived .a (header 9 1 10)).wellFormed = true := by decide +kernel

/-! ## Bus writes and blocks on the line -/

/-- Table 10-3: code 3 is POST. -/
theorem test_busWrite_cmd_post : busWrite false 12 3 = .post := by decide
theorem test_busWrite_cmd_busy : busWrite true 12 3 = .cmdOverrun 3 := by decide
theorem test_busWrite_soft_reset : busWrite false 0 1 = .softReset := by decide
theorem test_no_word_spells_a_command : decodeTableWord 32 0x12345678 = none := rfl

/-- Table 10-4: an ACK of seq 0x2A is the bytes 02 2A 00 00 00 00 and its check. -/
theorem test_control_block_ack_bytes : bytesOf (ControlBlock.encode (.ack 0x2A)) 6 = [2, 0x2A, 0, 0, 0, 0] := by decide +kernel
theorem test_control_block_grant_bytes :
    bytesOf (ControlBlock.encode (.grant .data 0x1234)) 6 = [4, 1, 0x34, 0x12, 0, 0] := by decide +kernel
/-- Table 10-5: class, seq, destination, source, hops, length 0x0102 with its low byte first, and zeros. -/
theorem test_header_bytes :
    bytesOf (header 9 5 0x0102) 14 = [1, 5, 9, 17, 2, 2, 1, 0, 0, 0, 0, 0, 0, 0] := by decide +kernel
/-- R176: the check 0xCBF43926 goes out as the bytes 26 39 F4 CB. -/
theorem test_trailer_check_bytes : checkBytes 0xCBF43926 = [0x26, 0x39, 0xF4, 0xCB] := by decide
theorem test_trailer_check_read_back :
    receiveTrailer .a [0x26, 0x39, 0xF4, 0xCB] = .frameTrailerEnd .a 0xCBF43926 := by decide
theorem test_damaged_block_is_checked_out :
    receiveControlBlock .b (ControlBlock.encode (.ack 1) ^^^ 0x100) = .checkedOutBlock .b .control := by decide +kernel
/-- The published check values of the two generators of R176 over the digits 1 to 9, the second one inverted. -/
theorem test_crc16_of_digits : crc16 [0x31, 0x32, 0x33, 0x34, 0x35, 0x36, 0x37, 0x38, 0x39] = 0x6F91 := by decide +kernel
theorem test_crc32_of_digits :
    crc32Stored (crc32Run crc32Start [0x31, 0x32, 0x33, 0x34, 0x35, 0x36, 0x37, 0x38, 0x39]) = 0xCBF43926 := by decide +kernel

/-! ## Resets -/

theorem test_reset_not_ready : State.reset.ready = false := rfl
theorem test_init_builds_free_list : (after .initComplete State.reset).nextHandle = 0 := by decide +kernel
theorem test_softReset_stops_links : ((after .softReset (up .a idle)).port .a).state = .disabled := by decide +kernel
theorem test_resetInput_clears_enables :
    (after .resetInput { idle with ev := { idle.ev with enables := 5 } }).ev.enables = 0 := by decide

/-! ## Host commands, by the events of the example of section 7.5.1 -/

/-- Event 1. -/
theorem test_alloc_gives_head : (after .alloc (args 10 2 0 0 idle)).hcu.res.r0 = 37 := by decide +kernel
theorem test_alloc_held : (after .alloc (args 10 2 0 0 idle)).hcu.held = 1 := by decide +kernel
/-- Event 2. -/
theorem test_open_gives_length : (after .openPort (args 37 0 2 0 (put 37 (filling 37 10) idle))).hcu.res.r0 = 10 := by decide

/-- The record of the example, with the port open in a mode at an offset. -/
def portAt (offset : Nat) (mode : PortMode) : State :=
  let s := put 37 (filling 37 10) idle
  { s with hcu := { s.hcu with held := 1, port := some { handle := 37, offset := offset, mode := mode } } }

/-- Event 4. -/
theorem test_port_write_upper_half :
    ((after (.portDataWrite 0x44332211) (portAt 4 .write)).byteAt (64 * 37 + 4)) = 0x11 := by decide +kernel
/-- Event 5: bytes at or beyond the length are discarded. -/
theorem test_port_write_stops_at_length :
    ((after (.portDataWrite 0x44332211) (portAt 8 .write)).byteAt (64 * 37 + 10)) = 0 := by decide +kernel
/-- Event 6. -/
theorem test_port_write_past_length_is_ignored : (after (.portDataWrite 1) (portAt 12 .write)).flag .portError = true := by decide
/-- Event 9. -/
theorem test_port_read_zeros_past_length :
    (after .portDataRead (after (.portDataWrite 0x44332211) (portAt 8 .write))).hcu.busData = 0 := by decide +kernel
theorem test_port_read_bytes :
    (after .portDataRead
      { portAt 8 .read with buf := { (portAt 8 .read).buf with mem := [(64 * 37 + 8, 0x11), (64 * 37 + 9, 0x22)] } }).hcu.busData
      = 0x2211 := by decide +kernel
/-- Event 10. -/
theorem test_post_closes_port : (after .post (args 37 9 1 3 (up .a (portAt 12 .read)))).hcu.port = none := by decide +kernel
theorem test_post_hops_and_source :
    ((after .post (args 37 9 1 3 (up .a (portAt 12 .read)))).record 37).map (fun r => (r.hops, r.source)) = some (3, some 6) := by
  decide +kernel

theorem test_post_of_down_link : (after .post (args 37 9 2 3 (portAt 0 .write))).hcu.result = .linkDown := by decide +kernel
theorem test_claim_takes_head :
    (after .claim (args 2 0 0 0 ((put 3 (rec 3 .queued .none .none) idle).setEntries (.host .data) [3]))).hcu.res.r0 = 3 := by
  decide +kernel
theorem test_claim_of_empty_queue : (after .claim (args 1 0 0 0 idle)).hcu.result = .empty := by decide
/-- Section 1.11, event 7: the cells of a released host frame join the tail. -/
theorem test_release_appends_cells :
    (after .release (args 3 0 0 0 (put 3 { filling 3 150 with cells := [3, 4, 5] } idle))).buf.free
      = [37, 38, 39, 40, 3, 4, 5] := by decide +kernel
theorem test_release_of_free_slot : (after .release (args 3 0 0 0 idle)).hcu.result = .badHandle := by decide
theorem test_query_length : field (after .query (args 3 0 0 0 (put 3 (rec 3 .queued .none .none) idle))).hcu.res.r0 10 0 = 100 := by
  decide
theorem test_flush_marks_tail :
    (after .flush (args 6 0 0 0 (idle.setEntries (.tx .b .data) [25, 40]))).flush.active = some (.tx .b .data, 40) := by decide
theorem test_flush_of_empty_queue : (after .flush (args 6 0 0 0 idle)).hcu.result = .ok := by decide
theorem test_linkStart_hunts : ((after .linkStart (args 1 0 0 0 idle)).port .a).state = .hunt := by decide
theorem test_linkStop_disables : ((after .linkStop (args 1 0 0 0 (up .a idle))).port .a).state = .disabled := by decide +kernel
theorem test_tableSet_writes :
    (after .tableSet (args 2 1 9 4 idle)).table[2]? = some { valid := true, address := 9, action := .discard } := by decide
theorem test_tableGet_index_16 : (after .tableGet (args 16 0 0 0 idle)).hcu.result = .badArg := by decide
theorem test_reportTake_empty : (after .reportTake idle).hcu.result = .empty := by decide
theorem test_scrubStart_runs : (after .scrubStart idle).scrub.timer = some 16 := by decide
theorem test_unknownCommand_badArg : (after (.unknownCommand 14) idle).hcu.result = .badArg := by decide
theorem test_cmdOverrun_flag :
    (after (.cmdOverrun 1) { idle with hcu := { idle.hcu with busy := true } }).flag .cmdOverrun = true := by decide

/-! ## Registers and events -/

theorem test_eventFlagsClear_one :
    (after (.eventFlagsClear 2) { idle with ev := { idle.ev with flags := 3 } }).ev.flags = 1 := by decide
theorem test_eventEnable_raises_output :
    (after (.eventEnableWrite 4) { idle with ev := { idle.ev with flags := 4 } }).interruptActive = true := by decide
theorem test_nodeAddr_255_is_ignored : (after (.nodeAddrWrite 255) idle).nodeAddr = 6 := by decide
theorem test_scrubMode_off_stops :
    (after (.scrubModeWrite 0x00100000) (after .scrubStart idle)).scrub.running = false := by decide
theorem test_creditStallLimit_field :
    ((after (.creditStallLimitWrite .b 0x02070A04) idle).port .b).cfg.stallLimit = 7 := by decide
theorem test_registerWrite_limit_257_is_ignored : ((after (.registerWrite 26 0x01010000) idle).queue (.tx .a .control)).limit = 64 := by
  decide

/-! ## What arrives on a link -/

/-- A link in GREET, with the flags of the greeting. -/
def greeting (received sentYes : Bool) : State :=
  idle.modPort .b fun p =>
    { p with state := .greet, partner := if received then 5 else 0, hailReceived := received, yesSent := sentYes }

/-- Section 3.11, event 3. -/
theorem test_fourth_keep_greets :
    ((after (.keepReceived .b) ((linkIn .b .hunt idle).modPort .b fun p => { p with validRun := 3 })).port .b).state = .greet := by
  decide +kernel
/-- Section 3.11, event 5. -/
theorem test_hail_records_partner : ((after (.hailReceived .b 5 1 false) (greeting false false)).port .b).partner = 5 := by
  decide +kernel
/-- Section 3.11, event 7. -/
theorem test_hail_completes_greeting :
    ((after (.hailReceived .b 5 1 true) (greeting true true)).port .b).state = .active := by decide +kernel
/-- Section 3.11, event 8. -/
theorem test_grant_completes_greeting :
    ((after (.grantReceived .b .control 16) (greeting true true)).port .b).ctl.partnerGranted = 16 := by decide +kernel
theorem test_hail_of_same_address : ((after (.hailReceived .b 6 1 false) (greeting false false)).port .b).lastFault = .addressClash := by
  decide +kernel
theorem test_third_invalid_marker_realigns :
    ((after (.invalidMarker .a) ((up .a idle).modPort .a fun p => { p with invalidRun := 2 })).port .a).align = .realigning := by
  decide +kernel
/-- R69: the bytes of a block that is passed over count nothing. -/
theorem test_no_marker_missing_inside_a_block :
    ((after (.invalidMarker .a) ((up .a idle).modPort .a fun p =>
      { p with invalidRun := 2, rx := { p.rx with passing := .toMarker } })).port .a).invalidRun = 2 := by decide +kernel
theorem test_checkedOutBlock_counts : ((after (.checkedOutBlock .a .control) (up .a idle)).port .a).counters.checkErrors = 1 := by
  decide +kernel

/-- The counts of the examples under R121: partner-granted 65530, sent 65528. -/
def granted : State :=
  (up .a idle).modCredit .a .data fun k => { k with partnerGranted := 65530, sent := 65528 }

theorem test_grant_applied : ((after (.grantReceived .a .data 4) granted).port .a).dat.available = 12 := by decide +kernel
theorem test_grant_stale : ((after (.grantReceived .a .data 65500) granted).port .a).dat.available = 2 := by decide +kernel

theorem test_ack_removes_older : ((after (.ackReceived .a 8) twoSent).port .a).tx.unacked = [5] := by decide +kernel
theorem test_ack_stale : ((after (.ackReceived .a 7) twoSent).port .a).counters.staleAcks = 1 := by decide +kernel
theorem test_nak_replays : ((after (.nakReceived .a 9) twoSent).port .a).tx.replay = some 9 := by decide +kernel

/-- Link A with an outstanding DATA grant of 40 cells and expected-seq 22, as in section 4.10. -/
def expecting : State :=
  ((up .a idle).modCredit .a .data fun k => { k with granted := 40 }).modRx .a fun r => { r with expected := 22 }

/-- Section 4.10, events 4 and 5. -/
theorem test_header_consumes : ((after (.frameHeaderReceived .a (header 6 22 128)) expecting).port .a).dat.outstanding = 38 := by
  decide +kernel
theorem test_header_ahead : ((after (.frameHeaderReceived .a (header 6 23 128)) expecting).port .a).counters.seqDiscards = 1 := by
  decide +kernel
theorem test_payload_word_written : (after (.framePayloadBytes .a [9]) (midFrame 7 10 [1, 2, 3, 4, 5, 6, 7])).byteAt 199 = 9 := by
  decide +kernel
theorem test_payload_overrun_fails : ((after (.framePayloadBytes .a [9]) (midFrame 10 10 [])).port .a).counters.checkErrors = 1 := by
  decide +kernel
theorem test_truncated_frees : (after (.frameTruncated .a) (midFrame 4 10 [1, 2, 3, 4])).buf.free = [37, 38, 39, 40, 3] := by
  decide +kernel
theorem test_trailer_accepts :
    ((after (.frameTrailerEnd .a (crc32Stored crc32Start)) (midFrame 10 10 [])).port .a).counters.framesIn = 1 := by decide +kernel
theorem test_trailer_delivers :
    ((after (.frameTrailerEnd .a (crc32Stored crc32Start)) (midFrame 10 10 [])).queue (.host .data)).entries = [3] := by decide +kernel
theorem test_trailer_abort : ((after (.frameTrailerAbort .a) (midFrame 10 10 [])).port .a).counters.abortsReceived = 1 := by
  decide +kernel

/-! ## What a link sends -/

theorem test_hail_sent_yes :
    ((after (.hailSendEnd .b) (onLine .b (.control (.hail 6 1 true)) (greeting true false))).port .b).yesSent = true := by
  decide +kernel
theorem test_keep_repeats_in_hunt :
    ((after (.keepSendEnd .b) (onLine .b (.control .keep) (linkIn .b .hunt idle))).port .b).tx.line = .control .keep := by decide
theorem test_control_sent_frees_line :
    ((after (.controlBlockSent .a) (onLine .a (.control .keep) (up .a idle))).port .a).tx.line = .none := by decide +kernel

/-- Link A sending the frame of handle 3, some of its 13 words read. -/
def onWire (resend : Bool) (words : Nat) (aborting : Bool) (holder : LinkHolder) : State :=
  onLine .a (.frame (sending 3 resend words aborting)) (put 3 (rec 3 .none holder .none) (up .a idle))

theorem test_last_word_sends_four_bytes :
    (match ((after (.txWordRead .a) (onWire false 12 false (.sending 7))).port .a).tx.line with
      | .frame f => f.sent.length
      | .control _ => 0
      | .none => 0) = 4 := by decide +kernel
theorem test_end_charges_cells : ((after (.firstTransmissionEnd .a) (onWire false 13 false (.sending 7))).port .a).dat.sent = 2 := by
  decide +kernel
theorem test_abort_frees : (after (.firstTransmissionAbort .a) (onWire false 4 true (.sending 7))).record 3 = none := by decide +kernel
theorem test_resend_end_keeps_count : ((after (.resendEnd .a) (onWire true 13 false (.unacked 7))).port .a).counters.framesOut = 0 := by
  decide +kernel
theorem test_resend_abort_faults : ((after (.resendAbort .a) (onWire true 4 true (.unacked 7))).port .a).lastFault = .replayDataLost := by
  decide +kernel

/-! ## The part's own timers, flush and scrubber -/

theorem test_hail_timer_sends_hail :
    ((after (.hailTimerExpiry .b) ((greeting true false).modPort .b fun p => { p with hailTimer := some 2000 })).port .b).tx.line
      = .control (.hail 6 1 true) := by decide
theorem test_greet_timeout :
    ((after (.greetTimeout .b) ((greeting true false).modPort .b fun p => { p with greetTimer := some 1 })).port .b).lastFault
      = .greetTimeout := by decide +kernel
theorem test_silence :
    ((after (.silenceTimeout .a) ((up .a idle).modPort .a fun p => { p with silenceTimer := some 1 })).port .a).state = .fault := by
  decide +kernel
theorem test_realign_timeout :
    ((after (.realignTimeout .a)
      ((up .a idle).modPort .a fun p => { p with align := .realigning, realignTimer := some 1 })).port .a).lastFault = .alignLost := by
  decide +kernel
theorem test_hold_down_stays :
    ((after (.holdDownExpiry .a) ((linkIn .a .fault idle).modPort .a fun p => { p with holdTimer := some 1 })).port .a).state = .fault := by
  decide
theorem test_replay_timer : ((after (.replayTimerExpiry .a) twoSent).port .a).tx.replay = some 8 := by decide +kernel
theorem test_ack_delay_sends_ack :
    ((after (.ackDelayExpiry .a) ((up .a idle).modRx .a fun r => { r with expected := 26, ackPending := 3, ackTimer := some 50 })).port .a).tx.line
      = .control (.ack 25) := by decide +kernel
theorem test_idle_timer_sends_keep :
    ((after (.idleTimerExpiry .a) ((up .a idle).modTx .a fun t => { t with idleTimer := some 200 })).port .a).tx.line = .control .keep := by
  decide +kernel
theorem test_grant_refresh_sends_grant :
    ((after (.grantRefreshExpiry .a) ((up .a idle).modPort .a fun p => { p with refreshTimer := some 1 })).port .a).tx.line
      = .control (.grant .control 0) := by decide +kernel

/-- Link A with a head that waits for credit. -/
def stalled : State :=
  ((put 3 (rec 3 .none .queued .none) (up .a idle)).setEntries (.tx .a .data) [3]).modPort .a fun p =>
    { p with cfg := { p.cfg with stallLimit := 1 }, dat := { p.dat with stallTimer := some 1000 } }

theorem test_credit_stall_drops : ((after (.creditStallExpiry .a .data) stalled).port .a).counters.creditStallDrops = 1 := by
  decide +kernel

/-- Section 2.10.1 after event 1: TXB_D holds 25 and 40, the mark is 40. -/
def flushing : State :=
  let s := (put 40 (rec 40 .none .none .queued) (put 25 (rec 25 .none .none .queued) idle)).setEntries (.tx .b .data) [25, 40]
  { s with flush := { active := some (.tx .b .data, 40), removed := 0 }, hcu := { s.hcu with busy := true } }

theorem test_flush_removal : ((after .flushRemoval flushing).queue (.tx .b .data)).entries = [40] := by decide +kernel
/-- R37: a teardown completes the flush, and its removed count leaves out the frames torn down. -/
theorem test_teardown_completes_flush :
    (after (.silenceTimeout .b) ((up .b flushing).modPort .b fun p => { p with silenceTimer := some 1 })).hcu.busy = false := by
  decide +kernel
theorem test_flush_completes : (after .flushRemoval (after .flushRemoval flushing)).hcu.res.r0 = 2 := by decide +kernel

/-- A pass at a word position, with the bits that are wrong there. -/
def scrubbing (position : Nat) (wrong : List Nat) (s : State) : State :=
  { s with
    scrub := { s.scrub with mode := .continuous, running := true, position := position, timer := some 16 }
    buf := { s.buf with wrong := if wrong = [] then [] else [(position, wrong)], mem := [(8 * position, 1)] } }

/-- Section 8.6, event 2: an uncorrectable word of a free cell is rewritten as zero. -/
theorem test_scrub_zeroes_free_word : (after .scrubStep (scrubbing 325 [1, 2] idle)).byteAt (8 * 325) = 0 := by decide +kernel
/-- Section 8.6, event 5: position 337, bit 40, handle 42. -/
theorem test_scrub_corrects :
    (after .scrubStep (scrubbing 337 [40] (put 42 (rec 42 .claimed .none .none) idle))).reports
      = [{ cell := 42, word := 1, kind := .corrected, reader := .scrub, handle := some 42, bit := some 40, occurrences := 1 }] := by
  decide +kernel

/-! ## States that meet the hypotheses of the statements, clause by clause -/

/-- A part that is not ready, with its unit idle. -/
def cold : State := State.reset

/-- A ready part whose unit is BUSY with a flush. -/
def busy : State := { idle with hcu := { idle.hcu with busy := true } }

/-- The part with a host-held count. -/
def holding (n : Nat) (s : State) : State := { s with hcu := { s.hcu with held := n } }

theorem witness_StepRunsFrontCommand : cold.pending = [] := rfl

theorem witness_EveryCommandAnswers : ∃ t, exec .resetInput cold = .next t := ⟨_, rfl⟩

theorem witness_InitCompleteResult : cold.ready = false := rfl

theorem witness_CommandsTurnedAway :
    busy.hcu.busy = true ∧ (Instr.alloc, (1 : Word)) ∈ commandCodes ∧ (Instr.scrubStart, (13 : Word)) ∈ commandCodes := by decide

theorem witness_CommandsTurnedAway_idle :
    (cold.ready = false ∧ cold.hcu.busy = false ∧ (Instr.flush, (7 : Word)) ∈ commandCodes ∧ (255 : Word).toNat < 256) ∧
    idle.UnitIdle := by
  unfold State.UnitIdle; decide

/-- A ready part with 16 free cells. -/
def roomy : State := { idle with buf := { idle.buf with free := List.range 16 } }

theorem witness_AllocResult :
    (roomy.UnitIdle ∧ (args 1 1 0 0 roomy).hcu.arg0.toNat = 1 ∧ (holding 63 roomy).hcu.held < 64 ∧
      (1 + 63) / 64 + roomy.totalOutstanding ≤ roomy.buf.free.length) ∧
    ((args 1024 2 0 0 roomy).hcu.arg0.toNat = 1024 ∧ (args 1024 2 0 0 roomy).hcu.arg1 = 2 ∧
      (1024 + 63) / 64 + roomy.totalOutstanding ≤ roomy.buf.free.length) ∧
    (¬(1 ≤ (args 0 1 0 0 idle).hcu.arg0.toNat) ∧ ¬((args 1025 1 0 0 idle).hcu.arg0.toNat ≤ 1024) ∧
      (args 1 3 0 0 idle).hcu.arg1 ≠ 1 ∧ (args 1 3 0 0 idle).hcu.arg1 ≠ 2) ∧
    64 ≤ (holding 64 (args 1 1 0 0 idle)).hcu.held ∧
    ((args 257 1 0 0 idle).buf.free.length < ((args 257 1 0 0 idle).hcu.arg0.toNat + 63) / 64 + idle.totalOutstanding) := by
  unfold State.UnitIdle; decide

/-- A part with a frame the host is filling in slot 37 and one it has claimed in slot 3. -/
def twoHeld : State := put 37 (filling 37 10) (put 3 (rec 3 .claimed .none .none) idle)

theorem witness_OpenResult :
    twoHeld.UnitIdle ∧
    ((args 37 0 3 0 twoHeld).hcu.arg2 ≠ 1 ∧ (args 37 0 3 0 twoHeld).hcu.arg2 ≠ 2 ∧ (args 37 2 1 0 twoHeld).hcu.arg1.toNat % 4 ≠ 0) ∧
    (¬((args 1024 0 1 0 twoHeld).hcu.arg0.toNat < 1024) ∧ twoHeld.record 5 = none) ∧
    (twoHeld.record 3 = some (rec 3 .claimed .none .none) ∧ (args 3 0 2 0 twoHeld).hcu.arg2 = 2) ∧
    (twoHeld.record 37 = some (filling 37 10) ∧ (filling 37 10).host = .filling ∧
      (filling 37 10).length ≤ (args 37 12 1 0 twoHeld).hcu.arg1.toNat ∧
      (args 37 8 2 0 twoHeld).hcu.arg1.toNat < (filling 37 10).length) := by
  unfold State.UnitIdle; decide

/-- A part with both links up and a frame the host is filling. -/
def postable : State := up .a (up .b twoHeld)

/-- A link's DATA queue at its limit. -/
def crowded (l : LinkId) (s : State) : State :=
  { s with queues := s.queues.set (.tx l .data) { entries := [50], limit := 1 } }

theorem witness_PostResult :
    (postable.UnitIdle ∧ (args 37 255 3 15 postable).hcu.arg0.toNat < 1024 ∧ postable.record 37 = some (filling 37 10) ∧
      (filling 37 10).host = .filling ∧ (args 37 255 3 15 postable).hcu.arg1.toNat ≤ 255 ∧
      (args 37 255 3 15 postable).hcu.arg3.toNat ≤ 15 ∧ (args 37 255 3 15 postable).hcu.arg2 = 3 ∧
      postable.portA.state = .active ∧ postable.portB.state = .active ∧
      (postable.queue (.tx .a .data)).entries.length < (postable.queue (.tx .a .data)).limit ∧
      (postable.queue (.tx .b .data)).entries.length < (postable.queue (.tx .b .data)).limit) ∧
    ((args 37 256 1 0 postable).hcu.arg1.toNat = 256 ∧ (args 37 0 1 16 postable).hcu.arg3.toNat = 16) ∧
    postable.record 4 = none ∧
    ((args 37 9 1 0 twoHeld).hcu.arg2 = 1 ∧ twoHeld.portA.state ≠ .active) ∧
    ((crowded .a postable).queue (.tx .a .data)).limit ≤ ((crowded .a postable).queue (.tx .a .data)).entries.length := by
  unfold State.UnitIdle; decide

/-- A part with one frame in HRD. -/
def arrived : State := (put 3 (rec 3 .queued .none .none) idle).setEntries (.host .data) [3]

theorem witness_ClaimResult :
    arrived.UnitIdle ∧ ((args 3 0 0 0 arrived).hcu.arg0 ≠ 1 ∧ (args 3 0 0 0 arrived).hcu.arg0 ≠ 2) ∧
    ((args 1 0 0 0 arrived).hcu.arg0 = 1 ∧ (arrived.queue (.host .control)).entries = []) ∧
    ((args 2 0 0 0 arrived).hcu.arg0 = 2 ∧ (arrived.queue (.host .data)).entries = [3] ∧ 64 ≤ (holding 64 arrived).hcu.held ∧
      (holding 63 arrived).hcu.held < 64 ∧ arrived.record 3 = some (rec 3 .queued .none .none)) := by
  unfold State.UnitIdle; decide

theorem witness_ReleaseResult :
    twoHeld.UnitIdle ∧ twoHeld.record 4 = none ∧
    (twoHeld.record 37 = some (filling 37 10) ∧ (filling 37 10).linkA = .none ∧ (filling 37 10).linkB = .none) ∧
    ((put 3 (rec 3 .claimed .queued .none) idle).record 3 = some (rec 3 .claimed .queued .none) ∧
      (rec 3 .claimed .queued .none).linkA ≠ .none) := by
  unfold State.UnitIdle; decide

theorem witness_QueryResult :
    twoHeld.UnitIdle ∧ 1024 ≤ (args 1024 0 0 0 twoHeld).hcu.arg0.toNat ∧ twoHeld.record 4 = none ∧
    (twoHeld.record 3 = some (rec 3 .claimed .none .none) ∧ (rec 3 .claimed .none .none).length ≤ 1024 ∧
      (rec 3 .claimed .none .none).cells.length ≤ 16 ∧ ∀ x ∈ (rec 3 .claimed .none .none).cells, x < 1024) := by
  unfold State.UnitIdle; decide

theorem witness_FlushResult :
    flushing.ready = true ∧ arrived.UnitIdle ∧
    ((args 7 0 0 0 arrived).hcu.arg0.toNat = 7 ∧ (∀ n, n ∈ [1, 2, 3, 4, 5, 6] → n ≠ 7)) ∧
    ((args 6 0 0 0 arrived).hcu.arg0.toNat = QueueId.code (.tx .b .data) ∧ (arrived.queue (.tx .b .data)).entries = []) ∧
    ((args 2 0 0 0 arrived).hcu.arg0.toNat = QueueId.code (.host .data) ∧ (arrived.queue (.host .data)).entries = [] ++ [3]) := by
  unfold State.UnitIdle; decide

theorem witness_FlushResult_no_queue : ∀ p : QueueId, (args 7 0 0 0 arrived).hcu.arg0.toNat ≠ p.code := by
  intro p; rcases p with (_ | _) | ⟨_ | _, _ | _⟩ <;> decide

theorem witness_LinkCommands :
    idle.UnitIdle ∧ ((args 3 0 0 0 idle).hcu.arg0 ≠ 1 ∧ (args 3 0 0 0 idle).hcu.arg0 ≠ 2) ∧
    { idle with nodeAddr := 0 }.nodeAddr = 0 ∧
    ((up .a idle).nodeAddr ≠ 0 ∧ ((up .a idle).port .a).state ≠ .disabled ∧ ((up .a idle).port .a).state ≠ .fault) ∧
    (idle.port .b).state = .disabled ∧ ((linkIn .b .fault idle).port .b).state = .fault := by
  unfold State.UnitIdle; decide

/-- A flush with its mark in a queue of link B, and one with none there: both cases of `TornDown` and `FaultedBy`. -/
theorem witness_LinkCommands_flush : flushing.MarksSide .b ∧ ¬ flushing.MarksSide .a := by
  unfold State.MarksSide State.Marks; decide

theorem witness_TableReportScrubCommands :
    idle.UnitIdle ∧ 16 ≤ (args 16 0 0 0 idle).hcu.arg0.toNat ∧ 256 ≤ (args 0 0 256 1 idle).hcu.arg2.toNat ∧
    ((args 0 0 0 5 idle).hcu.arg3 = 5 ∧ (args 15 1 255 4 idle).hcu.arg0.toNat < 16 ∧ (args 15 1 255 4 idle).hcu.arg2.toNat < 256 ∧
      (args 15 1 255 4 idle).hcu.arg3 = wordOfNat (Action.code .discard)) ∧
    idle.table[15]? = some DeliveryEntry.reset := by
  unfold State.UnitIdle; decide

/-- An entry of the error report table. -/
def entry (cell : Nat) (kind : ReportKind) : ReportEntry where
  cell := cell
  word := 2
  kind := kind
  reader := .tx .a
  handle := some 6
  bit := none
  occurrences := 1

/-- A part with entries in its error report table. -/
def reporting (es : List ReportEntry) : State := { idle with reports := es }

theorem witness_TableReportScrubCommands_reports :
    idle.UnitIdle ∧ idle.reports = [] ∧ (reporting [entry 7 .corrected]).reports = [entry 7 .corrected] ∧
    (after .scrubStart idle).scrub.running = true ∧ idle.scrub.running = false := by
  unfold State.UnitIdle; decide

/-- The port of section 7.5.1, its word holding wrong bits. -/
def spoiled (bits : List Nat) : State :=
  { portAt 8 .write with buf := { (portAt 8 .write).buf with wrong := [(37 * 8 + 1, bits)] } }

theorem witness_PortReadResult :
    (portAt 8 .read).hcu.port = some { handle := 37, offset := 8, mode := .read } ∧
    (portAt 8 .read).record 37 = some (filling 37 10) ∧ 8 < (filling 37 10).length ∧ 8 % 4 = 0 ∧
    (portAt 8 .read).judge (37 * 8 + 1) = .good ∧ (spoiled [70]).judge (37 * 8 + 1) = .corrected 70 ∧
    (spoiled [3, 4]).judge (37 * 8 + 1) = .uncorrectable ∧ ((spoiled [3, 4]).ownerOf 37) = some (37, filling 37 10) ∧
    ((spoiled []).wrongBits (37 * 8 + 1) = [] ∧ (spoiled [63]).wrongBits (37 * 8 + 1) = [63] ∧
      (spoiled [63, 64]).wrongBits (37 * 8 + 1) = [63, 64] ∧ 3 ≤ ((spoiled [0, 63, 71]).wrongBits (37 * 8 + 1)).length ∧
      (spoiled [63]).judge (37 * 8 + 1) = .corrected 63 ∧ (spoiled [64]).judge (37 * 8 + 1) = .corrected 64) := by decide

theorem witness_PortWriteResult :
    ((portAt 8 .write).hcu.port = some { handle := 37, offset := 8, mode := .write } ∧
      (portAt 8 .write).record 37 = some (filling 37 10) ∧ 8 < (filling 37 10).length ∧
      (spoiled [3, 4]).judge (37 * 8 + 1) = .uncorrectable) ∧
    idle.hcu.port = none ∧
    ((portAt 12 .write).hcu.port = some { handle := 37, offset := 12, mode := .write } ∧ (filling 37 10).length ≤ 12) ∧
    (portAt 8 .read).hcu.port = some { handle := 37, offset := 8, mode := .read } := by decide

theorem witness_EventFlagsClearResult : (0x2000 : Word).getLsbD Event.scrubPassDone.bit = true := by decide

theorem witness_SettingsWriteResult_nodeAddr :
    (idle.portA.state = .disabled ∧ idle.portB.state = .disabled ∧ (1 : Word).toNat % 256 = 1 ∧ (254 : Word).toNat % 256 = 254) ∧
    (up .a idle).portA.state ≠ .disabled ∧ (up .b idle).portB.state ≠ .disabled ∧
    (0x100 : Word).toNat % 256 = 0 ∧ (255 : Word).toNat % 256 = 255 := by decide

/-- A scrubber in a mode and activity. -/
def scrubber (m : ScrubMode) (running : Bool) (s : State) : State :=
  { s with scrub := { s.scrub with mode := m, running := running } }

theorem witness_ScrubControlResult :
    ((0x00100003 : Word).toNat / 65536 % 1024 = idle.scrub.interval ∧ 1 ≤ idle.scrub.interval ∧ idle.scrub.interval ≤ 1023 ∧
      (0x00100003 : Word).toNat % 4 = 3) ∧
    ((0x00100000 : Word).toNat / 65536 % 1024 = idle.scrub.interval ∧ (0x00100000 : Word).toNat % 4 = 0) ∧
    ((0x00100002 : Word).toNat / 65536 % 1024 = idle.scrub.interval ∧ (0x00100002 : Word).toNat % 4 = ScrubMode.continuous.code ∧
      (scrubber .single true idle).scrub.running = true ∧ cold.ready = false ∧ idle.scrub.running = false ∧ idle.ready = true) ∧
    ((scrubber .single true idle).scrub.running = true ∧ (0x03FF0001 : Word).toNat % 4 = ScrubMode.single.code ∧
      (0x03FF0001 : Word).toNat / 65536 % 1024 = 1023 ∧ (0x00000001 : Word).toNat / 65536 % 1024 = 0) := by decide

theorem witness_CreditStallResult_limit :
    (0x02000A04 : Word).toNat / 65536 % 256 = 0 ∧
    ((0x02FF0A04 : Word).toNat / 65536 % 256 = 255 ∧ stalled.waitsForCredit .a .data = true) := by decide

theorem witness_CounterWriteResult :
    (partCounterAt 0 = some .hrTailDrop ∧ PartCounter.hrOldestDrop ≠ .hrTailDrop) ∧
    linkCounterAt 10 = some .poisonDrops ∧ LinkCounter.framesIn ≠ .poisonDrops := by decide

theorem witness_SettingsWriteResult : QueueId.tx .a .data ≠ .host .control := by decide

theorem witness_ReceiverOff : (idle.port .a).state = .disabled ∧ ((linkIn .a .fault idle).port .a).state = .fault := by decide

theorem witness_DamagedBlockResult :
    (((linkIn .a .hunt idle).port .a).state = .hunt ∧ ((linkIn .a .hunt idle).port .a).rx.frame = none ∧
      ((linkIn .a .hunt idle).port .a).rx.passing = .no) ∧
    (((midFrame 4 10 []).port .a).rx.frame ≠ none ∧
      (((up .a idle).modRx .a fun r => { r with passing := .toMarker }).port .a).rx.passing ≠ .no) ∧
    (((up .a idle).port .a).rx.passing = .no ∧ ((up .a idle).port .a).rx.frame = none) ∧
    (((up .a idle).port .a).state = .active ∧ ((up .a idle).port .a).align = .aligned ∧ ((up .a idle).port .a).rx.nak = .none ∧
      3 ≤ (((up .a idle).modPort .a fun p => { p with invalidRun := 2 }).port .a).invalidRun + 1 ∧
      ¬(3 ≤ (((up .a idle).modPort .a fun p => { p with invalidRun := 1 }).port .a).invalidRun + 1)) := by decide

/-- A link in HUNT with a run of valid blocks, sending KEEPs. -/
def hunting (run : Nat) : State :=
  (linkIn .b .hunt idle).modPort .b fun p => { p with validRun := run, tx := { p.tx with line := .control .keep } }

theorem witness_KeepReceivedResult :
    ((hunting 2).port .b).rx.frame = none ∧ ((hunting 2).port .b).rx.passing = .no ∧
    (((hunting 2).port .b).state = .hunt ∧ ((hunting 2).port .b).validRun + 1 < 4) ∧
    (4 ≤ ((hunting 3).port .b).validRun + 1 ∧ ((hunting 3).port .b).tx.line = .control .keep) ∧
    (((greeting false false).port .b).state = .greet ∧ ((greeting false false).port .b).hailReceived = false) ∧
    (((greeting true false).port .b).hailReceived = true ∧ ((greeting true false).port .b).rx.passing = .no) ∧
    (((up .a idle).port .a).state = .active ∧ ((up .a idle).port .a).align = .aligned) := by decide

theorem witness_HailReceivedResult :
    ((greeting false false).port .b).rx.frame = none ∧ ((greeting false false).port .b).state = .greet ∧
    (2 : Byte) ≠ 1 ∧ (greeting false false).nodeAddr = 6 ∧
    (((greeting true false).port .b).hailReceived = true ∧ (9 : Byte) ≠ ((greeting true false).port .b).partner) ∧
    (((greeting false false).port .b).hailReceived = false ∧ ((greeting false false).port .b).yesSent = false ∧
      ((greeting false false).port .b).tx.line = .none ∧
      ((onLine .b (.control .keep) (greeting false false)).port .b).tx.line ≠ .none) ∧
    (((greeting true true).port .b).partner = 5 ∧ ((greeting true true).port .b).yesSent = true) ∧
    (((greeting true false).port .b).partner = 5 ∧ ((greeting true false).port .b).yesSent = false) ∧
    (((up .a idle).port .a).state = .active ∧ ((up .a idle).port .a).rx.frame = none) := by decide

/-- Link A REALIGNING with a NAK pending, after a run of valid blocks. -/
def realigning (run : Nat) : State :=
  (up .a idle).modPort .a fun p =>
    { p with align := .realigning, validRun := run, realignTimer := some 1000, rx := { p.rx with nak := .pending } }

theorem witness_RealigningResult :
    ((realigning 2).Receiving .a ∧ ((realigning 2).port .a).align = .realigning ∧ ((realigning 2).port .a).validRun + 1 < 4 ∧
      headerCheckOk (header 6 22 128) = true) ∧
    ((realigning 3).Receiving .a ∧ 4 ≤ ((realigning 3).port .a).validRun + 1 ∧ ((realigning 3).port .a).rx.nak = .pending ∧
      (((realigning 3).modRx .a fun r => { r with nak := .sent }).port .a).rx.nak ≠ .pending) := by
  unfold State.Receiving; decide +kernel

theorem witness_GreetingCompleted :
    (((hunting 2).port .b).rx.frame = none ∧ ((hunting 2).port .b).state = .hunt ∧ ((hunting 2).port .b).validRun + 1 < 4) ∧
    (((greeting false false).port .b).state = .greet ∧ ((greeting false false).port .b).hailReceived = false) ∧
    (((greeting true false).port .b).rx.frame = none ∧ ((greeting true false).port .b).state = .greet ∧
      ((greeting true false).port .b).hailReceived = true ∧ ((greeting true false).port .b).tx.unacked = [] ∧
      ((16 : Credit).toNat + 65536 - (((greeting true false).port .b).credit .control).partnerGranted.toNat) % 65536 < 32768 ∧
      ((16 : Credit).toNat + 65536 - (((greeting true false).port .b).credit .control).sent.toNat) % 65536 < 32768) ∧
    (headerCheckOk (header 6 0 128) = true ∧ (header 6 0 128).extractLsb' 8 8 = ((greeting true false).port .b).rx.expected ∧
      (header 6 0 128).extractLsb' 40 16 = 128 ∧ (header 6 0 128).extractLsb' 24 8 = 17 ∧
      (((greeting true false).port .b).credit .data).outstanding < (128 + 63) / 64 ∧
      headerCheckOk (header 6 0 1025) = true ∧ (header 6 0 1025).extractLsb' 40 16 = 1025) := by decide +kernel

theorem witness_AckReceivedResult :
    (twoSent.Receiving .a ∧ (twoSent.port .a).tx.line = .none ∧ (∀ h ∈ (twoSent.port .a).tx.unacked, twoSent.seqOn .a h ≠ some 7) ∧
      (twoSent.port .a).tx.unacked = [3] ++ 5 :: [] ∧ twoSent.seqOn .a 5 = some 9 ∧ (∀ x ∈ [3], twoSent.seqOn .a x ≠ some 9) ∧
      ([3] ++ [5]).Nodup ∧ twoSent.record 3 = some (rec 3 .none (.unacked 8) .none) ∧
      (put 3 (rec 3 .claimed (.unacked 8) .none) twoSent).record 3 = some (rec 3 .claimed (.unacked 8) .none)) ∧
    (let s := onLine .a (.frame (sending 5 true 2 false)) twoSent;
      s.Receiving .a ∧ (s.port .a).tx.line = .frame (sending 5 true 2 false) ∧ (sending 5 true 2 false).resend = true ∧
      (s.port .a).tx.unacked = [3] ++ [] ++ 5 :: [] ∧ ([] ++ [5]).head? = some (sending 5 true 2 false).handle ∧
      (sending 5 true 2 false).handle ∉ [3] ∧ s.seqOn .a 5 = some 9 ∧ ∀ x ∈ [3] ++ [], s.seqOn .a x ≠ some 9) := by
  unfold State.Receiving; decide +kernel

/-- A held point behind the new one and one beyond it; an episode that goes on and one that ends. -/
theorem witness_AckReceivedResult_episode :
    (newerOf 8 (some 8) 9 = 9 ∧ newerOf 8 (some 9) 8 = 9 ∧ newerOf 8 none 8 = 8) ∧
    (twoSent.EntryFrom .a 9 ∧ ¬ twoSent.EntryFrom .a 10) := by
  unfold State.EntryFrom
  refine ⟨by decide, ⟨5, by decide, 9, by decide⟩, ?_⟩
  rintro ⟨h, hm, n, hn, hd⟩
  rw [show (twoSent.port .a).tx.unacked = [3, 5] by decide, List.mem_pair] at hm
  rcases hm with rfl | rfl
  · rw [show twoSent.seqOn .a 3 = some 8 by decide] at hn
    cases hn; revert hd; decide
  · rw [show twoSent.seqOn .a 5 = some 9 by decide] at hn
    cases hn; revert hd; decide

theorem witness_AckReceivedResult_free_line :
    ∀ f, (twoSent.port .a).tx.line = .frame f → f.resend = true → f.handle ∉ [3] ++ [5] := by
  intro f h
  have free : (twoSent.port .a).tx.line = .none := by decide
  rw [free] at h
  cases h

theorem witness_NakReceivedResult :
    twoSent.Receiving .a ∧ ((∀ h ∈ (twoSent.port .a).tx.unacked, twoSent.seqOn .a h ≠ some 7) ∧ (7 : Byte) ≠ (twoSent.port .a).tx.nextSeq) ∧
    ((∀ h ∈ (twoSent.port .a).tx.unacked, twoSent.seqOn .a h ≠ some 10) ∧ (10 : Byte) = (twoSent.port .a).tx.nextSeq) ∧
    ((twoSent.port .a).tx.unacked = [3] ++ 5 :: [] ∧ twoSent.seqOn .a 5 = some 9 ∧ (∀ x ∈ [3], twoSent.seqOn .a x ≠ some 9) ∧
      1 ≤ (twoSent.port .a).cfg.replayLimit) ∧
    (let s := onLine .a (.frame (sending 3 true 2 false)) twoSent;
      s.Receiving .a ∧ (s.port .a).tx.line = .frame (sending 3 true 2 false) ∧ (sending 3 true 2 false).resend = true ∧
      [3] = [] ++ [3] ∧ [3].head? = some (sending 3 true 2 false).handle) ∧
    ((twoSent.port .a).tx.unacked = 3 :: [5] ∧ twoSent.seqOn .a 3 = some 8 ∧
      ((twoSent.modTx .a fun t => { t with replayCount := 3 }).port .a).tx.replayCount + 1 ≤ (twoSent.port .a).cfg.replayLimit ∧
      (twoSent.port .a).cfg.replayLimit < ((twoSent.modTx .a fun t => { t with replayCount := 4 }).port .a).tx.replayCount + 1) := by
  unfold State.Receiving; decide +kernel

theorem witness_GrantReceivedResult :
    granted.Receiving .a ∧
    ((4 : Credit).toNat + 65536 - (granted.port .a).dat.partnerGranted.toNat) % 65536 < 32768 ∧
    ((4 : Credit).toNat + 65536 - (granted.port .a).dat.sent.toNat) % 65536 < 32768 ∧
    32768 ≤ ((65529 : Credit).toNat + 65536 - (granted.port .a).dat.partnerGranted.toNat) % 65536 ∧
    32768 ≤ ((32760 : Credit).toNat + 65536 - (granted.port .a).dat.sent.toNat) % 65536 := by
  unfold State.Receiving; decide +kernel

/-- The distance of R68 of a header's seq behind expected-seq 22. -/
def behindBy (seq : Byte) : Nat := ((expecting.port .a).rx.expected - seq).toNat

theorem witness_FrameHeaderResult :
    expecting.TakesFrames .a ∧ (realigning 3).TakesFrames .a ∧ headerCheckOk (header 6 22 128) = true ∧
    (behindBy 21 = 1 ∧ behindBy 150 = 128) ∧ (behindBy 149 = 129 ∧ behindBy 23 = 255) ∧ behindBy 22 = 0 ∧
    (headerCheckOk (header 6 22 0) = true ∧ (header 6 22 0).extractLsb' 40 16 = 0 ∧ (header 6 22 1025).extractLsb' 40 16 = 1025) ∧
    ((header 6 22 128).extractLsb' 40 16 = 128 ∧ (header 6 22 1024).extractLsb' 40 16 = 1024 ∧ (header 6 22 128).getLsbD 0 = true ∧
      (header 6 22 128).extractLsb' 24 8 = 17 ∧ (128 + 63) / 64 ≤ ((expecting.port .a).credit .data).outstanding ∧
      (128 + 63) / 64 ≤ expecting.buf.free.length ∧ expecting.buf.free.length < (1024 + 63) / 64 ∧
      (1024 + 63) / 64 ≤ ((expecting.port .a).credit .data).outstanding ∧
      (((up .a idle).port .a).credit .data).outstanding < (128 + 63) / 64) := by
  unfold State.TakesFrames State.Receiving; decide +kernel

theorem witness_PayloadResult :
    (((midFrame 8 16 []).port .a).state = .active ∧ ((midFrame 8 16 []).port .a).rx.frame = some (receiving 8 16 []) ∧
      (midFrame 8 16 []).record 3 = some { arrivalRecord .a (headerFields (header 6 0 16)) with cells := [3] } ∧
      (receiving 8 16 []).gather = [] ∧ (receiving 8 16 []).count % 8 = 0 ∧ ([1, 2, 3, 4, 5, 6, 7, 8] : List Byte).length = 8 ∧
      (receiving 8 16 []).count + 8 ≤ headerLength (receiving 8 16 []).header) ∧
    ((receiving 9 10 [1]).count + 1 = headerLength (receiving 9 10 [1]).header ∧
      (receiving 9 10 [1]).gather.length = (receiving 9 10 [1]).count % 8) ∧
    ((receiving 10 10 []).count = headerLength (receiving 10 10 []).header ∧
      (arrivalRecord .a (headerFields (header 6 0 10))).origin = .link .a ∧
      (arrivalRecord .a (headerFields (header 6 0 10))).cls = (headerFields (receiving 10 10 []).header).cls) := by decide +kernel

theorem witness_FailedFrameResult :
    ((midFrame 4 10 []).port .a).state = .active ∧ ((midFrame 4 10 []).port .a).align = .aligned ∧
    ((midFrame 4 10 []).port .a).rx.frame = some (receiving 4 10 []) ∧
    (midFrame 4 10 []).record 3 = some { arrivalRecord .a (headerFields (header 6 0 10)) with cells := [3] } ∧
    (receiving 4 10 []).count ≠ headerLength (receiving 4 10 []).header ∧
    ((1 : BitVec 32) ≠ crc32Stored (receiving 10 10 []).crc ∧ ((midFrame 4 10 []).port .a).rx.nak = .none ∧
      (((midFrame 4 10 []).modRx .a fun r => { r with nak := .sent }).port .a).rx.nak ≠ .none) := by decide +kernel

theorem witness_AcceptedFrameResult :
    ((midFrame 10 10 []).port .a).state = .active ∧ ((midFrame 10 10 []).port .a).rx.frame = some (receiving 10 10 []) ∧
    (receiving 10 10 []).count = headerLength (receiving 10 10 []).header := by decide +kernel

/-- A part with an arrival from link A in slot 3, still FILLING, for a destination and with hops. -/
def arriving (destination source : Byte) (hops : BitVec 4) (s : State) : State :=
  put 3 { rec 3 .none .none .none with phase := .filling (.link .a), destination := some destination, source := some source, hops := hops } s

/-- A table whose entry 1 discards address 9 and whose entry 2 sends address 7 both ways. -/
def tabled : State :=
  { up .b idle with
    table := [.reset, { valid := true, address := 9, action := .discard }, { valid := true, address := 7, action := .hostAndForward }] }

/-- The DATA host receive queue at its limit of 1, holding handle 25. -/
def hostFull (m : AdmissionMode) : State :=
  let s := put 25 (rec 25 .queued .none .none) idle;
  { s with queues := { s.queues with hrd := { entries := [25], limit := 1 }, hrdCfg := { mode := m, notify := 1 } } }

theorem witness_DeliveryDecision :
    (let r := { rec 3 .none .none .none with phase := .filling (.link .a), destination := some 9, source := some 6, hops := 1 };
      (arriving 9 6 1 idle).record 3 = some r ∧ r.refCount = 0 ∧ r.origin = .link .a ∧ r.source = some (arriving 9 6 1 idle).nodeAddr) ∧
    (some (17 : Byte) ≠ some tabled.nodeAddr ∧ tabled.deliveryAction 9 = .discard) ∧
    (idle.deliveryAction 9 = .forward ∧ ((arriving 9 17 0 idle).record 3).map Record.hops = some 0) ∧
    ((idle.port .b).state ≠ .active ∧ (tabled.port .b).state = .active ∧ tabled.deliveryAction 8 = .forward ∧
      (tabled.queue (.tx .b .data)).entries.length < (tabled.queue (.tx .b .data)).limit) ∧
    ((crowded .b tabled).queue (.tx .b .data)).limit ≤ ((crowded .b tabled).queue (.tx .b .data)).entries.length ∧
    (idle.forwardRefusal .b (rec 3 .none .none .none) = some .fwdLinkDown ∧
      tabled.forwardRefusal .b { rec 3 .none .none .none with hops := 0 } = some .hopLimit ∧
      (crowded .b tabled).forwardRefusal .b (rec 3 .none .none .none) = some .fwdQueueFull ∧
      tabled.forwardRefusal .b { rec 3 .none .none .none with hops := 1 } = none) ∧
    (tabled.deliveryAction 7 = .hostAndForward ∧ (tabled.queue (.host .data)).entries.length < (tabled.queue (.host .data)).limit) ∧
    idle.deliveryAction 6 = .host ∧
    (((hostFull .tailDrop).queue (.host .data)).limit ≤ ((hostFull .tailDrop).queue (.host .data)).entries.length ∧
      ((hostFull .tailDrop).queues.hostCfg .data).mode = .tailDrop) ∧
    (tabled.table = [.reset] ++ { valid := true, address := 9, action := .discard } ::
        [{ valid := true, address := 7, action := .hostAndForward }] ∧
      ∀ x ∈ [DeliveryEntry.reset], ¬(x.valid = true ∧ x.address = 9)) ∧
    ∀ x ∈ tabled.table, ¬(x.valid = true ∧ x.address = 255) := by decide

theorem witness_DropOldestResult :
    let s := put 3 (rec 3 .none .none .none) (hostFull .dropOldest);
    (s.queue (.host .data)).entries = 25 :: [] ∧ (s.queue (.host .data)).limit ≤ [25].length ∧
    (s.queues.hostCfg .data).mode = .dropOldest ∧ s.record 3 = some (rec 3 .none .none .none) ∧
    s.record 25 = some (rec 25 .queued .none .none) ∧ 3 ≠ 25 ∧ (rec 25 .queued .none .none).linkA = .none ∧
    (rec 25 .queued .queued .none).linkA ≠ .none ∧ (rec 3 .none .none .none).cls = .data ∧
    (rec 3 .none .none .none).source ≠ some s.nodeAddr ∧
    ({ s with table := tabled.table }.deliveryAction 7 = .hostAndForward ∧ { s with nodeAddr := 9 }.deliveryAction 9 = .host ∧
      s.forwardRefusal .b (rec 3 .none .none .none) = some .fwdLinkDown ∧
      (up .b s).forwardRefusal .b (rec 3 .none .none .none) = none) := by decide

theorem witness_DropOldestResult_flush :
    { hostFull .dropOldest with flush := { active := some (.host .data, 25), removed := 0 } }.Marks (.host .data) [25] := by
  unfold State.Marks; decide

theorem witness_ControlBlockEnds :
    (((onLine .a (.control .keep) (up .a idle)).port .a).state = .active ∧
      ((onLine .a (.control .keep) (up .a idle)).port .a).tx.line = .control .keep) ∧
    (let s := (onLine .b (.control (.hail 6 1 true)) (greeting true false)).modTx .b fun t => { t with hailDue := true };
      (s.port .b).tx.line = .control (.hail 6 1 true) ∧ (s.port .b).state = .greet ∧ (s.port .b).tx.hailDue = true) ∧
    ((onLine .b (.control (.hail 6 1 true)) (greeting true false)).port .b).tx.hailDue = false ∧
    (((hunting 0).port .b).state = .hunt ∧ ((hunting 0).port .b).tx.line = .control .keep) ∧
    (((onLine .b (.control .keep) (greeting false false)).port .b).state = .greet ∧
      ((onLine .b (.control .keep) (greeting false false)).port .b).tx.hailDue = false) := by decide

theorem witness_TxWordReadResult :
    let s := onWire false 12 false (.sending 7);
    (s.port .a).state = .active ∧ (s.port .a).tx.line = .frame (sending 3 false 12 false) ∧ (sending 3 false 12 false).aborting = false ∧
    8 * (sending 3 false 12 false).nextWord < (sending 3 false 12 false).length ∧ s.record 3 = some (rec 3 .none (.sending 7) .none) ∧
    s.judge (4 * 8 + 4) = .good ∧
    { s with buf := { s.buf with wrong := [(36, [64])] } }.judge 36 = .corrected 64 ∧
    { s with buf := { s.buf with wrong := [(36, [64, 0])] } }.judge 36 = .uncorrectable ∧
    s.ownerOf (36 / 8) = some (3, rec 3 .none (.sending 7) .none) := by decide +kernel

theorem witness_FirstTransmissionResult :
    (let s := onWire false 13 false (.sending 7);
      (s.port .a).state = .active ∧ (s.port .a).tx.line = .frame (sending 3 false 13 false) ∧
      (sending 3 false 13 false).resend = false ∧ s.record 3 = some (rec 3 .none (.sending 7) .none) ∧
      (sending 3 false 13 false).aborting = false ∧
      (sending 3 false 13 false).nextWord = ((sending 3 false 13 false).length + 7) / 8) ∧
    ((sending 3 false 4 true).aborting = true ∧ (rec 3 .none (.sending 7) .none).host = .none ∧
      (rec 3 .none (.sending 7) .none).holder (LinkId.other .a) = .none ∧ (rec 3 .claimed (.sending 7) .none).host ≠ .none) := by
  decide +kernel

/-- Link A resending the frame of handle 3, with the frames 3 and 5 unacknowledged. -/
def resending (words : Nat) (aborting : Bool) : State := onLine .a (.frame (sending 3 true words aborting)) twoSent

theorem witness_ResendResult :
    (let s := resending 13 false;
      (s.port .a).state = .active ∧ (s.port .a).tx.line = .frame (sending 3 true 13 false) ∧ (sending 3 true 13 false).resend = true ∧
      (sending 3 true 13 false).nextWord = ((sending 3 true 13 false).length + 7) / 8 ∧ (s.port .a).tx.held = none ∧
      (sending 3 true 13 false).overtaken = false ∧ s.seqOn .a 5 = some 9 ∧ ((9 : Byte) - 8).toNat < 128 ∧
      ¬(((9 : Byte) - 137).toNat < 128 ∧ ((8 : Byte) - 137).toNat < 128) ∧ (5 : Nat) ∈ (s.port .a).tx.unacked ∧
      ((s.modTx .a fun t => { t with replay := some 8 }).port .a).tx.replay ≠ none) ∧
    (let s := (resending 13 false).modTx .a fun t => { t with held := some 9 };
      (s.port .a).tx.held = some 9 ∧ (s.port .a).tx.unacked = [3] ++ 5 :: [] ∧ s.seqOn .a 5 = some 9 ∧ ∀ x ∈ [3], s.seqOn .a x ≠ some 9) ∧
    (sending 3 true 4 true).aborting = true := by decide +kernel

theorem witness_ArbiterChoice :
    (up .a idle).lineFree .a = true ∧
    (((up .a idle).modRx .a fun r => { r with nakDue := true }).lineFree .a = true) ∧
    (let s := twoSent.modTx .a fun t => { t with replay := some 9 };
      s.lineFree .a = true ∧ (s.port .a).rx.nakDue = false ∧ (s.port .a).rx.ackDue = false ∧ (s.port .a).ctl.due = false ∧
      (s.port .a).dat.due = false ∧ (s.port .a).tx.replay = some 9 ∧ (s.port .a).tx.unacked = [3] ++ 5 :: [] ∧
      s.record 5 = some (rec 5 .none (.unacked 9) .none) ∧ (rec 5 .none (.unacked 9) .none).poisoned = false ∧
      s.seqOn .a 5 = some 9 ∧ ((9 : Byte) - 9).toNat < 128 ∧ s.seqOn .a 3 = some 8 ∧ 128 ≤ ((8 : Byte) - 9).toNat) ∧
    (stalled.lineFree .a = true ∧ (stalled.port .a).tx.replay = none ∧ (stalled.queue (.tx .a .data)).entries = 3 :: [] ∧
      stalled.record 3 = some (rec 3 .none .queued .none) ∧ (stalled.port .a).tx.unacked.length < (stalled.port .a).tx.liveWindow ∧
      (stalled.queue (.tx .a .control)).entries = [] ∧
      ((stalled.port .a).credit .data).available < (rec 3 .none .queued .none).cells.length ∧
      (rec 3 .none .queued .none).cells.length ≤
        (((stalled.modCredit .a .data fun k => { k with partnerGranted := 2 }).port .a).credit .data).available) ∧
    (((up .a idle).settle (up .a idle)).port .a).state = .active ∧
      (((up .a idle).settle (up .a idle)).port .a).tx.line = .none := by decide +kernel

/-- A change that leaves the grantable amount at GRANT_STEP makes a GRANT due, and one that leaves it below does not. -/
theorem witness_ArbiterChoice_grant :
    let s := ({ up .a idle with buf := { idle.buf with free := List.range 8 } }).modCredit .a .data fun k => { k with live := 8 };
    ((s.port .a).state = .active ∧ s.grantable .a .data = 8 ∧ idle.grantable .a .data = 0 ∧ (s.port .a).cfg.grantStep = 8 ∧
      (((s.noteGrants idle).port .a).credit .data).due = true) ∧
    (((({ s with buf := { s.buf with free := List.range 7 } } : State).noteGrants idle).port .a).credit .data).due = false := by
  decide +kernel

/-- R91, R118: the step that frees the cells makes the GRANT due and the free line takes it. -/
theorem test_settle_sends_the_grant :
    ((({ up .a idle with buf := { idle.buf with free := List.range 8 } }.modCredit .a .data fun k => { k with live := 8 }).settle
      idle).port .a).tx.line = .control (.grant .data 8) := by decide +kernel

/-- Link A with a frame of two cells at the head of its DATA queue and the partner's grant for it, poisoned or not, behind a CONTROL
head that lacks credit. -/
def creditBehind (poisoned : Bool) : State :=
  let s := put 5 { rec 5 .none .queued .none with cls := .control } (put 3 { rec 3 .none .queued .none with poisoned := poisoned } stalled);
  (s.setEntries (.tx .a .control) [5]).modCredit .a .data fun k => { k with partnerGranted := 2 }

theorem witness_PoisonedChoice :
    (let s := (put 3 { rec 3 .none (.unacked 8) .none with poisoned := true } twoSent).modTx .a fun t => { t with replay := some 8 };
      s.lineFree .a = true ∧ (s.port .a).rx.nakDue = false ∧ (s.port .a).rx.ackDue = false ∧ (s.port .a).ctl.due = false ∧
      (s.port .a).dat.due = false ∧ (s.port .a).tx.replay = some 8 ∧ (s.port .a).tx.unacked = [] ++ 3 :: [5] ∧
      s.isPoisoned 3 = true ∧ s.seqOn .a 3 = some 8) ∧
    (∀ b ∈ [true, false], (creditBehind b).lineFree .a = true ∧ ((creditBehind b).port .a).rx.nakDue = false ∧
      ((creditBehind b).port .a).rx.ackDue = false ∧ ((creditBehind b).port .a).ctl.due = false ∧
      ((creditBehind b).port .a).dat.due = false ∧ ((creditBehind b).port .a).tx.replay = none ∧
      ((creditBehind b).queue (.tx .a .data)).entries = 3 :: [] ∧
      (creditBehind b).record 3 = some { rec 3 .none .queued .none with poisoned := b } ∧
      ((creditBehind b).port .a).tx.unacked.length < ((creditBehind b).port .a).tx.liveWindow ∧
      (rec 3 .none .queued .none).cells.length ≤ (((creditBehind b).port .a).credit .data).available ∧
      ((creditBehind b).queue (.tx .a .control)).entries = 5 :: [] ∧
      (creditBehind b).record 5 = some { rec 5 .none .queued .none with cls := .control } ∧
      ((creditBehind b).port .a).ctl.available < (rec 5 .none .queued .none).cells.length) := by decide +kernel

/-- A flush whose mark is the head that goes, and one whose mark is another entry. -/
theorem witness_PoisonedChoice_flush :
    { creditBehind true with flush := { active := some (.tx .a .data, 3), removed := 0 } }.Marks (.tx .a .data) [3] ∧
    ¬ { creditBehind true with flush := { active := some (.tx .a .control, 5), removed := 0 } }.Marks (.tx .a .data) [3] := by
  unfold State.Marks; decide

theorem witness_LinkTimerExpiries :
    (let s := (greeting false false).modPort .b fun p => { p with hailTimer := some 1, greetTimer := some 1 };
      (s.port .b).state = .greet ∧ (s.port .b).hailTimer.isSome = true ∧ (s.port .b).tx.line = .none ∧
      ((onLine .b (.control .keep) s).port .b).tx.line ≠ .none ∧ (s.port .b).greetTimer.isSome = true) ∧
    (let s := (up .a idle).modPort .a fun p => { p with silenceTimer := some 1, realignTimer := some 1, align := .realigning };
      (s.port .a).state = .active ∧ (s.port .a).silenceTimer.isSome = true ∧ (s.port .a).align = .realigning ∧
      (s.port .a).realignTimer.isSome = true) ∧
    (let s := (linkIn .a .fault idle).modPort .a fun p => { p with holdTimer := some 1 };
      (s.port .a).state = .fault ∧ (s.port .a).holdTimer.isSome = true ∧ (s.port .a).cfg.autoRestart = false ∧
      ((s.modPort .a fun p => { p with cfg := { p.cfg with autoRestart := true } }).port .a).cfg.autoRestart = true) := by decide

theorem witness_TransmitTimerExpiries :
    (twoSent.port .a).state = .active ∧
    ((twoSent.port .a).tx.replayTimer.isSome = true ∧ (twoSent.port .a).tx.unacked = 3 :: [5] ∧ twoSent.seqOn .a 3 = some 8 ∧
      (twoSent.port .a).tx.replayCount + 1 ≤ (twoSent.port .a).cfg.replayLimit ∧
      (twoSent.port .a).cfg.replayLimit < ((twoSent.modTx .a fun t => { t with replayCount := 4 }).port .a).tx.replayCount + 1) ∧
    (((up .a idle).modRx .a fun r => { r with ackTimer := some 50 }).port .a).rx.ackTimer.isSome = true ∧
    (((up .a idle).modPort .a fun p => { p with refreshTimer := some 1 }).port .a).refreshTimer.isSome = true ∧
    (let s := stalled.modTx .a fun t => { t with idleTimer := some 200 };
      (s.port .a).tx.idleTimer.isSome = true ∧ (s.port .a).tx.line = .none ∧ (s.port .a).rx.nakDue = false ∧ (s.port .a).rx.ackDue = false ∧
      (s.port .a).ctl.due = false ∧ (s.port .a).dat.due = false ∧ (s.port .a).tx.replay = none ∧
      (s.queue (.tx .a .control)).entries = [] ∧ (s.queue (.tx .a .data)).entries = [3] ∧
      ((s.port .a).credit .data).available < (rec 3 .none .queued .none).cells.length) := by decide

theorem witness_CreditStallResult :
    (stalled.port .a).state = .active ∧ ((stalled.port .a).credit .data).stallTimer.isSome = true ∧
    (stalled.queue (.tx .a .data)).entries = 3 :: [] ∧ stalled.record 3 = some (rec 3 .none .queued .none) ∧
    (rec 3 .none .queued .none).host = .none ∧ (rec 3 .none .queued .none).holder (LinkId.other .a) = .none ∧
    (rec 3 .claimed .queued .none).host ≠ .none ∧ stalled.flush.active ≠ some (.tx .a .data, 3) ∧
    { stalled with flush := { active := some (.tx .a .data, 3), removed := 0 } }.flush.active = some (.tx .a .data, 3) := by decide

theorem witness_FlushResult_removal :
    flushing.flush.active = some (.tx .b .data, 40) ∧ (flushing.queue (.tx .b .data)).entries = 25 :: [40] ∧
    flushing.record 25 = some (rec 25 .none .none .queued) ∧ (25 : Nat) ≠ 40 ∧
    ((after .flushRemoval flushing).queue (.tx .b .data)).entries = 40 :: [] ∧
    (after .flushRemoval flushing).record 40 = some (rec 40 .none .none .queued) ∧
    ((rec 25 .none .none .queued).setHolder .b .none).host = .none ∧ ((rec 25 .claimed .none .queued).setHolder .b .none).host ≠ .none := by
  decide +kernel

theorem witness_ScrubStepResult :
    ((scrubbing 8190 [] idle).scrub.running = true ∧ (scrubbing 8190 [] idle).scrub.position + 1 < 8192) ∧
    (8192 ≤ (scrubbing 8191 [] idle).scrub.position + 1 ∧ (scrubbing 8191 [] idle).judge 8191 = .good) ∧
    ((scrubbing 296 [] twoHeld).ownerOf (296 / 8) = some (37, filling 37 10) ∧ (filling 37 10).phase = .filling .host) ∧
    ((scrubbing 337 [40] (put 42 (rec 42 .claimed .none .none) idle)).ownerOf (337 / 8) = some (42, rec 42 .claimed .none .none) ∧
      (rec 42 .claimed .none .none).phase = .live ∧
      (scrubbing 337 [40] (put 42 (rec 42 .claimed .none .none) idle)).judge 337 = .corrected 40) ∧
    ((scrubbing 325 [1, 2] idle).ownerOf (325 / 8) = none ∧ (scrubbing 325 [1, 2] idle).judge 325 = .uncorrectable) ∧
    (scrubbing 342 [1, 2] (put 42 (rec 42 .claimed .none .none) idle)).judge 342 = .uncorrectable := by decide

/-- A full error report table, its entries of cells 1 to 8 and of one kind, but for the third. -/
def fullTable (others third : ReportKind) : List ReportEntry :=
  [entry 1 others, entry 2 others, entry 3 third, entry 4 others, entry 5 others, entry 6 others, entry 7 others, entry 8 others]

theorem witness_ReportTableResult :
    (entry 9 .corrected).occurrences = 1 ∧
    ((reporting [entry 9 .corrected]).reports = [] ++ entry 9 .corrected :: []) ∧
    (∀ f ∈ (reporting (List.take 7 (fullTable .corrected .corrected))).reports, ¬(f.cell = 9)) ∧
    (reporting (List.take 7 (fullTable .corrected .corrected))).reports.length < 8 ∧
    ((∀ f ∈ fullTable .uncorrectable .corrected, ¬(f.cell = 9)) ∧ 8 ≤ (fullTable .uncorrectable .corrected).length ∧
      fullTable .uncorrectable .corrected = [entry 1 .uncorrectable, entry 2 .uncorrectable] ++ entry 3 .corrected ::
        [entry 4 .uncorrectable, entry 5 .uncorrectable, entry 6 .uncorrectable, entry 7 .uncorrectable, entry 8 .uncorrectable] ∧
      ∀ x ∈ [entry 1 .uncorrectable, entry 2 .uncorrectable], x.kind = .uncorrectable) ∧
    ∀ f ∈ fullTable .uncorrectable .uncorrectable, f.kind = .uncorrectable := by decide

/-- A part with one command waiting. -/
def waiting (c : Instr) (s : State) : State := { s with pending := [c] }

theorem witness_MemoryFormKept :
    Memory.wf (waiting .softReset (scrubbing 325 [] idle)).buf.mem = true ∧
    ∃ t, step (waiting .softReset (scrubbing 325 [] idle)) = .next t := ⟨by decide, _, rfl⟩

theorem witness_ReportLawKept :
    (waiting .reportTake (reporting [entry 7 .corrected, entry 7 .uncorrectable])).ReportsDistinct ∧
    ∃ t, step (waiting .reportTake (reporting [entry 7 .corrected, entry 7 .uncorrectable])) = .next t := by
  refine ⟨?_, _, rfl⟩
  unfold State.ReportsDistinct
  decide

theorem witness_SettingsAndQueuesKept :
    (waiting .softReset arrived).SettingsInRange ∧ (waiting .softReset arrived).QueuesBounded ∧
    ∃ t, step (waiting .softReset arrived) = .next t := by
  refine ⟨?_, ?_, _, rfl⟩
  · refine ⟨?_, ?_, by decide, ?_, by decide⟩
    · unfold LinkCfg.InRange; decide
    · unfold LinkCfg.InRange; decide
    · intro c; cases c <;> decide
  · intro q; rcases q with (_ | _) | ⟨_ | _, _ | _⟩ <;> decide

/-- A ready part with 1023 free cells and one frame, which the host is filling. -/
def oneFrame : State :=
  put 0 (filling 0 10) { idle with buf := { idle.buf with free := List.range' 1 1023 } }

theorem oneFrame_cells (held : Nat) : (waiting .softReset (holding held oneFrame)).CellsAccounted := by
  refine ⟨?_, ?_, ?_, rfl⟩
  · intro _
    have cells : List.range 1024 = [0] ++ List.range' 1 1023 := by decide +kernel
    rw [cells]
    exact List.perm_append_comm
  · intro h; cases h
  · intro e h
    rcases List.mem_singleton.1 h with rfl
    rfl

theorem witness_CellLawKept :
    (waiting .softReset (holding 0 oneFrame)).CellsAccounted ∧
    ∃ t, step (waiting .softReset (holding 0 oneFrame)) = .next t := ⟨oneFrame_cells 0, _, rfl⟩

theorem witness_HolderLawKept :
    (waiting .softReset (holding 1 oneFrame)).HoldersAgree ∧
    ∃ t, step (waiting .softReset (holding 1 oneFrame)) = .next t := by
  refine ⟨⟨oneFrame_cells 1, ⟨?_, ?_, ?_, ?_, ?_⟩, ?_⟩, _, rfl⟩
  · intro c; cases c <;> exact ⟨List.nodup_nil, fun _ h => absurd h (List.not_mem_nil)⟩
  · intro l c; cases l <;> cases c <;> exact ⟨List.nodup_nil, fun _ h => absurd h (List.not_mem_nil)⟩
  · intro l; cases l <;> exact ⟨List.nodup_nil, fun _ h => absurd h (List.not_mem_nil)⟩
  · intro l f h; cases l <;> cases h
  · intro l f h; cases l <;> cases h
  · intro e h
    rcases List.mem_singleton.1 h with rfl
    exact ⟨⟨rfl, rfl, rfl⟩, fun h => (nomatch h), fun _ h => (nomatch h)⟩

theorem witness_HeldCountKept :
    (waiting .softReset (holding 1 oneFrame)).HoldersAgree ∧ (waiting .softReset (holding 1 oneFrame)).HeldCounted :=
  ⟨witness_HolderLawKept.1, rfl, by decide⟩

theorem witness_CreditLawKept :
    (waiting .softReset (holding 1 oneFrame)).HoldersAgree ∧ (waiting .softReset (holding 1 oneFrame)).CreditsCovered := by
  refine ⟨witness_HolderLawKept.1, ?_, ?_, Nat.zero_le _⟩
  · intro l c; cases l <;> cases c <;> rfl
  · intro l c; cases l <;> cases c <;> exact Nat.zero_le _

theorem witness_QuietLinkLawKept :
    (waiting (.ackReceived .a 8) twoSent).QuietLinksClear ∧ ∃ t, step (waiting (.ackReceived .a 8) twoSent) = .next t := by
  refine ⟨⟨?_, ?_, by decide⟩, _, rfl⟩
  · intro l h
    cases l
    · exact absurd (show ((waiting (.ackReceived .a 8) twoSent).port .a).state = .active by decide) h
    · unfold State.SideClear CreditClass.CountsZero; decide
  · intro l e h
    have slots : (waiting (.ackReceived .a 8) twoSent).buf.records
        = [(3, rec 3 .none (.unacked 8) .none), (5, rec 5 .none (.unacked 9) .none)] := by decide
    rw [slots] at h
    rcases List.mem_cons.1 h with rfl | h
    · cases l
      · exact (show (3 : Nat) ∈ ((waiting (.ackReceived .a 8) twoSent).port .a).tx.unacked by decide)
      · exact trivial
    · rcases List.mem_singleton.1 h with rfl
      cases l
      · exact (show (5 : Nat) ∈ ((waiting (.ackReceived .a 8) twoSent).port .a).tx.unacked by decide)
      · exact trivial

theorem witness_FlushLawKept :
    (waiting .flushRemoval flushing).FlushMarked ∧ ∃ t, step (waiting .flushRemoval flushing) = .next t := by
  refine ⟨⟨by decide, ?_⟩, _, rfl⟩
  intro q m h
  have marked : (waiting .flushRemoval flushing).flush.active = some (.tx .b .data, 40) := by decide
  rw [marked] at h
  cases h
  decide

theorem witness_LineEncodingAgrees :
    controlCheckOk (ControlBlock.encode (.ack 1) ^^^ 0x100) = false ∧ headerCheckOk (header 6 0 10 ^^^ 0x100) = false ∧
    ([0x26, 0x39, 0xF4] : List Byte).length < 4 := by decide +kernel

end Sys2Proof.Tests
end

