-- ==== Sys2Proof/Proofs/Moves.lean ====
section
/-! SUPPORT. The moves that every command is made of: what the laws speak of (`State.core`), the few changes of it that a command
can make (`Move`), and for each shared operation the moves it is made of. A law that each move keeps is then kept by every step. -/

namespace Sys2Proof.Machine

/-! ## The part of the state that the laws speak of -/

/-- A record without its poisoned mark, which no law reads. -/
def Record.clean (r : Record) : Record :=
  { r with poisoned := false }

/-- A frame being received, its handle and header alone. -/
def RxFrame.core (f : RxFrame) : RxFrame :=
  { f with count := 0, crc := 0, gather := [] }

/-- The block on the line as the laws see it: a frame block by its handle and seq; a control block is no frame. -/
def LineBlock.core : LineBlock → LineBlock
  | .frame f => .frame { f with nextWord := 0, sent := [], aborting := false, overtaken := false }
  | .control _ => .none
  | .none => .none

/-- The counts of a class, without what is due and without its stall timer. -/
def CreditClass.core (k : CreditClass) : CreditClass :=
  { k with due := false, stallTimer := none }

/-- The parts of a port that the laws read, everything else at its reset value. -/
def LinkPort.core (p : LinkPort) : LinkPort :=
  { LinkPort.reset with
    state := p.state
    rx := { Receiver.reset with frame := p.rx.frame.map RxFrame.core }
    tx := { Transmitter.reset with unacked := p.tx.unacked, line := p.tx.line.core }
    ctl := p.ctl.core
    dat := p.dat.core }

/-- A queue's entries, its limit left out. -/
def FrameQueue.core (q : FrameQueue) : FrameQueue :=
  { q with limit := 0 }

/-- The entries of the six queues. -/
def Queues.core (q : Queues) : Queues :=
  { Queues.reset with
    hrc := q.hrc.core, hrd := q.hrd.core
    txaC := q.txaC.core, txaD := q.txaD.core, txbC := q.txbC.core, txbD := q.txbD.core }

/-- The parts of the state that the laws of cells, holders, queues and credits read, with the flush in progress, the host-held count
and the queue of commands; everything else at its reset value. -/
def State.core (s : State) : State :=
  { State.reset with
    ready := s.ready
    buf := { Buffer.reset with free := s.buf.free, records := s.buf.records.map fun e => (e.1, e.2.clean) }
    queues := s.queues.core
    flush := { active := s.flush.active, removed := 0 }
    portA := s.portA.core
    portB := s.portB.core
    hcu := { HostUnit.reset with busy := s.hcu.busy, held := s.hcu.held }
    pending := s.pending }

/-- The frame of a first transmission, if the block is one: its record is SENDING on this side. -/
def LineBlock.first : LineBlock → Option TxFrame
  | .frame f => if f.resend then Option.none else some f
  | .control _ => Option.none
  | .none => Option.none

/-! ## Moves -/

/-- A port taken from HUNT to GREET (R48). -/
def LinkPort.greeted (p : LinkPort) : LinkPort :=
  { p with state := .greet, ctl := p.ctl.greet p.cfg.allowC, dat := p.dat.greet p.cfg.allowD }

/-- A port whose session has ended, in DISABLED or FAULT (R62). -/
def LinkPort.quieted (target : LinkState) (p : LinkPort) : LinkPort :=
  { p with state := target, ctl := p.ctl.teardown, dat := p.dat.teardown }

/-- A port whose receiver has no frame in progress. -/
def LinkPort.unframed (p : LinkPort) : LinkPort :=
  { p with rx := { p.rx with frame := none } }

/-- A port with a block on its line. -/
def LinkPort.onLine (b : LineBlock) (p : LinkPort) : LinkPort :=
  { p with tx := { p.tx with line := b } }

/-- A port whose unacknowledged list has lost its oldest entry. -/
def LinkPort.unlisted (p : LinkPort) : LinkPort :=
  { p with tx := { p.tx with unacked := p.tx.unacked.tail } }

/-- An admitted forward part: the handle at the tail of a transmit queue, its holder QUEUED, its hops one less (R25, R87). -/
def State.enterForward (s : State) (l : LinkId) (c : Cls) (h : Nat) : State :=
  (s.append (.tx l c) h).modRecord h fun r => { r.withLinkQueued l with hops := r.hops - 1 }

/-- The admitted parts of a delivery: the host part, the forward part, or both (R88). -/
def State.enterParts (s : State) (m : LinkId) (c : Cls) (h : Nat) (host fwd : Bool) : State :=
  let t := if host then s.enterHost c h else s
  if fwd then t.enterForward m c h else t

/-- The changes of the core of the state that a command is made of. -/
inductive Move : State → State → Prop
  /-- Nothing that a law reads changes. -/
  | same {s t : State} : t.core = s.core → Move s t
  | hunt {s : State} {l : LinkId} : s.ready = true ∨ (s.port l).state = .fault → (s.port l).state.live = false →
      Move s (s.enterHunt l)
  | greet {s : State} {l : LinkId} : (s.port l).state = .hunt → (s.port l).rx.frame = none →
      Move s (s.modPort l LinkPort.greeted)
  | active {s : State} {l : LinkId} : (s.port l).state = .greet → Move s (s.modPort l fun p => { p with state := .active })
  | quiet {s : State} {l : LinkId} {target : LinkState} : (∀ c, (s.queue (.tx l c)).entries = []) →
      (s.port l).tx.unacked = [] → (s.port l).rx.frame = none → (s.port l).tx.line.isFrame = false → target.live = false →
      (target = .disabled ∨ (s.port l).state ≠ .disabled) → Move s (s.modPort l (LinkPort.quieted target))
  | decideGrant {s : State} {l : LinkId} {c : Cls} : s.isActive l = true → Move s (s.decideGrant l c)
  | grantTaken {s : State} {l : LinkId} {c : Cls} {v : Credit} : s.isActive l = true →
      Move s (s.modCredit l c fun k => { k with partnerGranted := v })
  /-- A block begins or ends that is no first transmission. -/
  | line {s : State} {l : LinkId} {b : LineBlock} : (s.port l).tx.line.first = none → b.first = none →
      (b.isFrame = true → s.isActive l = true) → Move s (s.modPort l (LinkPort.onLine b))
  | takeIn {s : State} {l : LinkId} {header : BitVec 128} : s.isActive l = true → (s.port l).rx.frame = none →
      0 < headerLength header →
      cellsFor (headerLength header) ≤ ((s.port l).credit (headerFields header).cls).outstanding →
      cellsFor (headerLength header) ≤ s.freeCount → Move s (s.takeIn l header)
  | giveBack {s : State} {l : LinkId} {f : RxFrame} : (s.port l).rx.frame = some f → Move s (s.giveBack l f)
  /-- The record being received is freed: at a teardown, or when its delivery leaves it no holder. -/
  | unframe {s : State} {l : LinkId} {f : RxFrame} : (s.port l).rx.frame = some f →
      Move s ((s.freeRecord f.handle).modPort l LinkPort.unframed)
  /-- A received frame whose record has a holder already: no state that keeps the law of holders has one. -/
  | keepHeld {s : State} {l : LinkId} {f : RxFrame} {r : Record} : (s.port l).rx.frame = some f → s.record f.handle = some r →
      r.refCount ≠ 0 → Move s (s.modPort l LinkPort.unframed)
  | accept {s : State} {l : LinkId} {f : RxFrame} {c : Cls} {host fwd : Bool} : (s.port l).rx.frame = some f →
      (∀ r, s.record f.handle = some r → r.cls = c) → (host = true ∨ fwd = true) → (fwd = true → s.isActive l.other = true) →
      Move s ((s.enterParts l.other c f.handle host fwd).modPort l LinkPort.unframed)
  | dropHead {s : State} {q : QueueId} {h : Nat} {rest : List Nat} : (s.queue q).entries = h :: rest → Move s (s.dropHead q h)
  | beginFirst {s : State} {l : LinkId} {c : Cls} {h : Nat} {rest : List Nat} {r : Record} : s.isActive l = true →
      (s.port l).tx.line = .none → (s.queue (.tx l c)).entries = h :: rest → s.record h = some r →
      Move s (s.beginFirst l c h)
  | firstEnd {s : State} {l : LinkId} {f : TxFrame} {r : Record} : (s.port l).tx.line = .frame f → f.resend = false →
      s.record f.handle = some r → Move s (s.firstEnd l f)
  | firstGone {s : State} {l : LinkId} {f : TxFrame} : (s.port l).tx.line = .frame f → f.resend = false →
      Move s ((s.removeLinkHolder l f.handle).modPort l (LinkPort.onLine .none))
  | unlist {s : State} {l : LinkId} {h : Nat} {rest : List Nat} : (s.port l).tx.unacked = h :: rest →
      Move s ((s.removeLinkHolder l h).modPort l LinkPort.unlisted)
  | alloc {s : State} {length : Nat} {c : Cls} : s.ready = true → 0 < length → s.hcu.held < Config.maxHostHeld →
      cellsFor length + s.totalOutstanding ≤ s.freeCount → Move s (s.allocTaken length c)
  | post {s : State} {h : Nat} {r : Record} {d : Byte} {hops : BitVec 4} {links : List LinkId} : s.record h = some r →
      r.host = .filling → links ≠ [] → links.Nodup → (∀ l ∈ links, s.isActive l = true) →
      Move s (s.postTaken h r.cls d hops links)
  | claim {s : State} {c : Cls} {h : Nat} {rest : List Nat} : (s.queue (.host c)).entries = h :: rest →
      s.hcu.held < Config.maxHostHeld → Move s (s.claimTaken c h)
  | release {s : State} {h : Nat} {r : Record} : s.hostHeld h = some r → Move s (s.releaseTaken h)
  | flush {s : State} {q : QueueId} {m : Nat} : (s.queue q).entries.getLast? = some m → Move s (s.flushTaken q m)
  | resetInput {s : State} : Move s s.resetTaken
  | init {s : State} : s.ready = false → Move s s.initTaken
  | softReset {s : State} : Move s s.softResetTaken

/-- Moves one after another. -/
def Moves : State → State → Prop :=
  Relation.ReflTransGen Move

theorem Moves.refl {s : State} : Moves s s := Relation.ReflTransGen.refl

theorem Moves.trans {s t u : State} (h : Moves s t) (k : Moves t u) : Moves s u := Relation.ReflTransGen.trans h k

theorem Move.moves {s t : State} (h : Move s t) : Moves s t := Relation.ReflTransGen.single h

theorem Moves.same {s t : State} (h : t.core = s.core) : Moves s t := (Move.same h).moves

theorem Moves.same_after {s t u : State} (h : Moves s t) (e : u.core = t.core) : Moves s u := h.trans (.same e)

/-- A law that each move keeps is kept by moves one after another. -/
theorem Moves.keep {P : State → Prop} (keep : ∀ s t, Move s t → P s → P t) {s t : State} (h : Moves s t) (hs : P s) : P t := by
  induction h with
  | refl => exact hs
  | tail _ m ih => exact keep _ _ m ih

/-! ## What changes nothing of the core -/

theorem State.core_modPort (s : State) (l : LinkId) (f : LinkPort → LinkPort) (h : (f (s.port l)).core = (s.port l).core) :
    (s.modPort l f).core = s.core := by
  cases l
  · exact congrArg (fun p => { s.core with portA := p }) h
  · exact congrArg (fun p => { s.core with portB := p }) h

theorem State.core_port {s t : State} (h : t.core = s.core) (l : LinkId) : (t.port l).core = (s.port l).core := by
  cases l
  · exact congrArg State.portA h
  · exact congrArg State.portB h

theorem State.core_modCredit (s : State) (l : LinkId) (c : Cls) (f : CreditClass → CreditClass)
    (h : (f ((s.port l).credit c)).core = ((s.port l).credit c).core) : (s.modCredit l c f).core = s.core := by
  refine s.core_modPort l _ ?_
  cases c
  · exact congrArg (fun k => { (s.port l).core with ctl := k }) h
  · exact congrArg (fun k => { (s.port l).core with dat := k }) h

@[simp] theorem State.core_raise (s : State) (e : Event) : (s.raise e).core = s.core := rfl

@[simp] theorem State.core_countPart (s : State) (c : PartCounter) : (s.countPart c).core = s.core := by
  cases c <;> rfl

@[simp] theorem State.port_countPart (s : State) (c : PartCounter) (l : LinkId) : (s.countPart c).port l = s.port l := by
  cases l <;> simp

@[simp] theorem State.core_countLink (s : State) (l : LinkId) (c : LinkCounter) : (s.countLink l c).core = s.core := by
  cases l <;> cases c <;> rfl

@[simp] theorem State.core_answer (s : State) (c : ResultCode) (r : Results) : (s.answer c r).core = s.core := rfl

@[simp] theorem State.core_noteGrant (s b : State) (l : LinkId) (c : Cls) : (s.noteGrant b l c).core = s.core := by
  unfold State.noteGrant
  split
  · exact s.core_modCredit l c _ rfl
  · rfl

@[simp] theorem State.core_noteGrants (s b : State) : (s.noteGrants b).core = s.core := by
  simp [State.noteGrants]

@[simp] theorem State.core_refreshStall (s : State) (l : LinkId) (c : Cls) : (s.refreshStall l c).core = s.core := by
  unfold State.refreshStall
  simp only
  split
  · exact s.core_modCredit l c _ rfl
  · exact s.core_modCredit l c _ rfl

@[simp] theorem State.core_refreshStalls (s : State) : s.refreshStalls.core = s.core := by
  simp [State.refreshStalls]

@[simp] theorem State.core_startNak (s : State) (l : LinkId) : (s.startNak l).core = s.core := by
  refine s.core_modPort l _ ?_
  split
  · rfl
  · rfl

@[simp] theorem State.core_testEpisode (s : State) (l : LinkId) : (s.testEpisode l).core = s.core := by
  unfold State.testEpisode
  split
  · exact s.core_modPort l _ rfl
  · rfl

@[simp] theorem State.core_writeWord (s : State) (p : Nat) (w : CellWord) : (s.writeWord p w).core = s.core := rfl

@[simp] theorem State.core_tableReport (s : State) (e : ReportEntry) : (s.tableReport e).core = s.core := by
  simp [State.core]

@[simp] theorem State.core_makeReport (s : State) (e : ReportEntry) : (s.makeReport e).core = s.core := by
  simp [State.core]

/-- A record poisoned: no law reads the mark. -/
theorem State.core_poison (s : State) (h : Nat) : (s.modRecord h fun r => { r with poisoned := true }).core = s.core := by
  have e : (Sparse.modify s.buf.records h fun r => { r with poisoned := true }).map (fun e => (e.1, e.2.clean))
      = s.buf.records.map fun e => (e.1, e.2.clean) := by
    rw [Sparse.modify, List.map_map]
    refine List.map_congr_left fun x _ => ?_
    simp only [Function.comp]
    split <;> rfl
  simp [State.core, State.modRecord, e]

@[simp] theorem State.core_noteRead (s : State) (k : Reader) (p : Nat) : (s.noteRead k p).core = s.core := by
  unfold State.noteRead
  split
  · rfl
  · simp
  · rw [State.core_makeReport]
    split
    · exact s.core_poison _
    · rfl

/-- A block begins on a line that carries no frame: a control block is no change. -/
theorem State.core_control (s : State) (l : LinkId) (b : ControlBlock) (h : (s.port l).tx.line.core = .none) :
    (s.beginBlock l (.control b)).core = s.core := by
  refine s.core_modPort l _ ?_
  simp only [LinkPort.core, h]
  rfl

theorem State.core_beginHail (s : State) (l : LinkId) (h : (s.port l).tx.line.core = .none) : (s.beginHail l).core = s.core := by
  refine s.core_modPort l _ ?_
  simp only [LinkPort.core, h]
  rfl

@[simp] theorem State.core_hailNow (s : State) (l : LinkId) : (s.hailNow l).core = s.core := by
  unfold State.hailNow
  split
  · rename_i h; exact s.core_beginHail l (by rw [h]; rfl)
  · exact s.core_modPort l _ rfl

theorem State.core_endBlock (s : State) (l : LinkId) (h : (s.port l).tx.line.core = .none) : (s.endBlock l).core = s.core := by
  refine s.core_modPort l _ ?_
  simp only [LinkPort.core, h]
  rfl

/-- A block that carries no frame is none to the laws. -/
theorem LineBlock.core_eq_none {b : LineBlock} (h : b.isFrame = false) : b.core = .none := by
  cases b
  · rfl
  · rfl
  · cases h

end Sys2Proof.Machine
end

