-- ==== Sys2Proof/Proofs/LinkMoves.lean ====
section
/-! SUPPORT. Each shared operation of the links, the receivers and the transmitters as moves. -/

namespace Sys2Proof.Machine

/-! ## Changes of a port that pass by the removal of holders -/

/-- A change of a port that neither reads nor writes the Credit Unit. -/
def LinkPort.CreditBlind (g : LinkPort → LinkPort) : Prop :=
  ∀ (p : LinkPort) (c : Cls) (f : CreditClass → CreditClass), g (p.modCredit c f) = (g p).modCredit c f

theorem State.modPort_modCredit (s : State) (l k : LinkId) (c : Cls) (f : CreditClass → CreditClass)
    {g : LinkPort → LinkPort} (hg : LinkPort.CreditBlind g) :
    (s.modPort l g).modCredit k c f = (s.modCredit k c f).modPort l g := by
  cases l <;> cases k <;> simp [State.modCredit, State.modPort, hg _ c f]

@[simp] theorem State.record_modPort (s : State) (l : LinkId) (g : LinkPort → LinkPort) (h : Nat) :
    (s.modPort l g).record h = s.record h := by simp [State.record]

@[simp] theorem State.queue_modPort (s : State) (l : LinkId) (g : LinkPort → LinkPort) (q : QueueId) :
    (s.modPort l g).queue q = s.queue q := by simp [State.queue]

theorem State.modPort_reportFree (s : State) (l : LinkId) (r : Record) {g : LinkPort → LinkPort} (hg : LinkPort.CreditBlind g) :
    (s.modPort l g).reportFree r = (s.reportFree r).modPort l g := by
  unfold State.reportFree
  split
  · rfl
  · exact s.modPort_modCredit l _ _ _ hg

theorem State.modPort_freeRecord (s : State) (l : LinkId) (h : Nat) {g : LinkPort → LinkPort} (hg : LinkPort.CreditBlind g) :
    (s.modPort l g).freeRecord h = (s.freeRecord h).modPort l g := by
  unfold State.freeRecord
  rw [State.record_modPort]
  split
  · rfl
  · rw [← State.modPort_reportFree _ l _ hg]
    cases l <;> rfl

theorem State.modPort_modRecord (s : State) (l : LinkId) (h : Nat) (f : Record → Record) (g : LinkPort → LinkPort) :
    (s.modPort l g).modRecord h f = (s.modRecord h f).modPort l g := by
  cases l <;> rfl

theorem State.modPort_removeHolder (s : State) (l : LinkId) (h : Nat) (clear : Record → Record)
    {g : LinkPort → LinkPort} (hg : LinkPort.CreditBlind g) :
    (s.modPort l g).removeHolder h clear = (s.removeHolder h clear).modPort l g := by
  unfold State.removeHolder
  rw [State.record_modPort]
  split
  · rfl
  · split
    · exact s.modPort_freeRecord l h hg
    · exact s.modPort_modRecord l h clear g

theorem State.modPort_countPart (s : State) (l : LinkId) (c : PartCounter) (g : LinkPort → LinkPort) :
    (s.modPort l g).countPart c = (s.countPart c).modPort l g := by
  cases l <;> cases c <;> rfl

theorem State.modPort_setEntries (s : State) (l : LinkId) (q : QueueId) (es : List Nat) (g : LinkPort → LinkPort) :
    (s.modPort l g).setEntries q es = (s.setEntries q es).modPort l g := by
  cases l <;> rfl

theorem State.modPort_popHead (s : State) (l : LinkId) (q : QueueId) {g : LinkPort → LinkPort} (hg : LinkPort.CreditBlind g) :
    (s.modPort l g).popHead q = (s.popHead q).modPort l g := by
  unfold State.popHead
  rw [State.queue_modPort, State.modPort_setEntries]
  cases q with
  | host c => rfl
  | tx k c => exact State.modPort_modCredit _ l k c _ hg

theorem State.modPort_entryLeft (s : State) (l : LinkId) (q : QueueId) (h : Nat) (g : LinkPort → LinkPort) :
    (s.modPort l g).entryLeft q h = (s.entryLeft q h).modPort l g := by
  simp only [State.entryLeft_spec, State.modPort_flush]
  split
  · cases l <;> rfl
  · rfl

theorem State.modPort_dropHead (s : State) (l : LinkId) (q : QueueId) (h : Nat)
    {g : LinkPort → LinkPort} (hg : LinkPort.CreditBlind g) :
    (s.modPort l g).dropHead q h = (s.dropHead q h).modPort l g := by
  unfold State.dropHead
  rw [State.modPort_popHead s l q hg]
  cases q <;>
    simp only [State.removeHostHolder, State.removeLinkHolder, State.modPort_removeHolder _ l h _ hg, State.modPort_entryLeft]

theorem State.modPort_teardownDrop (s : State) (l k : LinkId) (h : Nat) {g : LinkPort → LinkPort} (hg : LinkPort.CreditBlind g) :
    (s.modPort l g).teardownDrop k h = (s.teardownDrop k h).modPort l g := by
  simp only [State.teardownDrop, State.removeLinkHolder, State.modPort_removeHolder s l h _ hg, State.modPort_countPart]

/-- A fold of a step that a change of a port passes by. -/
theorem State.modPort_foldl {α : Type} (l : LinkId) (g : LinkPort → LinkPort) (f : State → α → State)
    (hf : ∀ (t : State) (a : α), f (t.modPort l g) a = (f t a).modPort l g) (xs : List α) (s : State) :
    xs.foldl f (s.modPort l g) = (xs.foldl f s).modPort l g := by
  induction xs generalizing s with
  | nil => rfl
  | cons a xs ih => simp only [List.foldl_cons, hf, ih]

theorem State.modPort_modPort (s : State) (l : LinkId) (f g : LinkPort → LinkPort) :
    (s.modPort l f).modPort l g = s.modPort l fun p => g (f p) := by
  cases l <;> rfl

theorem LinkPort.unframed_blind : LinkPort.CreditBlind LinkPort.unframed := fun _ c _ => by cases c <;> rfl

theorem LinkPort.onLine_blind (b : LineBlock) : LinkPort.CreditBlind (LinkPort.onLine b) := fun _ c _ => by cases c <;> rfl

theorem LinkPort.unlisted_blind : LinkPort.CreditBlind LinkPort.unlisted := fun _ c _ => by cases c <;> rfl

theorem State.port_modPort_cases (s : State) (l k : LinkId) (g : LinkPort → LinkPort) :
    (s.modPort l g).port k = if k = l then g (s.port k) else s.port k := by
  cases l <;> cases k <;> rfl

/-! ## What the removal of holders leaves of a port -/

/-- The cumulative counts and the live allowance of a class. -/
def CreditClass.counts (k : CreditClass) : CreditClass :=
  { k with inUse := 0, due := false, stallTimer := none }

/-- A port without in-use, what is due, its stall timers and its counters. -/
def LinkPort.side (p : LinkPort) : LinkPort :=
  { p with ctl := p.ctl.counts, dat := p.dat.counts, counters := .reset }

/-- An operation that changes of each port at most in-use, what is due, the stall timers and the counters. -/
def State.SameLinks (s t : State) : Prop :=
  ∀ l, (t.port l).side = (s.port l).side

section
variable {s t u : State}

theorem State.SameLinks.refl (s : State) : s.SameLinks s := fun _ => rfl

theorem State.SameLinks.trans (h : s.SameLinks t) (k : t.SameLinks u) : s.SameLinks u := fun l => (k l).trans (h l)

theorem State.SameLinks.tx (h : s.SameLinks t) (l : LinkId) : (t.port l).tx = (s.port l).tx := (congrArg LinkPort.tx (h l) :)

theorem State.SameLinks.rx (h : s.SameLinks t) (l : LinkId) : (t.port l).rx = (s.port l).rx := (congrArg LinkPort.rx (h l) :)

theorem State.SameLinks.state (h : s.SameLinks t) (l : LinkId) : (t.port l).state = (s.port l).state :=
  (congrArg LinkPort.state (h l) :)

theorem State.SameLinks.counts (h : s.SameLinks t) (l : LinkId) (c : Cls) :
    ((t.port l).credit c).counts = ((s.port l).credit c).counts := by
  cases c
  · exact (congrArg LinkPort.ctl (h l) :)
  · exact (congrArg LinkPort.dat (h l) :)

/-- The ports are untouched. -/
theorem State.SameLinks.of_port (h : ∀ l, t.port l = s.port l) : s.SameLinks t := fun l => congrArg LinkPort.side (h l)
end

theorem State.modCredit_links (s : State) (l : LinkId) (c : Cls) (f : CreditClass → CreditClass) (hf : ∀ k, (f k).counts = k.counts) :
    s.SameLinks (s.modCredit l c f) := fun k => by
  rw [State.modCredit, State.port_modPort_cases]
  split
  · cases c <;> simp [LinkPort.modCredit, LinkPort.side, hf]
  · rfl

theorem State.freeRecord_links (s : State) (h : Nat) : s.SameLinks (s.freeRecord h) := by
  unfold State.freeRecord State.reportFree
  split
  · exact .refl s
  · have freed : ∀ b : Buffer, s.SameLinks { s with buf := b } := fun b => .of_port fun l => by cases l <;> rfl
    split
    · exact freed _
    · exact (freed _).trans (State.modCredit_links _ _ _ _ fun _ => rfl)

theorem State.modRecord_links (s : State) (h : Nat) (f : Record → Record) : s.SameLinks (s.modRecord h f) :=
  .of_port fun l => by cases l <;> rfl

theorem State.removeHolder_links (s : State) (h : Nat) (clear : Record → Record) : s.SameLinks (s.removeHolder h clear) := by
  unfold State.removeHolder
  split
  · exact .refl s
  · split
    · exact s.freeRecord_links h
    · exact s.modRecord_links h clear

@[simp] theorem State.port_removeHolder_tx (s : State) (h : Nat) (clear : Record → Record) (l : LinkId) :
    ((s.removeHolder h clear).port l).tx = (s.port l).tx := (s.removeHolder_links h clear).tx l

@[simp] theorem State.port_removeHolder_rx (s : State) (h : Nat) (clear : Record → Record) (l : LinkId) :
    ((s.removeHolder h clear).port l).rx = (s.port l).rx := (s.removeHolder_links h clear).rx l

@[simp] theorem State.port_removeHolder_state (s : State) (h : Nat) (clear : Record → Record) (l : LinkId) :
    ((s.removeHolder h clear).port l).state = (s.port l).state := (s.removeHolder_links h clear).state l

theorem State.countPart_links (s : State) (c : PartCounter) : s.SameLinks (s.countPart c) := .of_port (s.port_countPart c)

theorem State.entryLeft_links (s : State) (q : QueueId) (h : Nat) : s.SameLinks (s.entryLeft q h) := by
  rw [State.entryLeft_spec]
  split
  · exact .of_port fun l => by cases l <;> rfl
  · exact .refl s

theorem State.setEntries_links (s : State) (q : QueueId) (es : List Nat) : s.SameLinks (s.setEntries q es) :=
  .of_port fun l => by cases l <;> rfl

theorem State.popHead_links (s : State) (q : QueueId) : s.SameLinks (s.popHead q) := by
  have stop : ∀ t : State, t.SameLinks (t.stopStall q) := fun t => by
    unfold State.stopStall
    split
    · exact .refl t
    · exact t.modCredit_links _ _ _ fun _ => rfl
  exact (s.setEntries_links q (s.queue q).entries.tail).trans (stop _)

theorem State.dropHead_links (s : State) (q : QueueId) (h : Nat) : s.SameLinks (s.dropHead q h) := by
  unfold State.dropHead
  refine ((s.popHead_links q).trans ?_).trans (State.entryLeft_links _ q h)
  cases q
  · exact State.removeHolder_links _ _ _
  · exact State.removeHolder_links _ _ _

/-- The entries of the queues once the head of one is dropped. -/
theorem State.queue_dropHead (s : State) (q r : QueueId) (h : Nat) :
    (s.dropHead q h).queue r = if r = q then { s.queue q with entries := (s.queue q).entries.tail } else s.queue r := by
  rw [← s.queue_popHead q r]
  have left : ∀ t : State, (t.entryLeft q h).queue r = t.queue r := fun t => by
    rw [State.entryLeft_spec]; split <;> rfl
  unfold State.dropHead
  rw [left]
  cases q <;> simp [State.removeHostHolder, State.removeLinkHolder, State.queue]

/-! ## Teardown -/

/-- A port with the parts changed that a teardown leaves for `clearSession` to clear: its state is the target, and nothing is being
received, sent or unacknowledged. -/
def LinkPort.veiled (target : LinkState) (p : LinkPort) : LinkPort :=
  { p with state := target, rx := { p.rx with frame := none }, tx := { p.tx with line := .none, unacked := [] } }

theorem LinkPort.veiled_blind (target : LinkState) : LinkPort.CreditBlind (LinkPort.veiled target) :=
  fun _ c _ => by cases c <;> rfl

/-- Two states that differ at most in the parts of a port that a teardown veils. -/
def State.VeilEq (l : LinkId) (target : LinkState) (s t : State) : Prop :=
  s.modPort l (LinkPort.veiled target) = t.modPort l (LinkPort.veiled target)

theorem State.VeilEq.symm {l : LinkId} {target : LinkState} {s t : State} (h : State.VeilEq l target s t) :
    State.VeilEq l target t s := Eq.symm h

theorem State.VeilEq.trans {l : LinkId} {target : LinkState} {s t u : State} (h : State.VeilEq l target s t)
    (k : State.VeilEq l target t u) : State.VeilEq l target s u := Eq.trans h k

/-- A change of a port that the veil hides. -/
theorem State.VeilEq.modPort {l : LinkId} {target : LinkState} {s t : State} (h : State.VeilEq l target s t)
    {g : LinkPort → LinkPort} (hg : ∀ p, LinkPort.veiled target (g p) = LinkPort.veiled target p) :
    State.VeilEq l target s (t.modPort l g) := by
  unfold State.VeilEq at *
  rw [h, State.modPort_modPort]
  simp only [hg]

/-- An operation that the veil passes by respects `VeilEq`. -/
theorem State.VeilEq.map {l : LinkId} {target : LinkState} {s t : State} (h : State.VeilEq l target s t) (f : State → State)
    (hf : ∀ u : State, f (u.modPort l (LinkPort.veiled target)) = (f u).modPort l (LinkPort.veiled target)) :
    State.VeilEq l target (f s) (f t) := by
  unfold State.VeilEq at *
  rw [← hf, ← hf, h]

theorem State.clearSession_veiled (s : State) (l : LinkId) (target : LinkState) :
    (s.modPort l (LinkPort.veiled target)).clearSession l = (s.clearSession l).modPort l fun p => { p with state := target } := by
  cases l <;> rfl

/-- Step 1 of a teardown as a move. -/
theorem State.clearFilling_moves (s : State) (l : LinkId) :
    Moves s ((s.clearFilling l).modPort l LinkPort.unframed) := by
  unfold State.clearFilling
  split
  · rename_i f hf; exact (Move.unframe hf).moves
  · rename_i hf
    refine .same (s.core_modPort l _ ?_)
    simp [LinkPort.core, LinkPort.unframed, hf]

/-- Step 2 of a teardown as a move: the line is free then. -/
theorem State.clearSending_moves (s : State) (l : LinkId) :
    Moves s ((s.clearSending l).modPort l (LinkPort.onLine .none)) := by
  unfold State.clearSending
  split
  · rename_i f hf
    split
    · rename_i hr
      exact (Move.line (by simp [hf, LineBlock.first, hr]) rfl (by simp [LineBlock.isFrame])).moves
    · rename_i hr
      refine (Move.firstGone hf (by simpa using hr)).moves.trans (Moves.same ?_)
      rw [State.teardownDrop, ← State.modPort_countPart, State.core_countPart]
  · rename_i b hb
    refine .same (s.core_modPort l _ ?_)
    simp [LinkPort.core, LinkPort.onLine, hb]
    rfl
  · rename_i hb
    refine .same (s.core_modPort l _ ?_)
    simp [LinkPort.core, LinkPort.onLine, hb]

theorem State.teardownDrop_links (s : State) (l : LinkId) (h : Nat) : s.SameLinks (s.teardownDrop l h) :=
  (s.removeHolder_links h _).trans (State.countPart_links _ _)

/-- Entries of the unacknowledged list dropped one after another, oldest first, each with a drop counted. -/
theorem State.unlistAll_moves (l : LinkId) (hs : List Nat) (s : State) (h : (s.port l).tx.unacked = hs) :
    Moves s ((hs.foldl (fun t h => t.teardownDrop l h) s).modTx l fun t => { t with unacked := [] }) := by
  induction hs generalizing s with
  | nil =>
    refine .same (s.core_modPort l _ ?_)
    simp [LinkPort.core, h]
  | cons a hs ih =>
    have first : Moves s ((s.teardownDrop l a).modPort l LinkPort.unlisted) :=
      (Move.unlist h).moves.trans (Moves.same (by rw [State.teardownDrop, ← State.modPort_countPart, State.core_countPart]))
    have rest := ih ((s.teardownDrop l a).modPort l LinkPort.unlisted)
      (by simp [LinkPort.unlisted, (s.teardownDrop_links l a).tx, h])
    rw [State.modPort_foldl l _ _ fun t a => t.modPort_teardownDrop l l a LinkPort.unlisted_blind] at rest
    simp only [State.modTx, State.modPort_modPort] at rest
    exact first.trans rest

/-- A transmit queue emptied, head first, each with a drop counted. -/
theorem State.dropAll_moves (q : QueueId) (hs : List Nat) (s : State) (h : (s.queue q).entries = hs) :
    Moves s (hs.foldl (fun t h => (t.dropHead q h).countPart .teardownDrop) s) := by
  induction hs generalizing s with
  | nil => exact .refl
  | cons a hs ih =>
    refine ((Move.dropHead h).moves.trans (Moves.same (State.core_countPart _ .teardownDrop))).trans (ih _ ?_)
    have e := s.queue_dropHead q q a
    simp only [if_true] at e
    simp only [State.queue, State.countPart_queues] at *
    rw [e, h]
    rfl

theorem State.clearTxQueue_moves (s : State) (l : LinkId) (c : Cls) : Moves s (s.clearTxQueue l c) :=
  State.dropAll_moves _ _ s rfl

theorem State.queue_dropAll (q r : QueueId) (hs : List Nat) (s : State) (h : (s.queue q).entries = hs) :
    ((hs.foldl (fun t h => (t.dropHead q h).countPart .teardownDrop) s).queue r).entries =
      if r = q then [] else (s.queue r).entries := by
  induction hs generalizing s with
  | nil => split <;> simp_all
  | cons a hs ih =>
    have e : ∀ k, ((s.dropHead q a).countPart .teardownDrop).queue k = (s.dropHead q a).queue k := fun k => by
      simp [State.queue]
    rw [List.foldl_cons, ih]
    · rw [e, s.queue_dropHead]
      split <;> rfl
    · rw [e, s.queue_dropHead, if_pos rfl, h]; rfl

/-- Steps 1 to 5 of a teardown. -/
def State.cleared (s : State) (l : LinkId) : State :=
  ((((s.clearFilling l).clearSending l).clearUnacked l).clearTxQueue l .control).clearTxQueue l .data

section
variable {l : LinkId} {target : LinkState} {s t : State}

theorem State.VeilEq.clearFilling (h : State.VeilEq l target s t) (e : (s.port l).rx.frame = (t.port l).rx.frame) :
    State.VeilEq l target (s.clearFilling l) (t.clearFilling l) := by
  unfold State.clearFilling
  rw [e]
  cases (t.port l).rx.frame with
  | none => exact h
  | some f => exact h.map (·.freeRecord f.handle) fun u => u.modPort_freeRecord l _ (LinkPort.veiled_blind _)

theorem State.VeilEq.clearSending (h : State.VeilEq l target s t) (e : (s.port l).tx.line = (t.port l).tx.line) :
    State.VeilEq l target (s.clearSending l) (t.clearSending l) := by
  unfold State.clearSending
  rw [e]
  cases (t.port l).tx.line with
  | none => exact h
  | control b => exact h
  | frame f =>
    dsimp only
    split
    · exact h
    · exact h.map (·.teardownDrop l f.handle) fun u => u.modPort_teardownDrop l l _ (LinkPort.veiled_blind _)

theorem State.VeilEq.clearUnacked (h : State.VeilEq l target s t) (e : (s.port l).tx.unacked = (t.port l).tx.unacked) :
    State.VeilEq l target (s.clearUnacked l) (t.clearUnacked l) := by
  unfold State.clearUnacked
  rw [e]
  have fold := h.map (fun u => (t.port l).tx.unacked.foldl (fun t h => t.teardownDrop l h) u) fun u =>
    State.modPort_foldl l _ _ (fun t a => t.modPort_teardownDrop l l a (LinkPort.veiled_blind _)) _ u
  let g : LinkPort → LinkPort := fun p => { p with tx := { p.tx with unacked := [] } }
  exact ((fold.modPort (g := g) fun _ => rfl).symm.modPort (g := g) fun _ => rfl).symm

theorem State.VeilEq.clearTxQueue (h : State.VeilEq l target s t) (c : Cls) :
    State.VeilEq l target (s.clearTxQueue l c) (t.clearTxQueue l c) := by
  have e : s.queue (.tx l c) = t.queue (.tx l c) := by
    simpa using congrArg (fun u => State.queue u (.tx l c)) h
  unfold State.clearTxQueue
  rw [e]
  exact h.map (fun u => (t.queue (.tx l c)).entries.foldl (fun t h => (t.dropHead (.tx l c) h).countPart .teardownDrop) u)
    fun u => State.modPort_foldl l _ _
      (fun t a => by rw [t.modPort_dropHead l _ a (LinkPort.veiled_blind _), State.modPort_countPart]) _ u

theorem State.VeilEq.clearSession (h : State.VeilEq l target s t) (hs : (s.port l).state = target) :
    s.clearSession l = (t.clearSession l).modPort l fun p => { p with state := target } := by
  rw [← State.clearSession_veiled, ← h, State.clearSession_veiled, ← hs]
  cases l <;> rfl
end

theorem State.clearFilling_links (s : State) (l : LinkId) : s.SameLinks (s.clearFilling l) := by
  unfold State.clearFilling
  split
  · exact s.freeRecord_links _
  · exact .refl s

theorem State.clearSending_links (s : State) (l : LinkId) : s.SameLinks (s.clearSending l) := by
  unfold State.clearSending
  split
  · split
    · exact .refl s
    · exact s.teardownDrop_links l _
  · exact .refl s
  · exact .refl s

theorem State.foldl_links {α : Type} (f : State → α → State) (hf : ∀ (t : State) (a : α), t.SameLinks (f t a)) (xs : List α)
    (s : State) : s.SameLinks (xs.foldl f s) := by
  induction xs generalizing s with
  | nil => exact .refl s
  | cons a xs ih => exact (hf s a).trans (ih _)

theorem State.clearTxQueue_links (s : State) (l : LinkId) (c : Cls) : s.SameLinks (s.clearTxQueue l c) :=
  State.foldl_links _ (fun t h => (t.dropHead_links _ h).trans (State.countPart_links _ _)) _ s

theorem State.queue_clearTxQueue (s : State) (l : LinkId) (c : Cls) (q : QueueId) :
    ((s.clearTxQueue l c).queue q).entries = if q = .tx l c then [] else (s.queue q).entries :=
  State.queue_dropAll _ q _ s rfl

theorem State.clearUnacked_port (s : State) (l : LinkId) :
    ((s.clearUnacked l).port l).rx = (s.port l).rx ∧ ((s.clearUnacked l).port l).state = (s.port l).state ∧
      ((s.clearUnacked l).port l).tx = { (s.port l).tx with unacked := [] } := by
  have links := State.foldl_links _ (fun t h => t.teardownDrop_links l h) (s.port l).tx.unacked s
  simp [State.clearUnacked, links.tx, links.rx, links.state]

/-- The same steps in the order of the moves: each thing on the link's side goes together with what named it. -/
def State.unburdened (s : State) (l : LinkId) : State :=
  ((((((s.clearFilling l).modPort l LinkPort.unframed).clearSending l).modPort l (LinkPort.onLine .none)).clearUnacked l).clearTxQueue l
    .control).clearTxQueue l .data

theorem State.unburdened_moves (s : State) (l : LinkId) : Moves s (s.unburdened l) :=
  ((((s.clearFilling_moves l).trans (State.clearSending_moves _ l)).trans (State.unlistAll_moves l _ _ rfl)).trans
    (State.clearTxQueue_moves _ l .control)).trans (State.clearTxQueue_moves _ l .data)

/-- Nothing is left on the link's side. -/
theorem State.unburdened_clear (s : State) (l : LinkId) :
    (∀ c, ((s.unburdened l).queue (.tx l c)).entries = []) ∧ ((s.unburdened l).port l).tx.unacked = [] ∧
      ((s.unburdened l).port l).rx.frame = none ∧ ((s.unburdened l).port l).tx.line = .none ∧
      ((s.unburdened l).port l).state = (s.port l).state := by
  refine ⟨fun c => ?_, ?_⟩
  · cases c <;> simp [State.unburdened, State.queue_clearTxQueue]
  · have links : State.SameLinks _ (s.unburdened l) :=
      (State.clearTxQueue_links _ l .control).trans (State.clearTxQueue_links _ l .data)
    obtain ⟨rx', st', tx'⟩ := State.clearUnacked_port
      ((((s.clearFilling l).modPort l LinkPort.unframed).clearSending l).modPort l (LinkPort.onLine .none)) l
    have links2 := State.clearSending_links ((s.clearFilling l).modPort l LinkPort.unframed) l
    rw [links.tx, links.rx, links.state, rx', st', tx']
    simp [LinkPort.onLine, links2.rx, links2.state, LinkPort.unframed, (s.clearFilling_links l).state]

/-- What a teardown clears and what the moves clear differ at most in what the end of the session sets anew. -/
theorem State.cleared_veilEq (s : State) (l : LinkId) (target : LinkState) :
    State.VeilEq l target (State.cleared (s.modPort l fun p => { p with state := target }) l) (s.unburdened l) := by
  let s0 := s.modPort l fun p => { p with state := target }
  have v0 : State.VeilEq l target s0 s :=
    State.VeilEq.symm (State.VeilEq.modPort (s := s) rfl fun _ => rfl)
  have p0 : (s0.port l).rx = (s.port l).rx ∧ (s0.port l).tx = (s.port l).tx := by simp [s0]
  have v1 := (v0.clearFilling (by rw [p0.1])).modPort (g := LinkPort.unframed) fun _ => rfl
  have t1 : ((s0.clearFilling l).port l).tx = ((s.clearFilling l).port l).tx := by
    rw [(s0.clearFilling_links l).tx, (s.clearFilling_links l).tx, p0.2]
  have v2 := (v1.clearSending (by simp [t1, LinkPort.unframed])).modPort (g := LinkPort.onLine .none) fun _ => rfl
  have v3 := v2.clearUnacked (by
    simp [(State.clearSending_links _ l).tx, t1, LinkPort.unframed, LinkPort.onLine])
  exact (v3.clearTxQueue .control).clearTxQueue .data

theorem State.cleared_state (s : State) (l : LinkId) : ((s.cleared l).port l).state = (s.port l).state := by
  have links : State.SameLinks _ (s.cleared l) := (State.clearTxQueue_links _ l .control).trans (State.clearTxQueue_links _ l .data)
  rw [links.state, (State.clearUnacked_port _ l).2.1, (State.clearSending_links _ l).state, (s.clearFilling_links l).state]

/-- A teardown on the way to DISABLED, or to FAULT from another state than DISABLED. -/
theorem State.teardown_moves (s : State) (l : LinkId) (target : LinkState) (live : target.live = false)
    (from_ : target = .disabled ∨ (s.port l).state ≠ .disabled) : Moves s (s.teardown l target) := by
  obtain ⟨queues, unacked, frame, line, state⟩ := s.unburdened_clear l
  have side : Moves (s.unburdened l)
      ((State.cleared (s.modPort l fun p => { p with state := target }) l).clearSession l) := by
    rw [(s.cleared_veilEq l target).clearSession (by simp [State.cleared_state])]
    refine (Move.quiet (target := target) queues unacked frame (by rw [line]; rfl) live (by rwa [state])).moves.trans (Moves.same ?_)
    rw [State.clearSession, State.modPort_modPort]
    have e : ∀ g g' : LinkPort → LinkPort, (g ((s.unburdened l).port l)).core = (g' ((s.unburdened l).port l)).core →
        ((s.unburdened l).modPort l g).core = ((s.unburdened l).modPort l g').core := by
      intro g g' h
      cases l
      · exact congrArg (fun p => { (s.unburdened .a).core with portA := p }) h
      · exact congrArg (fun p => { (s.unburdened .b).core with portB := p }) h
    refine e _ _ ?_
    simp [LinkPort.core, LinkPort.quieted, unacked, frame, line, Receiver.reset, Transmitter.reset, LineBlock.core]
  have done := (s.unburdened_moves l).trans side
  unfold State.teardown
  dsimp only
  split
  · exact done.trans (Moves.same (by rw [State.core_raise, State.core_countLink]; rfl))
  · exact done

/-- An entry to FAULT from another state than DISABLED. -/
theorem State.enterFault_moves (s : State) (l : LinkId) (reason : FaultReason) (h : (s.port l).state ≠ .disabled) :
    Moves s (s.enterFault l reason) := by
  refine ((Moves.same (s.core_modPort l _ rfl)).trans
    (State.teardown_moves _ l .fault rfl (.inr ?_))).trans (Moves.same (State.core_modPort _ l _ rfl))
  simpa using h

end Sys2Proof.Machine
end

