-- ==== Sys2Proof/Proofs/ReceiverMoves.lean ====
section
/-! SUPPORT. The choices of the arbiters, what arrives, what ends and what expires, as moves. -/

namespace Sys2Proof.Machine

/-! ## The arbiters -/

/-- The head that an arbiter may send. -/
theorem State.eligibleHead_some {s : State} {l : LinkId} {c : Cls} {h : Nat} (e : s.eligibleHead l c = some h) :
    ∃ rest r, (s.queue (.tx l c)).entries = h :: rest ∧ s.record h = some r ∧ (s.port l).windowOpen = true ∧
      r.cells.length ≤ ((s.port l).credit c).available := by
  unfold State.eligibleHead at e
  split at e
  · cases e
  · rename_i g rest hq
    split at e
    · rename_i r hr
      split at e
      · rename_i ok
        cases e
        exact ⟨rest, r, hq, hr, ok.1, ok.2⟩
      · cases e
    · cases e

/-- The candidate of an arbiter is the head of a queue only where that head may be sent. -/
theorem State.candidate_head {s : State} {l : LinkId} {keep : Bool} {c : Cls} {h : Nat}
    (e : s.candidate l keep = some (.head c h)) : s.eligibleHead l c = some h := by
  unfold State.candidate at e
  dsimp only at e
  split at e; · cases e
  split at e; · cases e
  split at e; · cases e
  split at e; · cases e
  split at e; · cases e
  split at e
  · rename_i hh; cases e; exact hh
  · split at e
    · rename_i hh; cases e; exact hh
    · split at e <;> cases e

theorem State.lineFree_iff (s : State) (l : LinkId) :
    s.lineFree l = true ↔ (s.port l).state = .active ∧ (s.port l).tx.line = .none := by
  simp [State.lineFree, State.isActive]

theorem State.isActive_iff (s : State) (l : LinkId) : s.isActive l = true ↔ (s.port l).state = .active := by
  simp [State.isActive]

theorem State.beginNak_core (s : State) (l : LinkId) (h : (s.port l).tx.line = .none) : (s.beginNak l).core = s.core := by
  unfold State.beginNak
  rw [State.core_control _ _ _ (by simp [h, LineBlock.core]), State.core_countLink]
  exact s.core_modPort l _ rfl

theorem State.beginAck_core (s : State) (l : LinkId) (h : (s.port l).tx.line = .none) : (s.beginAck l).core = s.core := by
  unfold State.beginAck
  rw [State.core_control _ _ _ (by simp [h, LineBlock.core])]
  exact s.core_modPort l _ rfl

theorem State.beginGrant_moves (s : State) (l : LinkId) (c : Cls) (h : s.lineFree l = true) : Moves s (s.beginGrant l c) := by
  obtain ⟨active, line⟩ := (s.lineFree_iff l).1 h
  refine (Move.decideGrant (c := c) ((s.isActive_iff l).2 active)).moves.same_after ?_
  have e := State.core_noteGrants (s.decideGrant l c) s
  have free : (((s.decideGrant l c).noteGrants s).port l).tx.line.core = .none := by
    have p := congrArg (fun q : LinkPort => q.tx.line) (State.core_port e l)
    simp only [LinkPort.core] at p
    rw [p]
    simp [State.decideGrant, line, LineBlock.core]
  unfold State.beginGrant
  rw [State.core_control _ _ _ free, e]

theorem State.beginResend_moves (s : State) (l : LinkId) (h : Nat) (free : s.lineFree l = true) : Moves s (s.beginResend l h) := by
  obtain ⟨active, line⟩ := (s.lineFree_iff l).1 free
  unfold State.beginResend
  split
  · exact .refl
  · rename_i r hr
    refine (Move.line (b := .frame (txFrame h r ((r.holder l).seq.getD 0) true)) (by rw [line]; rfl) rfl
      fun _ => (s.isActive_iff l).2 active).moves.same_after ?_
    cases l <;> rfl

theorem State.poisonDrop_moves (s : State) (l : LinkId) (c : Cls) (h : Nat) (e : s.eligibleHead l c = some h) :
    Moves s (s.poisonDrop l c h) := by
  obtain ⟨rest, r, hq, -⟩ := State.eligibleHead_some e
  exact (Move.dropHead hq).moves.same_after (by simp [State.poisonDrop])

theorem State.arbitrate_moves (fuel : Nat) (l : LinkId) (keep : Bool) (s : State) :
    Moves s (State.arbitrate fuel l keep s) := by
  induction fuel generalizing s with
  | zero => exact .refl
  | succ fuel ih =>
    unfold State.arbitrate
    split
    · rename_i free
      obtain ⟨active, line⟩ := (s.lineFree_iff l).1 free
      split
      · exact .same (s.beginNak_core l line)
      · exact .same (s.beginAck_core l line)
      · exact s.beginGrant_moves l _ free
      · split
        · exact (s.enterFault_moves l _ (by simp [active])).same_after (State.core_noteGrants _ _)
        · exact s.beginResend_moves l _ free
      · rename_i c h cand
        have head := State.candidate_head cand
        split
        · exact (s.poisonDrop_moves l c h head).trans (ih _)
        · obtain ⟨rest, r, hq, hr, -⟩ := State.eligibleHead_some head
          exact (Move.beginFirst ((s.isActive_iff l).2 active) line hq hr).moves
      · exact .same (s.core_control l _ (by rw [line]; rfl))
      · exact .same (s.core_modPort l _ rfl)
    · exact .refl

theorem State.choose_moves (s : State) (l : LinkId) (keep : Bool) : Moves s (s.choose l keep) :=
  State.arbitrate_moves _ l keep s

theorem State.chooseBoth_moves (s : State) (first : LinkId) : Moves s (s.chooseBoth first) :=
  (((s.choose_moves first _).trans (State.choose_moves _ _ _)).trans (State.choose_moves _ _ _)).trans (State.choose_moves _ _ _)

theorem State.arbiters_moves (s : State) : Moves s s.arbiters := by
  unfold State.arbiters
  split
  · exact Moves.trans (t := { s with choices := s.choices + 1 }) (.same rfl) (State.chooseBoth_moves _ _)
  · exact s.chooseBoth_moves _

theorem State.settle_moves (s b : State) : Moves s (s.settle b) :=
  ((Moves.same (s.core_noteGrants b)).trans (State.arbiters_moves _)).same_after (State.core_refreshStalls _)

theorem Moves.settle {s t : State} (h : Moves s t) (b : State) : Moves s (t.settle b) :=
  h.trans (t.settle_moves b)

/-! ## The receiver -/

theorem State.giveBack_moves (s : State) (l : LinkId) (f : RxFrame) (h : (s.port l).rx.frame = some f) : Moves s (s.giveBack l f) :=
  (Move.giveBack h).moves

theorem State.failFrame_moves (s : State) (l : LinkId) (f : RxFrame) (h : (s.port l).rx.frame = some f) : Moves s (s.failFrame l f) :=
  (s.giveBack_moves l f h).same_after (by simp [State.failFrame])

theorem State.port_giveBack (s : State) (l : LinkId) (f : RxFrame) :
    ((s.giveBack l f).port l).state = (s.port l).state ∧ ((s.giveBack l f).port l).rx = { (s.port l).rx with frame := none } ∧
      ((s.giveBack l f).port l).tx = (s.port l).tx := by
  simp [State.giveBack, State.unconsume, (s.freeRecord_links f.handle).state,
    (s.freeRecord_links f.handle).rx, (s.freeRecord_links f.handle).tx]

theorem State.port_startNak (s : State) (l : LinkId) :
    ((s.startNak l).port l).state = (s.port l).state ∧ ((s.startNak l).port l).rx.frame = (s.port l).rx.frame ∧
      ((s.startNak l).port l).tx = (s.port l).tx := by
  unfold State.startNak
  rw [State.port_modPort]
  split <;> exact ⟨rfl, rfl, rfl⟩

theorem State.port_failFrame (s : State) (l : LinkId) (f : RxFrame) :
    ((s.failFrame l f).port l).state = (s.port l).state ∧ ((s.failFrame l f).port l).rx.frame = none := by
  obtain ⟨st, rx, -⟩ := s.port_giveBack l f
  obtain ⟨st', rx', -⟩ := ((s.giveBack l f).countLink l .checkErrors).port_startNak l
  exact ⟨by rw [State.failFrame, st']; simp [st], by rw [State.failFrame, rx']; simp [rx]⟩

theorem State.marker_moves (s : State) (l : LinkId) : Moves s (s.marker l) := by
  have pass : ∀ t : State, (t.modRx l fun r => { r with passing := .no }).core = t.core := fun t => t.core_modPort l _ rfl
  unfold State.marker
  split
  · rename_i f hf; exact (s.failFrame_moves l f hf).same_after (pass _)
  · exact .same (pass s)

theorem State.port_marker (s : State) (l : LinkId) :
    ((s.marker l).port l).state = (s.port l).state ∧ ((s.marker l).port l).rx.frame = none := by
  unfold State.marker
  rw [State.port_modRx]
  split
  · rename_i f _; exact s.port_failFrame l f
  · rename_i h; exact ⟨rfl, h⟩

theorem State.core_countValid (s : State) (l : LinkId) : (s.countValid l).core = s.core := s.core_modPort l _ rfl

theorem State.core_passOver (s : State) (l : LinkId) : (s.passOver l).core = s.core := s.core_modPort l _ rfl

theorem State.core_passTrailer (s : State) (l : LinkId) : (s.passTrailer l).core = s.core := s.core_modPort l _ rfl

/-- A receiver at a place where a block begins has no frame in progress; what counts the block changes no link state and no frame. -/
theorem State.activeBlock_core (s : State) (l : LinkId) :
    (s.activeBlock l).core = s.core ∧ ((s.activeBlock l).port l).state = (s.port l).state ∧
      ((s.activeBlock l).port l).rx.frame = (s.port l).rx.frame := by
  unfold State.activeBlock State.countValid State.realigned
  rw [State.modPort_modPort]
  dsimp only
  split
  · rw [State.modPort_modPort]
    exact ⟨s.core_modPort l _ rfl, by simp, by simp⟩
  · exact ⟨s.core_modPort l _ rfl, by simp, by simp⟩

theorem State.enterGreet_moves (s : State) (l : LinkId) (st : (s.port l).state = .hunt) (fr : (s.port l).rx.frame = none) :
    Moves s (s.enterGreet l) := by
  refine (Move.greet st fr).moves.same_after ?_
  unfold State.enterGreet
  rw [State.core_hailNow]
  cases l <;> rfl

theorem State.huntBlock_moves (s : State) (l : LinkId) (st : (s.port l).state = .hunt) (fr : (s.port l).rx.frame = none) :
    Moves s (s.huntBlock l) := by
  have count : Moves s (s.countValid l) := .same (s.core_countValid l)
  unfold State.huntBlock
  dsimp only
  split
  · exact count.trans (State.enterGreet_moves _ l (by simpa [State.countValid] using st) (by simpa [State.countValid] using fr))
  · exact count

theorem State.dueAtEntry_core (s : State) (l : LinkId) (c : Cls) : (s.dueAtEntry l c).core = s.core := by
  unfold State.dueAtEntry
  split
  · exact s.core_modCredit l c _ rfl
  · rfl

theorem State.enterActive_moves (s : State) (l : LinkId) (st : (s.port l).state = .greet) :
    Moves s (s.enterActive l) := by
  refine (Move.active st).moves.same_after ?_
  simp only [State.enterActive, State.core_raise, State.dueAtEntry_core]
  cases l <;> rfl

theorem State.port_dueAtEntry (s : State) (l : LinkId) (c : Cls) :
    ((s.dueAtEntry l c).port l).state = (s.port l).state ∧ ((s.dueAtEntry l c).port l).rx = (s.port l).rx := by
  unfold State.dueAtEntry State.makeDue
  split <;> simp

theorem State.port_enterActive (s : State) (l : LinkId) :
    ((s.enterActive l).port l).state = .active ∧ ((s.enterActive l).port l).rx = (s.port l).rx := by
  have raised : ∀ t : State, (t.raise (.linkUp l)).port l = t.port l := fun t => by cases l <;> rfl
  unfold State.enterActive
  dsimp only
  rw [raised]
  simp [State.port_dueAtEntry]

theorem State.judgeHeader_moves (s t : State) (l : LinkId) (header : BitVec 128) (st : (s.port l).state = .active)
    (fr : (s.port l).rx.frame = none) (h : s.judgeHeader l header = .ok t) : Moves s t := by
  unfold State.judgeHeader at h
  dsimp only at h
  split at h
  · split at h
    · cases h; exact s.enterFault_moves l _ (by simp [st])
    · rename_i bad
      split at h
      · cases h; exact s.enterFault_moves l _ (by simp [st])
      · rename_i credit
        split at h
        · cases h
        · rename_i room
          cases h
          have len : 0 < headerLength header := Nat.pos_of_ne_zero fun z => bad (.inl z)
          exact (Move.takeIn ((s.isActive_iff l).2 st) fr len (Nat.le_of_not_lt credit) (Nat.le_of_not_lt room)).moves
  · split at h
    · cases h
      refine .same ?_
      unfold State.behind
      rw [State.core_passOver, State.core_countLink]
      exact s.core_modPort l _ rfl
    · cases h
      refine .same ?_
      unfold State.ahead
      rw [State.core_passOver, State.core_startNak, State.core_countLink]

theorem State.enterRealigning_core (s : State) (l : LinkId) : (s.enterRealigning l).core = s.core := by
  unfold State.enterRealigning
  rw [State.core_startNak]
  exact s.core_modPort l _ rfl

theorem State.noMarker_moves (s : State) (l : LinkId) : Moves s (s.noMarker l) := by
  unfold State.noMarker
  split
  · exact .refl
  · have count : Moves s (s.modPort l fun p => { p with validRun := 0, invalidRun := p.invalidRun + 1 }) :=
      .same (s.core_modPort l _ rfl)
    dsimp only
    split
    · exact (count.same_after (State.enterRealigning_core _ l)).settle s
    · exact count.settle s

theorem State.checkedOut_moves (s : State) (l : LinkId) (kind : BlockKind) : Moves s (s.checkedOut l kind) := by
  have runs : Moves s ((s.marker l).modPort l fun p => { p with validRun := 0, invalidRun := 0 }) :=
    (s.marker_moves l).same_after (State.core_modPort _ l _ rfl)
  have pass : ∀ t : State, (t.modRx l fun r => { r with passing := .toMarker }).core = t.core := fun t => t.core_modPort l _ rfl
  unfold State.checkedOut
  split
  · cases kind with
    | control =>
      dsimp only
      split
      · exact runs.same_after (State.core_countLink _ l _)
      · exact runs
    | frame =>
      dsimp only
      split
      · exact runs.same_after (by rw [pass, State.core_startNak, State.core_countLink])
      · exact runs.same_after (pass _)
  · exact .refl

/-- A block in HUNT: its marker, and its count. -/
theorem State.marker_huntBlock_moves (s : State) (l : LinkId) (st : (s.port l).state = .hunt) :
    Moves s ((s.marker l).huntBlock l) :=
  (s.marker_moves l).trans (State.huntBlock_moves _ l ((s.port_marker l).1.trans st) (s.port_marker l).2)

/-- A block in GREET: its marker, and its count; the link is still in GREET, with no frame in progress. -/
theorem State.marker_countValid_moves (s : State) (l : LinkId) :
    Moves s ((s.marker l).countValid l) ∧ (((s.marker l).countValid l).port l).state = (s.port l).state ∧
      (((s.marker l).countValid l).port l).rx.frame = none := by
  obtain ⟨st, fr⟩ := s.port_marker l
  exact ⟨(s.marker_moves l).same_after (State.core_countValid _ l), by simpa [State.countValid] using st,
    by simpa [State.countValid] using fr⟩

/-- A block in ACTIVE: its marker, and its count. -/
theorem State.marker_activeBlock_moves (s : State) (l : LinkId) :
    Moves s ((s.marker l).activeBlock l) ∧ (((s.marker l).activeBlock l).port l).state = (s.port l).state ∧
      (((s.marker l).activeBlock l).port l).rx.frame = none := by
  obtain ⟨st, fr⟩ := s.port_marker l
  obtain ⟨core, st', fr'⟩ := (s.marker l).activeBlock_core l
  exact ⟨(s.marker_moves l).same_after core, st'.trans st, fr'.trans fr⟩

/-- A valid control block, whose handling in ACTIVE is made of moves. -/
theorem State.validControl_moves (s : State) (l : LinkId) (act : State → State)
    (hact : ∀ t : State, (t.port l).state = .active → Moves t (act t)) : Moves s (s.validControl l act) := by
  unfold State.validControl
  split
  · exact .refl
  · exact .refl
  · rename_i st; exact s.marker_huntBlock_moves l st
  · rename_i st
    obtain ⟨m, st', -⟩ := s.marker_countValid_moves l
    dsimp only
    split
    · exact (m.trans (State.enterActive_moves _ l (st'.trans st))).trans (hact _ (State.port_enterActive _ l).1)
    · exact m
  · rename_i st
    obtain ⟨m, st', -⟩ := s.marker_activeBlock_moves l
    exact m.trans (hact _ (st'.trans st))

theorem State.greetHail_moves (s : State) (l : LinkId) (sender : Byte) (seen : Bool) (st : (s.port l).state = .greet) :
    Moves s (s.greetHail l sender seen) := by
  have hail : ∀ t : State, ((t.hailNow l).port l).state = (t.port l).state := fun t => by
    unfold State.hailNow State.beginHail
    split <;> simp
  have finish : ∀ t : State, (t.port l).state = .greet →
      Moves t (if seen = true ∧ (t.port l).yesSent = true then t.enterActive l else t) := fun t ht => by
    split
    · exact t.enterActive_moves l ht
    · exact .refl
  unfold State.greetHail
  by_cases known : (s.port l).hailReceived = true
  · simpa only [known, if_true] using finish s st
  · simp only [known]
    refine Moves.trans (.same ?_) (finish _ ?_)
    · simp only [Bool.false_eq_true, if_false, State.core_hailNow]
      exact s.core_modPort l _ rfl
    · simpa [hail] using st

theorem State.takeHail_moves (s : State) (l : LinkId) (sender revision : Byte) (seen : Bool) :
    Moves s (s.takeHail l sender revision seen) := by
  unfold State.takeHail
  split
  · exact .refl
  · exact .refl
  · rename_i st; exact s.marker_huntBlock_moves l st
  · rename_i st
    obtain ⟨m, st', -⟩ := s.marker_countValid_moves l
    have greet := st'.trans st
    have fault := fun reason => m.trans (State.enterFault_moves _ l reason (by simp [greet]))
    dsimp only
    split
    · exact fault _
    · split
      · exact fault _
      · split
        · exact fault _
        · split
          · exact fault _
          · exact m.trans (State.greetHail_moves _ l sender seen greet)
  · rename_i st
    obtain ⟨m, st', -⟩ := s.marker_activeBlock_moves l
    dsimp only
    split
    · exact m
    · exact m.trans (State.enterFault_moves _ l _ (by simp [st', st]))

theorem State.validFrame_moves (s t : State) (l : LinkId) (header : BitVec 128) (h : s.validFrame l header = .ok t) :
    Moves s t := by
  unfold State.validFrame at h
  split at h
  · cases h; exact .refl
  · cases h; exact .refl
  · rename_i st
    cases h
    exact (s.marker_huntBlock_moves l st).same_after (State.core_passOver _ l)
  · rename_i st
    obtain ⟨m, st', fr⟩ := s.marker_countValid_moves l
    dsimp only at h
    split at h
    · obtain ⟨active, rx⟩ := State.port_enterActive ((s.marker l).countValid l) l
      exact (m.trans (State.enterActive_moves _ l (st'.trans st))).trans
        (State.judgeHeader_moves _ t l header active (by rw [rx, fr]) h)
    · cases h; exact m.same_after (State.core_passOver _ l)
  · rename_i st
    obtain ⟨m, st', fr⟩ := s.marker_activeBlock_moves l
    dsimp only at h
    split at h
    · cases h; exact m.same_after (State.core_passOver _ l)
    · exact m.trans (State.judgeHeader_moves _ t l header (st'.trans st) fr h)

/-! ## Payload and trailer -/

theorem State.payloadByte_core (s : State) (l : LinkId) (f : RxFrame) (b : Byte) (h : (s.port l).rx.frame = some f) :
    (s.payloadByte l f b).core = s.core := by
  have gather : ∀ g : RxFrame, g.core = f.core → (s.modRx l fun r => { r with frame := some g }).core = s.core := fun g hg => by
    refine s.core_modPort l _ ?_
    simp [LinkPort.core, h, hg]
  unfold State.payloadByte
  dsimp only
  split
  · split
    · rw [State.core_writeWord]; exact gather _ rfl
    · exact gather _ rfl
  · exact gather _ rfl

theorem State.takeByte_moves (s : State) (l : LinkId) (b : Byte) : Moves s (s.takeByte l b) := by
  unfold State.takeByte
  split
  · rename_i f hf
    split
    · exact .same (s.payloadByte_core l f b hf)
    · exact (s.failFrame_moves l f hf).same_after (State.core_passOver _ l)
  · exact .refl

theorem State.foldl_moves {α : Type} (f : State → α → State) (hf : ∀ (t : State) (a : α), Moves t (f t a)) (xs : List α) (s : State) :
    Moves s (xs.foldl f s) := by
  induction xs generalizing s with
  | nil => exact .refl
  | cons a xs ih => exact (hf s a).trans (ih _)

end Sys2Proof.Machine
end

