-- ==== Sys2Proof/Proofs/TransmitterMoves.lean ====
section
/-! SUPPORT. Deliveries, confirmations, replay episodes and the ends of blocks, as moves. -/

namespace Sys2Proof.Machine

/-! ## What the core determines -/

theorem State.core_modPort_congr {s t : State} (l : LinkId) {f g : LinkPort → LinkPort} (h : t.core = s.core)
    (k : (g (t.port l)).core = (f (s.port l)).core) : (t.modPort l g).core = (s.modPort l f).core := by
  cases l
  · have e : (t.modPort .a g).core = { t.core with portA := (g (t.port .a)).core } := rfl
    rw [e, h, k]; rfl
  · have e : (t.modPort .b g).core = { t.core with portB := (g (t.port .b)).core } := rfl
    rw [e, h, k]; rfl

theorem LinkPort.core_unframed (p : LinkPort) : p.unframed.core = p.core.unframed := rfl

theorem State.core_unframed {s t : State} (l : LinkId) (h : t.core = s.core) :
    (t.modPort l LinkPort.unframed).core = (s.modPort l LinkPort.unframed).core :=
  State.core_modPort_congr l h (by rw [LinkPort.core_unframed, LinkPort.core_unframed, State.core_port h l])

theorem Sparse.lookup_map {α β : Type} (f : α → β) (xs : List (Nat × α)) (k : Nat) :
    Sparse.lookup (xs.map fun e => (e.1, f e.2)) k = (Sparse.lookup xs k).map f := by
  induction xs with
  | nil => rfl
  | cons a xs ih =>
    simp only [List.map_cons, Sparse.lookup]
    split
    · rfl
    · exact ih

theorem State.record_core (s : State) (h : Nat) : s.core.record h = (s.record h).map Record.clean :=
  Sparse.lookup_map _ _ _

@[simp] theorem Record.clean_refCount (r : Record) : r.clean.refCount = r.refCount := rfl

theorem State.isHeld_core (s : State) (h : Nat) : s.core.isHeld h = s.isHeld h := by
  unfold State.isHeld
  rw [State.record_core]
  cases s.record h <;> rfl

theorem State.queue_core (s : State) (q : QueueId) : (s.core.queue q).entries = (s.queue q).entries := by
  unfold State.queue
  rcases q with (_ | _) | ⟨_ | _, _ | _⟩ <;> rfl

theorem State.core_setEntries (s : State) (q : QueueId) (es : List Nat) : (s.setEntries q es).core = s.core.setEntries q es := by
  rcases q with (_ | _) | ⟨_ | _, _ | _⟩ <;> rfl

/-- A change of a record that does not touch its poisoned mark. -/
theorem State.core_modRecord (s : State) (h : Nat) (f : Record → Record) (hf : ∀ r : Record, (f r).clean = f r.clean) :
    (s.modRecord h f).core = s.core.modRecord h f := by
  have e : (Sparse.modify s.buf.records h f).map (fun e => (e.1, e.2.clean))
      = Sparse.modify (s.buf.records.map fun e => (e.1, e.2.clean)) h f := by
    simp only [Sparse.modify, List.map_map]
    refine List.map_congr_left fun x _ => ?_
    simp only [Function.comp]
    split
    · simp [hf]
    · rfl
  simp only [State.core, State.modRecord, e]

theorem State.core_append (s : State) (q : QueueId) (h : Nat) : (s.append q h).core = s.core.append q h := by
  rw [State.append, State.core_setEntries, State.append, State.queue_core]

theorem State.core_enterForward (s : State) (l : LinkId) (c : Cls) (h : Nat) :
    (s.enterForward l c h).core = s.core.enterForward l c h := by
  unfold State.enterForward
  rw [State.core_modRecord _ _ _ fun r => by cases l <;> rfl, State.core_append]

theorem State.core_enterHost (s : State) (c : Cls) (h : Nat) : (s.enterHost c h).core = s.core.enterHost c h := by
  unfold State.enterHost
  rw [State.core_modRecord _ h Record.withHostQueued fun r => rfl, State.core_append]

/-! ## Delivery -/

theorem State.modPort_enterHost (s : State) (l : LinkId) (c : Cls) (h : Nat) (g : LinkPort → LinkPort) :
    (s.modPort l g).enterHost c h = (s.enterHost c h).modPort l g := by
  unfold State.enterHost State.append
  rw [State.queue_modPort, State.modPort_setEntries, State.modPort_modRecord]

theorem State.modPort_noteArrival (s : State) (l : LinkId) (c : Cls) (n : Nat) (g : LinkPort → LinkPort) :
    (s.modPort l g).noteArrival c n = (s.noteArrival c n).modPort l g := by
  unfold State.noteArrival
  simp only [State.queue_modPort, State.modPort_queues]
  split
  · cases l <;> rfl
  · rfl

theorem State.modPort_dropOldest (s : State) (l : LinkId) (c : Cls) {g : LinkPort → LinkPort} (hg : LinkPort.CreditBlind g) :
    (s.modPort l g).dropOldest c = (s.dropOldest c).modPort l g := by
  unfold State.dropOldest
  rw [State.queue_modPort]
  split
  · rfl
  · rw [s.modPort_dropHead l _ _ hg, State.modPort_countPart]

theorem State.modPort_admitHost (s : State) (l : LinkId) (c : Cls) (h : Nat) {g : LinkPort → LinkPort} (hg : LinkPort.CreditBlind g) :
    (s.modPort l g).admitHost c h = (s.admitHost c h).modPort l g := by
  unfold State.admitHost
  simp only [State.queue_modPort, State.modPort_queues, s.modPort_dropOldest l c hg, State.modPort_enterHost,
    State.modPort_noteArrival, State.modPort_countPart]
  split
  · split <;> rfl
  · rfl

theorem State.isActive_unframed (s : State) (l m : LinkId) : (s.modPort l LinkPort.unframed).isActive m = s.isActive m := by
  cases l <;> cases m <;> rfl

theorem State.unframed_admitForward (s : State) (l m : LinkId) (c : Cls) (h : Nat) (hops : BitVec 4) :
    (s.modPort l LinkPort.unframed).admitForward m c h hops = (s.admitForward m c h hops).modPort l LinkPort.unframed := by
  unfold State.admitForward State.append
  simp only [State.queue_modPort, State.isActive_unframed, State.modPort_countPart, State.modPort_setEntries, State.modPort_modRecord]
  split
  · rfl
  · split
    · rfl
    · split <;> rfl

theorem State.unframed_deliverParts (s : State) (l : LinkId) (h : Nat) (r : Record) :
    (s.modPort l LinkPort.unframed).deliverParts l h r = (s.deliverParts l h r).modPort l LinkPort.unframed := by
  have act : ∀ d, (s.modPort l LinkPort.unframed).deliveryAction d = s.deliveryAction d := fun d => by
    simp [State.deliveryAction]
  unfold State.deliverParts
  rw [act]
  split
  · exact s.modPort_admitHost l _ _ LinkPort.unframed_blind
  · exact s.unframed_admitForward l _ _ _ _
  · rw [s.modPort_admitHost l _ _ LinkPort.unframed_blind, State.unframed_admitForward]
  · exact s.modPort_countPart l _ _

/-- An operation that leaves the class of a record, where it leaves the record. -/
def State.ClassKept (s t : State) (h : Nat) : Prop :=
  ∀ r, t.record h = some r → ∃ r', s.record h = some r' ∧ r.cls = r'.cls

theorem State.removeHolder_classKept (s : State) (g h : Nat) (clear : Record → Record) (hc : ∀ r, (clear r).cls = r.cls) :
    s.ClassKept (s.removeHolder g clear) h := by
  intro r hr
  rw [State.record_removeHolder] at hr
  split at hr
  · rename_i e
    subst e
    obtain ⟨r', hr', e⟩ := Option.bind_eq_some_iff.1 hr
    split at e
    · cases e
    · cases e; exact ⟨r', hr', hc r'⟩
  · exact ⟨r, hr, rfl⟩

@[simp] theorem State.record_popHead (s : State) (q : QueueId) (g : Nat) : (s.popHead q).record g = s.record g := by
  unfold State.popHead State.stopStall
  split <;> simp [State.record]

@[simp] theorem State.record_entryLeft (s : State) (q : QueueId) (h g : Nat) : (s.entryLeft q h).record g = s.record g := by
  rw [State.entryLeft_spec]; split <;> rfl

@[simp] theorem State.record_countPart (s : State) (c : PartCounter) (g : Nat) : (s.countPart c).record g = s.record g := by
  simp [State.record]

@[simp] theorem State.record_countLink (s : State) (l : LinkId) (c : LinkCounter) (g : Nat) :
    (s.countLink l c).record g = s.record g := by
  simp [State.record]

theorem Record.setHolder_cls (r : Record) (l : LinkId) (v : LinkHolder) : (r.setHolder l v).cls = r.cls := by
  cases l <;> rfl

/-- A record without its holder on a queue's side. -/
def QueueId.clear : QueueId → Record → Record
  | .host _, r => { r with host := .none }
  | .tx l _, r => r.setHolder l .none

/-- A record after the head of a queue is dropped: the removal of the holder on the queue's side. -/
theorem State.record_dropHead (s : State) (q : QueueId) (h g : Nat) :
    (s.dropHead q h).record g =
      if h = g then (s.record h).bind fun r => if (q.clear r).refCount = 0 then none else some (q.clear r) else s.record g := by
  cases q with
  | host c =>
    rw [State.dropHead, State.record_entryLeft, State.removeHostHolder, State.record_removeHolder, State.record_popHead,
      State.record_popHead]
    rfl
  | tx l c =>
    rw [State.dropHead, State.record_entryLeft, State.removeLinkHolder, State.record_removeHolder, State.record_popHead,
      State.record_popHead]
    rfl

theorem State.dropHead_classKept (s : State) (q : QueueId) (g h : Nat) : s.ClassKept (s.dropHead q g) h := by
  intro r hr
  cases q with
  | host c =>
    have := (s.popHead (.host c)).removeHolder_classKept g h (fun r => { r with host := .none }) (fun _ => rfl) r
      (by simpa [State.dropHead, State.removeHostHolder] using hr)
    simpa using this
  | tx l c =>
    have := (s.popHead (.tx l c)).removeHolder_classKept g h (fun r => r.setHolder l .none) (fun r => r.setHolder_cls l _) r
      (by simpa [State.dropHead, State.removeLinkHolder] using hr)
    simpa using this

theorem State.noteArrival_core (s : State) (c : Cls) (n : Nat) : (s.noteArrival c n).core = s.core := by
  unfold State.noteArrival
  dsimp only
  split <;> rfl

theorem State.noteArrival_links (s : State) (c : Cls) (n : Nat) : s.SameLinks (s.noteArrival c n) := by
  unfold State.noteArrival
  dsimp only
  split
  · exact .of_port fun l => by cases l <;> rfl
  · exact .refl s

theorem State.enterHost_links (s : State) (c : Cls) (h : Nat) : s.SameLinks (s.enterHost c h) :=
  (s.setEntries_links _ _).trans (State.modRecord_links _ _ _)

theorem State.enterForward_links (s : State) (l : LinkId) (c : Cls) (h : Nat) : s.SameLinks (s.enterForward l c h) :=
  (s.setEntries_links _ _).trans (State.modRecord_links _ _ _)

/-- A host part, by moves up to its admission: refused, or admitted once a full DROP_OLDEST queue has dropped its head. -/
theorem State.admitHost_parts (s : State) (c : Cls) (h : Nat) :
    s.SameLinks (s.admitHost c h) ∧ ∃ m host, Moves s m ∧ s.SameLinks m ∧ s.ClassKept m h ∧
      (s.admitHost c h).core = (if host then m.enterHost c h else m).core ∧ (host = false → (s.admitHost c h).core = s.core) := by
  have kept : s.ClassKept s h := fun r hr => ⟨r, hr, rfl⟩
  unfold State.admitHost
  dsimp only
  split
  · split
    · exact ⟨s.countPart_links _, s, false, .refl, .refl s, kept, State.core_countPart _ _, fun _ => State.core_countPart _ _⟩
    · have drop : Moves s (s.dropOldest c) ∧ s.SameLinks (s.dropOldest c) ∧ s.ClassKept (s.dropOldest c) h := by
        unfold State.dropOldest
        split
        · exact ⟨.refl, .refl s, kept⟩
        · rename_i g rest hq
          refine ⟨(Move.dropHead hq).moves.same_after (State.core_countPart _ _),
            (s.dropHead_links _ g).trans (State.countPart_links _ _), fun r hr => ?_⟩
          exact s.dropHead_classKept _ g h r (by simpa using hr)
      refine ⟨(drop.2.1.trans (State.enterHost_links _ c h)).trans (State.noteArrival_links _ _ _),
        _, true, drop.1, drop.2.1, drop.2.2, State.noteArrival_core _ _ _, by simp⟩
  · exact ⟨(s.enterHost_links c h).trans (State.noteArrival_links _ _ _), s, true, .refl, .refl s, kept,
      State.noteArrival_core _ _ _, by simp⟩

/-- A forward part: refused, or admitted on a link in ACTIVE. -/
theorem State.admitForward_parts (s : State) (l : LinkId) (c : Cls) (h : Nat) (hops : BitVec 4) :
    s.SameLinks (s.admitForward l c h hops) ∧
      ((s.admitForward l c h hops).core = s.core ∨
        (s.isActive l = true ∧ s.admitForward l c h hops = s.enterForward l c h)) := by
  unfold State.admitForward
  split
  · exact ⟨s.countPart_links _, .inl (State.core_countPart _ _)⟩
  · split
    · exact ⟨s.countPart_links _, .inl (State.core_countPart _ _)⟩
    · rename_i active
      split
      · exact ⟨s.countPart_links _, .inl (State.core_countPart _ _)⟩
      · exact ⟨s.enterForward_links l c h, .inr ⟨by simpa using active, rfl⟩⟩

/-- The parts of a delivery: nothing admitted, or parts admitted after moves that keep what the links hold. -/
theorem State.deliverParts_parts (s : State) (l : LinkId) (h : Nat) (r : Record) :
    s.SameLinks (s.deliverParts l h r) ∧
      ((s.deliverParts l h r).core = s.core ∨
        ∃ m host fwd, Moves s m ∧ s.SameLinks m ∧ s.ClassKept m h ∧ (host = true ∨ fwd = true) ∧
          (fwd = true → m.isActive l.other = true) ∧
          (s.deliverParts l h r).core = (m.enterParts l.other r.cls h host fwd).core) := by
  unfold State.deliverParts
  split
  · obtain ⟨links, m, host, moves, links', cls, core, none⟩ := s.admitHost_parts r.cls h
    refine ⟨links, ?_⟩
    cases host with
    | false => exact .inl (none rfl)
    | true => exact .inr ⟨m, true, false, moves, links', cls, .inl rfl, by simp, core⟩
  · obtain ⟨links, core | ⟨active, e⟩⟩ := s.admitForward_parts l.other r.cls h r.hops
    · exact ⟨links, .inl core⟩
    · exact ⟨links, .inr ⟨s, false, true, .refl, .refl s, fun r hr => ⟨r, hr, rfl⟩, .inr rfl, fun _ => active,
        by rw [e]; rfl⟩⟩
  · obtain ⟨links, m, host, moves, links', cls, core, none⟩ := s.admitHost_parts r.cls h
    obtain ⟨linksF, coreF | ⟨active, e⟩⟩ := (s.admitHost r.cls h).admitForward_parts l.other r.cls h r.hops
    · refine ⟨links.trans linksF, ?_⟩
      cases host with
      | false => exact .inl (coreF.trans (none rfl))
      | true => exact .inr ⟨m, true, false, moves, links', cls, .inl rfl, by simp, coreF.trans core⟩
    · refine ⟨links.trans linksF, .inr ⟨m, host, true, moves, links', cls, .inr rfl, fun _ => ?_, ?_⟩⟩
      · rw [State.isActive_iff] at *
        exact ((links'.state _).trans (links.state _).symm).trans active
      · rw [e, State.core_enterForward, core, ← State.core_enterForward]
        rfl
  · exact ⟨s.countPart_links _, .inl (State.core_countPart _ _)⟩

/-- A record that was admitted anywhere is held, where there is one. -/
theorem State.enterParts_held (s : State) (m : LinkId) (c : Cls) (h : Nat) (host fwd : Bool) (any : host = true ∨ fwd = true) :
    (s.enterParts m c h host fwd).isHeld h = true ∨ (s.enterParts m c h host fwd).record h = none := by
  unfold State.enterParts State.isHeld
  cases hr : s.record h with
  | none => right; cases host <;> cases fwd <;> simp [State.enterHost, State.enterForward, State.append, State.record_modRecord, hr]
  | some r =>
    left
    cases host <;> cases fwd <;>
      simp_all [State.enterHost, State.enterForward, State.append, State.record_modRecord, Record.withHostQueued,
        Record.withLinkQueued] <;> cases m <;> simp [Record.setHolder, Record.refCount]

theorem State.freeRecord_none (s : State) (h : Nat) (e : s.record h = none) : s.freeRecord h = s := by
  simp [State.freeRecord, e]

/-- The end of a delivery: a frame with no holder is freed. -/
theorem State.delivered_moves (s t : State) (l : LinkId) (f : RxFrame) (hf : (s.port l).rx.frame = some f) (r : Record)
    (hr : s.record f.handle = some r) (links : s.SameLinks t)
    (parts : t.core = s.core ∨ ∃ m host fwd, Moves s m ∧ s.SameLinks m ∧ s.ClassKept m f.handle ∧ (host = true ∨ fwd = true) ∧
      (fwd = true → m.isActive l.other = true) ∧ t.core = (m.enterParts l.other r.cls f.handle host fwd).core) :
    Moves s ((if t.isHeld f.handle then t else t.freeRecord f.handle).modPort l LinkPort.unframed) := by
  have frame : ∀ u : State, s.SameLinks u → (u.port l).rx.frame = some f := fun u hu => by rw [hu.rx, hf]
  rcases parts with same | ⟨m, host, fwd, moves, links', cls, any, active, core⟩
  · refine (Moves.same same).trans ?_
    by_cases held : t.isHeld f.handle = true
    · rw [if_pos held]
      cases hr' : t.record f.handle with
      | none => simp [State.isHeld, hr'] at held
      | some r' => exact (Move.keepHeld (frame t links) hr' (by simpa [State.isHeld, hr'] using held)).moves
    · rw [if_neg held]
      exact (Move.unframe (frame t links)).moves
  · have free : (if t.isHeld f.handle then t else t.freeRecord f.handle) = t := by
      split
      · rfl
      · rename_i free
        refine t.freeRecord_none _ ?_
        rw [← State.isHeld_core, core, State.isHeld_core] at free
        have none := (m.enterParts_held l.other r.cls f.handle host fwd any).resolve_left free
        have e := State.record_core t f.handle
        rw [core, State.record_core, none] at e
        simpa using e.symm
    rw [free]
    refine (moves.trans (Move.accept (frame m links') (fun r' hr' => ?_) any active).moves).same_after (State.core_unframed l core)
    obtain ⟨r'', hr'', e⟩ := cls r' hr'
    rw [hr] at hr''
    cases hr''
    exact e

theorem State.deliver_moves (s : State) (l : LinkId) (f : RxFrame) (hf : (s.port l).rx.frame = some f) :
    Moves s ((s.modPort l LinkPort.unframed).deliver l f.handle) := by
  unfold State.deliver
  rw [State.record_modPort]
  split
  · rename_i none
    have m := Move.unframe hf
    rw [s.freeRecord_none _ none] at m
    exact m.moves
  · rename_i r hr
    have held : ∀ t : State, (t.modPort l LinkPort.unframed).isHeld f.handle = t.isHeld f.handle := fun t => by
      simp [State.isHeld]
    have finish : ∀ t : State,
        (if (t.modPort l LinkPort.unframed).isHeld f.handle then t.modPort l LinkPort.unframed
          else (t.modPort l LinkPort.unframed).freeRecord f.handle)
        = (if t.isHeld f.handle then t else t.freeRecord f.handle).modPort l LinkPort.unframed := fun t => by
      rw [held, t.modPort_freeRecord l _ LinkPort.unframed_blind]
      split <;> rfl
    dsimp only
    split
    · rw [State.modPort_countPart, finish]
      exact s.delivered_moves _ l f hf r hr (s.countPart_links _) (.inl (State.core_countPart _ _))
    · rw [State.unframed_deliverParts, finish]
      obtain ⟨links, parts⟩ := s.deliverParts_parts l f.handle r
      exact s.delivered_moves _ l f hf r hr links parts

theorem State.acceptFrame_moves (s : State) (l : LinkId) (f : RxFrame) (hf : (s.port l).rx.frame = some f) :
    Moves s (s.acceptFrame l f) := by
  -- the acceptance but for the end of the reception
  let t := (s.modPort l fun p => { p with rx := { p.rx.accept p.cfg with frame := p.rx.frame } }).countLink l .framesIn
  have e : s.acceptFrame l f = (t.modPort l LinkPort.unframed).deliver l f.handle := by
    cases l <;> rfl
  have core : t.core = s.core := (State.core_countLink _ _ _).trans (s.core_modPort l _ rfl)
  rw [e]
  exact (Moves.same core).trans (t.deliver_moves l f (by simp [t, hf]))

theorem State.trailerEnd_moves (s : State) (l : LinkId) (check : BitVec 32) : Moves s (s.trailerEnd l check) := by
  unfold State.trailerEnd
  split
  · rename_i f hf
    split
    · exact s.acceptFrame_moves l f hf
    · exact s.failFrame_moves l f hf
  · exact .same (s.core_passTrailer l)

theorem State.trailerAbort_moves (s : State) (l : LinkId) : Moves s (s.trailerAbort l) := by
  unfold State.trailerAbort
  split
  · rename_i f hf; exact (s.giveBack_moves l f hf).same_after (State.core_countLink _ _ _)
  · exact .same (s.core_passTrailer l)

/-! ## Confirmations and episodes -/

theorem State.dropOldestEntries_moves (l : LinkId) (k : Nat) (s : State) : Moves s (s.dropOldestEntries l k) := by
  induction k generalizing s with
  | zero => exact .same (State.core_modPort _ l _ rfl)
  | succ k ih =>
    unfold State.dropOldestEntries
    cases hu : (s.port l).tx.unacked with
    | nil => exact .same (State.core_modPort _ l _ (by simp [LinkPort.core, hu]))
    | cons h rest =>
      refine (Move.unlist hu).moves.trans ?_
      have next := ih ((s.removeLinkHolder l h).modPort l LinkPort.unlisted)
      unfold State.dropOldestEntries at next
      have entries : (((s.removeLinkHolder l h).modPort l LinkPort.unlisted).port l).tx.unacked = rest := by
        simp [LinkPort.unlisted, State.removeLinkHolder, hu]
      rw [entries, State.modPort_foldl l _ _ fun t a => t.modPort_removeHolder l a _ LinkPort.unlisted_blind] at next
      simp only [State.modTx, State.modPort_modPort, LinkPort.unlisted, List.drop_tail] at next
      exact next

theorem State.dropOldestEntries_state (s : State) (l : LinkId) (k : Nat) :
    ((s.dropOldestEntries l k).port l).state = (s.port l).state := by
  have links := State.foldl_links (fun t h => t.removeLinkHolder l h) (fun t h => t.removeHolder_links h _)
    ((s.port l).tx.unacked.take k) s
  simp [State.dropOldestEntries, links.state]

theorem State.confirm_moves (s : State) (l : LinkId) (k : Nat) (point : Byte) :
    Moves s (s.confirm l k point) ∧ ((s.confirm l k point).port l).state = (s.port l).state := by
  have finish : ∀ t : State, Moves s t → (t.port l).state = (s.port l).state →
      Moves s (State.restartReplay (t.modTx l fun t => { t with replayCount := 0 }) l) ∧
        ((State.restartReplay (t.modTx l fun t => { t with replayCount := 0 }) l).port l).state = (s.port l).state := by
    intro t moves st
    refine ⟨moves.same_after ?_, by simpa [State.restartReplay] using st⟩
    exact (State.core_modPort _ l _ rfl).trans (t.core_modPort l _ rfl)
  unfold State.confirm
  dsimp only
  split
  · exact finish _ (State.dropOldestEntries_moves l k s) (s.dropOldestEntries_state l k)
  · split
    · exact finish _ (State.dropOldestEntries_moves l k s) (s.dropOldestEntries_state l k)
    · rename_i j _
      split
      · exact finish _ ((State.dropOldestEntries_moves l j s).same_after (State.core_modPort _ l _ rfl))
          (by simpa using s.dropOldestEntries_state l j)
      · exact finish _ (State.dropOldestEntries_moves l k s) (s.dropOldestEntries_state l k)

theorem LineBlock.core_overtake (b : LineBlock) : b.overtake.core = b.core := by cases b <;> rfl

theorem State.startEpisode_moves (s : State) (l : LinkId) (point : Byte) (active : (s.port l).state = .active) :
    Moves s (s.startEpisode l point) := by
  have core : ((s.countLink l .replays).modTx l fun t => { t with replayCount := t.replayCount + 1 }).core = s.core :=
    (State.core_modPort _ l _ rfl).trans (State.core_countLink s l .replays)
  have st : (((s.countLink l .replays).modTx l fun t => { t with replayCount := t.replayCount + 1 }).port l).state = .active := by
    simp [active]
  unfold State.startEpisode
  revert core st
  generalize (s.countLink l .replays).modTx l (fun t => { t with replayCount := t.replayCount + 1 }) = t
  intro core st
  dsimp only
  split
  · exact (Moves.same core).trans (t.enterFault_moves l _ (by simp [st]))
  · refine .same ((t.core_modPort l _ ?_).trans core)
    simp [LinkPort.core, LineBlock.core_overtake]

theorem State.takeAck_moves (s : State) (l : LinkId) (n : Byte) : Moves s (s.takeAck l n) := by
  unfold State.takeAck
  split
  · exact (s.confirm_moves l _ n).1.same_after (State.core_testEpisode _ l)
  · exact .same (State.core_countLink _ _ _)

theorem State.takeNak_moves (s : State) (l : LinkId) (n : Byte) (active : (s.port l).state = .active) : Moves s (s.takeNak l n) := by
  unfold State.takeNak
  split
  · rename_i i _
    split
    · exact s.startEpisode_moves l n active
    · obtain ⟨moves, st⟩ := s.confirm_moves l i (n - 1)
      exact moves.trans (State.startEpisode_moves _ l n (st.trans active))
  · split
    · exact s.takeAck_moves l _
    · exact .same (State.core_countLink _ _ _)

theorem State.replayExpired_moves (s : State) (l : LinkId) (active : (s.port l).state = .active) : Moves s (s.replayExpired l) := by
  unfold State.replayExpired
  split
  · exact .refl
  · split
    · exact s.startEpisode_moves l _ active
    · exact .refl

theorem State.takeGrant_moves (s : State) (l : LinkId) (c : Cls) (v : Credit) (active : (s.port l).state = .active) :
    Moves s (s.takeGrant l c v) := by
  rw [State.takeGrant_spec]
  split
  · exact (Move.grantTaken ((s.isActive_iff l).2 active)).moves
  · exact .refl

/-! ## Ends of blocks -/

theorem State.frameOnLine_some {s : State} {l : LinkId} {f : TxFrame} (h : s.frameOnLine l = some f) :
    (s.port l).state = .active ∧ (s.port l).tx.line = .frame f := by
  unfold State.frameOnLine at h
  split at h
  · rename_i active
    split at h
    · rename_i g hg; cases h; exact ⟨(s.isActive_iff l).1 active, hg⟩
    · cases h
    · cases h
  · cases h

theorem TxFrame.core_afterRead (f : TxFrame) (v : Verdict) (w : CellWord) :
    (LineBlock.frame (f.afterRead v w)).core = (LineBlock.frame f).core := by
  cases v <;> rfl

theorem State.readTxWord_core (s : State) (l : LinkId) : (s.readTxWord l).core = s.core := by
  unfold State.readTxWord
  split
  · rename_i f hf
    split
    · dsimp only
      refine (State.core_modPort _ l _ ?_).trans (s.core_noteRead (.tx l) (s.txPosition f))
      have line : ((s.noteRead (.tx l) (s.txPosition f)).port l).tx.line = .frame f := by
        rw [← hf]; cases l <;> simp
      simp only [LinkPort.core, line, TxFrame.core_afterRead]
    · rfl
  · rfl
  · rfl

/-- A resend on the line ends. -/
theorem State.endFrame_moves (s : State) (l : LinkId) (f : TxFrame) (e : FrameEnd) (hf : (s.port l).tx.line = .frame f)
    (resend : f.resend = true) : Moves s (s.endFrame l e) := by
  refine (Move.line (l := l) (b := .none) (by simp [hf, LineBlock.first, resend]) rfl (by simp [LineBlock.isFrame])).moves.same_after ?_
  exact State.core_modPort_congr l rfl rfl

theorem State.firstAbort_moves (s : State) (l : LinkId) (f : TxFrame) (hf : (s.port l).tx.line = .frame f) (first : f.resend = false) :
    Moves s (s.firstAbort l f) := by
  refine (Move.firstGone hf first).moves.same_after ?_
  let g : LinkPort → LinkPort := fun p => { p with tx := { p.tx with line := .none, lastEnd := some .aborted } }
  have hg : LinkPort.CreditBlind g := fun _ c _ => by cases c <;> rfl
  have e : (s.endFrame l .aborted).removeLinkHolder l f.handle = (s.removeLinkHolder l f.handle).modPort l g :=
    s.modPort_removeHolder l f.handle _ hg
  rw [State.firstAbort, State.core_countLink, e]
  exact State.core_modPort_congr l rfl rfl

theorem State.applyHeld_moves (s : State) (l : LinkId) : Moves s (s.applyHeld l) := by
  unfold State.applyHeld
  split
  · exact .refl
  · exact (State.dropOldestEntries_moves l _ s).same_after (State.core_modPort _ l _ rfl)

theorem State.resendEnded_moves (s : State) (l : LinkId) (f : TxFrame) (hf : (s.port l).tx.line = .frame f)
    (resend : f.resend = true) : Moves s (s.resendEnded l f) :=
  ((((s.endFrame_moves l f _ hf resend).same_after (State.core_modPort _ l _ rfl)).trans (State.applyHeld_moves _ l)).same_after
    (State.core_testEpisode _ l))

theorem State.resendAborted_moves (s : State) (l : LinkId) (f : TxFrame) (hf : (s.port l).tx.line = .frame f)
    (resend : f.resend = true) (active : (s.port l).state = .active) : Moves s (s.resendAborted l) :=
  (s.endFrame_moves l f _ hf resend).trans (State.enterFault_moves _ l _ (by simp [State.endFrame, active]))

theorem State.nextHail_core (s : State) (l : LinkId) (h : (s.port l).tx.line = .none) : (s.nextHail l).core = s.core := by
  unfold State.nextHail
  split
  · exact s.core_beginHail l (by rw [h]; rfl)
  · rfl

/-- A control block on the line ends: no law sees it. -/
theorem State.endControl_core (s : State) (l : LinkId) (b : ControlBlock) (h : (s.port l).tx.line = .control b) :
    (s.endBlock l).core = s.core :=
  s.core_endBlock l (by rw [h]; rfl)

theorem State.noteHailSent_core (s : State) (l : LinkId) (seen : Bool) (b : ControlBlock) (h : (s.port l).tx.line = .control b) :
    ((s.noteHailSent l seen).endBlock l).core = s.core :=
  (State.endControl_core _ l b (by simpa [State.noteHailSent] using h)).trans (s.core_modPort l _ rfl)

theorem State.hailSent_core (s : State) (l : LinkId) : (s.hailSent l).core = s.core := by
  unfold State.hailSent
  split
  · rename_i a r seen h
    dsimp only
    split
    · rw [State.nextHail_core _ l (by simp [State.endBlock])]
      exact s.noteHailSent_core l seen _ h
    · exact s.noteHailSent_core l seen _ h
  · rfl

theorem State.controlSent_core (s : State) (l : LinkId) : (s.controlSent l).core = s.core := by
  unfold State.controlSent
  split
  · split
    · rename_i h; exact s.noteHailSent_core l _ _ h
    · rename_i h; exact s.endControl_core l _ h
    · rename_i h; exact s.endControl_core l _ h
    · rename_i h; exact s.endControl_core l _ h
    · rename_i h; exact s.endControl_core l _ h
    · rfl
    · rfl
  · rfl

theorem State.keepSent_core (s : State) (l : LinkId) : (s.keepSent l).core = s.core := by
  unfold State.keepSent
  split
  · rename_i h
    split
    · exact s.core_modPort l _ (by simp [LinkPort.core, h])
    · rw [State.nextHail_core _ l (by simp [State.endBlock])]
      exact s.endControl_core l _ h
    · rfl
    · rfl
    · rfl
  · rfl

end Sys2Proof.Machine
end

