-- ==== Sys2Proof/Proofs/CommandMoves.lean ====
section
/-! SUPPORT. Every command as moves, so that a law which each move keeps is kept by every step. -/

namespace Sys2Proof.Machine

/-! ## Host commands -/

/-- A command, whose body is made of moves where READY is 1. -/
theorem State.takeCommand_moves (s : State) (code : Word) (body : State → State)
    (h : ∀ t : State, t.ready = true → Moves t (body t)) : Moves s (s.takeCommand code body) := by
  unfold State.takeCommand
  split
  · exact .same rfl
  · dsimp only
    split
    · rename_i ready
      exact Moves.trans (t := { s with hcu := { s.hcu with cmd := code } }) (.same rfl) (h _ ready)
    · exact .same rfl

theorem State.unknownCode_core (s : State) (code : Word) : (s.unknownCode code).core = s.core := by
  unfold State.unknownCode
  dsimp only
  split <;> rfl

theorem State.allocBody_moves (s : State) (ready : s.ready = true) : Moves s s.allocBody := by
  unfold State.allocBody
  dsimp only
  split
  · exact .same rfl
  · rename_i c _
    split
    · exact .same rfl
    · rename_i len
      split
      · exact .same rfl
      · rename_i held
        split
        · exact .same rfl
        · rename_i room
          refine (Move.alloc ready ?_ (Nat.lt_of_not_le held) (Nat.le_of_not_lt room)).moves.settle s
          exact Nat.pos_of_ne_zero fun z => len (.inl z)

theorem State.openBody_core (s : State) : s.openBody.core = s.core := by
  unfold State.openBody
  dsimp only
  split
  · rfl
  · split
    · rfl
    · split
      · rfl
      · split
        · rfl
        · split <;> rfl

theorem selectionOfCode_links {n : Nat} {links : List LinkId} (h : selectionOfCode n = some links) :
    links ≠ [] ∧ links.Nodup := by
  unfold selectionOfCode at h
  split at h
  · cases h; decide
  · cases h; decide
  · cases h; decide
  · cases h

theorem State.namedRecord_some {s : State} {h : Nat} {r : Record} (e : s.namedRecord h = some r) :
    h < Config.cellCount ∧ s.record h = some r := by
  unfold State.namedRecord at e
  split at e
  · rename_i lt; exact ⟨lt, e⟩
  · cases e

theorem State.postBody_moves (s : State) : Moves s s.postBody := by
  unfold State.postBody
  dsimp only
  split
  · exact .same rfl
  · rename_i links sel
    split
    · exact .same rfl
    · split
      · exact .same rfl
      · rename_i r named
        split
        · exact .same rfl
        · rename_i filling
          split
          · exact .same rfl
          · rename_i up
            split
            · exact .same rfl
            · obtain ⟨some_, nodup⟩ := selectionOfCode_links sel
              refine (Move.post (State.namedRecord_some named).2 (not_not.1 filling) some_ nodup fun l hl => ?_).moves.settle s
              by_contra off
              exact up (List.any_eq_true.2 ⟨l, hl, by simpa using off⟩)

theorem State.claimBody_moves (s : State) : Moves s s.claimBody := by
  unfold State.claimBody
  split
  · exact .same rfl
  · rename_i c _
    split
    · exact .same rfl
    · rename_i h rest hq
      split
      · exact .same rfl
      · rename_i held
        exact (Move.claim hq (Nat.lt_of_not_le held)).moves

theorem State.releaseBody_moves (s : State) : Moves s s.releaseBody := by
  unfold State.releaseBody
  split
  · exact .same rfl
  · rename_i r hr; exact (Move.release hr).moves.settle s

theorem State.queryBody_core (s : State) : s.queryBody.core = s.core := by
  unfold State.queryBody
  split <;> rfl

theorem State.flushBody_moves (s : State) : Moves s s.flushBody := by
  unfold State.flushBody
  split
  · exact .same rfl
  · split
    · exact .same rfl
    · rename_i tail; exact (Move.flush tail).moves

theorem State.linkStartBody_moves (s : State) (ready : s.ready = true) : Moves s s.linkStartBody := by
  unfold State.linkStartBody
  split
  · exact .same rfl
  · split
    · exact .same rfl
    · split
      · exact .same rfl
      · rename_i live
        exact (Move.hunt (.inl ready) (by simpa using live)).moves.same_after (State.core_answer _ _ _)

theorem State.linkStopBody_moves (s : State) : Moves s s.linkStopBody := by
  unfold State.linkStopBody
  split
  · exact .same rfl
  · split
    · exact .same rfl
    · exact ((s.teardown_moves _ .disabled rfl (.inl rfl)).same_after (State.core_answer _ _ _)).settle s

theorem State.tableSetBody_core (s : State) : s.tableSetBody.core = s.core := by
  unfold State.tableSetBody
  split
  · rfl
  · split <;> rfl

theorem State.tableGetBody_core (s : State) : s.tableGetBody.core = s.core := by
  unfold State.tableGetBody
  split <;> rfl

theorem State.reportTakeBody_core (s : State) : s.reportTakeBody.core = s.core := by
  unfold State.reportTakeBody
  split <;> rfl

theorem State.scrubStartBody_core (s : State) : s.scrubStartBody.core = s.core := by
  unfold State.scrubStartBody
  split <;> rfl

theorem State.commandWrite_moves (s : State) (code : Word) : Moves s (s.commandWrite code) := by
  unfold State.commandWrite
  split
  · exact s.takeCommand_moves code _ State.allocBody_moves
  · exact s.takeCommand_moves code _ fun t _ => .same t.openBody_core
  · exact s.takeCommand_moves code _ fun t _ => t.postBody_moves
  · exact s.takeCommand_moves code _ fun t _ => t.claimBody_moves
  · exact s.takeCommand_moves code _ fun t _ => t.releaseBody_moves
  · exact s.takeCommand_moves code _ fun t _ => .same t.queryBody_core
  · exact s.takeCommand_moves code _ fun t _ => t.flushBody_moves
  · exact s.takeCommand_moves code _ State.linkStartBody_moves
  · exact s.takeCommand_moves code _ fun t _ => t.linkStopBody_moves
  · exact s.takeCommand_moves code _ fun t _ => .same t.tableSetBody_core
  · exact s.takeCommand_moves code _ fun t _ => .same t.tableGetBody_core
  · exact s.takeCommand_moves code _ fun t _ => .same t.reportTakeBody_core
  · exact s.takeCommand_moves code _ fun t _ => .same t.scrubStartBody_core
  · exact .same (s.unknownCode_core code)

/-! ## The data port, the scrubber and the registers -/

theorem State.portRead_core (s : State) : s.portRead.core = s.core := by
  unfold State.portRead State.portMoveOut
  split
  · dsimp only
    have step : ∀ (t : State) (v : Word), (t.stepPort.setBusData v).core = t.core := fun _ _ => rfl
    rw [step]
    split
    · rw [State.core_raise, State.core_noteRead]
    · rw [State.core_noteRead]
  · rfl

theorem State.portWrite_core (s : State) (v : Word) : (s.portWrite v).core = s.core := by
  unfold State.portWrite State.portMoveIn
  split
  · split
    · dsimp only
      have step : ∀ t : State, t.stepPort.core = t.core := fun _ => rfl
      rw [step, State.core_writeWord, State.core_noteRead]
    · rfl
  · rfl

theorem State.scrubWord_core (s : State) (p : Nat) (free : Bool) : (s.scrubWord p free).core = s.core := by
  unfold State.scrubWord
  dsimp only
  split
  · exact s.core_noteRead _ _
  · rw [State.core_writeWord, State.core_noteRead]
  · split
    · rw [State.core_writeWord, State.core_noteRead]
    · exact s.core_noteRead _ _

theorem State.scrubExpired_core (s : State) : s.scrubExpired.core = s.core := by
  have advance : ∀ t : State, t.scrubAdvance.core = t.core := fun t => by
    unfold State.scrubAdvance State.endPass
    split
    · dsimp only
      split <;> rfl
    · rfl
  unfold State.scrubExpired State.scrubTake
  split
  · rw [advance]
    split
    · exact s.scrubWord_core _ _
    · split
      · rfl
      · exact s.scrubWord_core _ _
  · rfl

theorem State.writeScrubControl_core (s : State) (v : Word) : (s.writeScrubControl v).core = s.core := by
  unfold State.writeScrubControl State.writeScrubMode
  dsimp only
  split
  · rfl
  · split
    · rfl
    · split <;> rfl

theorem State.writeNodeAddr_core (s : State) (v : Word) : (s.writeNodeAddr v).core = s.core := by
  unfold State.writeNodeAddr
  split <;> rfl

theorem State.writeLimit_core (s : State) (q : QueueId) (v : Word) : (s.writeLimit q v).core = s.core := by
  rcases q with (_ | _) | ⟨_ | _, _ | _⟩ <;> rfl

theorem State.writeSession_core (s : State) (l : LinkId) (v : Word) : (s.writeSession l v).core = s.core := by
  unfold State.writeSession
  rw [State.core_refreshStall, State.core_refreshStall]
  exact s.core_modPort l _ rfl

theorem State.writeLinkWord_core (s : State) (l : LinkId) (i : Nat) (v : Word) : (s.writeLinkWord l i v).core = s.core := by
  unfold State.writeLinkWord
  split
  · exact s.core_modPort l _ rfl
  · exact s.core_modPort l _ rfl
  · exact s.core_modPort l _ rfl
  · exact s.writeSession_core l v
  · exact s.core_modPort l _ rfl
  · split
    · split
      · exact s.core_modPort l _ rfl
      · rfl
    · rfl

theorem State.writePartWord_moves (s : State) (i : Nat) (v : Word) : Moves s (s.writePartWord i v) := by
  unfold State.writePartWord
  split
  · unfold State.writeControl
    split
    · exact Move.softReset.moves
    · exact .refl
  · exact .same (s.writeNodeAddr_core v)
  · exact .same rfl
  · exact .same rfl
  · exact .same rfl
  · exact .same rfl
  · exact .same rfl
  · exact .same rfl
  · exact s.commandWrite_moves v
  · exact .same (s.portWrite_core v)
  · exact .same (s.writeLimit_core _ v)
  · exact .same (s.writeLimit_core _ v)
  · exact .same (s.writeLimit_core _ v)
  · exact .same (s.writeLimit_core _ v)
  · exact .same (s.writeLimit_core _ v)
  · exact .same (s.writeLimit_core _ v)
  · exact .same rfl
  · exact .same (s.writeScrubControl_core v)
  · split
    · split
      · exact .same rfl
      · exact .refl
    · exact .refl

theorem State.writeRegister_moves (s : State) (reg : BitVec 7) (v : Word) : Moves s (s.writeRegister reg v) := by
  unfold State.writeRegister
  dsimp only
  split
  · exact s.writePartWord_moves _ v
  · split
    · exact .same (s.writeLinkWord_core _ _ v)
    · split
      · exact .refl
      · split
        · exact .same (s.writeLinkWord_core _ _ v)
        · exact .refl

/-! ## Every command -/

theorem State.received_moves (s : State) (l : LinkId) (act : State → State) (h : Moves s (act s)) : Moves s (s.received l act) := by
  unfold State.received
  split
  · exact h.settle s
  · exact .refl

theorem Moves.of_next {s t u : State} (h : Moves s u) (e : (Host.Outcome.next u : Answer) = .next t) : Moves s t := by
  cases e; exact h

theorem execFrameHeaderReceived_moves (l : LinkId) (header : BitVec 128) (s t : State)
    (e : execFrameHeaderReceived l header s = .next t) : Moves s t := by
  unfold execFrameHeaderReceived at e
  split at e
  · split at e
    · split at e
      · rename_i u hu
        exact ((s.validFrame_moves u l header hu).settle s).of_next e
      · cases e
    · exact ((s.checkedOut_moves l .frame).settle s).of_next e
  · exact Moves.refl.of_next e

/-- A step under a condition, which acts on nothing where the condition does not hold. -/
theorem Moves.ite {s t : State} {p : Prop} [Decidable p] (h : p → Moves s t) : Moves s (if p then t else s) := by
  split
  · rename_i hp; exact h hp
  · exact .refl

/-- The end of a frame block, under a condition on the frame on the line. -/
theorem State.frameEnd_moves (s : State) (l : LinkId) (p : TxFrame → Bool) (act : TxFrame → State)
    (h : ∀ f, (s.port l).state = .active → (s.port l).tx.line = .frame f → p f = true → Moves s (act f)) :
    Moves s (match s.frameOnLine l with | some f => if p f then (act f).settle s else s | none => s) := by
  split
  · rename_i f hf
    obtain ⟨active, line⟩ := State.frameOnLine_some hf
    exact .ite fun hp => (h f active line hp).settle s
  · exact .refl

theorem State.firstEnd_moves (s : State) (l : LinkId) (f : TxFrame) (hf : (s.port l).tx.line = .frame f) (first : f.resend = false) :
    Moves s (s.firstEnd l f) := by
  cases hr : s.record f.handle with
  | none => simpa [State.firstEnd, hr] using Moves.refl
  | some r => exact (Move.firstEnd hf first hr).moves

theorem State.flushStep_moves (s : State) : Moves s s.flushStep := by
  unfold State.flushStep
  split
  · exact .refl
  · rename_i q _ _
    split
    · exact .refl
    · rename_i h rest hq
      exact Moves.trans (t := { s with flush := { s.flush with removed := s.flush.removed + 1 } }) (.same rfl)
        (Move.dropHead (s := { s with flush := { s.flush with removed := s.flush.removed + 1 } }) hq).moves

theorem State.stallDrop_moves (s : State) (l : LinkId) (c : Cls) : Moves s (s.stallDrop l c) := by
  unfold State.stallDrop
  split
  · exact .refl
  · rename_i h rest hq
    exact (Move.dropHead hq).moves.same_after (State.core_countLink _ _ _)

theorem State.refreshGrants_core (s : State) (l : LinkId) : (s.refreshGrants l).core = s.core :=
  ((State.core_modCredit _ l .data _ rfl).trans (State.core_modCredit _ l .control _ rfl)).trans (s.core_modPort l _ rfl)

/-- Every command is made of moves. -/
theorem exec_moves (c : Instr) (s t : State) (e : exec c s = .next t) : Moves s t := by
  cases c with
  | resetInput => exact Move.resetInput.moves.of_next e
  | initComplete =>
    refine Moves.of_next ?_ e
    split
    · exact .refl
    · rename_i ready; exact (Move.init (by simpa using ready)).moves
  | softReset => exact Move.softReset.moves.of_next e
  | alloc => exact (s.takeCommand_moves 1 _ State.allocBody_moves).of_next e
  | openPort => exact (s.takeCommand_moves 2 _ fun t _ => .same t.openBody_core).of_next e
  | post => exact (s.takeCommand_moves 3 _ fun t _ => t.postBody_moves).of_next e
  | claim => exact (s.takeCommand_moves 4 _ fun t _ => t.claimBody_moves).of_next e
  | release => exact (s.takeCommand_moves 5 _ fun t _ => t.releaseBody_moves).of_next e
  | query => exact (s.takeCommand_moves 6 _ fun t _ => .same t.queryBody_core).of_next e
  | flush => exact (s.takeCommand_moves 7 _ fun t _ => t.flushBody_moves).of_next e
  | linkStart => exact (s.takeCommand_moves 8 _ State.linkStartBody_moves).of_next e
  | linkStop => exact (s.takeCommand_moves 9 _ fun t _ => t.linkStopBody_moves).of_next e
  | tableSet => exact (s.takeCommand_moves 10 _ fun t _ => .same t.tableSetBody_core).of_next e
  | tableGet => exact (s.takeCommand_moves 11 _ fun t _ => .same t.tableGetBody_core).of_next e
  | reportTake => exact (s.takeCommand_moves 12 _ fun t _ => .same t.reportTakeBody_core).of_next e
  | scrubStart => exact (s.takeCommand_moves 13 _ fun t _ => .same t.scrubStartBody_core).of_next e
  | unknownCommand code => exact (Moves.same (s.unknownCode_core code)).of_next e
  | cmdOverrun code =>
    refine Moves.of_next ?_ e
    split
    · exact .same rfl
    · exact s.commandWrite_moves code
  | portDataRead => exact (Moves.same s.portRead_core).of_next e
  | portDataWrite v => exact (Moves.same (s.portWrite_core v)).of_next e
  | eventFlagsClear v => exact (Moves.same (s := s) (t := s.clearFlags v) rfl).of_next e
  | eventEnableWrite v => exact (Moves.same (s := s) (t := s.writeEnables v) rfl).of_next e
  | nodeAddrWrite v => exact (Moves.same (s.writeNodeAddr_core v)).of_next e
  | scrubModeWrite v => exact (Moves.same (s.writeScrubControl_core v)).of_next e
  | creditStallLimitWrite l v => exact (Moves.same (s.writeSession_core l v)).of_next e
  | registerWrite reg v => exact (s.writeRegister_moves reg v).of_next e
  | invalidMarker l => exact (Moves.ite fun _ => s.noMarker_moves l).of_next e
  | checkedOutBlock l kind => exact (s.received_moves l _ (s.checkedOut_moves l kind)).of_next e
  | keepReceived l => exact (s.received_moves l _ (s.validControl_moves l _ fun _ _ => .refl)).of_next e
  | hailReceived l sender revision seen => exact (s.received_moves l _ (s.takeHail_moves l sender revision seen)).of_next e
  | ackReceived l seq => exact (s.received_moves l _ (s.validControl_moves l _ fun t _ => t.takeAck_moves l seq)).of_next e
  | nakReceived l seq => exact (s.received_moves l _ (s.validControl_moves l _ fun t a => t.takeNak_moves l seq a)).of_next e
  | grantReceived l c v => exact (s.received_moves l _ (s.validControl_moves l _ fun t a => t.takeGrant_moves l c v a)).of_next e
  | frameHeaderReceived l header => exact execFrameHeaderReceived_moves l header s t e
  | framePayloadBytes l bytes =>
    exact (s.received_moves l _ (State.foldl_moves _ (fun t b => t.takeByte_moves l b) bytes s)).of_next e
  | frameTruncated l => exact (s.received_moves l _ (s.marker_moves l)).of_next e
  | frameTrailerEnd l check => exact (s.received_moves l _ (s.trailerEnd_moves l check)).of_next e
  | frameTrailerAbort l => exact (s.received_moves l _ (s.trailerAbort_moves l)).of_next e
  | hailSendEnd l => exact (Moves.ite fun _ => (Moves.same (s.hailSent_core l)).settle s).of_next e
  | controlBlockSent l => exact (Moves.ite fun _ => (Moves.same (s.controlSent_core l)).settle s).of_next e
  | txWordRead l => exact (Moves.ite fun _ => .same (s.readTxWord_core l)).of_next e
  | firstTransmissionEnd l =>
    exact (s.frameEnd_moves l _ _ fun f _ hf p => s.firstEnd_moves l f hf (by simp at p; exact p.1)).of_next e
  | firstTransmissionAbort l =>
    exact (s.frameEnd_moves l _ _ fun f _ hf p => s.firstAbort_moves l f hf (by simp at p; exact p.1)).of_next e
  | resendEnd l =>
    exact (s.frameEnd_moves l _ _ fun f _ hf p => s.resendEnded_moves l f hf (by simp at p; exact p.1)).of_next e
  | resendAbort l =>
    exact (s.frameEnd_moves l _ _ fun f a hf p => s.resendAborted_moves l f hf (by simp at p; exact p.1) a).of_next e
  | hailTimerExpiry l =>
    exact (Moves.ite fun _ => .same ((State.core_hailNow _ l).trans (s.core_modPort l _ rfl))).of_next e
  | greetTimeout l =>
    exact (Moves.ite fun h => (s.enterFault_moves l _ (by simp [h.1])).settle s).of_next e
  | silenceTimeout l =>
    exact (Moves.ite fun h => (s.enterFault_moves l _ (by simp [(s.isActive_iff l).1 h.1])).settle s).of_next e
  | realignTimeout l =>
    exact (Moves.ite fun h => (s.enterFault_moves l _ (by simp [(s.isActive_iff l).1 h.1])).settle s).of_next e
  | holdDownExpiry l =>
    refine (Moves.ite fun h => ?_).of_next e
    split
    · exact (Move.hunt (.inr h.1) (by rw [h.1]; rfl)).moves
    · exact .same (s.core_modPort l _ rfl)
  | replayTimerExpiry l =>
    exact (Moves.ite fun h => (s.replayExpired_moves l ((s.isActive_iff l).1 h.1)).settle s).of_next e
  | ackDelayExpiry l => exact (Moves.ite fun _ => (Moves.same (s.core_modPort l _ rfl)).settle s).of_next e
  | idleTimerExpiry l =>
    exact (Moves.ite fun _ => ((Moves.same (s.core_modPort l _ rfl)).trans (State.choose_moves _ l true)).settle s).of_next e
  | grantRefreshExpiry l => exact (Moves.ite fun _ => (Moves.same (s.refreshGrants_core l)).settle s).of_next e
  | creditStallExpiry l c => exact (Moves.ite fun _ => (s.stallDrop_moves l c).settle s).of_next e
  | flushRemoval => exact (Moves.ite fun _ => s.flushStep_moves.settle s).of_next e
  | scrubStep => exact (Moves.same s.scrubExpired_core).of_next e
  | keepSendEnd l => exact (Moves.same (s.keepSent_core l)).of_next e

/-- A law that each move keeps, and that does not read the queue of commands, is kept by every step. -/
theorem step_keeps {P : State → Prop} (keep : ∀ s t, Move s t → P s → P t)
    (queue : ∀ (s : State) (rest : List Instr), P s → P { s with pending := rest }) (s t : State) (hs : P s)
    (e : step s = .next t) : P t := by
  unfold step at e
  split at e
  · cases e; exact hs
  · exact (exec_moves _ _ t e).keep keep (queue s _ hs)

end Sys2Proof.Machine
end

