-- ==== Sys2Proof/Proofs/CellLaw.lean ====
section
/-! SUPPORT. The law of cell accounting (R18), move by move; and that every command answers. -/

namespace Sys2Proof.Machine

/-! ## Lists of keys and values -/

theorem Sparse.mem_of_lookup {α : Type} {xs : List (Nat × α)} {k : Nat} {v : α} (h : Sparse.lookup xs k = some v) :
    (k, v) ∈ xs := by
  induction xs with
  | nil => cases h
  | cons a xs ih =>
    unfold Sparse.lookup at h
    split at h
    · rename_i e; cases h; subst e; exact List.mem_cons_self
    · exact List.mem_cons_of_mem _ (ih h)

/-- In the canonical form an entry is what a lookup of its key gives. -/
theorem Sparse.lookup_of_mem {α : Type} {xs : List (Nat × α)} (hs : Sparse.sorted xs = true) {k : Nat} {v : α}
    (h : (k, v) ∈ xs) : Sparse.lookup xs k = some v := by
  rw [Sparse.sorted_iff_pairwise] at hs
  induction hs with
  | nil => cases h
  | cons head _ ih =>
    unfold Sparse.lookup
    rcases List.mem_cons.1 h with rfl | h
    · simp
    · rw [if_neg (Nat.ne_of_lt (head _ h)), ih h]

theorem Sparse.mem_iff_lookup {α : Type} {xs : List (Nat × α)} (hs : Sparse.sorted xs = true) (e : Nat × α) :
    e ∈ xs ↔ Sparse.lookup xs e.1 = some e.2 :=
  ⟨fun h => Sparse.lookup_of_mem hs h, fun h => Sparse.mem_of_lookup h⟩

/-- A new key's entry is added to the list, in some place. -/
theorem Sparse.perm_insert {α : Type} (xs : List (Nat × α)) (k : Nat) (v : α) (h : Sparse.lookup xs k = none) :
    (Sparse.insert xs k v).Perm ((k, v) :: xs) := by
  induction xs with
  | nil => exact .refl _
  | cons a xs ih =>
    unfold Sparse.lookup at h
    split at h
    · cases h
    · rename_i ne
      unfold Sparse.insert
      split
      · exact .refl _
      · rw [if_neg (Ne.symm ne)]
        exact ((ih h).cons a).trans (.swap _ _ _)

/-- The entry of a key taken out of a list in canonical form. -/
theorem Sparse.perm_erase {α : Type} {xs : List (Nat × α)} (hs : Sparse.sorted xs = true) {k : Nat} {v : α}
    (h : Sparse.lookup xs k = some v) : xs.Perm ((k, v) :: Sparse.erase xs k) := by
  rw [Sparse.sorted_iff_pairwise] at hs
  induction hs with
  | nil => cases h
  | @cons a xs head _ ih =>
    unfold Sparse.lookup at h
    split at h
    · rename_i e
      cases h
      subst e
      have rest : Sparse.erase xs a.1 = xs :=
        List.filter_eq_self.2 fun b hb => by simpa using (Nat.ne_of_lt (head b hb)).symm
      have e : Sparse.erase (a :: xs) a.1 = Sparse.erase xs a.1 := List.filter_cons_of_neg (by simp)
      rw [e, rest]
    · rename_i ne
      have e : Sparse.erase (a :: xs) k = a :: Sparse.erase xs k := List.filter_cons_of_pos (by simpa using ne)
      rw [e]
      exact ((ih h).cons a).trans (.swap _ _ _)

theorem Sparse.map_insert {α β : Type} (f : α → β) (xs : List (Nat × α)) (k : Nat) (v : α) :
    (Sparse.insert xs k v).map (fun e => (e.1, f e.2)) = Sparse.insert (xs.map fun e => (e.1, f e.2)) k (f v) := by
  induction xs with
  | nil => rfl
  | cons a xs ih =>
    unfold Sparse.insert
    rw [List.map_cons]
    dsimp only
    split
    · rfl
    · split
      · rfl
      · rw [List.map_cons, ih]

theorem Sparse.map_erase {α β : Type} (f : α → β) (xs : List (Nat × α)) (k : Nat) :
    (Sparse.erase xs k).map (fun e => (e.1, f e.2)) = Sparse.erase (xs.map fun e => (e.1, f e.2)) k := by
  simp [Sparse.erase, List.filter_map, Function.comp_def]

/-- A change of a value that the map does not see. -/
theorem Sparse.map_modify {α β : Type} (f : α → β) (xs : List (Nat × α)) (k : Nat) (g : α → α) (hg : ∀ v, f (g v) = f v) :
    (Sparse.modify xs k g).map (fun e => (e.1, f e.2)) = xs.map fun e => (e.1, f e.2) := by
  rw [Sparse.modify, List.map_map]
  refine List.map_congr_left fun e _ => ?_
  simp only [Function.comp]
  split
  · simp [hg]
  · rfl

theorem Sparse.sorted_map {α β : Type} (f : α → β) (xs : List (Nat × α)) :
    Sparse.sorted (xs.map fun e => (e.1, f e.2)) = Sparse.sorted xs := by
  rw [Bool.eq_iff_iff, Sparse.sorted_iff_pairwise, Sparse.sorted_iff_pairwise, List.pairwise_map]

/-! ## The chains of the records -/

/-- The slots that are not FREE with their chains, which is all that the law of cells reads of the records. -/
def State.shape (s : State) : List (Nat × List Nat) :=
  s.buf.records.map fun e => (e.1, e.2.cells)

theorem State.chains_eq (s : State) : s.chains = s.shape.flatMap Prod.snd := by
  simp [State.chains, State.shape, List.flatMap_map]

/-- The law of cell accounting, as what the shape and the free list say. -/
theorem State.cellsAccounted_iff (s : State) :
    s.CellsAccounted ↔
      (s.ready = true → (s.buf.free ++ s.shape.flatMap Prod.snd).Perm (List.range 1024)) ∧
      (s.ready = false → s.buf.free = [] ∧ s.shape = [] ∧ ∀ l, (s.port l).state = .disabled) ∧
      (∀ e ∈ s.shape, e.2.head? = some e.1) ∧ Sparse.sorted s.shape = true := by
  have ports : (s.portA.state = .disabled ∧ s.portB.state = .disabled) ↔ ∀ l, (s.port l).state = .disabled :=
    ⟨fun h l => by cases l <;> simp [h], fun h => ⟨h .a, h .b⟩⟩
  rw [State.CellsAccounted, State.chains_eq, ports, State.shape, Sparse.sorted_map]
  simp only [List.map_eq_nil_iff, List.forall_mem_map]

/-- Two states alike for the law of cells. -/
def State.CellsLike (s t : State) : Prop :=
  t.ready = s.ready ∧ t.buf.free = s.buf.free ∧ t.shape = s.shape ∧ ∀ l, (t.port l).state = (s.port l).state

theorem State.CellsLike.law {s t : State} (h : s.CellsLike t) (hs : s.CellsAccounted) : t.CellsAccounted := by
  obtain ⟨ready, free, shape, state⟩ := h
  rw [State.cellsAccounted_iff] at *
  simpa only [ready, free, shape, state] using hs

theorem State.shape_core (s : State) : s.core.shape = s.shape := by
  simp [State.shape, State.core, Record.clean]

theorem State.CellsLike.of_core {s t : State} (h : t.core = s.core) : s.CellsLike t :=
  ⟨(congrArg State.ready h :), (congrArg (fun u => u.buf.free) h :), by rw [← t.shape_core, h, s.shape_core],
    fun l => (congrArg LinkPort.state (State.core_port h l) :)⟩

/-- A change of one port, while the link's state stays or READY is 1. -/
theorem State.CellsAccounted.modPort {s : State} (hs : s.CellsAccounted) (l : LinkId) (f : LinkPort → LinkPort)
    (h : (s.port l).state = .disabled → (f (s.port l)).state = .disabled) : (s.modPort l f).CellsAccounted := by
  rw [State.cellsAccounted_iff] at *
  obtain ⟨on, off, heads, sorted⟩ := hs
  refine ⟨by simpa [State.shape] using on, fun r => ?_, by simpa [State.shape] using heads, by simpa [State.shape] using sorted⟩
  obtain ⟨free, shape, state⟩ := off (by simpa using r)
  refine ⟨by simpa using free, by simpa [State.shape] using shape, fun k => ?_⟩
  rw [State.port_modPort_cases]
  split
  · rename_i e; subst e; exact h (state _)
  · exact state k

theorem State.CellsAccounted.modRecord {s : State} (hs : s.CellsAccounted) (h : Nat) (f : Record → Record)
    (hf : ∀ r, (f r).cells = r.cells) : (s.modRecord h f).CellsAccounted :=
  State.CellsLike.law (s := s) ⟨rfl, rfl, Sparse.map_modify Record.cells _ _ _ hf, fun l => by cases l <;> rfl⟩ hs

/-- A freed record's chain joins the free list. -/
theorem State.CellsAccounted.freeRecord {s : State} (hs : s.CellsAccounted) (h : Nat) : (s.freeRecord h).CellsAccounted := by
  cases hr : s.record h with
  | none => rwa [s.freeRecord_none h hr]
  | some r =>
    rw [State.cellsAccounted_iff] at *
    obtain ⟨on, off, heads, sorted⟩ := hs
    have look : Sparse.lookup s.shape h = some r.cells := by
      rw [State.shape, Sparse.lookup_map]; exact congrArg _ hr
    have shape : (s.freeRecord h).shape = Sparse.erase s.shape h := by
      rw [State.shape, State.freeRecord, hr]
      simp [Sparse.map_erase, State.shape]
    rw [shape, State.freeRecord_ready, s.free_freeRecord h r hr]
    refine ⟨fun ready => ?_, fun r => ?_, fun e he => heads e (List.mem_filter.1 he).1, Sparse.sorted_erase _ sorted⟩
    · have move := (Sparse.perm_erase sorted look).flatMap_right Prod.snd
      rw [List.flatMap_cons] at move
      rw [List.append_assoc]
      exact (move.symm.append_left _).trans (on ready)
    · rw [(off r).2.1] at look
      cases look

theorem State.CellsAccounted.removeHolder {s : State} (hs : s.CellsAccounted) (h : Nat) (clear : Record → Record)
    (hc : ∀ r, (clear r).cells = r.cells) : (s.removeHolder h clear).CellsAccounted := by
  unfold State.removeHolder
  split
  · exact hs
  · split
    · exact hs.freeRecord h
    · exact hs.modRecord h clear hc

theorem Record.setHolder_cells (r : Record) (l : LinkId) (v : LinkHolder) : (r.setHolder l v).cells = r.cells := by
  cases l <;> rfl

theorem State.CellsAccounted.removeLinkHolder {s : State} (hs : s.CellsAccounted) (l : LinkId) (h : Nat) :
    (s.removeLinkHolder l h).CellsAccounted :=
  hs.removeHolder h _ fun r => r.setHolder_cells l _

theorem State.CellsAccounted.removeHostHolder {s : State} (hs : s.CellsAccounted) (h : Nat) :
    (s.removeHostHolder h).CellsAccounted :=
  hs.removeHolder h _ fun _ => rfl

/-- The handle of an allocation is the slot of no record. -/
theorem State.CellsAccounted.nextHandle_free {s : State} (hs : s.CellsAccounted) (h : 0 < s.freeCount) :
    s.record s.nextHandle = none := by
  cases hr : s.record s.nextHandle with
  | none => rfl
  | some r =>
    obtain ⟨on, off, heads, -⟩ := hs
    have mem := Sparse.mem_of_lookup hr
    have ready : s.ready = true := by
      cases e : s.ready with
      | true => rfl
      | false => rw [State.freeCount, (off e).1] at h; cases h
    have inFree : s.nextHandle ∈ s.buf.free := by
      unfold State.nextHandle
      unfold State.freeCount at h
      cases e : s.buf.free with
      | nil => rw [e] at h; cases h
      | cons a rest => simp
    have inChain : s.nextHandle ∈ s.chains :=
      List.mem_flatMap.2 ⟨_, mem, List.mem_of_mem_head? (heads _ mem)⟩
    have nodup := ((on ready).nodup_iff.2 List.nodup_range)
    exact absurd rfl ((List.nodup_append.1 nodup).2.2 _ inFree _ inChain)

/-- An allocation takes its chain from the head of the free list. -/
theorem State.CellsAccounted.allocate {s : State} (hs : s.CellsAccounted) (k : Nat) (r : Record) (hk : 0 < k) (hf : k ≤ s.freeCount) :
    (s.allocate k r).CellsAccounted := by
  have new := hs.nextHandle_free (Nat.lt_of_lt_of_le hk hf)
  have head : (s.buf.free.take k).head? = some s.nextHandle := by
    unfold State.nextHandle
    unfold State.freeCount at hf
    cases e : s.buf.free with
    | nil => rw [e] at hf; simp at hf; omega
    | cons a rest => cases k with
      | zero => cases hk
      | succ k => rfl
  rw [State.cellsAccounted_iff] at *
  obtain ⟨on, off, heads, sorted⟩ := hs
  have look : Sparse.lookup s.shape s.nextHandle = none := by
    rw [State.shape, Sparse.lookup_map]; exact congrArg _ new
  have shape : (s.allocate k r).shape = Sparse.insert s.shape s.nextHandle (s.buf.free.take k) :=
    Sparse.map_insert Record.cells _ _ _
  have free : (s.allocate k r).buf.free = s.buf.free.drop k := rfl
  have ready : (s.allocate k r).ready = s.ready := rfl
  rw [shape, free, ready]
  refine ⟨fun r => ?_, fun r => ?_, fun e he => ?_, Sparse.sorted_insert _ _ sorted⟩
  · have move := (Sparse.perm_insert s.shape s.nextHandle (s.buf.free.take k) look).flatMap_right Prod.snd
    rw [List.flatMap_cons] at move
    refine ((move.append_left _).trans ?_).trans (on r)
    rw [← List.append_assoc]
    refine List.Perm.append_right _ (List.perm_append_comm.trans ?_)
    rw [List.take_append_drop]
  · rw [State.freeCount, (off r).1] at hf
    simp at hf; omega
  · rcases Sparse.mem_insert he with rfl | he
    · exact head
    · exact heads e he

/-! ## The law, move by move -/

theorem State.popHead_cellsLike (s : State) (q : QueueId) : s.CellsLike (s.popHead q) := by
  refine ⟨(s.popHead_same q).1, ?_, ?_, fun l => ?_⟩
  · unfold State.popHead State.stopStall; split <;> simp
  · unfold State.popHead State.stopStall State.shape; split <;> simp
  · exact (s.popHead_links q).state l

theorem State.entryLeft_cellsLike (s : State) (q : QueueId) (h : Nat) : s.CellsLike (s.entryLeft q h) := by
  rw [State.entryLeft_spec]
  split <;> exact ⟨rfl, rfl, rfl, fun l => by cases l <;> rfl⟩

theorem State.append_cellsLike (s : State) (q : QueueId) (h : Nat) : s.CellsLike (s.append q h) :=
  ⟨rfl, rfl, rfl, fun l => by cases l <;> rfl⟩

theorem State.CellsAccounted.dropHead {s : State} (hs : s.CellsAccounted) (q : QueueId) (h : Nat) : (s.dropHead q h).CellsAccounted := by
  have pop := (s.popHead_cellsLike q).law hs
  unfold State.dropHead
  refine (State.entryLeft_cellsLike _ q h).law ?_
  cases q with
  | host c => exact pop.removeHostHolder h
  | tx l c => exact pop.removeLinkHolder l h

theorem State.CellsAccounted.modCredit {s : State} (hs : s.CellsAccounted) (l : LinkId) (c : Cls) (f : CreditClass → CreditClass) :
    (s.modCredit l c f).CellsAccounted :=
  hs.modPort l _ fun h => by simpa using h

theorem State.CellsAccounted.enterForward {s : State} (hs : s.CellsAccounted) (l : LinkId) (c : Cls) (h : Nat) :
    (s.enterForward l c h).CellsAccounted :=
  State.CellsAccounted.modRecord ((s.append_cellsLike _ h).law hs) h _ fun r => by cases l <;> rfl

theorem State.CellsAccounted.enterHost {s : State} (hs : s.CellsAccounted) (c : Cls) (h : Nat) : (s.enterHost c h).CellsAccounted :=
  State.CellsAccounted.modRecord ((s.append_cellsLike _ h).law hs) h Record.withHostQueued fun _ => rfl

theorem State.CellsAccounted.enterParts {s : State} (hs : s.CellsAccounted) (m : LinkId) (c : Cls) (h : Nat) (host fwd : Bool) :
    (s.enterParts m c h host fwd).CellsAccounted := by
  cases host <;> cases fwd
  · exact hs
  · exact hs.enterForward m c h
  · exact hs.enterHost c h
  · exact (hs.enterHost c h).enterForward m c h

theorem State.closePort_cellsLike (s : State) (h : Nat) : s.CellsLike (s.closePort h) := by
  unfold State.closePort
  split
  · split <;> exact ⟨rfl, rfl, rfl, fun l => by cases l <;> rfl⟩
  · exact ⟨rfl, rfl, rfl, fun l => by cases l <;> rfl⟩

theorem Record.posted_cells (r : Record) (d src : Byte) (hops : BitVec 4) (links : List LinkId) :
    (r.posted d src hops links).cells = r.cells := by
  unfold Record.posted
  suffices ∀ r : Record, (links.foldl (fun r l => r.setHolder l .queued) r).cells = r.cells from this _
  induction links with
  | nil => exact fun _ => rfl
  | cons l links ih => exact fun r => (ih _).trans (r.setHolder_cells l _)

theorem State.appendAll_cellsLike (links : List LinkId) (c : Cls) (h : Nat) (s : State) :
    s.CellsLike (links.foldl (fun u l => u.append (.tx l c) h) s) := by
  induction links generalizing s with
  | nil => exact ⟨rfl, rfl, rfl, fun _ => rfl⟩
  | cons l links ih =>
    obtain ⟨a, b, c, d⟩ := ih (s.append (.tx l c) h)
    exact ⟨a, b, c, fun k => (d k).trans (by cases k <;> rfl)⟩

theorem cellsFor_pos {n : Nat} (h : 0 < n) : 0 < cellsFor n := by
  unfold cellsFor Config.cellBytes; omega

theorem wholeFreeList_perm : wholeFreeList.Perm (List.range 1024) := .refl _

/-- Every move keeps the law of cell accounting. -/
theorem Move.cellsAccounted {s t : State} (m : Move s t) (hs : s.CellsAccounted) : t.CellsAccounted := by
  cases m with
  | same h => exact (State.CellsLike.of_core h).law hs
  | @hunt l up _ =>
    rcases up with ready | fault
    · obtain ⟨on, -, rest⟩ := hs
      exact ⟨by simpa [State.enterHunt, State.chains] using on, by simp [State.enterHunt, ready],
        by simpa [State.enterHunt] using rest⟩
    · exact hs.modPort l _ fun h => by simp [fault] at h
  | @greet l st _ => exact hs.modPort l _ fun h => by simp [st] at h
  | @active l st => exact hs.modPort l _ fun h => by simp [st] at h
  | @quiet l target _ _ _ _ _ off =>
    refine hs.modPort l _ fun h => ?_
    rcases off with rfl | off
    · rfl
    · exact absurd h off
  | decideGrant _ => exact hs.modCredit _ _ _
  | grantTaken _ => exact hs.modCredit _ _ _
  | line _ _ _ => exact hs.modPort _ _ fun h => h
  | takeIn _ _ len _ room =>
    exact State.CellsAccounted.modPort (State.CellsAccounted.modCredit (hs.allocate _ _ (cellsFor_pos len) room) _ _ _) _ _ fun h => h
  | giveBack _ => exact State.CellsAccounted.modPort (State.CellsAccounted.modCredit (hs.freeRecord _) _ _ _) _ _ fun h => h
  | unframe _ => exact (hs.freeRecord _).modPort _ _ fun h => h
  | keepHeld _ _ _ => exact hs.modPort _ _ fun h => h
  | accept _ _ _ _ => exact (hs.enterParts _ _ _ _ _).modPort _ _ fun h => h
  | dropHead _ => exact hs.dropHead _ _
  | @beginFirst l c h rest r _ _ _ hr =>
    simp only [State.beginFirst, hr]
    refine State.CellsAccounted.modPort ((State.entryLeft_cellsLike _ _ h).law ?_) _ _ fun h => h
    exact ((s.popHead_cellsLike _).law hs).modRecord h _ fun r => r.setHolder_cells l _
  | @firstEnd l f r _ _ hr =>
    simp only [State.firstEnd, hr]
    refine (State.CellsLike.of_core (State.core_countLink _ _ _)).law (State.CellsAccounted.modCredit ?_ _ _ _)
    refine State.CellsAccounted.modPort ?_ _ _ fun h => h
    exact (hs.modPort _ _ fun h => h).modRecord _ _ fun r => r.setHolder_cells l _
  | firstGone _ _ => exact (hs.removeLinkHolder _ _).modPort _ _ fun h => h
  | unlist _ => exact (hs.removeLinkHolder _ _).modPort _ _ fun h => h
  | @alloc length c _ len _ room =>
    have k := hs.allocate (cellsFor length) (hostRecord length c) (cellsFor_pos len) (Nat.le_trans (Nat.le_add_right _ _) room)
    exact State.CellsLike.law ⟨rfl, rfl, rfl, fun l => by cases l <;> rfl⟩ k
  | @post h r d hops links _ _ _ _ _ =>
    have k := hs.modRecord h (fun r => r.posted d s.nodeAddr hops links) fun r => r.posted_cells _ _ _ _
    exact State.CellsLike.law (s := State.closePort (State.setHeld _ _) _) ⟨rfl, rfl, rfl, fun l => by cases l <;> rfl⟩
      ((State.closePort_cellsLike _ h).law (State.CellsLike.law ⟨rfl, rfl, rfl, fun l => by cases l <;> rfl⟩
        ((State.appendAll_cellsLike links r.cls h _).law k)))
  | @claim c h rest _ _ =>
    have k := ((s.popHead_cellsLike (.host c)).law hs).modRecord h (fun r => { r with host := .claimed }) fun _ => rfl
    unfold State.claimTaken
    dsimp only
    split <;> exact State.CellsLike.law ⟨rfl, rfl, rfl, fun l => by cases l <;> rfl⟩ k
  | @release h r _ =>
    exact State.CellsLike.law (s := State.closePort (State.setHeld _ _) _) ⟨rfl, rfl, rfl, fun l => by cases l <;> rfl⟩
      ((State.closePort_cellsLike _ h).law (State.CellsLike.law ⟨rfl, rfl, rfl, fun l => by cases l <;> rfl⟩
        (hs.removeHostHolder h)))
  | flush _ => exact State.CellsLike.law ⟨rfl, rfl, rfl, fun l => by cases l <;> rfl⟩ hs
  | resetInput =>
    have records : s.resetTaken.buf.records = [] := rfl
    rw [State.CellsAccounted, records]
    exact ⟨fun ready => Bool.noConfusion ready, fun _ => ⟨rfl, rfl, rfl, rfl⟩, fun _ h => absurd h List.not_mem_nil, rfl⟩
  | init _ =>
    have buf : (s.initTaken).buf = { mem := [], wrong := [], links := s.buf.links, free := wholeFreeList, records := [] } ∧
        (s.initTaken).ready = true := by
      unfold State.initTaken State.passAtReady
      split <;> exact ⟨rfl, rfl⟩
    rw [State.CellsAccounted, State.chains, buf.1, buf.2]
    exact ⟨fun _ => by simpa using wholeFreeList_perm, fun h => Bool.noConfusion h, fun _ h => absurd h List.not_mem_nil, rfl⟩
  | softReset =>
    refine ⟨fun ready => ?_, fun ready => ⟨?_, rfl, rfl, rfl⟩, fun _ h => absurd h List.not_mem_nil, rfl⟩
    · have e : s.ready = true := ready
      simpa [State.softResetTaken, Buffer.softReset, e, State.chains] using wholeFreeList_perm
    · have e : s.ready = false := ready
      simpa [State.softResetTaken, Buffer.softReset, e] using (hs.2.1 e).1

/-- Settles O53: each move of a step takes cells from the free list for one chain, or gives a chain back to it. -/
theorem cellLawKept : Obligations.CellLawKept := by
  unfold Obligations.CellLawKept
  intro s t hs e
  exact step_keeps (P := State.CellsAccounted) (fun _ _ m h => m.cellsAccounted h) (fun _ _ h => h) s t hs e

/-! ## Every command answers -/

/-- No move changes the queue of commands. -/
theorem Move.pending {s t : State} (m : Move s t) : t.pending = s.pending := by
  have enter : ∀ (u : State) (m : LinkId) (c : Cls) (h : Nat) (host fwd : Bool), (u.enterParts m c h host fwd).pending = u.pending :=
    fun u m c h host fwd => by cases host <;> cases fwd <;> rfl
  have append : ∀ (links : List LinkId) (c : Cls) (h : Nat) (u : State),
      (links.foldl (fun u l => u.append (.tx l c) h) u).pending = u.pending := fun links c h => by
    induction links with
    | nil => exact fun _ => rfl
    | cons l links ih => exact fun u => ih _
  cases m with
  | same h => exact (congrArg State.pending h :)
  | hunt _ _ => exact State.modPort_pending _ _ _
  | greet _ _ => exact State.modPort_pending _ _ _
  | active _ => exact State.modPort_pending _ _ _
  | quiet _ _ _ _ _ _ => exact State.modPort_pending _ _ _
  | decideGrant _ => exact State.modCredit_pending _ _ _ _
  | grantTaken _ => exact State.modCredit_pending _ _ _ _
  | line _ _ _ => exact State.modPort_pending _ _ _
  | takeIn _ _ _ _ _ => simp [State.takeIn, State.consume, State.allocate]
  | giveBack _ => simp [State.giveBack, State.unconsume]
  | unframe _ => simp
  | keepHeld _ _ _ => simp
  | accept _ _ _ _ => simp [enter]
  | dropHead _ => exact (s.dropHead_same _ _).2.2.2.2.2
  | beginFirst _ _ _ _ => exact (s.beginFirst_same _ _ _).2.2.2.2.2
  | firstEnd _ _ hr => simp [State.firstEnd, hr, State.setLinkHolder, State.modRecord, State.endFrame]
  | firstGone _ _ => simp [State.removeLinkHolder]
  | unlist _ => simp [State.removeLinkHolder]
  | alloc _ _ _ _ => rfl
  | post _ _ _ _ _ => simp [State.postTaken, append, State.modRecord]
  | claim _ _ =>
    unfold State.claimTaken
    dsimp only
    split <;> simpa [State.modRecord] using (s.popHead_same _).2.2.2.2.2
  | release _ => simp [State.releaseTaken, State.removeHostHolder]
  | flush _ => rfl
  | resetInput => rfl
  | init _ => unfold State.initTaken State.passAtReady; split <;> rfl
  | softReset => rfl

theorem exec_pending (c : Instr) (s t : State) (e : exec c s = .next t) : t.pending = s.pending :=
  (exec_moves c s t e).keep (P := fun u => u.pending = s.pending) (fun _ _ m h => m.pending.trans h) rfl

/-- A command answers a next state, but for a header whose allocation finds too few cells. -/
theorem exec_answers (c : Instr) (s : State) :
    (∃ t, exec c s = .next t) ∨ ∃ l header, c = .frameHeaderReceived l header ∧ exec c s = .fault .allocationShort := by
  cases c with
  | frameHeaderReceived l header =>
    have e : exec (.frameHeaderReceived l header) s = execFrameHeaderReceived l header s := rfl
    rw [e]
    unfold execFrameHeaderReceived
    split
    · split
      · split
        · exact .inl ⟨_, rfl⟩
        · rename_i r _; cases r; exact .inr ⟨l, header, rfl, rfl⟩
      · exact .inl ⟨_, rfl⟩
    · exact .inl ⟨_, rfl⟩
  | _ => exact .inl ⟨_, rfl⟩

/-- Settles O2: a command's moves keep the queue, and only a header's allocation can stop. -/
theorem everyCommandAnswers : Obligations.EveryCommandAnswers := by
  unfold Obligations.EveryCommandAnswers
  exact ⟨exec_pending, exec_answers⟩

end Sys2Proof.Machine
end

