-- ==== Sys2Proof/Proofs/HolderPlaces.lean ====
section
/-! SUPPORT. Where a handle stands: in which queue, list, line or receiver. What each operation leaves of the places of a handle. -/

namespace Sys2Proof.Machine

/-- The record of a handle and its places in the queues, on the lists, on the lines and in the receivers are the same. -/
structure State.SameAt (s t : State) (g : Nat) : Prop where
  record : t.record g = s.record g
  queue : ∀ q, g ∈ (t.queue q).entries ↔ g ∈ (s.queue q).entries
  unacked : ∀ l, g ∈ (t.port l).tx.unacked ↔ g ∈ (s.port l).tx.unacked
  first : ∀ (l : LinkId) (f : TxFrame), f.handle = g →
    ((t.port l).tx.line.first = some f ↔ (s.port l).tx.line.first = some f)
  frame : ∀ (l : LinkId) (f : RxFrame), f.handle = g → ((t.port l).rx.frame = some f ↔ (s.port l).rx.frame = some f)

section
variable {s t u : State} {g h : Nat}

theorem State.SameAt.refl (s : State) (g : Nat) : s.SameAt s g :=
  ⟨rfl, fun _ => .rfl, fun _ => .rfl, fun _ _ _ => .rfl, fun _ _ _ => .rfl⟩

theorem State.SameAt.trans (a : s.SameAt t g) (b : t.SameAt u g) : s.SameAt u g :=
  ⟨b.record.trans a.record, fun q => (b.queue q).trans (a.queue q), fun l => (b.unacked l).trans (a.unacked l),
    fun l f hf => (b.first l f hf).trans (a.first l f hf), fun l f hf => (b.frame l f hf).trans (a.frame l f hf)⟩

/-- An operation that leaves of each port what the laws read changes a handle's places in its record and in the queues alone. -/
theorem State.SameLinks.sameAt (links : s.SameLinks t) (record : t.record g = s.record g)
    (queue : ∀ q, g ∈ (t.queue q).entries ↔ g ∈ (s.queue q).entries) : s.SameAt t g :=
  ⟨record, queue, fun l => by rw [links.tx], fun l f _ => by rw [links.tx], fun l f _ => by rw [links.rx]⟩

theorem State.sameAt_modRecord (s : State) (f : Record → Record) (ne : g ≠ h) : s.SameAt (s.modRecord h f) g :=
  (s.modRecord_links h f).sameAt (by rw [s.record_modRecord, if_neg ne.symm]) fun _ => .rfl

theorem State.sameAt_freeRecord (s : State) (ne : g ≠ h) : s.SameAt (s.freeRecord h) g :=
  (s.freeRecord_links h).sameAt (by rw [s.record_freeRecord, if_neg ne.symm]) fun q => by simp [State.queue]

theorem State.sameAt_removeHolder (s : State) (clear : Record → Record) (ne : g ≠ h) : s.SameAt (s.removeHolder h clear) g :=
  (s.removeHolder_links h clear).sameAt (by rw [s.record_removeHolder, if_neg ne.symm]) fun q => by simp [State.queue]

theorem State.mem_setEntries (s : State) (q r : QueueId) (es : List Nat) (g : Nat) :
    g ∈ ((s.setEntries q es).queue r).entries ↔ if r = q then g ∈ es else g ∈ (s.queue r).entries := by
  by_cases e : r = q
  · subst e; simp
  · rw [if_neg e, State.queue_setEntries_ne _ _ _ _ e]

theorem State.sameAt_append (s : State) (q : QueueId) (ne : g ≠ h) : s.SameAt (s.append q h) g :=
  (s.setEntries_links q _).sameAt rfl fun r => by
    rw [State.mem_setEntries]
    split
    · rename_i e; subst e; simp [ne]
    · rfl

theorem State.sameAt_popHead (s : State) (q : QueueId) {rest : List Nat} (hq : (s.queue q).entries = h :: rest) (ne : g ≠ h) :
    s.SameAt (s.popHead q) g :=
  (s.popHead_links q).sameAt (s.record_popHead q g) fun r => by
    rw [s.queue_popHead]
    split
    · rename_i e; subst e; simp [hq, ne]
    · rfl

theorem State.sameAt_entryLeft (s : State) (q : QueueId) (h g : Nat) : s.SameAt (s.entryLeft q h) g :=
  (s.entryLeft_links q h).sameAt (s.record_entryLeft q h g) fun r => by
    rw [State.entryLeft_spec]; split <;> rfl

theorem State.sameAt_dropHead (s : State) (q : QueueId) {rest : List Nat} (hq : (s.queue q).entries = h :: rest) (ne : g ≠ h) :
    s.SameAt (s.dropHead q h) g := by
  refine ((s.sameAt_popHead q hq ne).trans ?_).trans (State.sameAt_entryLeft _ q h g)
  cases q
  · exact State.sameAt_removeHolder _ _ ne
  · exact State.sameAt_removeHolder _ _ ne

theorem State.sameAt_enterHost (s : State) (c : Cls) (ne : g ≠ h) : s.SameAt (s.enterHost c h) g :=
  (s.sameAt_append _ ne).trans (State.sameAt_modRecord _ _ ne)

theorem State.sameAt_enterForward (s : State) (l : LinkId) (c : Cls) (ne : g ≠ h) : s.SameAt (s.enterForward l c h) g :=
  (s.sameAt_append _ ne).trans (State.sameAt_modRecord _ _ ne)

theorem State.sameAt_enterParts (s : State) (m : LinkId) (c : Cls) (host fwd : Bool) (ne : g ≠ h) :
    s.SameAt (s.enterParts m c h host fwd) g := by
  cases host <;> cases fwd
  · exact .refl s g
  · exact s.sameAt_enterForward m c ne
  · exact s.sameAt_enterHost c ne
  · exact (s.sameAt_enterHost c ne).trans (State.sameAt_enterForward _ m c ne)

/-- A change of one port that leaves a handle's places on that link. -/
theorem State.sameAt_modPort (s : State) (l : LinkId) (f : LinkPort → LinkPort)
    (unacked : g ∈ (f (s.port l)).tx.unacked ↔ g ∈ (s.port l).tx.unacked)
    (first : ∀ x : TxFrame, x.handle = g → ((f (s.port l)).tx.line.first = some x ↔ (s.port l).tx.line.first = some x))
    (frame : ∀ x : RxFrame, x.handle = g → ((f (s.port l)).rx.frame = some x ↔ (s.port l).rx.frame = some x)) :
    s.SameAt (s.modPort l f) g := by
  refine ⟨s.record_modPort l f g, fun q => by rw [State.queue_modPort], fun k => ?_, fun k x hx => ?_, fun k x hx => ?_⟩
  all_goals
    rw [State.port_modPort_cases]
    split
    · rename_i e
      subst e
      first | exact unacked | exact first x hx | exact frame x hx
    · rfl

theorem State.sameAt_modCredit (s : State) (l : LinkId) (c : Cls) (f : CreditClass → CreditClass) : s.SameAt (s.modCredit l c f) g :=
  s.sameAt_modPort l _ (by simp) (by simp) (by simp)

theorem State.sameAt_countLink (s : State) (l : LinkId) (c : LinkCounter) : s.SameAt (s.countLink l c) g := by
  refine ⟨s.record_countLink l c g, fun q => by simp [State.queue], fun k => ?_, fun k x _ => ?_, fun k x _ => ?_⟩
  all_goals cases l <;> cases k <;> cases c <;> rfl

/-- A receiver that loses its frame names another handle as before. -/
theorem State.sameAt_unframed (s : State) (l : LinkId) {f : RxFrame} (hf : (s.port l).rx.frame = some f) (ne : g ≠ f.handle) :
    s.SameAt (s.modPort l LinkPort.unframed) g :=
  s.sameAt_modPort l _ .rfl (fun _ _ => .rfl) fun x hx => by
    rw [hf]
    constructor
    · exact fun e => nomatch e
    · intro e; cases e; exact absurd hx.symm ne

/-- A line changed between blocks that are not the first transmission of a handle. -/
theorem State.sameAt_onLine (s : State) (l : LinkId) (b : LineBlock)
    (old : ∀ x, (s.port l).tx.line.first = some x → x.handle ≠ g) (new : ∀ x, b.first = some x → x.handle ≠ g) :
    s.SameAt (s.modPort l (LinkPort.onLine b)) g :=
  s.sameAt_modPort l _ .rfl (fun x hx => ⟨fun e => absurd hx (new x e), fun e => absurd hx (old x e)⟩) fun _ _ => .rfl

theorem State.sameAt_unlisted (s : State) (l : LinkId) {rest : List Nat} (hu : (s.port l).tx.unacked = h :: rest) (ne : g ≠ h) :
    s.SameAt (s.modPort l LinkPort.unlisted) g :=
  s.sameAt_modPort l _ (by simp [LinkPort.unlisted, hu, ne]) (fun _ _ => .rfl) fun _ _ => .rfl

theorem State.sameAt_allocate (s : State) (k : Nat) (r : Record) (ne : g ≠ s.nextHandle) : s.SameAt (s.allocate k r) g :=
  State.SameLinks.sameAt (.of_port fun l => by cases l <;> rfl) (by rw [s.record_allocate, if_neg ne.symm]) fun _ => .rfl

theorem State.closePort_links (s : State) (h : Nat) : s.SameLinks (s.closePort h) := .of_port fun l => by cases l <;> simp

theorem State.sameAt_closePort (s : State) (h g : Nat) : s.SameAt (s.closePort h) g :=
  (s.closePort_links h).sameAt (by simp [State.record]) fun q => by simp [State.queue]

theorem State.sameAt_setHeld (s : State) (n g : Nat) : s.SameAt (s.setHeld n) g :=
  State.SameLinks.sameAt (.of_port fun l => by cases l <;> rfl) rfl fun _ => .rfl

theorem State.sameAt_answer (s : State) (c : ResultCode) (r : Results) (g : Nat) : s.SameAt (s.answer c r) g :=
  State.SameLinks.sameAt (.of_port fun l => by cases l <;> rfl) rfl fun _ => .rfl

theorem State.sameAt_zeroCells (s : State) (cells : List Nat) (g : Nat) : s.SameAt (s.zeroCells cells) g :=
  State.SameLinks.sameAt (.of_port fun l => by cases l <;> rfl) rfl fun _ => .rfl

theorem State.sameAt_appendAll (links : List LinkId) (c : Cls) (s : State) (ne : g ≠ h) :
    s.SameAt (links.foldl (fun u l => u.append (.tx l c) h) s) g := by
  induction links generalizing s with
  | nil => exact .refl s g
  | cons l links ih => exact (s.sameAt_append _ ne).trans (ih _)

end

/-! ## Blocks of first transmissions -/

theorem LineBlock.first_eq_some {b : LineBlock} {f : TxFrame} : b.first = some f ↔ b = .frame f ∧ f.resend = false := by
  cases b with
  | none => exact ⟨fun h => (nomatch h), fun h => (nomatch h.1)⟩
  | control c => exact ⟨fun h => (nomatch h), fun h => (nomatch h.1)⟩
  | frame g =>
    unfold LineBlock.first
    dsimp only
    cases hr : g.resend with
    | true =>
      simp only [if_true, reduceCtorEq, false_iff, not_and]
      intro e; cases e; simp [hr]
    | false =>
      simp only [Bool.false_eq_true, if_false, Option.some.injEq, LineBlock.frame.injEq]
      exact ⟨fun e => ⟨e, e ▸ hr⟩, fun e => e.1⟩

theorem LineBlock.first_eq_none_of_isFrame {b : LineBlock} (h : b.isFrame = false) : b.first = Option.none := by
  cases b
  · rfl
  · rfl
  · cases h

theorem LineBlock.first_core (b : LineBlock) :
    b.core.first = b.first.map fun f => { f with nextWord := 0, sent := [], aborting := false, overtaken := false } := by
  cases b with
  | none => rfl
  | control c => rfl
  | frame g => unfold LineBlock.first LineBlock.core; dsimp only; split <;> rfl

theorem LineBlock.isFrame_core (b : LineBlock) : b.core.isFrame = b.isFrame := by cases b <;> rfl

@[simp] theorem State.port_core (s : State) (l : LinkId) : s.core.port l = (s.port l).core := by cases l <;> rfl

/-! ## The records in canonical form -/

/-- The record table in canonical form. -/
def State.Sorted (s : State) : Prop :=
  Sparse.sorted s.buf.records = true

theorem State.Sorted.of_records {s t : State} (h : s.Sorted) (e : t.buf.records = s.buf.records) : t.Sorted := by
  unfold State.Sorted at *; rw [e]; exact h

theorem State.Sorted.modRecord {s : State} (hs : s.Sorted) (h : Nat) (f : Record → Record) : (s.modRecord h f).Sorted :=
  Sparse.sorted_modify _ _ hs

theorem State.Sorted.freeRecord {s : State} (hs : s.Sorted) (h : Nat) : (s.freeRecord h).Sorted := by
  unfold State.freeRecord
  split
  · exact hs
  · exact State.Sorted.of_records (s := { s with buf := { s.buf with records := Sparse.erase s.buf.records h } })
      (Sparse.sorted_erase _ hs) (by simp)

theorem State.Sorted.removeHolder {s : State} (hs : s.Sorted) (h : Nat) (clear : Record → Record) : (s.removeHolder h clear).Sorted := by
  unfold State.removeHolder
  split
  · exact hs
  · split
    · exact hs.freeRecord h
    · exact hs.modRecord h clear

theorem State.Sorted.allocate {s : State} (hs : s.Sorted) (k : Nat) (r : Record) : (s.allocate k r).Sorted :=
  Sparse.sorted_insert _ _ hs

theorem State.popHead_buf (s : State) (q : QueueId) : (s.popHead q).buf = s.buf := by
  unfold State.popHead State.stopStall
  split <;> simp

theorem State.entryLeft_buf (s : State) (q : QueueId) (h : Nat) : (s.entryLeft q h).buf = s.buf := by
  rw [State.entryLeft_spec]
  split <;> rfl

theorem State.Sorted.dropHead {s : State} (hs : s.Sorted) (q : QueueId) (h : Nat) : (s.dropHead q h).Sorted := by
  have pop : (s.popHead q).Sorted := hs.of_records (by rw [State.popHead_buf])
  unfold State.dropHead
  cases q
  · exact (pop.removeHolder h _).of_records (by rw [State.entryLeft_buf]; rfl)
  · exact (pop.removeHolder h _).of_records (by rw [State.entryLeft_buf]; rfl)

theorem State.appendAll_buf (links : List LinkId) (c : Cls) (h : Nat) (s : State) :
    (links.foldl (fun u l => u.append (.tx l c) h) s).buf = s.buf := by
  induction links generalizing s with
  | nil => rfl
  | cons l links ih => exact ih _

/-- Every move keeps the record table in canonical form. -/
theorem Move.sorted {s t : State} (m : Move s t) (hs : s.Sorted) : t.Sorted := by
  have port : ∀ {u : State} (l : LinkId) (f : LinkPort → LinkPort), u.Sorted → (u.modPort l f).Sorted :=
    fun l f hu => hu.of_records (by simp)
  cases m with
  | same h =>
    have e := congrArg (fun u => u.buf.records) h
    unfold State.Sorted at *
    rw [← Sparse.sorted_map Record.clean] at *
    exact (congrArg (fun x => Sparse.sorted x) e).trans hs
  | hunt _ _ => exact port _ _ hs
  | greet _ _ => exact port _ _ hs
  | active _ => exact port _ _ hs
  | quiet _ _ _ _ _ _ => exact port _ _ hs
  | decideGrant _ => exact port _ _ hs
  | grantTaken _ => exact port _ _ hs
  | line _ _ _ => exact port _ _ hs
  | takeIn _ _ _ _ _ => exact port _ _ (port _ _ (hs.allocate _ _))
  | giveBack _ => exact port _ _ (port _ _ (hs.freeRecord _))
  | unframe _ => exact port _ _ (hs.freeRecord _)
  | keepHeld _ _ _ => exact port _ _ hs
  | @accept l f c host fwd _ _ _ _ =>
    refine port _ _ ?_
    cases host <;> cases fwd
    · exact hs
    · exact State.Sorted.modRecord (s := s.append _ _) hs _ _
    · exact State.Sorted.modRecord (s := s.append _ _) hs _ _
    · exact State.Sorted.modRecord (s := (s.enterHost _ _).append _ _) (State.Sorted.modRecord (s := s.append _ _) hs _ _) _ _
  | dropHead _ => exact hs.dropHead _ _
  | @beginFirst l c h rest r _ _ _ hr =>
    simp only [State.beginFirst, hr]
    have pop : (s.popHead (.tx l c)).Sorted := hs.of_records (by rw [State.popHead_buf])
    exact port _ _ ((pop.modRecord h _).of_records (by rw [State.entryLeft_buf]; rfl))
  | @firstEnd l f r _ _ hr =>
    simp only [State.firstEnd, hr]
    refine State.Sorted.of_records (port _ _ ?_) (by rw [State.countLink_buf]; rfl)
    exact port _ _ ((port l _ hs).modRecord _ _)
  | firstGone _ _ => exact port _ _ (hs.removeHolder _ _)
  | unlist _ => exact port _ _ (hs.removeHolder _ _)
  | alloc _ _ _ _ => exact (hs.allocate _ _).of_records rfl
  | @post h r d hops links _ _ _ _ _ =>
    refine (hs.modRecord h fun r => r.posted d s.nodeAddr hops links).of_records ?_
    simp [State.postTaken, State.appendAll_buf]
  | @claim c h rest _ _ =>
    have pop : (s.popHead (.host c)).Sorted := hs.of_records (by rw [State.popHead_buf])
    unfold State.claimTaken
    dsimp only
    split <;> exact (pop.modRecord h fun r => { r with host := .claimed }).of_records rfl
  | release _ => exact (hs.removeHolder _ _).of_records (by simp [State.releaseTaken]; rfl)
  | flush _ => exact hs
  | resetInput => rfl
  | init _ =>
    have records : s.initTaken.buf.records = [] := by
      unfold State.initTaken State.passAtReady
      split <;> rfl
    unfold State.Sorted
    rw [records]; rfl
  | softReset => rfl

end Sys2Proof.Machine
end

