-- ==== Sys2Proof/Proofs/QuietLinkLaw.lean ====
section
/-! SUPPORT. The law of quiet links and of the places of link holders (R9, R24, R62), move by move. -/

namespace Sys2Proof.Machine

/-! ## The law in parts -/

/-- Nothing in the queues, on the list, on the line or in the receiver of a link, and its counts at 0. -/
structure State.PlacesClear (s : State) (l : LinkId) : Prop where
  queue : ∀ c, (s.queue (.tx l c)).entries = []
  unacked : (s.port l).tx.unacked = []
  counts : ∀ c, ((s.port l).credit c).CountsZero
  frame : (s.port l).rx.frame = none
  line : (s.port l).tx.line.isFrame = false

/-- A link that is not ACTIVE has nothing in its places. -/
def State.QuietAt (s : State) (l : LinkId) : Prop :=
  (s.port l).state ≠ .active → s.PlacesClear l

/-- A record with a holder on a link's side stands in the place of that holder. -/
def State.PlacedAt (s : State) (l : LinkId) (h : Nat) : Prop :=
  ∀ r, s.record h = some r → s.HolderPlaced l h r

theorem State.holderPlaced_iff (s : State) (l : LinkId) (h : Nat) (r : Record) :
    s.HolderPlaced l h r ↔
      (r.holder l = .queued → h ∈ (s.queue (.tx l r.cls)).entries) ∧
      (∀ q, r.holder l = .sending q → ∃ f, (s.port l).tx.line.first = some f ∧ f.handle = h) ∧
      (∀ q, r.holder l = .unacked q → h ∈ (s.port l).tx.unacked) := by
  unfold State.HolderPlaced
  cases r.holder l with
  | none => simp
  | queued => simp
  | sending q => simp [LineBlock.first_eq_some, and_assoc]
  | unacked q => simp

/-- Where every place of a link is empty, a placed record has no holder on its side. -/
theorem State.PlacesClear.holder_none {s : State} {l : LinkId} (clear : s.PlacesClear l) {h : Nat} {r : Record}
    (placed : s.HolderPlaced l h r) : r.holder l = .none := by
  obtain ⟨queued, sending, unacked⟩ := (s.holderPlaced_iff l h r).1 placed
  cases e : r.holder l with
  | none => rfl
  | queued => have := queued e; rw [clear.queue] at this; cases this
  | sending q =>
    obtain ⟨f, hf, -⟩ := sending q e
    rw [LineBlock.first_eq_none_of_isFrame clear.line] at hf
    cases hf
  | unacked q => have := unacked q e; rw [clear.unacked] at this; cases this

theorem State.quietLinksClear_iff (s : State) :
    s.QuietLinksClear ↔ (∀ l, s.QuietAt l) ∧ (∀ l h, s.PlacedAt l h) ∧ s.Sorted := by
  unfold State.QuietLinksClear
  constructor
  · rintro ⟨quiet, placed, sorted⟩
    refine ⟨fun l off => ?_, fun l h r hr => placed l _ (Sparse.mem_of_lookup hr), sorted⟩
    obtain ⟨qc, qd, unacked, ctl, dat, frame, line, -⟩ := quiet l off
    exact ⟨fun c => by cases c <;> assumption, unacked, fun c => by cases c <;> assumption, frame, line⟩
  · rintro ⟨quiet, placed, sorted⟩
    have placed' : ∀ (l : LinkId), ∀ e ∈ s.buf.records, s.HolderPlaced l e.1 e.2 := fun l e he =>
      placed l e.1 e.2 ((Sparse.mem_iff_lookup sorted e).1 he)
    refine ⟨fun l off => ?_, placed', sorted⟩
    have clear := quiet l off
    exact ⟨clear.queue _, clear.queue _, clear.unacked, clear.counts .control, clear.counts .data, clear.frame, clear.line,
      fun e he => clear.holder_none (placed' l e he)⟩

/-! ## What keeps the parts -/

theorem CreditClass.countsZero_of_counts {k k' : CreditClass} (e : k'.counts = k.counts) (h : k.CountsZero) : k'.CountsZero := by
  obtain ⟨a, b, c, d⟩ := h
  exact ⟨((congrArg CreditClass.granted e :) : k'.granted = _).trans a, ((congrArg CreditClass.consumed e :) : k'.consumed = _).trans b,
    ((congrArg CreditClass.partnerGranted e :) : k'.partnerGranted = _).trans c, ((congrArg CreditClass.sent e :) : k'.sent = _).trans d⟩

/-- A port unchanged in all that the law reads, and no entry added to its queues. -/
theorem State.QuietAt.of_side {s t : State} {l : LinkId} (hs : s.QuietAt l) (side : (t.port l).side = (s.port l).side)
    (queue : ∀ c, (s.queue (.tx l c)).entries = [] → (t.queue (.tx l c)).entries = []) : t.QuietAt l := by
  have tx : (t.port l).tx = (s.port l).tx := (congrArg LinkPort.tx side :)
  have rx : (t.port l).rx = (s.port l).rx := (congrArg LinkPort.rx side :)
  have state : (t.port l).state = (s.port l).state := (congrArg LinkPort.state side :)
  intro off
  have clear := hs (by rwa [← state])
  refine ⟨fun c => queue c (clear.queue c), by rw [tx, clear.unacked], fun c => ?_, by rw [rx, clear.frame], by rw [tx, clear.line]⟩
  refine CreditClass.countsZero_of_counts ?_ (clear.counts c)
  cases c
  · exact (congrArg LinkPort.ctl side :)
  · exact (congrArg LinkPort.dat side :)

theorem State.quietAt_of_active {s : State} {l : LinkId} (h : (s.port l).state = .active) : s.QuietAt l := fun off => absurd h off

/-- After a change of the port of an ACTIVE link that stays ACTIVE, what else the operation does touches no other link. -/
theorem State.QuietAt.modPort {s : State} (l : LinkId) (f : LinkPort → LinkPort) (hs : ∀ k, k ≠ l → s.QuietAt k)
    (hl : (s.modPort l f).QuietAt l) (k : LinkId) : (s.modPort l f).QuietAt k := by
  by_cases e : k = l
  · subst e; exact hl
  · refine (hs k e).of_side ?_ fun c h => by rwa [State.queue_modPort]
    rw [State.port_modPort_cases, if_neg e]

theorem State.PlacedAt.mono {s t : State} {l : LinkId} {h : Nat} (hs : s.PlacedAt l h)
    (record : ∀ r', t.record h = some r' → ∃ r, s.record h = some r ∧ r'.holder l = r.holder l ∧ r'.cls = r.cls)
    (queue : ∀ c, h ∈ (s.queue (.tx l c)).entries → h ∈ (t.queue (.tx l c)).entries)
    (unacked : h ∈ (s.port l).tx.unacked → h ∈ (t.port l).tx.unacked)
    (first : ∀ f, f.handle = h → (s.port l).tx.line.first = some f → (t.port l).tx.line.first = some f) : t.PlacedAt l h := by
  intro r' hr'
  obtain ⟨r, hr, holder, cls⟩ := record r' hr'
  obtain ⟨a, b, c⟩ := (s.holderPlaced_iff l h r).1 (hs r hr)
  rw [State.holderPlaced_iff, holder, cls]
  refine ⟨fun e => queue _ (a e), fun q e => ?_, fun q e => unacked (c q e)⟩
  obtain ⟨f, hf, hh⟩ := b q e
  exact ⟨f, first f hh hf, hh⟩

theorem State.PlacedAt.of_same {s t : State} {l : LinkId} {h : Nat} (hs : s.PlacedAt l h) (same : s.SameAt t h) : t.PlacedAt l h :=
  hs.mono (fun r' hr' => ⟨r', same.record ▸ hr', rfl, rfl⟩) (fun _ => (same.queue _).2) (same.unacked l).2
    fun f hf => (same.first l f hf).2

/-- A record with no holder on a link's side needs no place there. -/
theorem State.placedAt_of_none {t : State} {l : LinkId} {h : Nat} (e : ∀ r, t.record h = some r → r.holder l = .none) : t.PlacedAt l h := by
  intro r hr
  unfold State.HolderPlaced
  rw [e r hr]
  trivial

/-- The places of one handle change, all others' stay. -/
theorem State.placedAt_focus {s t : State} (hs : ∀ l g, s.PlacedAt l g) (h : Nat) (same : ∀ g, g ≠ h → s.SameAt t g)
    (focus : ∀ l, t.PlacedAt l h) (l : LinkId) (g : Nat) : t.PlacedAt l g := by
  by_cases e : g = h
  · subst e; exact focus l
  · exact (hs l g).of_same (same g e)

/-- After a removal, the record of the handle is what the removal leaves of it. -/
theorem State.removeHolder_some {s : State} {h : Nat} {clear : Record → Record} {r' : Record}
    (e : (s.removeHolder h clear).record h = some r') : ∃ r, s.record h = some r ∧ r' = clear r ∧ r'.refCount ≠ 0 := by
  rw [State.record_removeHolder, if_pos rfl] at e
  obtain ⟨r, hr, e⟩ := Option.bind_eq_some_iff.1 e
  split at e
  · cases e
  · rename_i held; cases e; exact ⟨r, hr, rfl, held⟩

@[simp] theorem Record.holder_setHolder (r : Record) (l : LinkId) (v : LinkHolder) : (r.setHolder l v).holder l = v := by
  cases l <;> rfl

theorem Record.holder_setHolder_ne (r : Record) {l k : LinkId} (v : LinkHolder) (ne : k ≠ l) : (r.setHolder l v).holder k = r.holder k := by
  cases l <;> cases k <;> first | rfl | exact absurd rfl ne

@[simp] theorem Record.setHolder_host (r : Record) (l : LinkId) (v : LinkHolder) : (r.setHolder l v).host = r.host := by
  cases l <;> rfl

/-- A link's holder removed, with the change of the port of that link which takes the handle from its place. -/
theorem State.placedAt_removeLinkHolder {s : State} (hs : ∀ l g, s.PlacedAt l g) (l k : LinkId) (h : Nat) (f : LinkPort → LinkPort) :
    ((s.removeLinkHolder l h).modPort l f).PlacedAt k h := by
  by_cases e : k = l
  · subst e
    refine State.placedAt_of_none fun r' hr' => ?_
    rw [State.record_modPort] at hr'
    obtain ⟨r, -, rfl, -⟩ := State.removeHolder_some hr'
    simp
  · have links := s.removeHolder_links h fun r => r.setHolder l .none
    have port : ((s.removeLinkHolder l h).modPort l f).port k = (s.removeLinkHolder l h).port k := by
      rw [State.port_modPort_cases, if_neg e]
    refine (hs k h).mono (fun r' hr' => ?_) (fun c hc => ?_) (fun hu => ?_) fun x _ hx => ?_
    · rw [State.record_modPort] at hr'
      obtain ⟨r, hr, rfl, -⟩ := State.removeHolder_some hr'
      exact ⟨r, hr, r.holder_setHolder_ne _ e, r.setHolder_cls _ _⟩
    · simpa [State.queue, State.removeLinkHolder] using hc
    · rw [port]; exact (links.tx k).symm ▸ hu
    · rw [port]; exact (links.tx k).symm ▸ hx

/-- The law does not see what the core leaves out. -/
theorem State.quietLinksClear_core (s : State) : s.core.QuietLinksClear ↔ s.QuietLinksClear := by
  have quiet : ∀ l, s.core.QuietAt l ↔ s.QuietAt l := fun l => by
    unfold State.QuietAt
    rw [State.port_core]
    refine imp_congr .rfl ⟨fun h => ?_, fun h => ?_⟩
    · refine ⟨fun c => by rw [← State.queue_core]; exact h.queue c, ?_, fun c => ?_, ?_, ?_⟩
      · simpa [LinkPort.core] using h.unacked
      · have := h.counts c; rw [State.port_core] at this; cases c <;> exact this
      · simpa [LinkPort.core] using h.frame
      · simpa [LinkPort.core, LineBlock.isFrame_core] using h.line
    · refine ⟨fun c => by rw [State.queue_core]; exact h.queue c, ?_, fun c => ?_, ?_, ?_⟩
      · simpa [LinkPort.core] using h.unacked
      · have := h.counts c; rw [State.port_core]; cases c <;> exact this
      · simpa [LinkPort.core] using h.frame
      · simpa [LinkPort.core, LineBlock.isFrame_core] using h.line
  have placed : ∀ l h, s.core.PlacedAt l h ↔ s.PlacedAt l h := fun l h => by
    have clean : ∀ r : Record, s.core.HolderPlaced l h r.clean ↔ s.HolderPlaced l h r := fun r => by
      have holder : r.clean.holder l = r.holder l := by cases l <;> rfl
      have first : (s.core.port l).tx.line.first = (s.port l).tx.line.first.map fun f =>
          { f with nextWord := 0, sent := [], aborting := false, overtaken := false } := by
        rw [State.port_core]; exact LineBlock.first_core _
      rw [State.holderPlaced_iff, State.holderPlaced_iff, holder, first, State.queue_core, State.port_core]
      simp [LinkPort.core, Record.clean]
    unfold State.PlacedAt
    rw [State.record_core]
    constructor
    · intro k r hr; exact (clean r).1 (k _ (by rw [hr]; rfl))
    · intro k r hr
      obtain ⟨r', hr', rfl⟩ := Option.map_eq_some_iff.1 hr
      exact (clean r').2 (k r' hr')
  have sorted : s.core.Sorted ↔ s.Sorted := by
    unfold State.Sorted State.core
    rw [Sparse.sorted_map]
  rw [State.quietLinksClear_iff, State.quietLinksClear_iff, sorted]
  simp only [quiet, placed]

/-! ## The law, move by move -/

/-- A change of one port that leaves the places of every handle on that link. -/
theorem State.placedAt_modPort {s : State} (hs : ∀ l g, s.PlacedAt l g) (l : LinkId) (f : LinkPort → LinkPort)
    (unacked : (f (s.port l)).tx.unacked = (s.port l).tx.unacked)
    (first : (f (s.port l)).tx.line.first = (s.port l).tx.line.first) (k : LinkId) (g : Nat) : (s.modPort l f).PlacedAt k g := by
  refine (hs k g).mono (fun r' hr' => ⟨r', by rwa [State.record_modPort] at hr', rfl, rfl⟩)
    (fun c hc => by rwa [State.queue_modPort]) (fun hu => ?_) fun x _ hx => ?_
  · rw [State.port_modPort_cases]; split
    · rename_i e; subst e; rwa [unacked]
    · exact hu
  · rw [State.port_modPort_cases]; split
    · rename_i e; subst e; rwa [first]
    · exact hx

section
variable {s : State} {l : LinkId}

/-- A link whose line carries a frame is ACTIVE. -/
theorem State.QuietAt.active_of_line (hs : s.QuietAt l) {f : TxFrame} (h : (s.port l).tx.line = .frame f) :
    (s.port l).state = .active := by
  by_contra off
  have := (hs off).line
  rw [h] at this
  cases this

/-- A link that receives a frame is ACTIVE. -/
theorem State.QuietAt.active_of_frame (hs : s.QuietAt l) {f : RxFrame} (h : (s.port l).rx.frame = some f) :
    (s.port l).state = .active := by
  by_contra off
  have := (hs off).frame
  rw [h] at this
  cases this

theorem State.QuietAt.of_links {t : State} (hs : s.QuietAt l) (links : s.SameLinks t)
    (queue : ∀ c, (s.queue (.tx l c)).entries = [] → (t.queue (.tx l c)).entries = []) : t.QuietAt l :=
  hs.of_side (links l) queue

/-- A part of an operation that changes the port of one link, which is ACTIVE then. -/
theorem State.quietAt_modPort_active {u : State} (hs : ∀ k, k ≠ l → u.QuietAt k) (f : LinkPort → LinkPort)
    (active : (f (u.port l)).state = .active) (k : LinkId) : (u.modPort l f).QuietAt k :=
  State.QuietAt.modPort l f hs (State.quietAt_of_active (by rwa [State.port_modPort])) k

theorem State.queue_appendAll_ne (links : List LinkId) (c : Cls) (h : Nat) (u : State) (q : QueueId)
    (ne : ∀ k ∈ links, q ≠ .tx k c) : (links.foldl (fun u l => u.append (.tx l c) h) u).queue q = u.queue q := by
  induction links generalizing u with
  | nil => rfl
  | cons m links ih =>
    rw [List.foldl_cons, ih _ fun k hk => ne k (List.mem_cons_of_mem _ hk)]
    exact State.queue_setEntries_ne _ _ _ _ (ne m List.mem_cons_self)

theorem State.appendAll_links (links : List LinkId) (c : Cls) (h : Nat) (u : State) :
    u.SameLinks (links.foldl (fun u l => u.append (.tx l c) h) u) :=
  State.foldl_links _ (fun t _ => t.setEntries_links _ _) links u

/-- The entries of the queues that some links' admissions leave: the handle at the tail of each selected one. -/
theorem State.mem_appendAll (links : List LinkId) (c : Cls) (h : Nat) (u : State) (q : QueueId) (g : Nat) :
    g ∈ ((links.foldl (fun u l => u.append (.tx l c) h) u).queue q).entries ↔
      g ∈ (u.queue q).entries ∨ (g = h ∧ ∃ m ∈ links, q = .tx m c) := by
  induction links generalizing u with
  | nil => simp
  | cons m links ih =>
    rw [List.foldl_cons, ih, State.append, State.mem_setEntries]
    by_cases e : q = .tx m c
    · subst e; simp; tauto
    · simp [e]

/-- The holders of a posted record: QUEUED on each selected link, as they were on the others. -/
theorem Record.holder_posted (r : Record) (d src : Byte) (hops : BitVec 4) (links : List LinkId) (k : LinkId) :
    (r.posted d src hops links).holder k = if k ∈ links then .queued else r.holder k := by
  have fold : ∀ r : Record, (links.foldl (fun r l => r.setHolder l .queued) r).holder k = if k ∈ links then .queued else r.holder k := by
    induction links with
    | nil => simp
    | cons m links ih =>
      intro r
      rw [List.foldl_cons, ih]
      by_cases e : k = m
      · subst e; simp
      · simp [e, r.holder_setHolder_ne _ e]
  rw [Record.posted, fold]
  cases k <;> rfl

theorem Record.posted_cls (r : Record) (d src : Byte) (hops : BitVec 4) (links : List LinkId) :
    (r.posted d src hops links).cls = r.cls := by
  unfold Record.posted
  suffices ∀ r : Record, (links.foldl (fun r l => r.setHolder l .queued) r).cls = r.cls from this _
  induction links with
  | nil => exact fun _ => rfl
  | cons l links ih => exact fun r => (ih _).trans (r.setHolder_cls l _)
end

/-- What the parts of a delivery leave of a record: QUEUED where it was admitted. -/
theorem State.record_enterParts (s : State) (m : LinkId) (c : Cls) (h : Nat) (host fwd : Bool) :
    (s.enterParts m c h host fwd).record h = (s.record h).map fun r =>
      let r1 := if host then r.withHostQueued else r
      if fwd then { r1.withLinkQueued m with hops := r1.hops - 1 } else r1 := by
  unfold State.enterParts
  cases host <;> cases fwd <;>
    simp [State.enterHost, State.enterForward, State.append, State.record_modRecord, Function.comp_def]

/-- The entries of the queues that the parts of a delivery leave. -/
theorem State.mem_enterParts (s : State) (m : LinkId) (c : Cls) (h : Nat) (host fwd : Bool) (q : QueueId) (g : Nat) :
    g ∈ ((s.enterParts m c h host fwd).queue q).entries ↔
      g ∈ (s.queue q).entries ∨ (g = h ∧ ((host = true ∧ q = .host c) ∨ (fwd = true ∧ q = .tx m c))) := by
  have forward : ∀ u : State, g ∈ ((u.enterForward m c h).queue q).entries ↔ g ∈ (u.queue q).entries ∨ (g = h ∧ q = .tx m c) := fun u => by
    unfold State.enterForward
    rw [State.queue_modRecord, State.append, State.mem_setEntries]
    split
    · rename_i e; subst e; simp
    · simp_all
  have enter : ∀ u : State, g ∈ ((u.enterHost c h).queue q).entries ↔ g ∈ (u.queue q).entries ∨ (g = h ∧ q = .host c) := fun u => by
    unfold State.enterHost
    rw [State.queue_modRecord, State.append, State.mem_setEntries]
    split
    · rename_i e; subst e; simp
    · simp_all
  unfold State.enterParts
  cases host <;> cases fwd <;> simp [forward, enter, or_assoc, ← and_or_left]

theorem State.enterParts_links (s : State) (m : LinkId) (c : Cls) (h : Nat) (host fwd : Bool) :
    s.SameLinks (s.enterParts m c h host fwd) := by
  cases host <;> cases fwd
  · exact .refl s
  · exact s.enterForward_links m c h
  · exact s.enterHost_links c h
  · exact (s.enterHost_links c h).trans (State.enterForward_links _ m c h)

/-- A change of the port of a link that has nothing in its places. -/
theorem State.PlacesClear.modPort {s : State} {l : LinkId} (clear : s.PlacesClear l) (f : LinkPort → LinkPort)
    (unacked : (f (s.port l)).tx.unacked = (s.port l).tx.unacked) (counts : ∀ c, ((f (s.port l)).credit c).CountsZero)
    (frame : (f (s.port l)).rx.frame = (s.port l).rx.frame) (line : (f (s.port l)).tx.line.isFrame = false) :
    (s.modPort l f).PlacesClear l :=
  ⟨fun c => by rw [State.queue_modPort]; exact clear.queue c, by rw [State.port_modPort, unacked]; exact clear.unacked,
    fun c => by rw [State.port_modPort]; exact counts c, by rw [State.port_modPort, frame]; exact clear.frame,
    by rw [State.port_modPort]; exact line⟩

/-- The two parts of the law that the moves change: what a quiet link has, and where holders stand. -/
def State.QuietPlaced (s : State) : Prop :=
  (∀ l, s.QuietAt l) ∧ ∀ l h, s.PlacedAt l h

section
variable {s : State}

/-- A change of one port that leaves every handle its places there; the link is ACTIVE, or has nothing in its places. -/
theorem State.QuietPlaced.modPort (hs : s.QuietPlaced) (l : LinkId) (f : LinkPort → LinkPort)
    (unacked : (f (s.port l)).tx.unacked = (s.port l).tx.unacked)
    (first : (f (s.port l)).tx.line.first = (s.port l).tx.line.first) (quiet : (s.modPort l f).QuietAt l) :
    (s.modPort l f).QuietPlaced :=
  ⟨State.QuietAt.modPort l f (fun k _ => hs.1 k) quiet, State.placedAt_modPort hs.2 l f unacked first⟩

theorem State.QuietPlaced.modCredit (hs : s.QuietPlaced) {l : LinkId} (active : (s.port l).state = .active) (c : Cls)
    (f : CreditClass → CreditClass) : (s.modCredit l c f).QuietPlaced :=
  State.QuietPlaced.modPort hs l _ (by simp) (by simp)
    (State.quietAt_of_active (by rw [State.port_modPort, LinkPort.modCredit_state, active]))

/-- A receiver's end of a frame: no holder's place. -/
theorem State.QuietPlaced.unframed (hs : s.QuietPlaced) {l : LinkId} (active : (s.port l).state = .active) :
    (s.modPort l LinkPort.unframed).QuietPlaced :=
  hs.modPort l _ rfl rfl (State.quietAt_of_active (by rw [State.port_modPort]; exact active))

/-- An operation on the record of one handle that leaves the ports: the law is judged at that handle. -/
theorem State.QuietPlaced.of_links {t : State} (hs : s.QuietPlaced) (links : s.SameLinks t)
    (queue : ∀ l c, (s.port l).state ≠ .active → (s.queue (.tx l c)).entries = [] → (t.queue (.tx l c)).entries = []) (h : Nat)
    (same : ∀ g, g ≠ h → s.SameAt t g) (focus : ∀ l, t.PlacedAt l h) : t.QuietPlaced := by
  refine ⟨fun l off => ?_, State.placedAt_focus hs.2 h same focus⟩
  have off' : (s.port l).state ≠ .active := by rwa [← links.state]
  exact (hs.1 l).of_links links (fun c => queue l c off') off

/-- An operation that leaves every handle its places. -/
theorem State.QuietPlaced.of_same {t : State} (hs : s.QuietPlaced) (links : s.SameLinks t)
    (queue : ∀ q, (t.queue q).entries = (s.queue q).entries) (record : ∀ g, t.record g = s.record g) : t.QuietPlaced :=
  hs.of_links links (fun l c _ e => by rw [queue, e]) 0 (fun g _ => links.sameAt (record g) fun q => by rw [queue])
    fun l => (hs.2 l 0).of_same (links.sameAt (record 0) fun q => by rw [queue])

theorem State.QuietPlaced.freeRecord (hs : s.QuietPlaced) (h : Nat) : (s.freeRecord h).QuietPlaced :=
  hs.of_links (s.freeRecord_links h) (fun l c _ e => by simpa [State.queue] using e) h (fun g ne => s.sameAt_freeRecord ne) fun l r hr => by
    rw [State.record_freeRecord, if_pos rfl] at hr; cases hr

/-- The host holder removed: no link's side is touched. -/
theorem State.QuietPlaced.removeHostHolder (hs : s.QuietPlaced) (h : Nat) : (s.removeHostHolder h).QuietPlaced :=
  hs.of_links (s.removeHolder_links h _) (fun l c _ e => by simpa [State.queue, State.removeHostHolder] using e) h
    (fun g ne => s.sameAt_removeHolder _ ne) fun l => by
      have links := s.removeHolder_links h fun r => { r with host := .none }
      refine (hs.2 l h).mono (fun r' hr' => ?_) (fun c hc => ?_) (fun hu => ?_) fun f _ hf => ?_
      · obtain ⟨r, hr, rfl, -⟩ := State.removeHolder_some hr'
        exact ⟨r, hr, by cases l <;> rfl, rfl⟩
      · simpa [State.queue, State.removeHostHolder] using hc
      · exact (links.tx l).symm ▸ hu
      · exact (links.tx l).symm ▸ hf

/-- A record allocated with no holder on a link's side. -/
theorem State.QuietPlaced.allocate (hs : s.QuietPlaced) (k : Nat) (r : Record) (none : ∀ l, r.holder l = .none) :
    (s.allocate k r).QuietPlaced :=
  hs.of_links (.of_port fun l => by cases l <;> rfl) (fun _ _ _ e => e) s.nextHandle (fun g ne => s.sameAt_allocate k r ne) fun l =>
    State.placedAt_of_none fun r' hr' => by
      rw [State.record_allocate, if_pos rfl] at hr'
      cases hr'
      rw [← none l]; cases l <;> rfl

theorem State.QuietPlaced.dropHead (hs : s.QuietPlaced) {q : QueueId} {h : Nat} {rest : List Nat} (hq : (s.queue q).entries = h :: rest) :
    (s.dropHead q h).QuietPlaced := by
  have links := s.dropHead_links q h
  refine hs.of_links links (fun l c _ e => ?_) h (fun g ne => s.sameAt_dropHead q hq ne) fun k => ?_
  · rw [State.queue_dropHead]; split
    · rename_i e'; subst e'; rw [hq] at e; cases e
    · exact e
  · have left : ∀ r', (s.dropHead q h).record h = some r' → ∃ r, s.record h = some r ∧ r' = q.clear r := fun r' hr' => by
      rw [State.record_dropHead, if_pos rfl] at hr'
      obtain ⟨r, hr, e⟩ := Option.bind_eq_some_iff.1 hr'
      split at e
      · cases e
      · cases e; exact ⟨r, hr, rfl⟩
    have stay : (∀ c, q ≠ .tx k c) → (∀ r, (q.clear r).holder k = r.holder k) → (s.dropHead q h).PlacedAt k h := fun ne holder => by
      refine (hs.2 k h).mono (fun r' hr' => ?_) (fun c hc => ?_) (fun hu => ?_) fun f _ hf => ?_
      · obtain ⟨r, hr, rfl⟩ := left r' hr'
        exact ⟨r, hr, holder r, by cases q <;> simp [QueueId.clear, Record.setHolder_cls]⟩
      · rw [State.queue_dropHead, if_neg (ne c).symm]; exact hc
      · exact (links.tx k).symm ▸ hu
      · exact (links.tx k).symm ▸ hf
    cases q with
    | host c => exact stay (fun _ => nofun) fun r => by cases k <;> rfl
    | tx l c =>
      by_cases e : k = l
      · subst e
        refine State.placedAt_of_none fun r' hr' => ?_
        obtain ⟨r, -, rfl⟩ := left r' hr'
        simp [QueueId.clear]
      · exact stay (fun c' e' => e (by cases e'; rfl)) fun r => r.holder_setHolder_ne _ e

/-- The parts of a delivery: QUEUED on the other link only in its queue, and only while it is ACTIVE. -/
theorem State.QuietPlaced.enterParts (hs : s.QuietPlaced) (m : LinkId) (c : Cls) (h : Nat) (host fwd : Bool)
    (cls : ∀ r, s.record h = some r → r.cls = c) (active : fwd = true → s.isActive m = true) :
    (s.enterParts m c h host fwd).QuietPlaced := by
  have links := s.enterParts_links m c h host fwd
  refine hs.of_links links (fun l c' off e => ?_) h (fun g ne => s.sameAt_enterParts m c host fwd ne) fun k => ?_
  · refine List.eq_nil_iff_forall_not_mem.2 fun g hg => ?_
    rcases (s.mem_enterParts m c h host fwd _ g).1 hg with hg | ⟨-, ⟨-, e'⟩ | ⟨hf, e'⟩⟩
    · rw [e] at hg; cases hg
    · cases e'
    · cases e'; exact off ((s.isActive_iff _).1 (active hf))
  · by_cases e : fwd = true ∧ k = m
    · obtain ⟨hf, rfl⟩ := e
      intro r' hr'
      rw [State.record_enterParts] at hr'
      obtain ⟨r, hr, rfl⟩ := Option.map_eq_some_iff.1 hr'
      have queued : h ∈ ((s.enterParts k c h host fwd).queue (.tx k c)).entries :=
        (s.mem_enterParts _ _ _ _ _ _ _).2 (.inr ⟨rfl, .inr ⟨hf, rfl⟩⟩)
      have hc := cls r hr
      subst hf
      unfold State.HolderPlaced
      cases host <;> cases k <;> subst hc <;> exact queued
    · refine (hs.2 k h).mono (fun r' hr' => ?_) (fun c' hc' => (s.mem_enterParts _ _ _ _ _ _ _).2 (.inl hc')) (fun hu => ?_)
        fun f _ hf => ?_
      · rw [State.record_enterParts] at hr'
        obtain ⟨r, hr, rfl⟩ := Option.map_eq_some_iff.1 hr'
        refine ⟨r, hr, ?_⟩
        have ne : fwd = true → k ≠ m := fun hf e' => e ⟨hf, e'⟩
        cases host <;> cases fwd
        · exact ⟨rfl, rfl⟩
        · cases k <;> cases m <;> first | exact absurd rfl (ne rfl) | exact ⟨rfl, rfl⟩
        · cases k <;> exact ⟨rfl, rfl⟩
        · cases k <;> cases m <;> first | exact absurd rfl (ne rfl) | exact ⟨rfl, rfl⟩
      · exact (links.tx k).symm ▸ hu
      · exact (links.tx k).symm ▸ hf

/-- An arrival taken in: its record has no holder. -/
theorem State.QuietPlaced.takeIn (hs : s.QuietPlaced) {l : LinkId} (header : BitVec 128) (active : (s.port l).state = .active) :
    (s.takeIn l header).QuietPlaced := by
  have alloc := hs.allocate (cellsFor (headerLength header)) (arrivalRecord l (headerFields header)) fun k => by cases k <;> rfl
  have state : ∀ k, ((s.allocate (cellsFor (headerLength header)) (arrivalRecord l (headerFields header))).port k).state
      = (s.port k).state := fun k => by cases k <;> rfl
  have used := alloc.modCredit (l := l) ((state l).trans active) (headerFields header).cls fun x =>
    { x with consumed := x.consumed + BitVec.ofNat 16 (cellsFor (headerLength header)), inUse := x.inUse + cellsFor (headerLength header) }
  refine State.QuietPlaced.modPort used l _ rfl rfl (State.quietAt_of_active ?_)
  rw [State.port_modPort]
  simpa using (state l).trans active

theorem State.QuietPlaced.giveBack (hs : s.QuietPlaced) {l : LinkId} {f : RxFrame} (hf : (s.port l).rx.frame = some f) :
    (s.giveBack l f).QuietPlaced := by
  have active : ((s.freeRecord f.handle).port l).state = .active :=
    ((s.freeRecord_links f.handle).state l).trans ((hs.1 l).active_of_frame hf)
  exact ((hs.freeRecord f.handle).modCredit active _ _).unframed (by simpa using active)

/-- A first transmission begins: the head's holder is SENDING, and the line names it. -/
theorem State.QuietPlaced.beginFirst (hs : s.QuietPlaced) {l : LinkId} {c : Cls} {h : Nat} {rest : List Nat} {r : Record}
    (active : (s.port l).state = .active) (line : (s.port l).tx.line = .none) (hq : (s.queue (.tx l c)).entries = h :: rest)
    (hr : s.record h = some r) : (s.beginFirst l c h).QuietPlaced := by
  -- the state before the block begins
  let seq := (s.port l).tx.nextSeq
  let u := ((s.popHead (.tx l c)).setLinkHolder l h (.sending seq)).entryLeft (.tx l c) h
  have e : s.beginFirst l c h = u.beginBlock l (.frame (txFrame h r seq false)) := by simp only [State.beginFirst, hr]; rfl
  have links : s.SameLinks u :=
    ((s.popHead_links _).trans (State.modRecord_links _ _ _)).trans (State.entryLeft_links _ _ _)
  have queue : ∀ q, u.queue q = (s.popHead (.tx l c)).queue q := fun q => by
    simp only [u, State.setLinkHolder]; rw [State.entryLeft_spec]; split <;> rfl
  have record : u.record h = some (r.setHolder l (.sending seq)) := by
    simp [u, State.setLinkHolder, State.record_modRecord, hr]
  have same : ∀ g, g ≠ h → s.SameAt u g := fun g ne =>
    ((s.sameAt_popHead _ hq ne).trans (State.sameAt_modRecord _ _ ne)).trans (State.sameAt_entryLeft _ _ _ _)
  rw [e]
  refine ⟨State.quietAt_modPort_active (fun k ne => ?_) _ (by rw [links.state]; exact active),
    State.placedAt_focus hs.2 h (fun g ne => (same g ne).trans ?_) fun k => ?_⟩
  · refine (hs.1 k).of_links links fun c' e' => ?_
    rw [queue, State.queue_popHead, if_neg (by intro e; cases e; exact ne rfl)]
    exact e'
  · have begun : u.SameAt (u.modPort l fun p => { p with tx := { p.tx with line := .frame (txFrame h r seq false), idleTimer := none } })
        g := by
      refine State.sameAt_modPort u l _ .rfl (fun x hx => ?_) fun _ _ => .rfl
      rw [links.tx, line]
      refine ⟨fun e => ?_, fun e => nomatch e⟩
      cases e
      exact absurd hx ne.symm
    exact begun
  · by_cases e : k = l
    · subst e
      intro r' hr'
      rw [State.beginBlock, State.modTx, State.record_modPort, record] at hr'
      cases hr'
      rw [State.holderPlaced_iff, Record.holder_setHolder]
      refine ⟨nofun, fun q _ => ⟨txFrame h r seq false, ?_, rfl⟩, nofun⟩
      simp [State.beginBlock, LineBlock.first, txFrame]
    · have port : (u.beginBlock l (.frame (txFrame h r seq false))).port k = u.port k := by
        rw [State.beginBlock, State.modTx, State.port_modPort_cases, if_neg e]
      refine (hs.2 k h).mono (fun r' hr' => ?_) (fun c' hc => ?_) (fun hu => ?_) fun x _ hx => ?_
      · rw [State.beginBlock, State.modTx, State.record_modPort, record] at hr'
        cases hr'
        exact ⟨r, hr, r.holder_setHolder_ne _ e, r.setHolder_cls _ _⟩
      · rw [State.beginBlock, State.modTx, State.queue_modPort, queue, State.queue_popHead,
          if_neg (by intro e'; cases e'; exact e rfl)]
        exact hc
      · rw [port, links.tx]; exact hu
      · rw [port, links.tx]; exact hx

/-- What the end of a first transmission leaves: the handle at the tail of the list, its holder UNACKED. -/
theorem State.firstEnd_parts (s : State) (l : LinkId) (f : TxFrame) (r : Record) (hr : s.record f.handle = some r) :
    (∀ g, (s.firstEnd l f).record g = if f.handle = g then some (r.setHolder l (.unacked f.seq)) else s.record g) ∧
    (∀ q, (s.firstEnd l f).queue q = s.queue q) ∧ (∀ k, k ≠ l → (s.firstEnd l f).port k = s.port k) ∧
    ((s.firstEnd l f).port l).state = (s.port l).state ∧ ((s.firstEnd l f).port l).rx = (s.port l).rx ∧
    ((s.firstEnd l f).port l).tx.line = .none ∧ ((s.firstEnd l f).port l).tx.unacked = (s.port l).tx.unacked ++ [f.handle] ∧
    (s.firstEnd l f).buf.free = s.buf.free ∧
    ∀ c, ((s.firstEnd l f).port l).credit c =
      if c = r.cls then { (s.port l).credit c with sent := ((s.port l).credit c).sent + BitVec.ofNat 16 r.cells.length }
      else (s.port l).credit c := by
  have ports : ∀ (u : State) (h : Nat) (v : LinkHolder) (k : LinkId), (u.setLinkHolder l h v).port k = u.port k :=
    fun u h v k => by cases k <;> rfl
  simp only [State.firstEnd, hr]
  refine ⟨fun g => ?_, fun q => ?_, fun k ne => ?_, ?_, ?_, ?_, ?_, ?_, fun c => ?_⟩
  · rw [State.record_countLink, State.modCredit, State.record_modPort, State.record_modPort, State.setLinkHolder,
      State.record_modRecord, State.endFrame, State.modTx, State.record_modPort]
    split
    · rename_i e; rw [← e, hr]; rfl
    · rfl
  · simp [State.queue, State.setLinkHolder, State.modRecord, State.endFrame]
  · cases l <;> cases k <;> first | exact absurd rfl ne | rfl
  · simp [ports, State.endFrame]
  · simp [ports, State.endFrame]
  · simp [ports, State.endFrame]
  · simp [ports, State.endFrame]
  · simp [State.setLinkHolder, State.modRecord, State.endFrame]
  · cases c <;> cases hc : r.cls <;> simp [ports, State.endFrame, LinkPort.credit, LinkPort.modCredit]

theorem State.QuietPlaced.firstEnd (hs : s.QuietPlaced) {l : LinkId} {f : TxFrame} {r : Record}
    (line : (s.port l).tx.line = .frame f) (hr : s.record f.handle = some r) :
    (s.firstEnd l f).QuietPlaced := by
  obtain ⟨record, queue, ports, state, rx, line', unacked, -, -⟩ := s.firstEnd_parts l f r hr
  have active := (hs.1 l).active_of_line line
  refine ⟨fun k => ?_, State.placedAt_focus hs.2 f.handle (fun g ne => ?_) fun k => ?_⟩
  · by_cases e : k = l
    · subst e; exact State.quietAt_of_active (state.trans active)
    · exact (hs.1 k).of_side (by rw [ports k e]) fun c hc => by rwa [queue]
  · refine ⟨by rw [record, if_neg ne.symm], fun q => by rw [queue], fun k => ?_, fun k x hx => ?_, fun k x _ => ?_⟩
    all_goals by_cases e : k = l
    · subst e; simp [unacked, ne]
    · rw [ports k e]
    · subst e
      rw [line', line]
      refine ⟨fun e => (nomatch e), fun e => ?_⟩
      rw [(LineBlock.frame.inj (LineBlock.first_eq_some.1 e).1)] at ne
      exact absurd hx.symm ne
    · rw [ports k e]
    · subst e; rw [rx]
    · rw [ports k e]
  · by_cases e : k = l
    · subst e
      intro r' hr'
      rw [record, if_pos rfl] at hr'
      cases hr'
      rw [State.holderPlaced_iff, Record.holder_setHolder]
      exact ⟨nofun, nofun, fun _ _ => by simp [unacked]⟩
    · refine (hs.2 k f.handle).mono (fun r' hr' => ?_) (fun c hc => by rwa [queue]) (fun hu => ?_) fun x _ hx => ?_
      · rw [record, if_pos rfl] at hr'
        cases hr'
        exact ⟨r, hr, r.holder_setHolder_ne _ e, r.setHolder_cls _ _⟩
      · rw [ports k e]; exact hu
      · rw [ports k e]; exact hx

/-- A link's holder removed from a record, with the change of the port that takes the handle from its place there. -/
theorem State.QuietPlaced.removeLinkHolder (hs : s.QuietPlaced) {l : LinkId} (active : (s.port l).state = .active) (h : Nat)
    (f : LinkPort → LinkPort) (state : ∀ p, (f p).state = p.state)
    (same : ∀ g, g ≠ h → (s.removeLinkHolder l h).SameAt ((s.removeLinkHolder l h).modPort l f) g) :
    ((s.removeLinkHolder l h).modPort l f).QuietPlaced := by
  have links := s.removeHolder_links h fun r => r.setHolder l .none
  refine ⟨State.quietAt_modPort_active (fun k _ => ?_) f ?_,
    State.placedAt_focus hs.2 h (fun g ne => (s.sameAt_removeHolder _ ne).trans (same g ne)) fun k =>
      State.placedAt_removeLinkHolder hs.2 l k h f⟩
  · exact (hs.1 k).of_links links fun c hc => by simpa [State.queue, State.removeLinkHolder] using hc
  · rw [state]; exact (links.state l).trans active

theorem State.QuietPlaced.post (hs : s.QuietPlaced) {h : Nat} {r : Record} (d : Byte) (hops : BitVec 4) (links : List LinkId)
    (hr : s.record h = some r) (active : ∀ l ∈ links, s.isActive l = true) : (s.postTaken h r.cls d hops links).QuietPlaced := by
  -- the record and the queues; what follows is the unit's own
  let u := links.foldl (fun u l => u.append (.tx l r.cls) h) (s.modRecord h fun r => r.posted d s.nodeAddr hops links)
  have sides : s.SameLinks u := (s.modRecord_links _ _).trans (State.appendAll_links links r.cls h _)
  have mem : ∀ q g, g ∈ (u.queue q).entries ↔ g ∈ (s.queue q).entries ∨ (g = h ∧ ∃ m ∈ links, q = .tx m r.cls) :=
    fun q g => State.mem_appendAll links r.cls h _ q g
  have record : u.record h = some (r.posted d s.nodeAddr hops links) := by
    have e : u.record h = (s.modRecord h fun r => r.posted d s.nodeAddr hops links).record h := by
      simp only [u, State.record, State.appendAll_buf]
    rw [e, State.record_modRecord, if_pos rfl, hr]; rfl
  have done : u.QuietPlaced := by
    refine hs.of_links sides (fun l c off e => ?_) h
      (fun g ne => (s.sameAt_modRecord _ ne).trans (State.sameAt_appendAll links r.cls _ ne)) fun k => ?_
    · refine List.eq_nil_iff_forall_not_mem.2 fun g hg => ?_
      rcases (mem _ g).1 hg with hg | ⟨-, m, hm, e'⟩
      · rw [e] at hg; cases hg
      · cases e'; exact off ((s.isActive_iff _).1 (active _ hm))
    · by_cases e : k ∈ links
      · intro r' hr'
        rw [record] at hr'
        cases hr'
        rw [State.holderPlaced_iff, Record.holder_posted, if_pos e]
        exact ⟨fun _ => (mem _ _).2 (.inr ⟨rfl, k, e, by rw [Record.posted_cls]⟩), nofun, nofun⟩
      · refine (hs.2 k h).mono (fun r' hr' => ?_) (fun c hc => (mem _ _).2 (.inl hc)) (fun hu => by rw [sides.tx]; exact hu)
          fun x _ hx => by rw [sides.tx]; exact hx
        rw [record] at hr'
        cases hr'
        exact ⟨r, hr, by rw [Record.holder_posted, if_neg e], by rw [Record.posted_cls]⟩
  have last : s.postTaken h r.cls d hops links = ((u.setHeld (s.hcu.held - 1)).closePort h).answer .ok { r0 := wordOfNat h } := rfl
  rw [last]
  exact done.of_same ((State.closePort_links _ _)) (fun q => by simp [State.queue]) fun g => by simp [State.record]

theorem State.QuietPlaced.claim (hs : s.QuietPlaced) (c : Cls) {h : Nat} {rest : List Nat}
    (hq : (s.queue (.host c)).entries = h :: rest) : (s.claimTaken c h).QuietPlaced := by
  let u := (s.popHead (.host c)).modRecord h fun r => { r with host := .claimed }
  have sides : s.SameLinks u := (s.popHead_links _).trans (State.modRecord_links _ _ _)
  have queue : ∀ k c', u.queue (.tx k c') = s.queue (.tx k c') := fun k c' => by
    have e := s.queue_popHead (.host c) (.tx k c')
    rwa [if_neg nofun] at e
  have done : u.QuietPlaced := by
    refine hs.of_links sides (fun l c' _ e => by rw [queue]; exact e) h
      (fun g ne => (s.sameAt_popHead _ hq ne).trans (State.sameAt_modRecord _ _ ne)) fun k => ?_
    refine (hs.2 k h).mono (fun r' hr' => ?_) (fun c' hc => by rw [queue]; exact hc) (fun hu => by rw [sides.tx]; exact hu)
      fun x _ hx => by rw [sides.tx]; exact hx
    rw [State.record_modRecord, if_pos rfl, State.record_popHead] at hr'
    obtain ⟨r, hr, rfl⟩ := Option.map_eq_some_iff.1 hr'
    exact ⟨r, hr, by cases k <;> rfl, rfl⟩
  unfold State.claimTaken
  dsimp only
  split <;> exact done.of_same (.of_port fun l => by cases l <;> rfl) (fun _ => rfl) fun _ => rfl

/-- Every move keeps what quiet links have and where holders stand. -/
theorem Move.quietPlaced {t : State} (m : Move s t) (hs : s.QuietPlaced) (same : t.core = s.core → t.QuietPlaced) : t.QuietPlaced := by
  have off : ∀ {l : LinkId} {st : LinkState}, (s.port l).state = st → st ≠ .active → s.PlacesClear l := fun {l st} e ne =>
    hs.1 l (by rw [e]; exact ne)
  cases m with
  | same h => exact same h
  | @hunt l _ live =>
    have clear := off (l := l) rfl fun e => by rw [e] at live; cases live
    exact hs.modPort l _ rfl (LineBlock.first_eq_none_of_isFrame clear.line).symm fun _ =>
      clear.modPort _ rfl (fun c => by cases c <;> [exact clear.counts .control; exact clear.counts .data]) rfl rfl
  | @greet l st _ =>
    have clear := off st nofun
    exact hs.modPort l _ rfl rfl fun _ =>
      clear.modPort _ rfl (fun c => by cases c <;> exact ⟨rfl, rfl, rfl, rfl⟩) rfl clear.line
  | @active l _ => exact hs.modPort l _ rfl rfl (State.quietAt_of_active (by rw [State.port_modPort]))
  | @quiet l target queue unacked frame line live _ =>
    exact hs.modPort l _ rfl rfl fun _ => ⟨fun c => by rw [State.queue_modPort]; exact queue c, by rw [State.port_modPort]; exact unacked,
      fun c => by rw [State.port_modPort]; cases c <;> exact ⟨rfl, rfl, rfl, rfl⟩, by rw [State.port_modPort]; exact frame,
      by rw [State.port_modPort]; exact line⟩
  | @decideGrant l c active => exact hs.modCredit ((s.isActive_iff l).1 active) c _
  | @grantTaken l c v active => exact hs.modCredit ((s.isActive_iff l).1 active) c _
  | @line l b first first' isFrame =>
    refine hs.modPort l _ rfl (first'.trans first.symm) fun inactive => ?_
    rw [State.port_modPort] at inactive
    have clear := hs.1 l inactive
    exact clear.modPort _ rfl clear.counts rfl
      (Bool.eq_false_iff.2 fun hb => inactive ((s.isActive_iff l).1 (isFrame hb)))
  | takeIn active _ _ _ _ => exact hs.takeIn _ ((s.isActive_iff _).1 active)
  | giveBack frame => exact hs.giveBack frame
  | @unframe l f frame =>
    exact (hs.freeRecord f.handle).unframed (((s.freeRecord_links f.handle).state l).trans ((hs.1 l).active_of_frame frame))
  | @keepHeld l f r frame _ _ => exact hs.unframed ((hs.1 l).active_of_frame frame)
  | @accept l f c host fwd frame cls _ active =>
    exact (hs.enterParts l.other c f.handle host fwd cls active).unframed
      (((s.enterParts_links _ _ _ _ _).state l).trans ((hs.1 l).active_of_frame frame))
  | dropHead hq => exact hs.dropHead hq
  | beginFirst active line hq hr => exact hs.beginFirst ((s.isActive_iff _).1 active) line hq hr
  | firstEnd line _ hr => exact hs.firstEnd line hr
  | @firstGone l f line first =>
    refine hs.removeLinkHolder ((hs.1 l).active_of_line line) f.handle _ (fun _ => rfl) fun g ne =>
      State.sameAt_onLine _ l .none (fun x hx => ?_) nofun
    rw [State.removeLinkHolder, State.port_removeHolder_tx, line] at hx
    obtain ⟨e, -⟩ := LineBlock.first_eq_some.1 hx
    cases e
    exact ne.symm
  | @unlist l h rest unacked =>
    have active : (s.port l).state = .active := by
      by_contra inactive
      rw [(hs.1 l inactive).unacked] at unacked
      cases unacked
    exact hs.removeLinkHolder active h _ (fun _ => rfl) fun g ne =>
      State.sameAt_unlisted _ l (by rw [State.removeLinkHolder, State.port_removeHolder_tx]; exact unacked) ne
  | @alloc length c _ _ _ _ =>
    exact (hs.allocate (cellsFor length) (hostRecord length c) fun k => by cases k <;> rfl).of_same
      (.of_port fun l => by cases l <;> rfl) (fun _ => rfl) fun _ => rfl
  | post hr _ _ _ active => exact hs.post _ _ _ hr active
  | claim hq _ => exact hs.claim _ hq
  | @release h r _ =>
    exact (hs.removeHostHolder h).of_same (State.closePort_links _ h) (fun q => by simp [State.queue, State.releaseTaken])
      fun g => by simp [State.record, State.releaseTaken]
  | flush _ => exact hs.of_same (.of_port fun l => by cases l <;> rfl) (fun _ => rfl) fun _ => rfl
  | resetInput =>
    refine ⟨fun l _ => ?_, fun l h r hr => nomatch hr⟩
    cases l <;>
      exact ⟨fun c => by cases c <;> rfl, rfl, fun c => by cases c <;> exact ⟨rfl, rfl, rfl, rfl⟩, rfl, rfl⟩
  | init _ =>
    have parts : (∀ g, s.initTaken.record g = none) ∧ (∀ q, s.initTaken.queue q = s.queue q) ∧
        ∀ l, s.initTaken.port l = s.port l := by
      unfold State.initTaken State.passAtReady
      split <;> exact ⟨fun _ => rfl, fun _ => rfl, fun l => by cases l <;> rfl⟩
    obtain ⟨record, queue, ports⟩ := parts
    exact ⟨fun l => (hs.1 l).of_side (by rw [ports]) fun c hc => by rwa [queue], fun l h r hr => by rw [record] at hr; cases hr⟩
  | softReset =>
    refine ⟨fun l _ => ?_, fun l h r hr => nomatch hr⟩
    cases l <;>
      exact ⟨fun c => by cases c <;> rfl, rfl, fun c => by cases c <;> exact ⟨rfl, rfl, rfl, rfl⟩, rfl, rfl⟩

end

/-- Every move keeps the law of quiet links. -/
theorem Move.quietLinksClear {s t : State} (m : Move s t) (hs : s.QuietLinksClear) : t.QuietLinksClear := by
  obtain ⟨quiet, placed, sorted⟩ := s.quietLinksClear_iff.1 hs
  obtain ⟨quiet', placed'⟩ := m.quietPlaced ⟨quiet, placed⟩ fun e => by
    have := (State.quietLinksClear_core t).1 (e ▸ (State.quietLinksClear_core s).2 hs)
    obtain ⟨a, b, -⟩ := t.quietLinksClear_iff.1 this
    exact ⟨a, b⟩
  exact t.quietLinksClear_iff.2 ⟨quiet', placed', m.sorted sorted⟩

/-- Settles O54: each move takes a holder from a link's side together with its place, and puts one there only while the link is ACTIVE. -/
theorem quietLinkLawKept : Obligations.QuietLinkLawKept := by
  unfold Obligations.QuietLinkLawKept
  intro s t hs e
  exact step_keeps (P := State.QuietLinksClear) (fun _ _ m h => m.quietLinksClear h) (fun _ _ h => h) s t hs e

end Sys2Proof.Machine
end

