-- ==== Sys2Proof/Proofs/HolderRules.lean ====
section
/-! SUPPORT. The law of records, holders and the places that name them (R9, R12, R24), taken apart handle by handle. -/

namespace Sys2Proof.Machine

/-! ## The law in parts -/

/-- What a receiver's frame says of its record (R12, R72). -/
def RxFrame.Names (l : LinkId) (f : RxFrame) (r : Record) : Prop :=
  r.phase = .filling (.link l) ∧ r.origin = .link l ∧ r.cls = (headerFields f.header).cls ∧
    r.cells.length = (headerLength f.header + 63) / 64

/-- The law at one handle: what each place that names it says of its record, and what its record says of the places. -/
structure State.FitAt (s : State) (h : Nat) : Prop where
  host : ∀ c, h ∈ (s.queue (.host c)).entries → ∃ r, s.record h = some r ∧ r.cls = c ∧ r.host = .queued
  tx : ∀ l c, h ∈ (s.queue (.tx l c)).entries → ∃ r, s.record h = some r ∧ r.cls = c ∧ r.holder l = .queued
  unacked : ∀ l, h ∈ (s.port l).tx.unacked → ∃ r seq, s.record h = some r ∧ r.holder l = .unacked seq
  first : ∀ l f, (s.port l).tx.line.first = some f → f.handle = h → ∃ r, s.record h = some r ∧ r.holder l = .sending f.seq
  frame : ∀ l f, (s.port l).rx.frame = some f → f.handle = h → ∃ r, s.record h = some r ∧ f.Names l r
  fit : ∀ r, s.record h = some r → r.HoldersFit
  queued : ∀ r, s.record h = some r → r.host = .queued → h ∈ (s.queue (.host r.cls)).entries
  filling : ∀ r, s.record h = some r → ∀ l, r.phase = .filling (.link l) → ∃ f, (s.port l).rx.frame = some f ∧ f.handle = h

/-- No queue and no list names a handle twice. -/
def State.NodupPlaces (s : State) : Prop :=
  (∀ q, (s.queue q).entries.Nodup) ∧ ∀ l, (s.port l).tx.unacked.Nodup

theorem State.holdersAgree_iff (s : State) :
    s.HoldersAgree ↔ s.CellsAccounted ∧ s.NodupPlaces ∧ ∀ h, s.FitAt h := by
  unfold State.HoldersAgree State.ListsNameHolders
  constructor
  · rintro ⟨cells, ⟨host, tx, unacked, first, frame⟩, records⟩
    refine ⟨cells, ⟨fun q => ?_, fun l => (unacked l).1⟩, fun h => ?_⟩
    · cases q with
      | host c => exact (host c).1
      | tx l c => exact (tx l c).1
    · refine ⟨fun c => (host c).2 h, fun l c => (tx l c).2 h, fun l => (unacked l).2 h, fun l f hf e => ?_, fun l f hf e => ?_,
        fun r hr => ?_, fun r hr => ?_, fun r hr => ?_⟩
      · obtain ⟨hl, resend⟩ := LineBlock.first_eq_some.1 hf
        subst e; exact first l f hl resend
      · subst e; exact frame l f hf
      · exact (records _ (Sparse.mem_of_lookup hr)).1
      · exact (records _ (Sparse.mem_of_lookup hr)).2.1
      · exact (records _ (Sparse.mem_of_lookup hr)).2.2
  · rintro ⟨cells, ⟨queues, lists⟩, fit⟩
    refine ⟨cells, ⟨fun c => ⟨queues _, fun h => (fit h).host c⟩, fun l c => ⟨queues _, fun h => (fit h).tx l c⟩,
      fun l => ⟨lists l, fun h => (fit h).unacked l⟩,
      fun l f hl resend => (fit f.handle).first l f (LineBlock.first_eq_some.2 ⟨hl, resend⟩) rfl,
      fun l f hf => (fit f.handle).frame l f hf rfl⟩, fun e he => ?_⟩
    have hr := (Sparse.mem_iff_lookup cells.2.2.2 e).1 he
    exact ⟨(fit e.1).fit _ hr, (fit e.1).queued _ hr, (fit e.1).filling _ hr⟩

/-- No queue, list or line names a handle. -/
structure State.Nowhere (s : State) (h : Nat) : Prop where
  queue : ∀ q, h ∉ (s.queue q).entries
  unacked : ∀ l, h ∉ (s.port l).tx.unacked
  first : ∀ l f, (s.port l).tx.line.first = some f → f.handle ≠ h

section
variable {s t : State} {h : Nat}

/-- A record that no queue holds and no link holds is named by no queue, list or line. -/
theorem State.FitAt.nowhere (fs : s.FitAt h) (host : ∀ r, s.record h = some r → r.host ≠ .queued)
    (links : ∀ r, s.record h = some r → ∀ l, r.holder l = .none) : s.Nowhere h := by
  refine ⟨fun q hq => ?_, fun l hl => ?_, fun l f hf e => ?_⟩
  · cases q with
    | host c => obtain ⟨r, hr, -, hh⟩ := fs.host c hq; exact host r hr hh
    | tx l c => obtain ⟨r, hr, -, hh⟩ := fs.tx l c hq; rw [links r hr l] at hh; cases hh
  · obtain ⟨r, q, hr, hh⟩ := fs.unacked l hl; rw [links r hr l] at hh; cases hh
  · obtain ⟨r, hr, hh⟩ := fs.first l f hf e; rw [links r hr l] at hh; cases hh

/-- A FREE slot is named by no queue, list or line, and by no receiver. -/
theorem State.FitAt.nowhere_of_none (fs : s.FitAt h) (none : s.record h = none) :
    s.Nowhere h ∧ ∀ l f, (s.port l).rx.frame = some f → f.handle ≠ h := by
  refine ⟨fs.nowhere (fun r hr => ?_) (fun r hr => ?_), fun l f hf e => ?_⟩
  · rw [none] at hr; cases hr
  · rw [none] at hr; cases hr
  · obtain ⟨r, hr, -⟩ := fs.frame l f hf e
    rw [none] at hr; cases hr

theorem State.Nowhere.of_same (ns : s.Nowhere h) (same : s.SameAt t h) : t.Nowhere h :=
  ⟨fun q => mt (same.queue q).1 (ns.queue q), fun l => mt (same.unacked l).1 (ns.unacked l),
    fun l f hf e => ns.first l f ((same.first l f e).1 hf) e⟩

theorem State.FitAt.of_same (fs : s.FitAt h) (same : s.SameAt t h) : t.FitAt h := by
  refine ⟨fun c hc => ?_, fun l c hc => ?_, fun l hl => ?_, fun l f hf e => ?_, fun l f hf e => ?_, fun r hr => ?_, fun r hr hq => ?_,
    fun r hr l hp => ?_⟩
  · rw [same.record]; exact fs.host c ((same.queue _).1 hc)
  · rw [same.record]; exact fs.tx l c ((same.queue _).1 hc)
  · rw [same.record]; exact fs.unacked l ((same.unacked l).1 hl)
  · rw [same.record]; exact fs.first l f ((same.first l f e).1 hf) e
  · rw [same.record]; exact fs.frame l f ((same.frame l f e).1 hf) e
  · rw [same.record] at hr; exact fs.fit r hr
  · rw [same.record] at hr; exact (same.queue _).2 (fs.queued r hr hq)
  · rw [same.record] at hr
    obtain ⟨f, hf, e⟩ := fs.filling r hr l hp
    exact ⟨f, (same.frame l f e).2 hf, e⟩

/-- A slot that is FREE and named nowhere. -/
theorem State.FitAt.of_free (none : t.record h = none) (nowhere : t.Nowhere h)
    (frame : ∀ l f, (t.port l).rx.frame = some f → f.handle ≠ h) : t.FitAt h := by
  have no : ∀ r, t.record h ≠ some r := fun r hr => by rw [none] at hr; cases hr
  exact ⟨fun c hc => absurd hc (nowhere.queue _), fun l c hc => absurd hc (nowhere.queue _), fun l hl => absurd hl (nowhere.unacked l),
    fun l f hf e => absurd e (nowhere.first l f hf), fun l f hf e => absurd e (frame l f hf), fun r hr => absurd hr (no r),
    fun r hr => absurd hr (no r), fun r hr => absurd hr (no r)⟩

/-- A record with at least one of a host QUEUED or CLAIMED holder and a link's holder is LIVE. -/
theorem Record.HoldersFit.live {r : Record} (fit : r.HoldersFit)
    (held : r.host = .queued ∨ r.host = .claimed ∨ ∃ l, r.holder l ≠ .none) : r.phase = .live := by
  unfold Record.HoldersFit at fit
  split at fit
  · obtain ⟨host, a, b⟩ := fit
    rcases held with e | e | ⟨l, ne⟩
    · rw [host] at e; cases e
    · rw [host] at e; cases e
    · cases l <;> [exact absurd a ne; exact absurd b ne]
  · obtain ⟨host, a, b⟩ := fit
    rcases held with e | e | ⟨l, ne⟩
    · rw [host] at e; cases e
    · rw [host] at e; cases e
    · cases l <;> [exact absurd a ne; exact absurd b ne]
  · assumption

theorem Record.holdersFit_live {r : Record} (live : r.phase = .live) :
    r.HoldersFit ↔ r.host ≠ .filling ∧ r.refCount ≠ 0 := by
  have count : r.refCount ≠ 0 ↔ ¬(r.host = .none ∧ r.linkA = .none ∧ r.linkB = .none) := by
    unfold Record.refCount
    by_cases a : r.host = .none <;> by_cases b : r.linkA = .none <;> by_cases c : r.linkB = .none <;> simp [a, b, c]
  rw [count]
  unfold Record.HoldersFit
  rw [live]

theorem Record.refCount_ne_zero {r : Record} (held : r.host ≠ .none ∨ ∃ l, r.holder l ≠ .none) : r.refCount ≠ 0 := by
  unfold Record.refCount
  rcases held with e | ⟨_ | _, e⟩
  · rw [if_neg e]; omega
  · rw [if_neg (show ¬ r.linkA = .none from e)]; omega
  · rw [if_neg (show ¬ r.linkB = .none from e)]; omega

/-- A holder removed from a LIVE record, or from one that the host fills, with the place that stood for it. -/
theorem State.FitAt.removed (fs : s.FitAt h) {r : Record} (hr : s.record h = some r) (phase : ∀ l, r.phase ≠ .filling (.link l))
    (r' : Record) (record : t.record h = if r'.refCount = 0 then none else some r') (cls : r'.cls = r.cls) (phase' : r'.phase = r.phase)
    (fit : r'.refCount ≠ 0 → r'.HoldersFit)
    (host : ∀ c, h ∈ (t.queue (.host c)).entries → h ∈ (s.queue (.host c)).entries ∧ r'.host = r.host)
    (host' : r'.host = .queued → r.host = .queued ∧ ∀ c, h ∈ (s.queue (.host c)).entries → h ∈ (t.queue (.host c)).entries)
    (tx : ∀ l c, h ∈ (t.queue (.tx l c)).entries → h ∈ (s.queue (.tx l c)).entries ∧ r'.holder l = r.holder l)
    (unacked : ∀ l, h ∈ (t.port l).tx.unacked → h ∈ (s.port l).tx.unacked ∧ r'.holder l = r.holder l)
    (first : ∀ l f, (t.port l).tx.line.first = some f → f.handle = h → (s.port l).tx.line.first = some f ∧ r'.holder l = r.holder l)
    (frame : ∀ l f, f.handle = h → (t.port l).rx.frame = some f → (s.port l).rx.frame = some f) : t.FitAt h := by
  have there : (r'.host ≠ .none ∨ ∃ l, r'.holder l ≠ .none) → t.record h = some r' := fun held => by
    rw [record, if_neg (Record.refCount_ne_zero held)]
  have mine : ∀ x, t.record h = some x → x = r' ∧ r'.refCount ≠ 0 := fun x hx => by
    rw [record] at hx
    split at hx
    · cases hx
    · rename_i held; cases hx; exact ⟨rfl, held⟩
  have old : ∀ x, s.record h = some x → x = r := fun x hx => by rw [hr] at hx; cases hx; rfl
  refine ⟨fun c hc => ?_, fun l c hc => ?_, fun l hl => ?_, fun l f hf e => ?_, fun l f hf e => ?_, fun x hx => ?_, fun x hx hq => ?_,
    fun x hx l hp => ?_⟩
  · obtain ⟨hs, e⟩ := host c hc
    obtain ⟨x, hx, hc, hq⟩ := fs.host c hs
    rw [old x hx] at hc hq
    exact ⟨r', there (.inl (by rw [e, hq]; nofun)), cls.trans hc, e.trans hq⟩
  · obtain ⟨hs, e⟩ := tx l c hc
    obtain ⟨x, hx, hc, hq⟩ := fs.tx l c hs
    rw [old x hx] at hc hq
    exact ⟨r', there (.inr ⟨l, by rw [e, hq]; nofun⟩), cls.trans hc, e.trans hq⟩
  · obtain ⟨hs, e⟩ := unacked l hl
    obtain ⟨x, q, hx, hq⟩ := fs.unacked l hs
    rw [old x hx] at hq
    exact ⟨r', q, there (.inr ⟨l, by rw [e, hq]; nofun⟩), e.trans hq⟩
  · obtain ⟨hs, e'⟩ := first l f hf e
    obtain ⟨x, hx, hq⟩ := fs.first l f hs e
    rw [old x hx] at hq
    exact ⟨r', there (.inr ⟨l, by rw [e', hq]; nofun⟩), e'.trans hq⟩
  · obtain ⟨x, hx, hp, -⟩ := fs.frame l f (frame l f e hf) e
    rw [old x hx] at hp
    exact absurd hp (phase l)
  · obtain ⟨rfl, held⟩ := mine x hx; exact fit held
  · obtain ⟨rfl, -⟩ := mine x hx
    obtain ⟨hq', keep⟩ := host' hq
    rw [cls]; exact keep _ (fs.queued r hr hq')
  · obtain ⟨rfl, -⟩ := mine x hx
    exact absurd (phase'.symm.trans hp) (phase l)

/-- The law does not see what the core leaves out. -/
theorem State.FitAt.of_core (fs : s.FitAt h) (core : t.core = s.core) : t.FitAt h := by
  have queue : ∀ q, (t.queue q).entries = (s.queue q).entries := fun q => by rw [← t.queue_core, core, s.queue_core]
  have record : (t.record h).map Record.clean = (s.record h).map Record.clean := by
    rw [← t.record_core, core, s.record_core]
  have forth : ∀ r, s.record h = some r → ∃ r', t.record h = some r' ∧ r'.clean = r.clean := fun r hr => by
    rw [hr] at record; exact Option.map_eq_some_iff.1 record
  have back : ∀ r', t.record h = some r' → ∃ r, s.record h = some r ∧ r'.clean = r.clean := fun r' hr => by
    rw [hr] at record
    obtain ⟨r, hr, e⟩ := Option.map_eq_some_iff.1 record.symm
    exact ⟨r, hr, e.symm⟩
  have holder : ∀ {r r' : Record} (l : LinkId), r'.clean = r.clean → r'.holder l = r.holder l := fun l e => by
    cases l
    · exact (congrArg Record.linkA e :)
    · exact (congrArg Record.linkB e :)
  have cls : ∀ {r r' : Record}, r'.clean = r.clean → r'.cls = r.cls := fun e => (congrArg Record.cls e :)
  have hostOf : ∀ {r r' : Record}, r'.clean = r.clean → r'.host = r.host := fun e => (congrArg Record.host e :)
  have phase : ∀ {r r' : Record}, r'.clean = r.clean → r'.phase = r.phase := fun e => (congrArg Record.phase e :)
  have port := State.core_port core
  have unacked : ∀ l, (t.port l).tx.unacked = (s.port l).tx.unacked := fun l => (congrArg (fun p : LinkPort => p.tx.unacked) (port l) :)
  have first : ∀ l f, (t.port l).tx.line.first = some f →
      ∃ f', (s.port l).tx.line.first = some f' ∧ f'.handle = f.handle ∧ f'.seq = f.seq := fun l f hf => by
    have e : (t.port l).tx.line.core.first = (s.port l).tx.line.core.first :=
      (congrArg (fun p : LinkPort => p.tx.line.first) (port l) :)
    rw [LineBlock.first_core, LineBlock.first_core, hf] at e
    obtain ⟨f', hf', e⟩ := Option.map_eq_some_iff.1 e.symm
    exact ⟨f', hf', (congrArg TxFrame.handle e :), (congrArg TxFrame.seq e :)⟩
  have frames : ∀ l, (t.port l).rx.frame.map RxFrame.core = (s.port l).rx.frame.map RxFrame.core := fun l =>
    (congrArg (fun p : LinkPort => p.rx.frame) (port l) :)
  refine ⟨fun c hc => ?_, fun l c hc => ?_, fun l hl => ?_, fun l f hf e => ?_, fun l f hf e => ?_, fun x hx => ?_, fun x hx hq => ?_,
    fun x hx l hp => ?_⟩
  · obtain ⟨r, hr, a, b⟩ := fs.host c (by rwa [← queue])
    obtain ⟨r', hr', e⟩ := forth r hr
    exact ⟨r', hr', (cls e).trans a, (hostOf e).trans b⟩
  · obtain ⟨r, hr, a, b⟩ := fs.tx l c (by rwa [← queue])
    obtain ⟨r', hr', e⟩ := forth r hr
    exact ⟨r', hr', (cls e).trans a, (holder l e).trans b⟩
  · obtain ⟨r, q, hr, a⟩ := fs.unacked l (by rwa [← unacked])
    obtain ⟨r', hr', e⟩ := forth r hr
    exact ⟨r', q, hr', (holder l e).trans a⟩
  · obtain ⟨f', hf', eh, es⟩ := first l f hf
    obtain ⟨r, hr, a⟩ := fs.first l f' hf' (eh.trans e)
    obtain ⟨r', hr', e'⟩ := forth r hr
    exact ⟨r', hr', by rw [holder l e', a, es]⟩
  · have m := frames l
    rw [hf] at m
    obtain ⟨f', hf', e'⟩ := Option.map_eq_some_iff.1 m.symm
    have eh : f'.handle = f.handle := (congrArg RxFrame.handle e' :)
    have hh : f'.header = f.header := (congrArg RxFrame.header e' :)
    obtain ⟨r, hr, a, b, c, d⟩ := fs.frame l f' hf' (eh.trans e)
    obtain ⟨r', hr', e''⟩ := forth r hr
    rw [hh] at c d
    exact ⟨r', hr', (phase e'').trans a, ((congrArg Record.origin e'' :) : r'.origin = r.origin).trans b, (cls e'').trans c,
      (congrArg List.length (congrArg Record.cells e'' :) : r'.cells.length = r.cells.length).trans d⟩
  · obtain ⟨r, hr, e⟩ := back x hx
    have fit := fs.fit r hr
    unfold Record.HoldersFit at *
    have a : x.linkA = r.linkA := holder .a e
    have b : x.linkB = r.linkB := holder .b e
    rw [phase e, hostOf e, a, b]
    exact fit
  · obtain ⟨r, hr, e⟩ := back x hx
    rw [queue, cls e]
    exact fs.queued r hr ((hostOf e).symm.trans hq)
  · obtain ⟨r, hr, e⟩ := back x hx
    obtain ⟨f, hf, eh⟩ := fs.filling r hr l ((phase e).symm.trans hp)
    have m := frames l
    rw [hf] at m
    obtain ⟨f', hf', e'⟩ := Option.map_eq_some_iff.1 m
    exact ⟨f', hf', ((congrArg RxFrame.handle e' :) : f'.handle = f.handle).trans eh⟩

end

end Sys2Proof.Machine
end

