-- ==== Sys2Proof/Proofs/HolderLaw.lean ====
section
/-! SUPPORT. The law of records, holders and the places that name them (R9, R12, R24), move by move. -/

namespace Sys2Proof.Machine

/-! ## What a place says of the record at hand -/

section
variable {s t : State} {h : Nat} {r : Record}

theorem State.FitAt.of_host (fs : s.FitAt h) (hr : s.record h = some r) {c : Cls} (hq : h ∈ (s.queue (.host c)).entries) :
    r.cls = c ∧ r.host = .queued := by
  obtain ⟨x, hx, e⟩ := fs.host c hq
  rw [hr] at hx; cases hx; exact e

theorem State.FitAt.of_tx (fs : s.FitAt h) (hr : s.record h = some r) {l : LinkId} {c : Cls} (hq : h ∈ (s.queue (.tx l c)).entries) :
    r.cls = c ∧ r.holder l = .queued := by
  obtain ⟨x, hx, e⟩ := fs.tx l c hq
  rw [hr] at hx; cases hx; exact e

theorem State.FitAt.of_unacked (fs : s.FitAt h) (hr : s.record h = some r) {l : LinkId} (hu : h ∈ (s.port l).tx.unacked) :
    ∃ q, r.holder l = .unacked q := by
  obtain ⟨x, q, hx, e⟩ := fs.unacked l hu
  rw [hr] at hx; cases hx; exact ⟨q, e⟩

theorem State.FitAt.of_first (fs : s.FitAt h) (hr : s.record h = some r) {l : LinkId} {f : TxFrame}
    (hf : (s.port l).tx.line.first = some f) (e : f.handle = h) : r.holder l = .sending f.seq := by
  obtain ⟨x, hx, e⟩ := fs.first l f hf e
  rw [hr] at hx; cases hx; exact e

theorem State.FitAt.of_frame (fs : s.FitAt h) (hr : s.record h = some r) {l : LinkId} {f : RxFrame}
    (hf : (s.port l).rx.frame = some f) (e : f.handle = h) : f.Names l r := by
  obtain ⟨x, hx, e⟩ := fs.frame l f hf e
  rw [hr] at hx; cases hx; exact e

/-- A record that is not being filled by a link is no receiver's frame. -/
theorem State.FitAt.no_frame (fs : s.FitAt h) (hr : s.record h = some r) (phase : ∀ l, r.phase ≠ .filling (.link l)) {l : LinkId}
    {f : RxFrame} (hf : (s.port l).rx.frame = some f) : f.handle ≠ h := fun e =>
  phase l (fs.of_frame hr hf e).1

/-- The frame that a receiver writes: its record, which no queue, list, line or other receiver names. -/
theorem State.FitAt.arrival (fs : s.FitAt h) {l : LinkId} {f : RxFrame} (hf : (s.port l).rx.frame = some f) (e : f.handle = h) :
    ∃ r, s.record h = some r ∧ f.Names l r ∧ r.host = .none ∧ (∀ k, r.holder k = .none) ∧ s.Nowhere h ∧
      ∀ k g, k ≠ l → (s.port k).rx.frame = some g → g.handle ≠ h := by
  obtain ⟨r, hr, names⟩ := fs.frame l f hf e
  have fit := fs.fit r hr
  unfold Record.HoldersFit at fit
  rw [names.1] at fit
  obtain ⟨host, a, b⟩ := fit
  have links : ∀ k, r.holder k = .none := fun k => by cases k <;> [exact a; exact b]
  refine ⟨r, hr, names, host, links, fs.nowhere (fun x hx => ?_) (fun x hx => ?_), fun k g ne hg eg => ?_⟩
  · rw [hr] at hx; cases hx; rw [host]; nofun
  · rw [hr] at hx; cases hx; exact links
  · have := (fs.of_frame hr hg eg).1
    rw [names.1] at this
    cases this
    exact ne rfl

/-- A LIVE record in its places. -/
theorem State.FitAt.of_live (record : t.record h = some r) (live : r.phase = .live) (notFilling : r.host ≠ .filling)
    (held : r.host ≠ .none ∨ ∃ l, r.holder l ≠ .none)
    (host : ∀ c, h ∈ (t.queue (.host c)).entries → r.cls = c ∧ r.host = .queued)
    (tx : ∀ l c, h ∈ (t.queue (.tx l c)).entries → r.cls = c ∧ r.holder l = .queued)
    (unacked : ∀ l, h ∈ (t.port l).tx.unacked → ∃ q, r.holder l = .unacked q)
    (first : ∀ l f, (t.port l).tx.line.first = some f → f.handle = h → r.holder l = .sending f.seq)
    (frame : ∀ l f, (t.port l).rx.frame = some f → f.handle ≠ h)
    (queued : r.host = .queued → h ∈ (t.queue (.host r.cls)).entries) : t.FitAt h := by
  have mine : ∀ x, t.record h = some x → x = r := fun x hx => by rw [record] at hx; cases hx; rfl
  refine ⟨fun c hc => ⟨r, record, host c hc⟩, fun l c hc => ⟨r, record, tx l c hc⟩, fun l hl => ?_,
    fun l f hf e => ⟨r, record, first l f hf e⟩, fun l f hf e => absurd e (frame l f hf), fun x hx => ?_, fun x hx => ?_,
    fun x hx l hp => ?_⟩
  · obtain ⟨q, e⟩ := unacked l hl; exact ⟨r, q, record, e⟩
  · rw [mine x hx]; exact (Record.holdersFit_live live).2 ⟨notFilling, Record.refCount_ne_zero held⟩
  · rw [mine x hx]; exact queued
  · rw [mine x hx, live] at hp; cases hp

/-- A record being filled, which no queue, list or line names. -/
theorem State.FitAt.of_filling (record : t.record h = some r) (nowhere : t.Nowhere h) (fit : r.HoldersFit) (host : r.host ≠ .queued)
    (frame : ∀ l f, (t.port l).rx.frame = some f → f.handle = h → f.Names l r)
    (filling : ∀ l, r.phase = .filling (.link l) → ∃ f, (t.port l).rx.frame = some f ∧ f.handle = h) : t.FitAt h := by
  have mine : ∀ x, t.record h = some x → x = r := fun x hx => by rw [record] at hx; cases hx; rfl
  exact ⟨fun c hc => absurd hc (nowhere.queue _), fun l c hc => absurd hc (nowhere.queue _), fun l hl => absurd hl (nowhere.unacked l),
    fun l f hf e => absurd e (nowhere.first l f hf), fun l f hf e => ⟨r, record, frame l f hf e⟩, fun x hx => mine x hx ▸ fit,
    fun x hx => by rw [mine x hx]; exact fun e => absurd e host, fun x hx => by rw [mine x hx]; exact filling⟩

end

/-! ## No handle twice in a queue or list -/

section
variable {s t : State}

theorem State.NodupPlaces.of_sublist (hs : s.NodupPlaces) (queue : ∀ q, (t.queue q).entries.Sublist (s.queue q).entries)
    (unacked : ∀ l, (t.port l).tx.unacked.Sublist (s.port l).tx.unacked) : t.NodupPlaces :=
  ⟨fun q => (hs.1 q).sublist (queue q), fun l => (hs.2 l).sublist (unacked l)⟩

theorem State.NodupPlaces.of_links (hs : s.NodupPlaces) (links : s.SameLinks t)
    (queue : ∀ q, (t.queue q).entries.Sublist (s.queue q).entries) : t.NodupPlaces :=
  hs.of_sublist queue fun l => by rw [links.tx]

theorem State.NodupPlaces.modPort (hs : s.NodupPlaces) (l : LinkId) (f : LinkPort → LinkPort)
    (unacked : (f (s.port l)).tx.unacked.Sublist (s.port l).tx.unacked) : (s.modPort l f).NodupPlaces :=
  hs.of_sublist (fun q => by rw [State.queue_modPort]) fun k => by
    rw [State.port_modPort_cases]
    split
    · rename_i e; subst e; exact unacked
    · exact .refl _

theorem State.NodupPlaces.append (hs : s.NodupPlaces) (q : QueueId) {h : Nat} (new : h ∉ (s.queue q).entries) :
    (s.append q h).NodupPlaces := by
  refine ⟨fun p => ?_, fun l => by rw [State.append, (s.setEntries_links q _).tx]; exact hs.2 l⟩
  by_cases e : p = q
  · subst e
    rw [State.append, State.queue_setEntries]
    exact List.nodup_append.2 ⟨hs.1 p, List.nodup_singleton h, fun a ha b hb e => new (List.mem_singleton.1 hb ▸ e ▸ ha)⟩
  · rw [State.append, State.queue_setEntries_ne _ _ _ _ e]; exact hs.1 p

theorem State.NodupPlaces.appendAll (hs : s.NodupPlaces) (links : List LinkId) (nodup : links.Nodup) (c : Cls) {h : Nat}
    (new : ∀ l ∈ links, h ∉ (s.queue (.tx l c)).entries) : (links.foldl (fun u l => u.append (.tx l c) h) s).NodupPlaces := by
  induction links generalizing s with
  | nil => exact hs
  | cons m links ih =>
    obtain ⟨fresh, nodup⟩ := List.nodup_cons.1 nodup
    refine ih (hs.append _ (new m List.mem_cons_self)) nodup fun l hl => ?_
    show h ∉ ((s.append (.tx m c) h).queue (.tx l c)).entries
    rw [State.append, State.queue_setEntries_ne _ _ _ _ (by intro e; cases e; exact fresh hl)]
    exact new l (List.mem_cons_of_mem _ hl)

theorem State.NodupPlaces.enterParts (hs : s.NodupPlaces) {h : Nat} (new : ∀ q, h ∉ (s.queue q).entries) (m : LinkId) (c : Cls)
    (host fwd : Bool) : (s.enterParts m c h host fwd).NodupPlaces := by
  have enter : (s.enterHost c h).NodupPlaces :=
    (hs.append _ (new _)).of_links (State.modRecord_links _ _ _) fun q => by rw [State.enterHost, State.queue_modRecord]
  have forward : ∀ u : State, u.NodupPlaces → h ∉ (u.queue (.tx m c)).entries → (u.enterForward m c h).NodupPlaces := fun u hu new =>
    (hu.append _ new).of_links (State.modRecord_links _ _ _) fun q => by rw [State.enterForward, State.queue_modRecord]
  cases host <;> cases fwd
  · exact hs
  · exact forward s hs (new _)
  · exact enter
  · refine forward _ enter ?_
    show h ∉ ((s.enterHost c h).queue (.tx m c)).entries
    rw [State.enterHost, State.queue_modRecord, State.append, State.queue_setEntries_ne _ _ _ _ QueueId.noConfusion]
    exact new _

end

/-! ## The law, move by move -/

/-- The part of the law that speaks of places. -/
def State.PlacesFit (s : State) : Prop :=
  s.NodupPlaces ∧ ∀ h, s.FitAt h

section
variable {s t : State}

/-- The places of one handle change, all others' stay. -/
theorem State.PlacesFit.focus (hs : s.PlacesFit) (nodup : t.NodupPlaces) (h : Nat) (same : ∀ g, g ≠ h → s.SameAt t g)
    (focus : t.FitAt h) : t.PlacesFit := by
  refine ⟨nodup, fun g => ?_⟩
  by_cases e : g = h
  · subst e; exact focus
  · exact (hs.2 g).of_same (same g e)

/-- An operation that leaves every handle its places. -/
theorem State.PlacesFit.of_same (hs : s.PlacesFit) (nodup : t.NodupPlaces) (same : ∀ g, s.SameAt t g) : t.PlacesFit :=
  ⟨nodup, fun g => (hs.2 g).of_same (same g)⟩

/-- A change of one port that leaves its list and its receiver's frame, and puts no first transmission on the line. -/
theorem State.PlacesFit.modPort (hs : s.PlacesFit) (l : LinkId) (f : LinkPort → LinkPort)
    (unacked : (f (s.port l)).tx.unacked = (s.port l).tx.unacked) (frame : (f (s.port l)).rx.frame = (s.port l).rx.frame)
    (first : ∀ x, (f (s.port l)).tx.line.first = some x → (s.port l).tx.line.first = some x) : (s.modPort l f).PlacesFit := by
  have unacked' : ∀ k, ((s.modPort l f).port k).tx.unacked = (s.port k).tx.unacked := fun k => by
    rw [State.port_modPort_cases]; split
    · rename_i e; subst e; exact unacked
    · rfl
  have frame' : ∀ k, ((s.modPort l f).port k).rx.frame = (s.port k).rx.frame := fun k => by
    rw [State.port_modPort_cases]; split
    · rename_i e; subst e; exact frame
    · rfl
  have first' : ∀ k x, ((s.modPort l f).port k).tx.line.first = some x → (s.port k).tx.line.first = some x := fun k x => by
    rw [State.port_modPort_cases]; split
    · rename_i e; subst e; exact first x
    · exact id
  refine ⟨hs.1.modPort l f (unacked ▸ .refl _), fun h => ?_⟩
  have fs := hs.2 h
  refine ⟨fun c => ?_, fun k c => ?_, fun k => ?_, fun k x hx => ?_, fun k x hx => ?_, fun r => ?_, fun r => ?_, fun r hr k => ?_⟩
  · rw [State.queue_modPort, State.record_modPort]; exact fs.host c
  · rw [State.queue_modPort, State.record_modPort]; exact fs.tx k c
  · rw [unacked', State.record_modPort]; exact fs.unacked k
  · rw [State.record_modPort]; exact fs.first k x (first' k x hx)
  · rw [frame'] at hx; rw [State.record_modPort]; exact fs.frame k x hx
  · rw [State.record_modPort]; exact fs.fit r
  · rw [State.record_modPort, State.queue_modPort]; exact fs.queued r
  · rw [State.record_modPort] at hr; rw [frame']; exact fs.filling r hr k

theorem State.PlacesFit.modCredit (hs : s.PlacesFit) (l : LinkId) (c : Cls) (f : CreditClass → CreditClass) :
    (s.modCredit l c f).PlacesFit :=
  State.PlacesFit.modPort hs l _ (by simp) (by simp) (by simp)

/-- The law does not see what the core leaves out. -/
theorem State.PlacesFit.of_core (hs : s.PlacesFit) (core : t.core = s.core) : t.PlacesFit := by
  refine ⟨hs.1.of_sublist (fun q => ?_) fun l => ?_, fun h => (hs.2 h).of_core core⟩
  · rw [← t.queue_core, core, s.queue_core]
  · have e : (t.port l).tx.unacked = (s.port l).tx.unacked :=
      (congrArg (fun p : LinkPort => p.tx.unacked) (State.core_port core l) :)
    rw [e]

/-- The record being received is freed: no place names it any more. -/
theorem State.PlacesFit.unframe (hs : s.PlacesFit) {l : LinkId} {f : RxFrame} (hf : (s.port l).rx.frame = some f) :
    ((s.freeRecord f.handle).modPort l LinkPort.unframed).PlacesFit := by
  obtain ⟨r, hr, names, host, links, nowhere, others⟩ := (hs.2 f.handle).arrival hf rfl
  have free := s.freeRecord_links f.handle
  have queue : ∀ q, (((s.freeRecord f.handle).modPort l LinkPort.unframed).queue q).entries = (s.queue q).entries := fun q => by
    simp [State.queue]
  have tx : ∀ k, (((s.freeRecord f.handle).modPort l LinkPort.unframed).port k).tx = (s.port k).tx := fun k => by
    rw [State.port_modPort_cases]; split
    · rename_i e; subst e; exact free.tx _
    · exact free.tx _
  refine hs.focus (hs.1.of_sublist (fun q => by rw [queue]) fun k => by rw [tx]) f.handle
    (fun g ne => (s.sameAt_freeRecord ne).trans (State.sameAt_unframed _ l (by rw [free.rx]; exact hf) ne))
    (State.FitAt.of_free ?_ ⟨fun q => by rw [queue]; exact nowhere.queue q, fun k => by rw [tx]; exact nowhere.unacked k,
      fun k => by rw [tx]; exact nowhere.first k⟩ fun k g hg => ?_)
  · rw [State.record_modPort, State.record_freeRecord, if_pos rfl]
  · rw [State.port_modPort_cases] at hg
    split at hg
    · cases hg
    · rename_i ne; rw [free.rx] at hg; exact others k g ne hg

theorem State.PlacesFit.giveBack (hs : s.PlacesFit) {l : LinkId} {f : RxFrame} (hf : (s.port l).rx.frame = some f) :
    (s.giveBack l f).PlacesFit := by
  have e : s.giveBack l f = ((s.freeRecord f.handle).modPort l LinkPort.unframed).modCredit l f.cls fun x =>
      { x with consumed := x.consumed - BitVec.ofNat 16 (cellsFor f.length) } :=
    (State.modPort_modCredit _ l l f.cls _ LinkPort.unframed_blind).symm
  rw [e]
  exact (hs.unframe hf).modCredit _ _ _

/-- A record allocated for the host: no place names its slot. -/
theorem State.PlacesFit.allocate (hs : s.PlacesFit) (free : s.record s.nextHandle = none) (k : Nat) (r : Record)
    (fit : r.HoldersFit) (host : r.host ≠ .queued) (phase : r.phase = .filling .host) : (s.allocate k r).PlacesFit := by
  have links : s.SameLinks (s.allocate k r) := .of_port fun l => by cases l <;> rfl
  obtain ⟨nowhere, frames⟩ := (hs.2 s.nextHandle).nowhere_of_none free
  refine hs.focus (hs.1.of_links links fun _ => .refl _) s.nextHandle (fun g ne => s.sameAt_allocate k r ne)
    (State.FitAt.of_filling (r := { r with cells := s.buf.free.take k }) (by rw [s.record_allocate, if_pos rfl])
      ⟨nowhere.queue, fun l => by rw [links.tx]; exact nowhere.unacked l, fun l => by rw [links.tx]; exact nowhere.first l⟩ fit host
      (fun l f hf e => ?_) fun l hl => ?_)
  · rw [links.rx] at hf; exact absurd e (frames l f hf)
  · exact Phase.noConfusion (phase.symm.trans hl) fun e => Party.noConfusion e

/-- A header taken in: its record is the new frame of its receiver. -/
theorem State.PlacesFit.takeIn (hs : s.PlacesFit) (free : s.record s.nextHandle = none) {l : LinkId} {header : BitVec 128}
    (frame : (s.port l).rx.frame = none) (fits : cellsFor (headerLength header) ≤ s.freeCount) : (s.takeIn l header).PlacesFit := by
  let k := cellsFor (headerLength header)
  let u := (s.allocate k (arrivalRecord l (headerFields header))).consume l (headerFields header).cls k
  have links : ∀ m, (u.port m).tx = (s.port m).tx ∧ (u.port m).rx = (s.port m).rx := fun m => by
    simp only [u, State.consume, State.modCredit, State.port_modPort_cases]
    split
    · rename_i e; subst e; simp; cases m <;> exact ⟨rfl, rfl⟩
    · cases m <;> exact ⟨rfl, rfl⟩
  have frames' : ∀ m, ((s.takeIn l header).port m).rx.frame = if m = l
      then some { handle := s.nextHandle, header := header, count := 0, crc := crc32Run crc32Start (bytesOf header 16), gather := [] }
      else (s.port m).rx.frame := fun m => by
    rw [State.takeIn]
    show ((u.modRx l _).port m).rx.frame = _
    rw [State.modRx, State.port_modPort_cases]
    split
    · rfl
    · rw [(links m).2]
  have tx : ∀ m, ((s.takeIn l header).port m).tx = (s.port m).tx := fun m => by
    rw [State.takeIn]
    show ((u.modRx l _).port m).tx = _
    rw [State.modRx, State.port_modPort_cases]
    split
    · exact (links m).1
    · exact (links m).1
  have queue : ∀ q, (s.takeIn l header).queue q = s.queue q := fun q => by simp [State.takeIn, State.queue, State.allocate, State.consume]
  have record : ∀ g, (s.takeIn l header).record g = (s.allocate k (arrivalRecord l (headerFields header))).record g := fun g => by
    simp [State.takeIn, State.consume, State.modCredit, State.modRx, k, headerLength]
  obtain ⟨nowhere, frames⟩ := (hs.2 s.nextHandle).nowhere_of_none free
  refine hs.focus (hs.1.of_sublist (fun q => by rw [queue]) fun m => by rw [tx]) s.nextHandle (fun g ne => ?_)
    (State.FitAt.of_filling (r := { arrivalRecord l (headerFields header) with cells := s.buf.free.take k })
      (by rw [record, s.record_allocate, if_pos rfl])
      ⟨fun q => by rw [queue]; exact nowhere.queue q, fun m => by rw [tx]; exact nowhere.unacked m,
        fun m => by rw [tx]; exact nowhere.first m⟩ ⟨rfl, rfl, rfl⟩ nofun (fun m f hf e => ?_) fun m hm => ?_)
  · refine ⟨by rw [record, (s.sameAt_allocate _ _ ne).record], fun q => by rw [queue], fun m => by rw [tx], fun m x _ => by rw [tx],
      fun m x hx => ?_⟩
    rw [frames']
    split
    · rename_i e
      subst e
      rw [frame]
      constructor
      · intro e; cases e; exact absurd hx.symm ne
      · exact nofun
    · rfl
  · rw [frames'] at hf
    split at hf
    · rename_i e
      subst e
      cases hf
      refine ⟨rfl, rfl, rfl, ?_⟩
      show (s.buf.free.take k).length = _
      rw [List.length_take]
      exact Nat.min_eq_left fits
    · exact absurd e (frames m f hf)
  · cases hm
    rw [frames', if_pos rfl]
    exact ⟨_, rfl, rfl⟩

/-- The parts of a delivery, and the receiver's end of the frame: its record is LIVE, QUEUED where it was admitted. -/
theorem State.PlacesFit.accept (hs : s.PlacesFit) {l m : LinkId} {f : RxFrame} {c : Cls} {host fwd : Bool}
    (hf : (s.port l).rx.frame = some f) (cls : ∀ r, s.record f.handle = some r → r.cls = c) (any : host = true ∨ fwd = true) :
    ((s.enterParts m c f.handle host fwd).modPort l LinkPort.unframed).PlacesFit := by
  obtain ⟨r, hr, names, none, free, nowhere, others⟩ := (hs.2 f.handle).arrival hf rfl
  have links := s.enterParts_links m c f.handle host fwd
  have tx : ∀ k, (((s.enterParts m c f.handle host fwd).modPort l LinkPort.unframed).port k).tx = (s.port k).tx := fun k => by
    rw [State.port_modPort_cases]; split
    · rename_i e; subst e; exact links.tx _
    · exact links.tx _
  have mem : ∀ q, f.handle ∈ (((s.enterParts m c f.handle host fwd).modPort l LinkPort.unframed).queue q).entries ↔
      (host = true ∧ q = .host c) ∨ (fwd = true ∧ q = .tx m c) := fun q => by
    rw [State.queue_modPort, State.mem_enterParts]
    simp [nowhere.queue q]
  obtain ⟨r', hr', cls', host', holder', live⟩ : ∃ r', (s.enterParts m c f.handle host fwd).record f.handle = some r' ∧
      r'.cls = c ∧ r'.host = (if host then .queued else .none) ∧ (∀ k, r'.holder k = if fwd = true ∧ k = m then .queued else .none) ∧
      r'.phase = .live := by
    rw [State.record_enterParts, hr]
    refine ⟨_, rfl, ?_, ?_, fun k => ?_, ?_⟩
    · rw [← cls r hr]; cases host <;> cases fwd <;> cases m <;> rfl
    · cases host <;> cases fwd <;> cases m <;> first | exact none | rfl
    · have hk := free k
      cases host <;> cases fwd <;> cases m <;> cases k <;> first | exact hk | rfl
    · cases host <;> cases fwd <;> first | rfl | simp at any
  refine hs.focus (State.NodupPlaces.modPort (hs.1.enterParts nowhere.queue m c host fwd) l _ (.refl _)) f.handle
    (fun g ne => (s.sameAt_enterParts m c host fwd ne).trans (State.sameAt_unframed _ l (by rw [links.rx]; exact hf) ne))
    (State.FitAt.of_live (by rw [State.record_modPort]; exact hr') live ?_ ?_ (fun c' hc => ?_) (fun k c' hc => ?_) (fun k hk => ?_)
      (fun k x hx e => ?_) (fun k x hx => ?_) fun hq => ?_)
  · rw [host']; cases host <;> nofun
  · rcases any with rfl | rfl
    · exact .inl (by rw [host']; nofun)
    · exact .inr ⟨m, by rw [holder', if_pos ⟨rfl, rfl⟩]; nofun⟩
  · rcases (mem _).1 hc with ⟨rfl, e⟩ | ⟨-, e⟩
    · cases e; exact ⟨cls', host'⟩
    · cases e
  · rcases (mem _).1 hc with ⟨-, e⟩ | ⟨rfl, e⟩
    · cases e
    · cases e; exact ⟨cls', by rw [holder', if_pos ⟨rfl, rfl⟩]⟩
  · rw [tx] at hk; exact absurd hk (nowhere.unacked k)
  · rw [tx] at hx; exact absurd e (nowhere.first k x hx)
  · rw [State.port_modPort_cases] at hx
    split at hx
    · cases hx
    · rename_i ne; rw [links.rx] at hx; exact others k x ne hx
  · rw [cls', mem]
    cases host
    · rw [host'] at hq; cases hq
    · exact .inl ⟨rfl, rfl⟩

/-- A head dropped: its handle leaves the queue together with the holder that stood for the place. -/
theorem State.PlacesFit.dropHead (hs : s.PlacesFit) {q : QueueId} {h : Nat} {rest : List Nat} (hq : (s.queue q).entries = h :: rest) :
    (s.dropHead q h).PlacesFit := by
  have links := s.dropHead_links q h
  have fs := hs.2 h
  have gone : h ∉ (s.queue q).entries.tail := by
    have := hs.1.1 q
    rw [hq] at this ⊢
    exact (List.nodup_cons.1 this).1
  have mem : ∀ p, h ∈ ((s.dropHead q h).queue p).entries ↔ p ≠ q ∧ h ∈ (s.queue p).entries := fun p => by
    rw [State.queue_dropHead]
    split
    · rename_i e; subst e; simp [gone]
    · rename_i e; simp [e]
  have head : h ∈ (s.queue q).entries := by rw [hq]; exact List.mem_cons_self
  obtain ⟨r, hr, live⟩ : ∃ r, s.record h = some r ∧ r.phase = .live := by
    cases q with
    | host c =>
      obtain ⟨r, hr, -, e⟩ := fs.host c head
      exact ⟨r, hr, (fs.fit r hr).live (.inl e)⟩
    | tx l c =>
      obtain ⟨r, hr, -, e⟩ := fs.tx l c head
      exact ⟨r, hr, (fs.fit r hr).live (.inr (.inr ⟨l, by rw [e]; nofun⟩))⟩
  have notFilling : r.host ≠ .filling := ((Record.holdersFit_live live).1 (fs.fit r hr)).1
  refine hs.focus (hs.1.of_links links fun p => ?_) h (fun g ne => s.sameAt_dropHead q hq ne) ?_
  · rw [State.queue_dropHead]
    split
    · rename_i e; subst e; exact List.tail_sublist _
    · exact .refl _
  have notLink : ∀ k, r.phase ≠ .filling (.link k) := fun k => by rw [live]; nofun
  have record : (s.dropHead q h).record h = if (q.clear r).refCount = 0 then none else some (q.clear r) := by
    rw [State.record_dropHead, if_pos rfl, hr]; rfl
  cases q with
  | host c =>
    have mine := fs.of_host hr head
    refine fs.removed hr notLink _ record rfl rfl
      (fun held => (Record.holdersFit_live (r := (QueueId.host c).clear r) live).2 ⟨HostHolder.noConfusion, held⟩) (fun c' hc => ?_) nofun
      (fun k c' hc => ⟨((mem _).1 hc).2, by cases k <;> rfl⟩) (fun k hk => ?_) (fun k x hx _ => ?_) fun k x _ hx => ?_
    · obtain ⟨ne, hc⟩ := (mem _).1 hc
      exact absurd (by rw [← mine.1, (fs.of_host hr hc).1]) ne
    · rw [links.tx] at hk; exact ⟨hk, by cases k <;> rfl⟩
    · rw [links.tx] at hx; exact ⟨hx, by cases k <;> rfl⟩
    · rw [links.rx] at hx; exact hx
  | tx l c =>
    have mine := fs.of_tx hr head
    refine fs.removed hr notLink _ record (r.setHolder_cls _ _) (by cases l <;> exact rfl)
      (fun held => (Record.holdersFit_live (by cases l <;> exact live)).2 ⟨by simpa [QueueId.clear] using notFilling, held⟩)
      (fun c' hc => ⟨((mem _).1 hc).2, by simp [QueueId.clear]⟩)
      (fun e => ⟨by simpa [QueueId.clear] using e, fun c' hc => (mem _).2 ⟨nofun, hc⟩⟩) (fun k c' hc => ?_)
      (fun k hk => ?_) (fun k x hx e => ?_) fun k x _ hx => ?_
    · obtain ⟨ne, hs⟩ := (mem _).1 hc
      refine ⟨hs, r.holder_setHolder_ne _ fun e => ne ?_⟩
      subst e
      rw [← mine.1, (fs.of_tx hr hs).1]
    · rw [links.tx] at hk
      refine ⟨hk, r.holder_setHolder_ne _ fun e => ?_⟩
      subst e
      obtain ⟨q, e⟩ := fs.of_unacked hr hk
      rw [mine.2] at e; cases e
    · rw [links.tx] at hx
      refine ⟨hx, r.holder_setHolder_ne _ fun e' => ?_⟩
      subst e'
      have e' := fs.of_first hr hx e
      rw [mine.2] at e'; cases e'
    · rw [links.rx] at hx; exact hx

/-- A link's holder, SENDING or UNACKED, removed together with its place: the line ends its block or the list loses its oldest entry. -/
theorem State.PlacesFit.removeLinkHolder (hs : s.PlacesFit) {l : LinkId} {h : Nat} {r : Record} (hr : s.record h = some r)
    (held : r.holder l ≠ .none) (notQueued : r.holder l ≠ .queued) (f : LinkPort → LinkPort)
    (list : ∀ p, (f p).tx.unacked.Sublist p.tx.unacked) (rx : ∀ p, (f p).rx = p.rx)
    (same : ∀ g, g ≠ h → (s.removeLinkHolder l h).SameAt ((s.removeLinkHolder l h).modPort l f) g)
    (unacked : h ∉ (f ((s.removeLinkHolder l h).port l)).tx.unacked)
    (first : ∀ x, (f ((s.removeLinkHolder l h).port l)).tx.line.first = some x → x.handle ≠ h) :
    ((s.removeLinkHolder l h).modPort l f).PlacesFit := by
  have fs := hs.2 h
  have links := s.removeHolder_links h fun r => r.setHolder l .none
  have live := (fs.fit r hr).live (.inr (.inr ⟨l, held⟩))
  have notFilling : r.host ≠ .filling := ((Record.holdersFit_live live).1 (fs.fit r hr)).1
  have queue : ∀ q, ((s.removeLinkHolder l h).modPort l f).queue q = s.queue q := fun q => by
    simp [State.queue, State.removeLinkHolder]
  have record : ((s.removeLinkHolder l h).modPort l f).record h =
      if (r.setHolder l .none).refCount = 0 then none else some (r.setHolder l .none) := by
    rw [State.record_modPort, State.removeLinkHolder, State.record_removeHolder, if_pos rfl, hr]; rfl
  have nodup : (s.removeLinkHolder l h).NodupPlaces := hs.1.of_links links fun q => by simp [State.queue, State.removeLinkHolder]
  refine hs.focus (nodup.modPort l f (list _)) h (fun g ne => (s.sameAt_removeHolder _ ne).trans (same g ne)) ?_
  refine fs.removed hr (fun k => by rw [live]; nofun) _ record (r.setHolder_cls _ _) (by cases l <;> rfl)
    (fun held => (Record.holdersFit_live (by cases l <;> exact live)).2 ⟨by simpa using notFilling, held⟩)
    (fun c hc => ⟨by rwa [queue] at hc, by simp⟩) (fun e => ⟨by simpa using e, fun c hc => by rwa [queue]⟩) (fun k c hc => ?_)
    (fun k hk => ?_) (fun k x hx e => ?_) fun k x _ hx => ?_
  · rw [queue] at hc
    refine ⟨hc, r.holder_setHolder_ne _ fun e => notQueued ?_⟩
    subst e
    exact (fs.of_tx hr hc).2
  · rw [State.port_modPort_cases] at hk
    split at hk
    · rename_i e; subst e; exact absurd hk unacked
    · rename_i ne; exact ⟨(links.tx k) ▸ hk, r.holder_setHolder_ne _ ne⟩
  · rw [State.port_modPort_cases] at hx
    split at hx
    · rename_i e'; subst e'; exact absurd e (first x hx)
    · rename_i ne; exact ⟨(links.tx k) ▸ hx, r.holder_setHolder_ne _ ne⟩
  · rw [State.port_modPort_cases] at hx
    split at hx
    · rename_i e; subst e; rw [rx] at hx; exact (links.rx k) ▸ hx
    · exact (links.rx k) ▸ hx

/-- What the beginning of a first transmission leaves: the handle out of its queue, its holder SENDING, its block on the line. -/
theorem State.beginFirst_parts (s : State) (l : LinkId) (c : Cls) (h : Nat) (r : Record) (hr : s.record h = some r) :
    (∀ g, (s.beginFirst l c h).record g = if h = g then some (r.setHolder l (.sending (s.port l).tx.nextSeq)) else s.record g) ∧
    (∀ q, (s.beginFirst l c h).queue q = (s.popHead (.tx l c)).queue q) ∧
    (∀ k, ((s.beginFirst l c h).port k).rx = (s.port k).rx) ∧
    (∀ k, ((s.beginFirst l c h).port k).tx.unacked = (s.port k).tx.unacked) ∧
    (∀ k, ((s.beginFirst l c h).port k).tx.line =
      if k = l then .frame (txFrame h r (s.port l).tx.nextSeq false) else (s.port k).tx.line) ∧
    (s.beginFirst l c h).buf.free = s.buf.free ∧
    ∀ k d, (((s.beginFirst l c h).port k).credit d).counts = ((s.port k).credit d).counts := by
  let u := ((s.popHead (.tx l c)).setLinkHolder l h (.sending (s.port l).tx.nextSeq)).entryLeft (.tx l c) h
  have e : s.beginFirst l c h = u.beginBlock l (.frame (txFrame h r (s.port l).tx.nextSeq false)) := by
    simp only [State.beginFirst, hr]; rfl
  have links : s.SameLinks u :=
    ((s.popHead_links _).trans (State.modRecord_links _ _ _)).trans (State.entryLeft_links _ _ _)
  have begun : ∀ k, (u.beginBlock l (.frame (txFrame h r (s.port l).tx.nextSeq false))).port k = if k = l
      then (fun p : LinkPort => { p with tx := { p.tx with line := .frame (txFrame h r (s.port l).tx.nextSeq false), idleTimer := none } })
        (u.port k)
      else u.port k := fun k => by
    rw [State.beginBlock, State.modTx, State.port_modPort_cases]
  rw [e]
  refine ⟨fun g => ?_, fun q => ?_, fun k => ?_, fun k => ?_, fun k => ?_, ?_, fun k d => ?_⟩
  · rw [State.beginBlock, State.modTx, State.record_modPort, State.record_entryLeft, State.setLinkHolder, State.record_modRecord,
      State.record_popHead]
    split
    · rename_i e; rw [← e, hr]; rfl
    · rfl
  · rw [State.beginBlock, State.modTx, State.queue_modPort]
    simp only [u, State.setLinkHolder]; rw [State.entryLeft_spec]; split <;> rfl
  · rw [begun]; split <;> exact links.rx k
  · rw [begun]; split <;> exact (congrArg Transmitter.unacked (links.tx k) :)
  · rw [begun]; split
    · rfl
    · rw [links.tx]
  · simp only [u, State.beginBlock, State.modTx, State.modPort_buf, State.entryLeft_buf]
    exact (congrArg Buffer.free (s.popHead_buf (.tx l c)) :)
  · rw [begun]; split <;> exact links.counts k d

theorem State.PlacesFit.beginFirst (hs : s.PlacesFit) {l : LinkId} {c : Cls} {h : Nat} {rest : List Nat} {r : Record}
    (line : (s.port l).tx.line = .none) (hq : (s.queue (.tx l c)).entries = h :: rest) (hr : s.record h = some r) :
    (s.beginFirst l c h).PlacesFit := by
  obtain ⟨record, queue, rx, unacked, line', -, -⟩ := s.beginFirst_parts l c h r hr
  have fs := hs.2 h
  have mine := fs.of_tx hr (l := l) (c := c) (by rw [hq]; exact List.mem_cons_self)
  have live := (fs.fit r hr).live (.inr (.inr ⟨l, by rw [mine.2]; nofun⟩))
  have notFilling : r.host ≠ .filling := ((Record.holdersFit_live live).1 (fs.fit r hr)).1
  have gone : h ∉ (s.queue (.tx l c)).entries.tail := by
    have := hs.1.1 (.tx l c)
    rw [hq] at this ⊢
    exact (List.nodup_cons.1 this).1
  have mem : ∀ p, h ∈ ((s.beginFirst l c h).queue p).entries ↔ p ≠ .tx l c ∧ h ∈ (s.queue p).entries := fun p => by
    rw [queue, State.queue_popHead]
    split
    · rename_i e; subst e; simp [gone]
    · rename_i e; simp [e]
  have first : ∀ k x, ((s.beginFirst l c h).port k).tx.line.first = some x →
      if k = l then x = txFrame h r (s.port l).tx.nextSeq false else (s.port k).tx.line.first = some x := fun k x hx => by
    rw [line'] at hx
    split
    · rename_i e; rw [if_pos e] at hx; exact (Option.some.inj hx).symm
    · rename_i e; rwa [if_neg e] at hx
  refine hs.focus (hs.1.of_sublist (fun p => ?_) fun k => by rw [unacked]) h (fun g ne => ?_)
    (State.FitAt.of_live (by rw [record, if_pos rfl]) (by cases l <;> exact live) (by simpa using notFilling)
      (.inr ⟨l, by simp⟩) (fun c' hc => ?_) (fun k c' hc => ?_) (fun k hk => ?_) (fun k x hx e => ?_) (fun k x hx => ?_) fun e => ?_)
  · rw [queue, State.queue_popHead]
    split
    · rename_i e; subst e; exact List.tail_sublist _
    · exact .refl _
  · refine ⟨by rw [record, if_neg ne.symm], fun p => ?_, fun k => by rw [unacked], fun k x hx => ⟨fun e => ?_, fun e => ?_⟩,
      fun k x _ => by rw [rx]⟩
    · rw [queue]; exact (s.sameAt_popHead _ hq ne).queue p
    · have := first k x e
      split at this
      · subst this; exact absurd hx ne.symm
      · exact this
    · rw [line', if_neg (by intro e'; subst e'; rw [line] at e; cases e)]; exact e
  · simpa [r.setHolder_cls] using fs.of_host hr ((mem _).1 hc).2
  · obtain ⟨ne, hs⟩ := (mem _).1 hc
    obtain ⟨cls, holder⟩ := fs.of_tx hr hs
    refine ⟨by rw [r.setHolder_cls, cls], ?_⟩
    rw [r.holder_setHolder_ne _ fun e => ne (by rw [e, ← cls, mine.1]), holder]
  · rw [unacked] at hk
    obtain ⟨q, e⟩ := fs.of_unacked hr hk
    exact ⟨q, by rw [r.holder_setHolder_ne _ fun e' => by rw [e', mine.2] at e; cases e]; exact e⟩
  · have hx := first k x hx
    split at hx
    · rename_i e'; subst e' hx; simp [txFrame]
    · rename_i ne; rw [r.holder_setHolder_ne _ ne]; exact fs.of_first hr hx e
  · rw [rx] at hx; exact fs.no_frame hr (fun k => by rw [live]; nofun) hx
  · rw [r.setHolder_cls]
    exact (mem _).2 ⟨nofun, fs.queued r hr (by simpa using e)⟩

theorem State.PlacesFit.firstEnd (hs : s.PlacesFit) {l : LinkId} {f : TxFrame} {r : Record}
    (line : (s.port l).tx.line = .frame f) (notResend : f.resend = false) (hr : s.record f.handle = some r) :
    (s.firstEnd l f).PlacesFit := by
  obtain ⟨record, queue, ports, -, rx, line', unacked, -, -⟩ := s.firstEnd_parts l f r hr
  have fs := hs.2 f.handle
  have mine := fs.of_first hr (LineBlock.first_eq_some.2 ⟨line, notResend⟩) rfl
  have live := (fs.fit r hr).live (.inr (.inr ⟨l, by rw [mine]; nofun⟩))
  have notFilling : r.host ≠ .filling := ((Record.holdersFit_live live).1 (fs.fit r hr)).1
  have new : f.handle ∉ (s.port l).tx.unacked := fun hu => by
    obtain ⟨q, e⟩ := fs.of_unacked hr hu
    rw [mine] at e; cases e
  have rx' : ∀ k, ((s.firstEnd l f).port k).rx = (s.port k).rx := fun k => by
    by_cases e : k = l
    · subst e; exact rx
    · rw [ports k e]
  have first : ∀ k x, ((s.firstEnd l f).port k).tx.line.first = some x → k ≠ l ∧ (s.port k).tx.line.first = some x := fun k x hx => by
    by_cases e : k = l
    · subst e; rw [line'] at hx; cases hx
    · rw [ports k e] at hx; exact ⟨e, hx⟩
  refine hs.focus ⟨fun q => by rw [queue]; exact hs.1.1 q, fun k => ?_⟩ f.handle (fun g ne => ?_)
    (State.FitAt.of_live (by rw [record, if_pos rfl]) (by cases l <;> exact live) (by simpa using notFilling)
      (.inr ⟨l, by simp⟩) (fun c' hc => ?_) (fun k c' hc => ?_) (fun k hk => ?_) (fun k x hx e => ?_) (fun k x hx => ?_) fun e => ?_)
  · by_cases e : k = l
    · subst e
      rw [unacked]
      exact List.nodup_append.2 ⟨hs.1.2 k, List.nodup_singleton _, fun a ha b hb e => new (List.mem_singleton.1 hb ▸ e ▸ ha)⟩
    · rw [ports k e]; exact hs.1.2 k
  · refine ⟨by rw [record, if_neg ne.symm], fun q => by rw [queue], fun k => ?_, fun k x hx => ⟨fun e => (first k x e).2, fun e => ?_⟩,
      fun k x _ => by rw [rx']⟩
    · by_cases e : k = l
      · subst e; simp [unacked, ne]
      · rw [ports k e]
    · have : k ≠ l := fun e' => by
        subst e'
        obtain ⟨e, -⟩ := LineBlock.first_eq_some.1 e
        rw [line] at e; cases e
        exact ne hx.symm
      rw [ports k this]; exact e
  · rw [queue] at hc; simpa [r.setHolder_cls] using fs.of_host hr hc
  · rw [queue] at hc
    obtain ⟨cls, holder⟩ := fs.of_tx hr hc
    refine ⟨by rw [r.setHolder_cls, cls], ?_⟩
    rw [r.holder_setHolder_ne _ fun e => by rw [e, mine] at holder; cases holder]
    exact holder
  · by_cases e : k = l
    · subst e; exact ⟨f.seq, by simp⟩
    · rw [ports k e] at hk
      rw [r.holder_setHolder_ne _ e]
      exact fs.of_unacked hr hk
  · obtain ⟨ne, hx⟩ := first k x hx
    rw [r.holder_setHolder_ne _ ne]; exact fs.of_first hr hx e
  · rw [rx'] at hx; exact fs.no_frame hr (fun k => by rw [live]; nofun) hx
  · rw [r.setHolder_cls, queue]
    exact fs.queued r hr (by simpa using e)

theorem Record.posted_host (r : Record) (d src : Byte) (hops : BitVec 4) (links : List LinkId) :
    (r.posted d src hops links).host = .none ∧ (r.posted d src hops links).phase = .live := by
  unfold Record.posted
  suffices ∀ r : Record, (links.foldl (fun r l => r.setHolder l .queued) r).host = r.host ∧
      (links.foldl (fun r l => r.setHolder l .queued) r).phase = r.phase from this _
  induction links with
  | nil => exact fun _ => ⟨rfl, rfl⟩
  | cons l links ih =>
    intro r
    obtain ⟨host, phase⟩ := ih (r.setHolder l .queued)
    exact ⟨host.trans (r.setHolder_host l _), phase.trans (by cases l <;> rfl)⟩

/-- A record that the host fills is named nowhere, and posted it stands in each queue selected. -/
theorem State.PlacesFit.post (hs : s.PlacesFit) {h : Nat} {r : Record} (d : Byte) (hops : BitVec 4) {links : List LinkId}
    (hr : s.record h = some r) (host : r.host = .filling) (some : links ≠ []) (nodup : links.Nodup) :
    (s.postTaken h r.cls d hops links).PlacesFit := by
  have fs := hs.2 h
  have fit := fs.fit r hr
  have filling : r.phase = .filling .host ∧ ∀ k, r.holder k = .none := by
    unfold Record.HoldersFit at fit
    split at fit
    · rename_i e; exact ⟨e, fun k => by cases k <;> [exact fit.2.1; exact fit.2.2]⟩
    · rw [host] at fit; cases fit.1
    · exact absurd host fit.1
  have nowhere : s.Nowhere h := fs.nowhere (fun x hx => by rw [hr] at hx; cases hx; rw [host]; nofun)
    fun x hx => by rw [hr] at hx; cases hx; exact filling.2
  let u := links.foldl (fun u l => u.append (.tx l r.cls) h) (s.modRecord h fun r => r.posted d s.nodeAddr hops links)
  have sides : s.SameLinks u := (s.modRecord_links _ _).trans (State.appendAll_links links r.cls h _)
  have mem : ∀ q, h ∈ (u.queue q).entries ↔ ∃ m ∈ links, q = .tx m r.cls := fun q => by
    rw [State.mem_appendAll links r.cls h, State.queue_modRecord]
    simp [nowhere.queue q]
  have record : u.record h = Option.some (r.posted d s.nodeAddr hops links) := by
    have e : u.record h = (s.modRecord h fun r => r.posted d s.nodeAddr hops links).record h := by
      simp only [u, State.record, State.appendAll_buf]
    rw [e, State.record_modRecord, if_pos rfl, hr]; rfl
  obtain ⟨host', live⟩ := r.posted_host d s.nodeAddr hops links
  have base : (s.modRecord h fun r => r.posted d s.nodeAddr hops links).NodupPlaces :=
    hs.1.of_links (s.modRecord_links _ _) fun q => by rw [State.queue_modRecord]
  have done : u.PlacesFit := by
    refine hs.focus (base.appendAll links nodup r.cls fun l _ => by rw [State.queue_modRecord]; exact nowhere.queue _) h
      (fun g ne => (s.sameAt_modRecord _ ne).trans (State.sameAt_appendAll links r.cls _ ne))
      (State.FitAt.of_live record live (by rw [host']; nofun) (.inr ?_) (fun c hc => ?_) (fun k c hc => ?_) (fun k hk => ?_)
        (fun k x hx e => ?_) (fun k x hx => ?_) fun e => ?_)
    · obtain ⟨l, hl⟩ := List.exists_mem_of_ne_nil links some
      exact ⟨l, by rw [Record.holder_posted, if_pos hl]; nofun⟩
    · obtain ⟨m, -, e⟩ := (mem _).1 hc; cases e
    · obtain ⟨m, hm, e⟩ := (mem _).1 hc
      cases e
      exact ⟨r.posted_cls _ _ _ _, by rw [Record.holder_posted, if_pos hm]⟩
    · rw [sides.tx] at hk; exact absurd hk (nowhere.unacked k)
    · rw [sides.tx] at hx; exact absurd e (nowhere.first k x hx)
    · rw [sides.rx] at hx; exact fs.no_frame hr (fun k => by rw [filling.1]; nofun) hx
    · rw [host'] at e; cases e
  have last : s.postTaken h r.cls d hops links = ((u.setHeld (s.hcu.held - 1)).closePort h).answer .ok { r0 := wordOfNat h } := rfl
  rw [last]
  refine done.of_same (done.1.of_links (State.closePort_links _ h) fun q => ?_) fun g =>
    ((u.sameAt_setHeld _ g).trans (State.sameAt_closePort _ h g)).trans (State.sameAt_answer _ _ _ g)
  simp [State.queue]

/-- The head of a host queue claimed: out of the queue, its holder CLAIMED. -/
theorem State.PlacesFit.claim (hs : s.PlacesFit) {c : Cls} {h : Nat} {rest : List Nat}
    (hq : (s.queue (.host c)).entries = h :: rest) : (s.claimTaken c h).PlacesFit := by
  have fs := hs.2 h
  obtain ⟨r, hr, cls, host⟩ := fs.host c (by rw [hq]; exact List.mem_cons_self)
  have live := (fs.fit r hr).live (.inl host)
  have gone : h ∉ (s.queue (.host c)).entries.tail := by
    have := hs.1.1 (.host c)
    rw [hq] at this ⊢
    exact (List.nodup_cons.1 this).1
  let u := (s.popHead (.host c)).modRecord h fun r => { r with host := .claimed }
  have sides : s.SameLinks u := (s.popHead_links _).trans (State.modRecord_links _ _ _)
  have queue : ∀ q, u.queue q = (s.popHead (.host c)).queue q := fun q => State.queue_modRecord _ _ _ q
  have mem : ∀ p, h ∈ (u.queue p).entries ↔ p ≠ .host c ∧ h ∈ (s.queue p).entries := fun p => by
    rw [queue, State.queue_popHead]
    split
    · rename_i e; subst e; simp [gone]
    · rename_i e; simp [e]
  have done : u.PlacesFit := by
    refine hs.focus (hs.1.of_links sides fun p => ?_) h
      (fun g ne => (s.sameAt_popHead _ hq ne).trans (State.sameAt_modRecord _ _ ne))
      (State.FitAt.of_live (r := { r with host := .claimed }) ?_ live HostHolder.noConfusion (.inl HostHolder.noConfusion)
        (fun c' hc => ?_) (fun k c' hc => ?_) (fun k hk => ?_) (fun k x hx e => ?_) (fun k x hx => ?_) HostHolder.noConfusion)
    · rw [queue, State.queue_popHead]
      split
      · rename_i e; subst e; exact List.tail_sublist _
      · exact .refl _
    · simp [u, State.record_modRecord, hr]
    · obtain ⟨ne, hc⟩ := (mem _).1 hc
      exact absurd (by rw [← (fs.of_host hr hc).1, cls]) ne
    · obtain ⟨cls, e⟩ := fs.of_tx hr ((mem _).1 hc).2
      exact ⟨cls, by cases k <;> exact e⟩
    · rw [sides.tx] at hk
      obtain ⟨q, e⟩ := fs.of_unacked hr hk
      exact ⟨q, by cases k <;> exact e⟩
    · rw [sides.tx] at hx
      have := fs.of_first hr hx e
      cases k <;> exact this
    · rw [sides.rx] at hx; exact fs.no_frame hr (fun k => by rw [live]; nofun) hx
  unfold State.claimTaken
  dsimp only
  split
  all_goals exact done.of_same (done.1.of_links (.of_port fun l => by cases l <;> rfl) fun _ => .refl _) fun g =>
    (u.sameAt_setHeld _ g).trans (State.sameAt_answer _ _ _ g)

/-- The host's own holder removed. -/
theorem State.PlacesFit.release (hs : s.PlacesFit) {h : Nat} {r : Record} (hr : s.hostHeld h = some r) :
    (s.releaseTaken h).PlacesFit := by
  have fs := hs.2 h
  obtain ⟨hr, host⟩ : s.record h = some r ∧ (r.host = .filling ∨ r.host = .claimed) := by
    unfold State.hostHeld at hr
    split at hr
    · rename_i x hx
      split at hr
      · rename_i held; cases hr; exact ⟨(State.namedRecord_some hx).2, held⟩
      · cases hr
    · cases hr
  have links := s.removeHolder_links h fun r => { r with host := .none }
  have queue : ∀ q, (s.removeHostHolder h).queue q = s.queue q := fun q => by simp [State.queue, State.removeHostHolder]
  have record : (s.removeHostHolder h).record h =
      if ({ r with host := .none } : Record).refCount = 0 then none else some { r with host := .none } := by
    rw [State.removeHostHolder, State.record_removeHolder, if_pos rfl, hr]; rfl
  have notLink : ∀ l, r.phase ≠ .filling (.link l) := fun l e => by
    have fit := fs.fit r hr
    unfold Record.HoldersFit at fit
    rw [e] at fit
    rcases host with e | e
    · rw [fit.1] at e; cases e
    · rw [fit.1] at e; cases e
  have done : (s.removeHostHolder h).PlacesFit := by
    refine hs.focus (hs.1.of_links links fun q => by rw [queue]) h (fun g ne => s.sameAt_removeHolder _ ne)
      (fs.removed hr notLink _ record rfl rfl (fun held => ?_) (fun c hc => ?_) HostHolder.noConfusion
        (fun k c hc => ⟨by rwa [queue] at hc, by cases k <;> rfl⟩) (fun k hk => ⟨(links.tx k) ▸ hk, by cases k <;> rfl⟩)
        (fun k x hx _ => ⟨(links.tx k) ▸ hx, by cases k <;> rfl⟩) fun k x _ hx => (links.rx k) ▸ hx)
    · have fit := fs.fit r hr
      by_cases live : r.phase = .live
      · exact (Record.holdersFit_live (r := { r with host := .none }) live).2 ⟨HostHolder.noConfusion, held⟩
      · unfold Record.HoldersFit at fit
        split at fit
        · obtain ⟨-, a, b⟩ := fit
          simp [Record.refCount, a, b] at held
        · rename_i l phase; exact absurd phase (notLink l)
        · rename_i phase; exact absurd phase live
    · rw [queue] at hc
      have := (fs.of_host hr hc).2
      rcases host with e | e
      · rw [e] at this; cases this
      · rw [e] at this; cases this
  refine done.of_same (done.1.of_links (State.closePort_links _ h) fun q => ?_) fun g =>
    (((s.removeHostHolder h).sameAt_setHeld _ g).trans (State.sameAt_closePort _ h g)).trans (State.sameAt_answer _ _ _ g)
  simp [State.queue, State.releaseTaken]

/-- A state with no record, and with no handle in any place. -/
theorem State.placesFit_of_clear (record : ∀ h, s.record h = none) (queue : ∀ q, (s.queue q).entries = [])
    (unacked : ∀ l, (s.port l).tx.unacked = []) (line : ∀ l, (s.port l).tx.line.first = none) (frame : ∀ l, (s.port l).rx.frame = none) :
    s.PlacesFit := by
  refine ⟨⟨fun q => by rw [queue]; exact List.nodup_nil, fun l => by rw [unacked]; exact List.nodup_nil⟩, fun h =>
    State.FitAt.of_free (record h) ⟨fun q => by rw [queue]; exact List.not_mem_nil, fun l => by rw [unacked]; exact List.not_mem_nil,
      fun l f hf => ?_⟩ fun l f hf => ?_⟩
  · rw [line] at hf; cases hf
  · rw [frame] at hf; cases hf

/-- Where every slot is FREE, the law leaves no handle in any place; and so it is where only the records are gone. -/
theorem State.PlacesFit.init (hs : s.PlacesFit) (none : ∀ h, s.record h = none) : s.initTaken.PlacesFit := by
  have parts : (∀ g, s.initTaken.record g = Option.none) ∧ (∀ q, s.initTaken.queue q = s.queue q) ∧
      ∀ l, s.initTaken.port l = s.port l := by
    unfold State.initTaken State.passAtReady
    split <;> exact ⟨fun _ => rfl, fun _ => rfl, fun l => by cases l <;> rfl⟩
  obtain ⟨record, queue, ports⟩ := parts
  have nowhere := fun h => (hs.2 h).nowhere_of_none (none h)
  refine State.placesFit_of_clear record (fun q => ?_) (fun l => ?_) (fun l => ?_) fun l => ?_
  · rw [queue]; exact List.eq_nil_iff_forall_not_mem.2 fun h => (nowhere h).1.queue q
  · rw [ports]; exact List.eq_nil_iff_forall_not_mem.2 fun h => (nowhere h).1.unacked l
  · rw [ports]; exact Option.eq_none_iff_forall_ne_some.2 fun f hf => (nowhere f.handle).1.first l f hf rfl
  · rw [ports]; exact Option.eq_none_iff_forall_ne_some.2 fun f hf => (nowhere f.handle).2 l f hf rfl

end

/-- Every move from a state that accounts for its cells keeps the places and the records that they name. -/
theorem Move.placesFit {s t : State} (m : Move s t) (cells : s.CellsAccounted) (hs : s.PlacesFit) : t.PlacesFit := by
  have fresh : ∀ {n : Nat}, 0 < n → cellsFor n ≤ s.freeCount → s.record s.nextHandle = none := fun pos fits =>
    cells.nextHandle_free (Nat.lt_of_lt_of_le (cellsFor_pos pos) fits)
  cases m with
  | same h => exact hs.of_core h
  | @hunt l _ _ => exact hs.modPort l _ rfl rfl nofun
  | @greet l _ _ => exact hs.modPort l _ rfl rfl fun _ => id
  | @active l _ => exact hs.modPort l _ rfl rfl fun _ => id
  | @quiet l _ _ _ _ _ _ _ => exact hs.modPort l _ rfl rfl fun _ => id
  | @decideGrant l c _ => exact hs.modCredit l c _
  | @grantTaken l c v _ => exact hs.modCredit l c _
  | @line l b _ first _ => exact hs.modPort l _ rfl rfl fun x hx => nomatch first.symm.trans hx
  | takeIn _ frame pos _ fits => exact hs.takeIn (fresh pos fits) frame fits
  | giveBack frame => exact hs.giveBack frame
  | unframe frame => exact hs.unframe frame
  | @keepHeld l f r frame hr held =>
    obtain ⟨x, hx, -, host, none, -⟩ := (hs.2 f.handle).arrival frame rfl
    rw [hr] at hx; cases hx
    refine absurd ?_ held
    have a : r.linkA = .none := none .a
    have b : r.linkB = .none := none .b
    simp [Record.refCount, host, a, b]
  | accept frame cls any _ => exact hs.accept frame cls any
  | dropHead hq => exact hs.dropHead hq
  | beginFirst _ line hq hr => exact hs.beginFirst line hq hr
  | firstEnd line notResend hr => exact hs.firstEnd line notResend hr
  | @firstGone l f line notResend =>
    have first := LineBlock.first_eq_some.2 ⟨line, notResend⟩
    obtain ⟨r, hr, sending⟩ := (hs.2 f.handle).first l f first rfl
    refine hs.removeLinkHolder hr (by rw [sending]; nofun) (by rw [sending]; nofun) _ (fun _ => .refl _) (fun _ => rfl)
      (fun g ne => State.sameAt_onLine _ l .none (fun x hx => ?_) nofun) (fun hu => ?_) nofun
    · rw [State.removeLinkHolder, State.port_removeHolder_tx, first] at hx
      cases hx
      exact ne.symm
    · obtain ⟨q, e⟩ := (hs.2 f.handle).of_unacked (l := l) hr (by simpa [State.removeLinkHolder, LinkPort.onLine] using hu)
      rw [sending] at e; cases e
  | @unlist l h rest hu =>
    obtain ⟨r, q, hr, unacked⟩ := (hs.2 h).unacked l (by rw [hu]; exact List.mem_cons_self)
    have hu' : ((s.removeLinkHolder l h).port l).tx.unacked = h :: rest := by
      rw [State.removeLinkHolder, State.port_removeHolder_tx]; exact hu
    refine hs.removeLinkHolder hr (by rw [unacked]; nofun) (by rw [unacked]; nofun) _ (fun p => List.tail_sublist _) (fun _ => rfl)
      (fun g ne => State.sameAt_unlisted _ l hu' ne) (fun hl => ?_) fun x hx e => ?_
    · have nodup := hs.1.2 l
      rw [hu] at nodup
      refine (List.nodup_cons.1 nodup).1 ?_
      simpa [LinkPort.unlisted, hu'] using hl
    · have := (hs.2 h).of_first (l := l) hr (by simpa [State.removeLinkHolder, LinkPort.unlisted] using hx) e
      rw [unacked] at this; cases this
  | @alloc length c _ pos _ fits =>
    have done := hs.allocate (fresh pos (by omega)) (cellsFor length) (hostRecord length c) ⟨rfl, rfl, rfl⟩ HostHolder.noConfusion rfl
    exact done.of_same (done.1.of_links (.of_port fun l => by cases l <;> rfl) fun _ => .refl _) fun g =>
      ((State.sameAt_zeroCells _ _ g).trans (State.sameAt_setHeld _ _ g)).trans (State.sameAt_answer _ _ _ g)
  | post hr host some nodup _ => exact hs.post _ _ hr host some nodup
  | claim hq _ => exact hs.claim hq
  | release hr => exact hs.release hr
  | flush _ =>
    exact hs.of_same (hs.1.of_links (.of_port fun l => by cases l <;> rfl) fun _ => .refl _) fun g =>
      State.SameLinks.sameAt (.of_port fun l => by cases l <;> rfl) rfl fun _ => .rfl
  | resetInput =>
    exact State.placesFit_of_clear (fun _ => rfl) (fun q => by cases q with | host c => cases c <;> rfl | tx l c => cases l <;> cases c <;> rfl)
      (fun l => by cases l <;> rfl) (fun l => by cases l <;> rfl) fun l => by cases l <;> rfl
  | init ready =>
    refine hs.init fun h => ?_
    rw [State.record, (cells.2.1 ready).2.1]; rfl
  | softReset =>
    exact State.placesFit_of_clear (fun _ => rfl) (fun q => by cases q with | host c => cases c <;> rfl | tx l c => cases l <;> cases c <;> rfl)
      (fun l => by cases l <;> rfl) (fun l => by cases l <;> rfl) fun l => by cases l <;> rfl

theorem State.holdersAgree_iff_placesFit (s : State) : s.HoldersAgree ↔ s.CellsAccounted ∧ s.PlacesFit := s.holdersAgree_iff

/-- Every move keeps the law of records and holders. -/
theorem Move.holdersAgree {s t : State} (m : Move s t) (hs : s.HoldersAgree) : t.HoldersAgree := by
  obtain ⟨cells, places⟩ := s.holdersAgree_iff_placesFit.1 hs
  exact t.holdersAgree_iff_placesFit.2 ⟨m.cellsAccounted cells, m.placesFit cells places⟩

/-- Settles O56: each move changes a holder together with the place that names it, and a record's slot is FREE before it is filled. -/
theorem holderLawKept : Obligations.HolderLawKept := by
  unfold Obligations.HolderLawKept
  intro s t hs e
  exact step_keeps (P := State.HoldersAgree) (fun _ _ m h => m.holdersAgree h) (fun _ _ h => h) s t hs e

end Sys2Proof.Machine
end

