-- ==== Sys2Proof/Proofs/CreditLaw.lean ====
section
/-! SUPPORT. The laws of the Credit Unit (R113, R116, R117), move by move, and why no step of a state that meets them stops (R5). -/

namespace Sys2Proof.Machine

/-! ## Sums and differences of counts -/

theorem outstanding_consumed {g c : Credit} {n : Nat} (h : n ≤ (g - c).toNat) :
    (g - (c + BitVec.ofNat 16 n)).toNat = (g - c).toNat - n := by
  bv_omega

theorem outstanding_unconsumed {g c : Credit} {n : Nat} (h : (g - c).toNat + n < 65536) :
    (g - (c - BitVec.ofNat 16 n)).toNat = (g - c).toNat + n := by
  bv_omega

theorem outstanding_granted {g c : Credit} {n : Nat} (h : (g - c).toNat + n < 65536) :
    (g + BitVec.ofNat 16 n - c).toNat = (g - c).toNat + n := by
  bv_omega

theorem CreditClass.outstanding_counts (k : CreditClass) : k.counts.outstanding = k.outstanding := rfl

theorem CreditClass.outstanding_congr {k k' : CreditClass} (h : k'.counts = k.counts) :
    k'.outstanding = k.outstanding ∧ k'.live = k.live :=
  ⟨(congrArg CreditClass.outstanding h :), (congrArg CreditClass.live h :)⟩

/-! ## In-use -/

/-- The cells that a record counts in the in-use of a link and class (R113). -/
def Record.bill (r : Record) (l : LinkId) (c : Cls) : Nat :=
  if r.origin = .link l ∧ r.cls = c then r.cells.length else 0

/-- What each record counts in the in-use of a link and class. -/
def State.bills (s : State) (l : LinkId) (c : Cls) : List (Nat × Nat) :=
  s.buf.records.map fun e => (e.1, e.2.bill l c)

/-- The cells of the records that came from a link in a class. -/
def State.billed (s : State) (l : LinkId) (c : Cls) : Nat :=
  ((s.bills l c).map Prod.snd).sum

theorem cellsFrom_eq (rs : List Record) (l : LinkId) (c : Cls) : cellsFrom rs l c = (rs.map fun r => r.bill l c).sum := by
  induction rs with
  | nil => rfl
  | cons r rs ih =>
    unfold cellsFrom at *
    rw [List.filter_cons, List.map_cons, List.sum_cons, ← ih]
    unfold Record.bill
    by_cases h : r.origin = .link l ∧ r.cls = c
    · simp [h.1, h.2]
    · rw [if_neg (by simpa using h), if_neg h, Nat.zero_add]

theorem State.billed_eq (s : State) (l : LinkId) (c : Cls) : cellsFrom (s.buf.records.map Prod.snd) l c = s.billed l c := by
  rw [cellsFrom_eq, State.billed, State.bills, List.map_map, List.map_map]; rfl

/-- In-use counts the cells of the records that came from each link in each class. -/
def State.InUseCounts (s : State) : Prop :=
  ∀ l c, ((s.port l).credit c).inUse = s.billed l c

/-- An operation that leaves in-use and what the records count. -/
theorem State.InUseCounts.of_same {s t : State} (hs : s.InUseCounts) (inUse : ∀ l c, ((t.port l).credit c).inUse = ((s.port l).credit c).inUse)
    (bills : ∀ l c, t.bills l c = s.bills l c) : t.InUseCounts := fun l c => by
  rw [inUse, hs, State.billed, State.billed, bills]

theorem State.bills_of_records {s t : State} (h : t.buf.records = s.buf.records) (l : LinkId) (c : Cls) : t.bills l c = s.bills l c := by
  rw [State.bills, State.bills, h]

theorem State.bills_modRecord (s : State) (h : Nat) (f : Record → Record)
    (hf : ∀ (r : Record) (l : LinkId) (c : Cls), (f r).bill l c = r.bill l c) (l : LinkId) (c : Cls) :
    (s.modRecord h f).bills l c = s.bills l c :=
  Sparse.map_modify (fun r : Record => r.bill l c) _ _ _ fun r => hf r l c

/-- The record of a handle counted apart from the others. -/
theorem State.billed_freeRecord (s : State) (sorted : s.Sorted) {h : Nat} {r : Record} (hr : s.record h = some r) (l : LinkId) (c : Cls) :
    s.billed l c = r.bill l c + (s.freeRecord h).billed l c := by
  have look : Sparse.lookup (s.bills l c) h = some (r.bill l c) := by
    rw [State.bills, Sparse.lookup_map (fun r : Record => r.bill l c)]; exact congrArg _ hr
  have sorted' : Sparse.sorted (s.bills l c) = true := by
    rw [State.bills, Sparse.sorted_map fun r : Record => r.bill l c]; exact sorted
  have left : (s.freeRecord h).bills l c = Sparse.erase (s.bills l c) h := by
    rw [State.bills, State.freeRecord, hr]
    simp [Sparse.map_erase (fun r : Record => r.bill l c), State.bills]
  have perm := ((Sparse.perm_erase sorted' look).map Prod.snd).sum_nat
  rw [State.billed, perm, List.map_cons, List.sum_cons, State.billed, left]

theorem State.bill_le_billed (s : State) (sorted : s.Sorted) {h : Nat} {r : Record} (hr : s.record h = some r) (l : LinkId) (c : Cls) :
    r.bill l c ≤ s.billed l c := by
  rw [s.billed_freeRecord sorted hr]; omega

theorem State.billed_allocate (s : State) (free : s.record s.nextHandle = none) (k : Nat) (r : Record) (l : LinkId) (c : Cls) :
    (s.allocate k r).billed l c = ({ r with cells := s.buf.free.take k } : Record).bill l c + s.billed l c := by
  have look : Sparse.lookup (s.bills l c) s.nextHandle = none := by
    rw [State.bills, Sparse.lookup_map (fun r : Record => r.bill l c)]
    have e : Sparse.lookup s.buf.records s.nextHandle = none := free
    rw [e]; rfl
  have added : (s.allocate k r).bills l c =
      Sparse.insert (s.bills l c) s.nextHandle (({ r with cells := s.buf.free.take k } : Record).bill l c) :=
    Sparse.map_insert (fun r : Record => r.bill l c) _ _ _
  rw [State.billed, added, ((Sparse.perm_insert _ _ _ look).map Prod.snd).sum_nat, List.map_cons, List.sum_cons]
  rfl

section
variable {s t : State}

theorem State.InUseCounts.modPort (hs : s.InUseCounts) (l : LinkId) (f : LinkPort → LinkPort)
    (inUse : ∀ c, ((f (s.port l)).credit c).inUse = ((s.port l).credit c).inUse) : (s.modPort l f).InUseCounts := by
  refine hs.of_same (fun k c => ?_) (State.bills_of_records (by simp))
  rw [State.port_modPort_cases]
  split
  · rename_i e; subst e; exact inUse c
  · rfl

theorem State.credit_modCredit (s : State) (l k : LinkId) (c d : Cls) (f : CreditClass → CreditClass) :
    ((s.modCredit l c f).port k).credit d = if k = l ∧ d = c then f ((s.port k).credit d) else (s.port k).credit d := by
  rw [State.modCredit, State.port_modPort_cases]
  by_cases e : k = l
  · subst e; cases c <;> cases d <;> simp [LinkPort.modCredit, LinkPort.credit]
  · simp [e]

theorem State.InUseCounts.modCredit (hs : s.InUseCounts) (l : LinkId) (c : Cls) (f : CreditClass → CreditClass)
    (inUse : ∀ k, (f k).inUse = k.inUse) : (s.modCredit l c f).InUseCounts := by
  refine hs.of_same (fun k d => ?_) (State.bills_of_records (by simp))
  rw [State.credit_modCredit]
  split
  · exact inUse _
  · rfl

theorem State.InUseCounts.modRecord (hs : s.InUseCounts) (h : Nat) (f : Record → Record)
    (hf : ∀ (r : Record) (l : LinkId) (c : Cls), (f r).bill l c = r.bill l c) :
    (s.modRecord h f).InUseCounts :=
  hs.of_same (fun l c => by cases l <;> rfl) (s.bills_modRecord h f hf)

/-- A freed record leaves in-use by its own cells. -/
theorem State.InUseCounts.freeRecord (hs : s.InUseCounts) (sorted : s.Sorted) (h : Nat) : (s.freeRecord h).InUseCounts := by
  cases hr : s.record h with
  | none => rwa [s.freeRecord_none h hr]
  | some r =>
    intro l c
    have before := hs l c
    rw [s.billed_freeRecord sorted hr] at before
    rw [s.port_freeRecord h r hr]
    unfold Record.bill at before
    split
    · rename_i origin
      cases c <;> cases hc : r.cls <;> simp_all [LinkPort.modCredit, LinkPort.credit]
    · rename_i origin
      simp_all

theorem State.InUseCounts.removeHolder (hs : s.InUseCounts) (sorted : s.Sorted) (h : Nat) (clear : Record → Record)
    (hc : ∀ (r : Record) (l : LinkId) (c : Cls), (clear r).bill l c = r.bill l c) : (s.removeHolder h clear).InUseCounts := by
  unfold State.removeHolder
  split
  · exact hs
  · split
    · exact hs.freeRecord sorted h
    · exact hs.modRecord h clear hc

end

@[simp] theorem Record.bill_setHolder (r : Record) (l : LinkId) (v : LinkHolder) (k : LinkId) (c : Cls) :
    (r.setHolder l v).bill k c = r.bill k c := by
  cases l <;> rfl

theorem Record.bill_posted (r : Record) (d src : Byte) (hops : BitVec 4) (links : List LinkId) (l : LinkId) (c : Cls) :
    (r.posted d src hops links).bill l c = r.bill l c := by
  unfold Record.posted
  suffices ∀ r : Record, (links.foldl (fun r l => r.setHolder l .queued) r).bill l c = r.bill l c from this _
  induction links with
  | nil => exact fun _ => rfl
  | cons m links ih => exact fun r => (ih _).trans (r.bill_setHolder m _ l c)

theorem Record.bill_clear (q : QueueId) (r : Record) (l : LinkId) (c : Cls) : (q.clear r).bill l c = r.bill l c := by
  cases q with
  | host _ => rfl
  | tx _ _ => exact r.bill_setHolder _ _ l c

/-! ## Outstanding grants -/

/-- The outstanding grant of each class, with what a frame being received may give back, is within the live allowance. -/
def LinkPort.Within (p : LinkPort) : Prop :=
  ∀ c, (p.credit c).outstanding + p.tentative c ≤ (p.credit c).live

/-- The two laws of outstanding grants: within the allowances, and within the free cells. -/
def State.Covered (s : State) : Prop :=
  (∀ l, (s.port l).Within) ∧ s.totalOutstanding ≤ s.freeCount

theorem State.creditsCovered_iff (s : State) : s.CreditsCovered ↔ s.InUseCounts ∧ s.Covered := by
  unfold State.CreditsCovered State.InUseCounts State.Covered LinkPort.Within
  simp only [State.billed_eq]
  rfl

theorem LinkPort.tentative_none {p : LinkPort} (h : p.rx.frame = none) (c : Cls) : p.tentative c = 0 := by
  unfold LinkPort.tentative; rw [h]

theorem LinkPort.tentative_some {p : LinkPort} {f : RxFrame} (h : p.rx.frame = some f) (c : Cls) :
    p.tentative c = if f.cls = c then cellsFor f.length else 0 := by
  unfold LinkPort.tentative; rw [h]; rfl

theorem LinkPort.tentative_congr {p q : LinkPort} (h : q.rx.frame = p.rx.frame) (c : Cls) : q.tentative c = p.tentative c := by
  unfold LinkPort.tentative; rw [h]

theorem LinkPort.Within.congr {p q : LinkPort} (hp : p.Within)
    (owed : ∀ c, (q.credit c).outstanding = (p.credit c).outstanding ∧ (q.credit c).live = (p.credit c).live)
    (tentative : ∀ c, q.tentative c ≤ p.tentative c) : q.Within := fun c => by
  obtain ⟨outstanding, live⟩ := owed c
  rw [outstanding, live]
  exact Nat.le_trans (Nat.add_le_add_left (tentative c) _) (hp c)

theorem State.totalOutstanding_eq (s : State) :
    s.totalOutstanding = ((s.port .a).credit .control).outstanding + ((s.port .a).credit .data).outstanding +
      ((s.port .b).credit .control).outstanding + ((s.port .b).credit .data).outstanding := rfl

theorem State.outstanding_le_total (s : State) (l : LinkId) (c : Cls) : ((s.port l).credit c).outstanding ≤ s.totalOutstanding := by
  rw [State.totalOutstanding_eq]
  cases l <;> cases c <;> omega

theorem State.totalOutstanding_congr {s t : State} (h : ∀ l c, ((t.port l).credit c).outstanding = ((s.port l).credit c).outstanding) :
    t.totalOutstanding = s.totalOutstanding := by
  simp only [State.totalOutstanding_eq, h]

theorem State.totalOutstanding_modCredit (s : State) (l : LinkId) (c : Cls) (f : CreditClass → CreditClass) :
    (s.modCredit l c f).totalOutstanding + ((s.port l).credit c).outstanding =
      s.totalOutstanding + (f ((s.port l).credit c)).outstanding := by
  rw [State.totalOutstanding_eq, State.totalOutstanding_eq]
  simp only [State.credit_modCredit]
  cases l <;> cases c <;> simp <;> omega

section
variable {s t : State}

/-- An operation that leaves the counts and the receivers, and takes nothing off the free list. -/
theorem State.Covered.of_links (hs : s.Covered) (links : s.SameLinks t) (free : s.freeCount ≤ t.freeCount) : t.Covered := by
  refine ⟨fun l => (hs.1 l).congr (fun c => CreditClass.outstanding_congr (links.counts l c)) fun c => ?_, ?_⟩
  · exact (LinkPort.tentative_congr (by rw [links.rx]) c).le
  · rw [State.totalOutstanding_congr fun l c => (CreditClass.outstanding_congr (links.counts l c)).1]
    exact Nat.le_trans hs.2 free

/-- A change of one port that leaves its counts, and its receiver's frame or takes it away. -/
theorem State.Covered.modPort (hs : s.Covered) (l : LinkId) (f : LinkPort → LinkPort)
    (within : (f (s.port l)).Within) (less : ∀ c, ((f (s.port l)).credit c).outstanding ≤ ((s.port l).credit c).outstanding) :
    (s.modPort l f).Covered := by
  have port : ∀ k, (s.modPort l f).port k = if k = l then f (s.port k) else s.port k := fun k => s.port_modPort_cases l k f
  refine ⟨fun k => ?_, ?_⟩
  · rw [port]; split
    · rename_i e; subst e; exact within
    · exact hs.1 k
  · have total : (s.modPort l f).totalOutstanding ≤ s.totalOutstanding := by
      rw [State.totalOutstanding_eq, State.totalOutstanding_eq]
      simp only [port]
      have control := less .control
      have data := less .data
      cases l <;> simp only [reduceCtorEq, if_true, if_false] <;> omega
    have free : (s.modPort l f).freeCount = s.freeCount := by rw [State.freeCount, State.modPort_buf]; rfl
    rw [free]
    exact Nat.le_trans total hs.2

theorem State.Covered.modPort_same (hs : s.Covered) (l : LinkId) (f : LinkPort → LinkPort)
    (owed : ∀ c, ((f (s.port l)).credit c).outstanding = ((s.port l).credit c).outstanding ∧
      ((f (s.port l)).credit c).live = ((s.port l).credit c).live)
    (frame : (f (s.port l)).rx.frame = (s.port l).rx.frame ∨ (f (s.port l)).rx.frame = none) : (s.modPort l f).Covered := by
  refine hs.modPort l f ((hs.1 l).congr owed fun c => ?_) fun c => (owed c).1.le
  rcases frame with e | e
  · rw [LinkPort.tentative_congr e]
  · rw [LinkPort.tentative_none e]; omega

/-! ## The laws, move by move -/

/-- A state's free list has at most every cell on it. -/
theorem State.CellsAccounted.freeCount_le (hs : s.CellsAccounted) : s.freeCount ≤ 1024 := by
  unfold State.freeCount
  cases ready : s.ready with
  | true =>
    have := (hs.1 ready).length_eq
    rw [List.length_append, List.length_range] at this
    omega
  | false => rw [(hs.2.1 ready).1]; simp

theorem State.CreditsCovered.mk (inUse : s.InUseCounts) (covered : s.Covered) : s.CreditsCovered :=
  s.creditsCovered_iff.2 ⟨inUse, covered⟩

/-- A change of one port that leaves in-use and its counts, and its receiver's frame or takes it away. -/
theorem State.CreditsCovered.modPort (hs : s.CreditsCovered) (l : LinkId) (f : LinkPort → LinkPort)
    (ctl : (f (s.port l)).ctl = (s.port l).ctl) (dat : (f (s.port l)).dat = (s.port l).dat)
    (frame : (f (s.port l)).rx.frame = (s.port l).rx.frame ∨ (f (s.port l)).rx.frame = none) : (s.modPort l f).CreditsCovered := by
  obtain ⟨inUse, covered⟩ := s.creditsCovered_iff.1 hs
  have credit : ∀ c, (f (s.port l)).credit c = (s.port l).credit c := fun c => by cases c <;> [exact ctl; exact dat]
  exact .mk (inUse.modPort l f fun c => by rw [credit]) (covered.modPort_same l f (fun c => by rw [credit]; exact ⟨rfl, rfl⟩) frame)

/-- A change of a class's counts that leaves in-use, the outstanding grant and the live allowance. -/
theorem State.CreditsCovered.modCredit (hs : s.CreditsCovered) (l : LinkId) (c : Cls) (f : CreditClass → CreditClass)
    (hf : ∀ k, (f k).inUse = k.inUse ∧ (f k).outstanding = k.outstanding ∧ (f k).live = k.live) : (s.modCredit l c f).CreditsCovered := by
  obtain ⟨inUse, covered⟩ := s.creditsCovered_iff.1 hs
  refine .mk (inUse.modCredit l c f fun k => (hf k).1) (covered.modPort_same l _ (fun d => ?_) (.inl (by simp)))
  have e : ((s.port l).modCredit c f).credit d = if d = c then f ((s.port l).credit d) else (s.port l).credit d := by
    cases c <;> cases d <;> rfl
  rw [e]
  split
  · exact (hf _).2
  · exact ⟨rfl, rfl⟩

/-- An operation that leaves the ports, the records' bills and the free list. -/
theorem State.CreditsCovered.of_same (hs : s.CreditsCovered) (ports : ∀ l, t.port l = s.port l) (bills : ∀ l c, t.bills l c = s.bills l c)
    (free : s.freeCount ≤ t.freeCount) : t.CreditsCovered := by
  obtain ⟨inUse, covered⟩ := s.creditsCovered_iff.1 hs
  exact .mk (inUse.of_same (fun l c => by rw [ports]) bills) (covered.of_links (.of_port ports) free)

theorem State.freeCount_freeRecord (s : State) (h : Nat) : s.freeCount ≤ (s.freeRecord h).freeCount := by
  cases hr : s.record h with
  | none => rw [s.freeRecord_none h hr]
  | some r => rw [State.freeCount, State.freeCount, s.free_freeRecord h r hr, List.length_append]; omega

theorem State.CreditsCovered.freeRecord (hs : s.CreditsCovered) (sorted : s.Sorted) (h : Nat) : (s.freeRecord h).CreditsCovered := by
  obtain ⟨inUse, covered⟩ := s.creditsCovered_iff.1 hs
  exact .mk (inUse.freeRecord sorted h) (covered.of_links (s.freeRecord_links h) (s.freeCount_freeRecord h))

theorem State.CreditsCovered.modRecord (hs : s.CreditsCovered) (h : Nat) (f : Record → Record)
    (hf : ∀ (r : Record) (l : LinkId) (c : Cls), (f r).bill l c = r.bill l c) : (s.modRecord h f).CreditsCovered :=
  hs.of_same (fun l => by cases l <;> rfl) (s.bills_modRecord h f hf) le_rfl

theorem State.CreditsCovered.removeHolder (hs : s.CreditsCovered) (sorted : s.Sorted) (h : Nat) (clear : Record → Record)
    (hc : ∀ (r : Record) (l : LinkId) (c : Cls), (clear r).bill l c = r.bill l c) : (s.removeHolder h clear).CreditsCovered := by
  unfold State.removeHolder
  split
  · exact hs
  · split
    · exact hs.freeRecord sorted h
    · exact hs.modRecord h clear hc

theorem State.CreditsCovered.append (hs : s.CreditsCovered) (q : QueueId) (h : Nat) : (s.append q h).CreditsCovered :=
  hs.of_same (fun l => by cases l <;> rfl) (State.bills_of_records rfl) le_rfl

theorem State.CreditsCovered.popHead (hs : s.CreditsCovered) (q : QueueId) : (s.popHead q).CreditsCovered := by
  have popped : (s.setEntries q (s.queue q).entries.tail).CreditsCovered :=
    hs.of_same (fun l => by cases l <;> rfl) (State.bills_of_records rfl) le_rfl
  unfold State.popHead State.stopStall
  split
  · exact popped
  · exact popped.modCredit _ _ _ fun _ => ⟨rfl, rfl, rfl⟩

theorem State.CreditsCovered.entryLeft (hs : s.CreditsCovered) (q : QueueId) (h : Nat) : (s.entryLeft q h).CreditsCovered := by
  refine hs.of_same (fun l => ?_) (State.bills_of_records (by rw [State.entryLeft_buf])) ?_
  · rw [State.entryLeft_spec]; split
    · cases l <;> rfl
    · rfl
  · rw [State.freeCount, State.freeCount, State.entryLeft_buf]

theorem State.CreditsCovered.dropHead (hs : s.CreditsCovered) (sorted : s.Sorted) (q : QueueId) (h : Nat) :
    (s.dropHead q h).CreditsCovered := by
  have sorted' : (s.popHead q).Sorted := sorted.of_records (by rw [State.popHead_buf])
  unfold State.dropHead
  cases q with
  | host c => exact ((hs.popHead _).removeHolder sorted' h (fun r => { r with host := .none }) fun _ _ _ => rfl).entryLeft _ h
  | tx l c => exact ((hs.popHead _).removeHolder sorted' h (fun r => r.setHolder l .none) fun r k c => r.bill_setHolder l _ k c).entryLeft _ h

theorem State.CreditsCovered.enterParts (hs : s.CreditsCovered) (m : LinkId) (c : Cls) (h : Nat) (host fwd : Bool) :
    (s.enterParts m c h host fwd).CreditsCovered := by
  have enter : (s.enterHost c h).CreditsCovered := (hs.append _ h).modRecord h _ fun _ _ _ => rfl
  have forward : ∀ {u : State}, u.CreditsCovered → (u.enterForward m c h).CreditsCovered := fun hu =>
    (hu.append _ h).modRecord h _ fun r k c => r.bill_setHolder m _ k c
  cases host <;> cases fwd
  · exact hs
  · exact forward hs
  · exact enter
  · exact forward enter

theorem State.CreditsCovered.closePort (hs : s.CreditsCovered) (h : Nat) : (s.closePort h).CreditsCovered :=
  hs.of_same (fun l => by cases l <;> simp) (State.bills_of_records (by simp)) (by simp [State.freeCount])

theorem State.CreditsCovered.setHeld (hs : s.CreditsCovered) (n : Nat) : (s.setHeld n).CreditsCovered :=
  hs.of_same (fun l => by cases l <;> rfl) (State.bills_of_records rfl) le_rfl

theorem State.CreditsCovered.answer (hs : s.CreditsCovered) (c : ResultCode) (r : Results) : (s.answer c r).CreditsCovered :=
  hs.of_same (fun l => by cases l <;> rfl) (State.bills_of_records rfl) le_rfl

/-- A grant decision (R117, R119): the cells granted are free and within the allowance. -/
theorem State.CreditsCovered.decideGrant (hs : s.CreditsCovered) (agree : s.HoldersAgree) (l : LinkId) (c : Cls) :
    (s.decideGrant l c).CreditsCovered := by
  obtain ⟨inUse, within, total⟩ := s.creditsCovered_iff.1 hs
  obtain ⟨cells, places⟩ := s.holdersAgree_iff_placesFit.1 agree
  have room := cells.freeCount_le
  -- what the frame being received may give back is in use
  have tentative : (s.port l).tentative c ≤ ((s.port l).credit c).inUse := by
    rw [inUse l c]
    cases hf : (s.port l).rx.frame with
    | none => rw [LinkPort.tentative_none hf]; exact Nat.zero_le _
    | some f =>
      obtain ⟨r, hr, -, origin, cls, size⟩ := (places.2 f.handle).frame l f hf rfl
      refine Nat.le_trans (Nat.le_of_eq ?_) (s.bill_le_billed cells.2.2.2 hr l c)
      rw [LinkPort.tentative_some hf, Record.bill, cls, size]
      by_cases e : f.cls = c
      · rw [if_pos e, if_pos ⟨origin, e⟩]; rfl
      · rw [if_neg e, if_neg fun h => e h.2]
  have mine := within l c
  have share := s.outstanding_le_total l c
  have grantable : s.grantable l c =
      min (((s.port l).credit c).live - ((s.port l).credit c).inUse - ((s.port l).credit c).outstanding)
        (s.freeCount - s.totalOutstanding) := rfl
  have granted : ({ (s.port l).credit c with granted := ((s.port l).credit c).granted + BitVec.ofNat 16 (s.grantable l c), due := false } :
      CreditClass).outstanding = ((s.port l).credit c).outstanding + s.grantable l c := by
    refine outstanding_granted ?_
    show ((s.port l).credit c).outstanding + _ < _
    omega
  have after := s.totalOutstanding_modCredit l c fun k =>
    { k with granted := k.granted + BitVec.ofNat 16 (s.grantable l c), due := false }
  rw [granted] at after
  refine .mk (inUse.modCredit l c _ fun _ => rfl) ⟨fun k d => ?_, ?_⟩
  · have rx : ((s.decideGrant l c).port k).tentative d = (s.port k).tentative d := by
      refine LinkPort.tentative_congr ?_ d
      rw [State.decideGrant, State.modCredit, State.port_modPort_cases]
      split
      · rename_i e; subst e; simp
      · rfl
    rw [rx, State.decideGrant, State.credit_modCredit]
    split
    · rename_i e
      obtain ⟨rfl, rfl⟩ := e
      rw [granted]
      show _ ≤ ((s.port k).credit d).live
      omega
    · exact within k d
  · have free : (s.decideGrant l c).freeCount = s.freeCount := by rw [State.decideGrant, State.freeCount, State.modCredit_buf]; rfl
    rw [free]
    show (s.modCredit l c _).totalOutstanding ≤ _
    omega

/-- A header taken in within its credit: its cells come off the outstanding grant and off the free list (R72). -/
theorem State.CreditsCovered.takeIn (hs : s.CreditsCovered) (free : s.record s.nextHandle = none) {l : LinkId} {header : BitVec 128}
    (frame : (s.port l).rx.frame = none)
    (credit : cellsFor (headerLength header) ≤ ((s.port l).credit (headerFields header).cls).outstanding)
    (fits : cellsFor (headerLength header) ≤ s.freeCount) : (s.takeIn l header).CreditsCovered := by
  obtain ⟨inUse, within, total⟩ := s.creditsCovered_iff.1 hs
  let k := cellsFor (headerLength header)
  let c := (headerFields header).cls
  let u := s.allocate k (arrivalRecord l (headerFields header))
  let arrived : RxFrame :=
    { handle := s.nextHandle, header := header, count := 0, crc := crc32Run crc32Start (bytesOf header 16), gather := [] }
  let g : CreditClass → CreditClass := fun x => { x with consumed := x.consumed + BitVec.ofNat 16 k, inUse := x.inUse + k }
  have ports : ∀ m, u.port m = s.port m := fun m => by cases m <;> rfl
  have size : (s.buf.free.take k).length = k := by rw [List.length_take]; exact Nat.min_eq_left fits
  have consumed : (g ((s.port l).credit c)).outstanding = ((s.port l).credit c).outstanding - k := outstanding_consumed credit
  have credits : ∀ m d, ((s.takeIn l header).port m).credit d =
      if m = l ∧ d = c then g ((s.port m).credit d) else (s.port m).credit d := fun m d => by
    have e : ((s.takeIn l header).port m).credit d = ((u.modCredit l c g).port m).credit d := by
      show (((u.modCredit l c g).modRx l _).port m).credit d = _
      rw [State.modRx, State.port_modPort_cases]
      split
      · cases d <;> rfl
      · rfl
    rw [e, State.credit_modCredit, ports]
  have tentative : ∀ m d, ((s.takeIn l header).port m).tentative d =
      if m = l then (if c = d then k else 0) else (s.port m).tentative d := fun m d => by
    show (((u.modCredit l c g).modRx l _).port m).tentative d = _
    rw [State.modRx, State.port_modPort_cases]
    split
    · exact LinkPort.tentative_some (f := arrived) rfl d
    · rename_i ne
      refine LinkPort.tentative_congr ?_ d
      rw [State.modCredit, State.port_modPort_cases, if_neg ne, ports]
  have billed : ∀ m d, (s.takeIn l header).billed m d = (if m = l ∧ d = c then k else 0) + s.billed m d := fun m d => by
    have e : (s.takeIn l header).billed m d = u.billed m d := by
      rw [State.billed, State.billed]
      rw [State.bills_of_records (s := u) (by simp [State.takeIn, State.consume, u, k, headerLength])]
    rw [e, s.billed_allocate free]
    congr 1
    show (if Party.link l = .link m ∧ c = d then (s.buf.free.take k).length else 0) = _
    rw [size]
    simp only [Party.link.injEq, eq_comm]
  have less : (s.takeIn l header).totalOutstanding + k = s.totalOutstanding := by
    have e := u.totalOutstanding_modCredit l c g
    have e' : (s.takeIn l header).totalOutstanding = (u.modCredit l c g).totalOutstanding :=
      State.totalOutstanding_congr fun m d => by rw [credits, State.credit_modCredit, ports]
    have e'' : u.totalOutstanding = s.totalOutstanding := State.totalOutstanding_congr fun m d => by rw [ports]
    rw [ports, consumed] at e
    have : k ≤ ((s.port l).credit c).outstanding := credit
    omega
  have left : (s.takeIn l header).freeCount = s.freeCount - k := by
    have e : (s.takeIn l header).freeCount = (s.buf.free.drop k).length := by
      simp [State.takeIn, State.consume, State.freeCount, State.allocate, k, headerLength]
    rw [e, List.length_drop]; rfl
  refine .mk (fun m d => ?_) ⟨fun m d => ?_, ?_⟩
  · rw [credits, billed, ← inUse m d]
    split
    · exact Nat.add_comm _ _
    · exact (Nat.zero_add _).symm
  · have before := within m d
    rw [credits, tentative]
    by_cases e : m = l
    · subst e
      rw [LinkPort.tentative_none frame] at before
      by_cases e' : d = c
      · subst e'
        rw [if_pos ⟨rfl, rfl⟩, if_pos rfl, if_pos rfl, consumed]
        show _ ≤ ((s.port m).credit c).live
        have : k ≤ ((s.port m).credit c).outstanding := credit
        omega
      · rw [if_neg fun h => e' h.2, if_pos rfl, if_neg (Ne.symm e')]
        exact before
    · rw [if_neg fun h => e h.1, if_neg e]
      exact before
  · rw [left]; omega

/-- A frame given back: its cells return to the outstanding grant and to the free list (R76). -/
theorem State.CreditsCovered.giveBack (hs : s.CreditsCovered) (agree : s.HoldersAgree) {l : LinkId} {f : RxFrame}
    (hf : (s.port l).rx.frame = some f) : (s.giveBack l f).CreditsCovered := by
  obtain ⟨cells, places⟩ := s.holdersAgree_iff_placesFit.1 agree
  obtain ⟨r, hr, -, -, -, size⟩ := (places.2 f.handle).frame l f hf rfl
  have size : r.cells.length = cellsFor f.length := size
  obtain ⟨inUse, within, total⟩ := s.creditsCovered_iff.1 hs
  let u := s.freeRecord f.handle
  have links : s.SameLinks u := s.freeRecord_links f.handle
  have inUse' : u.InUseCounts := inUse.freeRecord cells.2.2.2 f.handle
  have free : u.freeCount = s.freeCount + cellsFor f.length := by
    rw [State.freeCount, s.free_freeRecord f.handle r hr, List.length_append, size]; rfl
  have room : u.freeCount ≤ 1024 := (cells.freeRecord f.handle).freeCount_le
  let g : CreditClass → CreditClass := fun x => { x with consumed := x.consumed - BitVec.ofNat 16 (cellsFor f.length) }
  have same : ∀ m d, ((u.port m).credit d).outstanding = ((s.port m).credit d).outstanding ∧
      ((u.port m).credit d).live = ((s.port m).credit d).live := fun m d => CreditClass.outstanding_congr (links.counts m d)
  have share := s.outstanding_le_total l f.cls
  have back : (g ((u.port l).credit f.cls)).outstanding = ((s.port l).credit f.cls).outstanding + cellsFor f.length := by
    rw [← (same l f.cls).1]
    refine outstanding_unconsumed ?_
    show ((u.port l).credit f.cls).outstanding + _ < _
    rw [(same l f.cls).1]
    omega
  have credits : ∀ m d, ((s.giveBack l f).port m).credit d =
      if m = l ∧ d = f.cls then g ((u.port m).credit d) else (u.port m).credit d := fun m d => by
    have e : ((s.giveBack l f).port m).credit d = ((u.modCredit l f.cls g).port m).credit d := by
      show (((u.modCredit l f.cls g).modRx l _).port m).credit d = _
      rw [State.modRx, State.port_modPort_cases]
      split
      · cases d <;> rfl
      · rfl
    rw [e, State.credit_modCredit]
  have tentative : ∀ m d, ((s.giveBack l f).port m).tentative d = if m = l then 0 else (s.port m).tentative d := fun m d => by
    show (((u.modCredit l f.cls g).modRx l _).port m).tentative d = _
    rw [State.modRx, State.port_modPort_cases]
    split
    · exact LinkPort.tentative_none rfl d
    · rename_i ne
      refine LinkPort.tentative_congr ?_ d
      rw [State.modCredit, State.port_modPort_cases, if_neg ne, links.rx]
  refine .mk ?_ ⟨fun m d => ?_, ?_⟩
  · exact State.InUseCounts.modPort (inUse'.modCredit l f.cls g fun _ => rfl) l _ fun c => by cases c <;> rfl
  · have before := within m d
    rw [credits, tentative]
    by_cases e : m = l
    · subst e
      rw [LinkPort.tentative_some hf] at before
      by_cases e' : d = f.cls
      · subst e'
        rw [if_pos rfl] at before
        rw [if_pos ⟨rfl, rfl⟩, if_pos rfl, back]
        show _ ≤ ((u.port m).credit f.cls).live
        rw [(same m f.cls).2]
        exact before
      · rw [if_neg fun h => e' h.2, if_pos rfl, (same m d).1, (same m d).2]
        omega
    · rw [if_neg fun h => e h.1, if_neg e, (same m d).1, (same m d).2]
      exact before
  · have e := u.totalOutstanding_modCredit l f.cls g
    have e' : (s.giveBack l f).totalOutstanding = (u.modCredit l f.cls g).totalOutstanding :=
      State.totalOutstanding_congr fun m d => by rw [credits, State.credit_modCredit]
    have e'' : u.totalOutstanding = s.totalOutstanding := State.totalOutstanding_congr fun m d => (same m d).1
    have e3 : (s.giveBack l f).freeCount = u.freeCount := by
      simp [State.giveBack, State.unconsume, State.freeCount, u]
    rw [back, (same l f.cls).1] at e
    rw [e3, free]
    omega

end

/-- The laws do not see what the core leaves out. -/
theorem State.creditsCovered_core (s : State) : s.core.CreditsCovered ↔ s.CreditsCovered := by
  have credit : ∀ l c, ((s.core.port l).credit c) = ((s.port l).credit c).core := fun l c => by
    rw [State.port_core]; cases c <;> rfl
  have bills : ∀ l c, s.core.bills l c = s.bills l c := fun l c => by
    rw [State.bills, State.bills]
    show (s.buf.records.map fun e => (e.1, e.2.clean)).map _ = _
    rw [List.map_map]; rfl
  have tentative : ∀ l c, (s.core.port l).tentative c = (s.port l).tentative c := fun l c => by
    rw [State.port_core]
    unfold LinkPort.tentative
    show (match (s.port l).rx.frame.map RxFrame.core with | some f => _ | none => _) = _
    cases (s.port l).rx.frame <;> rfl
  have outstanding : ∀ l c, ((s.core.port l).credit c).outstanding = ((s.port l).credit c).outstanding := fun l c => by
    rw [credit]; rfl
  rw [State.creditsCovered_iff, State.creditsCovered_iff]
  refine and_congr (forall₂_congr fun l c => ?_) (and_congr (forall₂_congr fun l c => ?_) ?_)
  · rw [credit, State.billed, State.billed, bills]; rfl
  · rw [tentative, outstanding, credit]; rfl
  · rw [State.totalOutstanding_congr outstanding]; rfl

theorem State.CreditsCovered.of_core {s t : State} (hs : s.CreditsCovered) (core : t.core = s.core) : t.CreditsCovered :=
  (State.creditsCovered_core t).1 (core ▸ (State.creditsCovered_core s).2 hs)

/-- A state with nothing in use and nothing granted. -/
theorem State.creditsCovered_of_clear {s : State} (records : s.buf.records = []) (credit : ∀ l c, ((s.port l).credit c) = .reset)
    (frame : ∀ l, (s.port l).rx.frame = none) : s.CreditsCovered := by
  refine .mk (fun l c => ?_) ⟨fun l c => ?_, ?_⟩
  · rw [credit, State.billed, State.bills, records]; rfl
  · rw [credit, LinkPort.tentative_none (frame l)]; rfl
  · rw [State.totalOutstanding_eq]
    simp only [credit]
    exact Nat.zero_le _

theorem LinkPort.outstanding_greeted (p : LinkPort) (c : Cls) : (p.greeted.credit c).outstanding = 0 := by
  cases c <;> simp [LinkPort.greeted, LinkPort.credit, CreditClass.greet, CreditClass.outstanding, CreditClass.reset]

theorem LinkPort.outstanding_quieted (target : LinkState) (p : LinkPort) (c : Cls) : ((p.quieted target).credit c).outstanding = 0 := by
  cases c <;> simp [LinkPort.quieted, LinkPort.credit, CreditClass.teardown, CreditClass.outstanding, CreditClass.reset]

/-- Every move from a state that meets the law of records and holders keeps the laws of the Credit Unit. -/
theorem Move.creditsCovered {s t : State} (m : Move s t) (agree : s.HoldersAgree) (hs : s.CreditsCovered) : t.CreditsCovered := by
  obtain ⟨cells, places⟩ := s.holdersAgree_iff_placesFit.1 agree
  have sorted : s.Sorted := cells.2.2.2
  have fresh : ∀ {n : Nat}, 0 < n → cellsFor n ≤ s.freeCount → s.record s.nextHandle = none := fun pos fits =>
    cells.nextHandle_free (Nat.lt_of_lt_of_le (cellsFor_pos pos) fits)
  obtain ⟨inUse, within, total⟩ := s.creditsCovered_iff.1 hs
  cases m with
  | same h => exact hs.of_core h
  | @hunt l _ _ => exact hs.modPort l _ rfl rfl (.inl rfl)
  | @greet l _ frame =>
    refine .mk (inUse.modPort l _ fun c => by cases c <;> rfl)
      (State.Covered.modPort ⟨within, total⟩ l _ (fun c => ?_) fun c => by rw [LinkPort.outstanding_greeted]; exact Nat.zero_le _)
    rw [LinkPort.tentative_none (p := LinkPort.greeted (s.port l)) frame, LinkPort.outstanding_greeted]
    exact Nat.zero_le _
  | @active l _ => exact hs.modPort l _ rfl rfl (.inl rfl)
  | @quiet l target _ _ frame _ _ _ =>
    refine .mk (inUse.modPort l _ fun c => by cases c <;> rfl)
      (State.Covered.modPort ⟨within, total⟩ l _ (fun c => ?_) fun c => by rw [LinkPort.outstanding_quieted]; exact Nat.zero_le _)
    rw [LinkPort.tentative_none (p := LinkPort.quieted target (s.port l)) frame, LinkPort.outstanding_quieted]
    exact Nat.zero_le _
  | @decideGrant l c _ => exact hs.decideGrant agree l c
  | @grantTaken l c v _ => exact hs.modCredit l c _ fun _ => ⟨rfl, rfl, rfl⟩
  | @line l b _ _ _ => exact hs.modPort l _ rfl rfl (.inl rfl)
  | takeIn _ frame pos credit fits => exact hs.takeIn (fresh pos fits) frame credit fits
  | giveBack frame => exact hs.giveBack agree frame
  | @unframe l f _ => exact (hs.freeRecord sorted f.handle).modPort l _ rfl rfl (.inr rfl)
  | @keepHeld l f r _ _ _ => exact hs.modPort l _ rfl rfl (.inr rfl)
  | @accept l f c host fwd _ _ _ _ => exact (hs.enterParts _ c _ host fwd).modPort l _ rfl rfl (.inr rfl)
  | dropHead _ => exact hs.dropHead sorted _ _
  | @beginFirst l c h rest r _ _ _ hr =>
    simp only [State.beginFirst, hr]
    exact ((((hs.popHead _).modRecord h _ fun r k c => r.bill_setHolder l _ k c).entryLeft _ h).modPort l _ rfl rfl (.inl rfl))
  | @firstEnd l f r _ _ hr =>
    simp only [State.firstEnd, hr]
    have ended : (s.endFrame l f.ending).CreditsCovered := hs.modPort l _ rfl rfl (.inl rfl)
    have listed := (ended.modRecord f.handle (fun r => r.setHolder l (.unacked f.seq)) fun r k c => r.bill_setHolder l _ k c).modPort l
      (fun p => { p with tx := { p.tx with
        nextSeq := p.tx.nextSeq + 1
        unacked := p.tx.unacked ++ [f.handle]
        replayTimer := some (p.tx.replayTimer.getD p.cfg.replayTimeoutUs) } }) rfl rfl (.inl rfl)
    have sent := listed.modCredit l r.cls (fun k => { k with sent := k.sent + BitVec.ofNat 16 r.cells.length }) fun _ => ⟨rfl, rfl, rfl⟩
    exact sent.of_core (State.core_countLink _ l _)
  | @firstGone l f _ _ =>
    exact (hs.removeHolder sorted f.handle _ fun r k c => r.bill_setHolder l _ k c).modPort l _ rfl rfl (.inl rfl)
  | @unlist l h _ _ => exact (hs.removeHolder sorted h _ fun r k c => r.bill_setHolder l _ k c).modPort l _ rfl rfl (.inl rfl)
  | @alloc length c _ pos _ fits =>
    have free := fresh pos (by omega)
    have ports : ∀ l, (s.allocate (cellsFor length) (hostRecord length c)).port l = s.port l := fun l => by cases l <;> rfl
    have taken : (s.allocate (cellsFor length) (hostRecord length c)).CreditsCovered := by
      refine .mk (fun l d => ?_) ⟨fun l => by rw [ports]; exact within l, ?_⟩
      · rw [ports, s.billed_allocate free, inUse l d]; exact (Nat.zero_add _).symm
      · rw [State.totalOutstanding_congr (s := s) fun l d => by rw [ports]]
        show _ ≤ (s.buf.free.drop (cellsFor length)).length
        rw [List.length_drop]
        unfold State.freeCount at fits
        omega
    exact (((taken.of_same (t := State.zeroCells _ (s.buf.free.take (cellsFor length))) (fun l => by cases l <;> rfl)
      (State.bills_of_records rfl) le_rfl).setHeld _).answer _ _)
  | @post h r d hops links _ _ _ _ _ =>
    have posted := hs.modRecord h (fun r => r.posted d s.nodeAddr hops links) fun r l c => r.bill_posted d _ hops links l c
    have appended : ∀ (links : List LinkId) (u : State), u.CreditsCovered →
        (links.foldl (fun u l => u.append (.tx l r.cls) h) u).CreditsCovered := fun links => by
      induction links with
      | nil => exact fun _ hu => hu
      | cons l links ih => exact fun u hu => ih _ (hu.append _ h)
    exact (((appended links _ posted).setHeld _).closePort h).answer _ _
  | @claim c h _ _ _ =>
    have claimed := ((hs.popHead (.host c)).modRecord h (fun r => { r with host := .claimed }) fun _ _ _ => rfl).setHeld (s.hcu.held + 1)
    unfold State.claimTaken
    dsimp only
    split
    · exact claimed.answer _ _
    · exact claimed.answer _ _
  | @release h r _ =>
    exact (((hs.removeHolder sorted h (fun r => { r with host := .none }) fun _ _ _ => rfl).setHeld _).closePort h).answer _ _
  | flush _ => exact hs.of_same (fun l => by cases l <;> rfl) (State.bills_of_records rfl) le_rfl
  | resetInput => exact State.creditsCovered_of_clear rfl (fun l c => by cases l <;> cases c <;> rfl) fun l => by cases l <;> rfl
  | init ready =>
    obtain ⟨empty, records, -⟩ := cells.2.1 ready
    have zero : s.totalOutstanding = 0 := by
      rw [State.freeCount, empty] at total
      exact Nat.le_zero.1 total
    have parts : (∀ l, s.initTaken.port l = s.port l) ∧ s.initTaken.buf.records = [] := by
      unfold State.initTaken State.passAtReady
      split <;> exact ⟨fun l => by cases l <;> rfl, rfl⟩
    obtain ⟨ports, records'⟩ := parts
    refine .mk (inUse.of_same (fun l c => by rw [ports]) (State.bills_of_records (records'.trans records.symm)))
      ⟨fun l => by rw [ports]; exact within l, ?_⟩
    rw [State.totalOutstanding_congr (s := s) fun l d => by rw [ports], zero]
    exact Nat.zero_le _
  | softReset => exact State.creditsCovered_of_clear rfl (fun l c => by cases l <;> cases c <;> rfl) fun l => by cases l <;> rfl

/-! ## Both laws at every step, and no stop -/

/-- The law of records and holders with the laws of the Credit Unit. -/
def State.AgreeCovered (s : State) : Prop :=
  s.HoldersAgree ∧ s.CreditsCovered

theorem Move.agreeCovered {s t : State} (m : Move s t) (hs : s.AgreeCovered) : t.AgreeCovered :=
  ⟨m.holdersAgree hs.1, m.creditsCovered hs.1 hs.2⟩

theorem Moves.agreeCovered {s t : State} (m : Moves s t) (hs : s.AgreeCovered) : t.AgreeCovered :=
  m.keep (fun _ _ m h => m.agreeCovered h) hs

/-- A header within its credit finds its cells, since the free cells cover what is outstanding. -/
theorem State.CreditsCovered.judgeHeader {s : State} (hs : s.CreditsCovered) (l : LinkId) (header : BitVec 128) :
    ∃ t, s.judgeHeader l header = .ok t := by
  have share := s.outstanding_le_total l (headerFields header).cls
  have room : s.totalOutstanding ≤ s.freeCount := hs.2.2
  unfold State.judgeHeader
  dsimp only
  split
  · split
    · exact ⟨_, rfl⟩
    · split
      · exact ⟨_, rfl⟩
      · rw [if_neg (by omega)]; exact ⟨_, rfl⟩
  · split <;> exact ⟨_, rfl⟩

theorem State.AgreeCovered.validFrame {s : State} (hs : s.AgreeCovered) (l : LinkId) (header : BitVec 128) :
    ∃ t, s.validFrame l header = .ok t := by
  unfold State.validFrame
  split
  · exact ⟨_, rfl⟩
  · exact ⟨_, rfl⟩
  · exact ⟨_, rfl⟩
  · rename_i greet
    obtain ⟨counted, state, -⟩ := s.marker_countValid_moves l
    dsimp only
    split
    · have active := counted.trans (State.enterActive_moves _ l (state.trans greet))
      exact (active.agreeCovered hs).2.judgeHeader l header
    · exact ⟨_, rfl⟩
  · obtain ⟨block, -, -⟩ := s.marker_activeBlock_moves l
    dsimp only
    split
    · exact ⟨_, rfl⟩
    · exact (block.agreeCovered hs).2.judgeHeader l header

theorem State.AgreeCovered.exec {s : State} (hs : s.AgreeCovered) (c : Instr) : ∃ t, exec c s = .next t := by
  rcases exec_answers c s with answer | ⟨l, header, rfl, stop⟩
  · exact answer
  · obtain ⟨u, hu⟩ := hs.validFrame l header
    have e : Machine.exec (.frameHeaderReceived l header) s = execFrameHeaderReceived l header s := rfl
    rw [e] at stop
    unfold execFrameHeaderReceived at stop
    rw [hu] at stop
    split at stop
    · split at stop <;> cases stop
    · cases stop

/-- Settles O58: each move changes in-use with the records, grants no more than the free cells and the allowance leave, and takes a
header's cells off what is outstanding; so the one stop, an allocation that falls short, does not happen. -/
theorem creditLawKept : Obligations.CreditLawKept := by
  unfold Obligations.CreditLawKept
  intro s agree covered
  refine ⟨fun t e => ?_, ?_⟩
  · exact (step_keeps (P := State.AgreeCovered) (fun _ _ m h => m.agreeCovered h) (fun _ _ h => h) s t ⟨agree, covered⟩ e).2
  · unfold step
    split
    · exact ⟨_, rfl⟩
    · rename_i c rest _
      exact State.AgreeCovered.exec (s := { s with pending := rest }) ⟨agree, covered⟩ c

end Sys2Proof.Machine
end

