-- ==== Sys2Proof/Proofs/HostCommands.lean ====
section
/-! SUPPORT. The frame commands of the host: ALLOC, POST, RELEASE, and the commands turned away (chapter 7). -/

namespace Sys2Proof.Machine

/-! ## Taking a command -/

/-- A command that an idle unit of a ready part takes is its body, on the state with the code kept. -/
theorem State.UnitIdle.takeCommand {s : State} (idle : s.UnitIdle) (code : Word) (body : State → State) :
    s.takeCommand code body = body { s with hcu := { s.hcu with cmd := code } } :=
  s.takeCommand_idle code body idle.2 idle.1

theorem State.answer_eq_answered (s : State) (code : Word) (rc : ResultCode) (res : Results) :
    State.answer { s with hcu := { s.hcu with cmd := code } } rc res = s.answered code rc res := rfl

theorem classOfCode_eq_none {v : Word} : classOfCode v.toNat = none ↔ ¬(v = 1 ∨ v = 2) := by
  have one : v = 1 ↔ v.toNat = 1 := ⟨fun e => by rw [e]; rfl, fun e => BitVec.eq_of_toNat_eq e⟩
  have two : v = 2 ↔ v.toNat = 2 := ⟨fun e => by rw [e]; rfl, fun e => BitVec.eq_of_toNat_eq e⟩
  rw [one, two]
  unfold classOfCode
  split
  · simp_all
  · simp_all
  · rename_i a b; exact ⟨fun _ h => h.elim a b, fun _ => rfl⟩

/-! ## Chains followed by their links -/

theorem lookup_linkChain_of_not_mem (links : List (Nat × Option Nat)) {cells : List Nat} {x : Nat} (h : x ∉ cells) :
    Sparse.lookup (linkChain links cells) x = Sparse.lookup links x := by
  induction cells with
  | nil => rfl
  | cons c rest ih =>
    obtain ⟨ne, out⟩ := List.ne_and_not_mem_of_not_mem_cons h
    cases rest with
    | nil => rw [linkChain, Sparse.lookup_insert, if_neg ne.symm]
    | cons d rest => rw [linkChain, Sparse.lookup_insert, if_neg ne.symm, ih out]

/-- Links that agree with a chain's own on its cells lead along the chain. -/
theorem followLinks_of_agree (base : List (Nat × Option Nat)) (rest : List Nat) (c : Nat) (nodup : (c :: rest).Nodup)
    (links : List (Nat × Option Nat))
    (agree : ∀ x ∈ c :: rest, Sparse.lookup links x = Sparse.lookup (linkChain base (c :: rest)) x) :
    followLinks links (c :: rest).length c = c :: rest := by
  induction rest generalizing c with
  | nil =>
    have e := agree c List.mem_cons_self
    rw [linkChain, Sparse.lookup_insert, if_pos rfl] at e
    simp [followLinks, e]
  | cons d rest ih =>
    obtain ⟨out, nodup⟩ := List.nodup_cons.1 nodup
    have e := agree c List.mem_cons_self
    rw [linkChain, Sparse.lookup_insert, if_pos rfl] at e
    rw [List.length_cons, followLinks, e]
    dsimp only
    rw [ih d nodup fun x hx => ?_]
    rw [agree x (List.mem_cons_of_mem _ hx), linkChain, Sparse.lookup_insert, if_neg (by intro e; subst e; exact out hx)]

/-- The links of a chain lead from its first cell along it to the end mark (R3). -/
theorem followLinks_linkChain (base : List (Nat × Option Nat)) {cells : List Nat} (nodup : cells.Nodup) (pos : cells ≠ []) :
    followLinks (linkChain base cells) cells.length (cells.headD 0) = cells := by
  obtain ⟨c, rest, rfl⟩ := List.exists_cons_of_ne_nil pos
  exact followLinks_of_agree base rest c nodup _ fun _ _ => rfl

/-! ## ALLOC -/

/-- The tests of ALLOC, in their order, once its class is named. -/
theorem State.allocBody_eq (s : State) {c : Cls} (hc : classOfCode s.hcu.arg1.toNat = some c) :
    s.allocBody =
      if s.hcu.arg0.toNat = 0 ∨ 1024 < s.hcu.arg0.toNat then s.answer .badArg
      else if 64 ≤ s.hcu.held then s.answer .handleLimit
      else if s.freeCount < cellsFor s.hcu.arg0.toNat + s.totalOutstanding then s.answer .noCells
      else (s.allocTaken s.hcu.arg0.toNat c).settle s := by
  unfold State.allocBody
  rw [hc]
  rfl

/-- Settles O7: the body of ALLOC, test by test; the new chain's links lead along it. -/
theorem allocResult : Obligations.AllocResult := by
  unfold Obligations.AllocResult
  refine ⟨fun s c idle low high cls held room => ?_, fun s idle => ?_⟩
  · let u : State := { s with hcu := { s.hcu with cmd := 1 } }
    have hc : classOfCode s.hcu.arg1.toNat = some c := by rw [cls]; cases c <;> rfl
    have run : exec .alloc s = .next ((u.allocTaken s.hcu.arg0.toNat c).settle u) := by
      show Host.Outcome.next (s.takeCommand 1 State.allocBody) = _
      rw [idle.takeCommand, State.allocBody_eq u hc, if_neg (show ¬(s.hcu.arg0.toNat = 0 ∨ 1024 < s.hcu.arg0.toNat) by omega),
        if_neg (Nat.not_le.2 held),
        if_neg (show ¬(u.freeCount < cellsFor s.hcu.arg0.toNat + u.totalOutstanding) from Nat.not_lt.2 room)]
    have size : (s.buf.free.take ((s.hcu.arg0.toNat + 63) / 64)).length = (s.hcu.arg0.toNat + 63) / 64 := by
      rw [List.length_take]
      exact Nat.min_eq_left (by omega)
    refine ⟨u.allocTaken s.hcu.arg0.toNat c, run, rfl, ?_, fun g ne => ?_, fun a ha => ?_, fun a ha => ?_, fun p hp => ?_,
      fun nodup => ?_, rfl⟩
    · exact (u.record_allocate _ _ _).trans (if_pos rfl)
    · exact (u.record_allocate _ _ _).trans (if_neg (Ne.symm ne))
    · exact (Memory.readByte_zeroCells _ _ _).trans (if_pos ha)
    · exact (Memory.readByte_zeroCells _ _ _).trans (if_neg ha)
    · have none : Sparse.lookup (s.buf.wrong.filter fun e => !(s.buf.free.take ((s.hcu.arg0.toNat + 63) / 64)).contains (e.1 / 8)) p = none := by
        cases e : Sparse.lookup (s.buf.wrong.filter fun e => !(s.buf.free.take ((s.hcu.arg0.toNat + 63) / 64)).contains (e.1 / 8)) p with
        | none => rfl
        | some v =>
          have kept := (List.mem_filter.1 (Sparse.mem_of_lookup e)).2
          simp [hp] at kept
      show (Sparse.lookup _ p).getD [] = []
      exact congrArg (fun o : Option (List Nat) => o.getD []) none
    · have pos : s.buf.free.take ((s.hcu.arg0.toNat + 63) / 64) ≠ [] := fun e => by rw [e] at size; simp at size; omega
      have head : (s.buf.free.take ((s.hcu.arg0.toNat + 63) / 64)).headD 0 = s.buf.free.headD 0 := by
        cases hf : s.buf.free with
        | nil => simp
        | cons a rest =>
          obtain ⟨k, hk⟩ : ∃ k, (s.hcu.arg0.toNat + 63) / 64 = k + 1 := ⟨(s.hcu.arg0.toNat + 63) / 64 - 1, by omega⟩
          rw [hk]; rfl
      have follow := followLinks_linkChain s.buf.links nodup pos
      rw [size, head] at follow
      exact follow
  · let u : State := { s with hcu := { s.hcu with cmd := 1 } }
    have run : exec .alloc s = .next u.allocBody := by
      show Host.Outcome.next (s.takeCommand 1 State.allocBody) = _
      rw [idle.takeCommand]
    have named : s.hcu.arg1 = 1 ∨ s.hcu.arg1 = 2 → ∃ c, classOfCode s.hcu.arg1.toNat = some c := fun h =>
      Option.ne_none_iff_exists'.1 fun none => classOfCode_eq_none.1 none h
    refine ⟨fun bad => ?_, fun ok limit => ?_, fun ok held short => ?_⟩
    · rw [run]
      by_cases cls : s.hcu.arg1 = 1 ∨ s.hcu.arg1 = 2
      · obtain ⟨c, hc⟩ := named cls
        have out : ¬(1 ≤ s.hcu.arg0.toNat ∧ s.hcu.arg0.toNat ≤ 1024) := fun len => bad ⟨len, cls⟩
        rw [State.allocBody_eq u hc, if_pos (show s.hcu.arg0.toNat = 0 ∨ 1024 < s.hcu.arg0.toNat by omega)]; rfl
      · have none : classOfCode u.hcu.arg1.toNat = .none := classOfCode_eq_none.2 cls
        unfold State.allocBody
        rw [none]; rfl
    · obtain ⟨c, hc⟩ := named ok.2
      rw [run, State.allocBody_eq u hc, if_neg (show ¬(s.hcu.arg0.toNat = 0 ∨ 1024 < s.hcu.arg0.toNat) by omega), if_pos limit]; rfl
    · obtain ⟨c, hc⟩ := named ok.2
      rw [run, State.allocBody_eq u hc, if_neg (show ¬(s.hcu.arg0.toNat = 0 ∨ 1024 < s.hcu.arg0.toNat) by omega),
        if_neg (Nat.not_le.2 held), if_pos (show u.freeCount < cellsFor s.hcu.arg0.toNat + u.totalOutstanding from short)]; rfl

/-! ## POST -/

/-- The port that stays open when the port is closed for a handle (R144). -/
def DataPort.unless (h : Nat) : Option DataPort → Option DataPort
  | some p => if p.handle = h then none else some p
  | none => none

theorem State.closePort_spec (s : State) (h : Nat) :
    s.closePort h = { s with hcu := { s.hcu with port := DataPort.unless h s.hcu.port } } := by
  unfold State.closePort
  split
  · rename_i p hp
    split
    · rename_i e; rw [hp, DataPort.unless, if_pos e]
    · rename_i e; rw [hp, DataPort.unless, if_neg e, ← hp]
  · rename_i hp; rw [hp, DataPort.unless, ← hp]

/-- The links of a selection. -/
def selected (onA onB : Bool) : List LinkId :=
  (if onA then [.a] else []) ++ (if onB then [.b] else [])

theorem mem_selected {onA onB : Bool} {l : LinkId} : l ∈ selected onA onB ↔ (l = .a ∧ onA = true) ∨ (l = .b ∧ onB = true) := by
  cases onA <;> cases onB <;> cases l <;> simp [selected]

theorem selectionOfCode_eq_none {v : Word} : selectionOfCode v.toNat = none ↔ ¬(v = 1 ∨ v = 2 ∨ v = 3) := by
  have code : ∀ k : Word, v = k ↔ v.toNat = k.toNat := fun k => ⟨fun e => by rw [e], fun e => BitVec.eq_of_toNat_eq e⟩
  rw [code 1, code 2, code 3]
  unfold selectionOfCode
  split
  · simp_all
  · simp_all
  · simp_all
  · rename_i a b c; exact ⟨fun _ h => h.elim a fun h => h.elim b c, fun _ => rfl⟩

/-- A selection of at least one link, by its code. -/
theorem selectionOfCode_selected {v : Word} (h : v = 1 ∨ v = 2 ∨ v = 3) :
    selectionOfCode v.toNat = some (selected (decide (v = 1 ∨ v = 3)) (decide (v = 2 ∨ v = 3))) := by
  rcases h with rfl | rfl | rfl <;> rfl

theorem Record.posted_selected (r : Record) (d src : Byte) (hops : BitVec 4) (onA onB : Bool) :
    r.posted d src hops (selected onA onB) =
      { r with
        destination := some d, source := some src, hops := hops, host := .none, phase := .live
        linkA := if onA then .queued else r.linkA
        linkB := if onB then .queued else r.linkB } := by
  cases onA <;> cases onB <;> rfl

/-- What a POST that passes its tests does: the record, the selected queues, and the unit. -/
theorem State.postTaken_spec (s : State) (h : Nat) (c : Cls) (d : Byte) (hops : BitVec 4) (onA onB : Bool) :
    s.postTaken h c d hops (selected onA onB) =
      State.answer
        { s with
          buf := (s.modRecord h fun r => r.posted d s.nodeAddr hops (selected onA onB)).buf
          queues := ((selected onA onB).foldl (fun u l => u.append (.tx l c) h) s).queues
          hcu := { s.hcu with held := s.hcu.held - 1, port := DataPort.unless h s.hcu.port } }
        .ok { r0 := wordOfNat h } := by
  unfold State.postTaken
  dsimp only
  rw [State.closePort_spec]
  cases onA <;> cases onB <;> rfl

theorem State.entries_appendSelected (s : State) (h : Nat) (c : Cls) (onA onB : Bool) :
    (((selected onA onB).foldl (fun u l => u.append (.tx l c) h) s).queue (.tx .a c)).entries =
      (s.queue (.tx .a c)).entries ++ (if onA then [h] else []) ∧
    (((selected onA onB).foldl (fun u l => u.append (.tx l c) h) s).queue (.tx .b c)).entries =
      (s.queue (.tx .b c)).entries ++ (if onB then [h] else []) := by
  have other : ∀ (u : State) (es : List Nat) (l m : LinkId), l ≠ m → (u.setEntries (.tx m c) es).queue (.tx l c) = u.queue (.tx l c) :=
    fun u es l m ne => State.queue_setEntries_ne _ _ _ _ (by simpa using ne)
  have a := fun u es => other u es .a .b nofun
  have b := fun u es => other u es .b .a nofun
  cases onA <;> cases onB <;> simp [selected, State.append, a, b]

/-- The tests of POST on the record, in their order, once its arguments pass. -/
theorem State.postBody_eq (s : State) {links : List LinkId} {r : Record} (sel : selectionOfCode s.hcu.arg2.toNat = some links)
    (dst : s.hcu.arg1.toNat ≤ 255) (hops : s.hcu.arg3.toNat ≤ 15) (low : s.hcu.arg0.toNat < 1024)
    (hr : s.record s.hcu.arg0.toNat = some r) (host : r.host = .filling) :
    s.postBody =
      if links.any (fun l => !s.isActive l) then s.answer .linkDown
      else if links.any (fun l => (s.queue (.tx l r.cls)).full) then s.answer .queueFull
      else (s.postTaken s.hcu.arg0.toNat r.cls (s.hcu.arg1.setWidth 8) (s.hcu.arg3.setWidth 4) links).settle s := by
  have named : s.namedRecord s.hcu.arg0.toNat = some r := (if_pos low).trans hr
  unfold State.postBody
  dsimp only
  rw [sel]
  dsimp only
  rw [if_neg (by omega), named]
  simp [host]

/-- The refusals of POST by its arguments and its handle. -/
theorem State.postBody_refused (s : State) :
    (selectionOfCode s.hcu.arg2.toNat = none → s.postBody = s.answer .badArg) ∧
    (∀ links, selectionOfCode s.hcu.arg2.toNat = some links →
      (255 < s.hcu.arg1.toNat ∨ 15 < s.hcu.arg3.toNat → s.postBody = s.answer .badArg) ∧
      (¬(255 < s.hcu.arg1.toNat ∨ 15 < s.hcu.arg3.toNat) →
        (¬∃ r, s.hcu.arg0.toNat < 1024 ∧ s.record s.hcu.arg0.toNat = some r ∧ r.host = .filling) → s.postBody = s.answer .badHandle)) := by
  refine ⟨fun none => ?_, fun links sel => ⟨fun bad => ?_, fun ok handle => ?_⟩⟩
  · unfold State.postBody; rw [none]
  · unfold State.postBody; rw [sel]; dsimp only; rw [if_pos bad]
  · unfold State.postBody
    rw [sel]
    dsimp only
    rw [if_neg ok]
    split
    · rfl
    · rename_i r named
      obtain ⟨low, hr⟩ := State.namedRecord_some named
      rw [if_pos fun host => handle ⟨r, low, hr, host⟩]

/-- Whether a selected link fails a test, link by link. -/
theorem any_selected (onA onB : Bool) (p : LinkId → Bool) :
    (selected onA onB).any p = true ↔ (onA = true ∧ p .a = true) ∨ (onB = true ∧ p .b = true) := by
  cases onA <;> cases onB <;> simp [selected]

theorem FrameQueue.full_iff (q : FrameQueue) : q.full = true ↔ q.limit ≤ q.entries.length := by
  simp [FrameQueue.full]

/-- Settles O9: the body of POST, test by test; its record, its queues and the unit are what each selection gives. -/
theorem postResult : Obligations.PostResult := by
  unfold Obligations.PostResult
  have run : ∀ s : State, s.UnitIdle → exec .post s = .next (State.postBody { s with hcu := { s.hcu with cmd := 3 } }) := fun s idle => by
    show Host.Outcome.next (s.takeCommand 3 State.postBody) = _
    rw [idle.takeCommand]
  have notActive : ∀ (s : State) (l : LinkId), (!s.isActive l) = true ↔ (s.port l).state ≠ .active := fun s l => by
    rw [Bool.not_eq_true', ← Bool.not_eq_true, State.isActive_iff]
  refine ⟨fun s r onA onB idle low hr host dst hops sel upA upB => ?_, fun s idle => ?_⟩
  · let u : State := { s with hcu := { s.hcu with cmd := 3 } }
    let h := s.hcu.arg0.toNat
    have code : selectionOfCode u.hcu.arg2.toNat = some (selected onA onB) := by
      show selectionOfCode s.hcu.arg2.toNat = _
      rcases sel with ⟨rfl, rfl, e⟩ | ⟨rfl, rfl, e⟩ | ⟨rfl, rfl, e⟩ <;> rw [e] <;> rfl
    have up : ¬(selected onA onB).any (fun l => !u.isActive l) = true := by
      rw [any_selected, notActive, notActive]
      rintro (⟨a, off⟩ | ⟨b, off⟩)
      · exact off (upA a).1
      · exact off (upB b).1
    have room : ¬(selected onA onB).any (fun l => (u.queue (.tx l r.cls)).full) = true := by
      rw [any_selected, FrameQueue.full_iff, FrameQueue.full_iff]
      rintro (⟨a, full⟩ | ⟨b, full⟩)
      · exact Nat.not_le.2 (upA a).2 full
      · exact Nat.not_le.2 (upB b).2 full
    obtain ⟨t, ht, taken⟩ : ∃ t, u.postTaken h r.cls (s.hcu.arg1.setWidth 8) (s.hcu.arg3.setWidth 4) (selected onA onB) = t ∧ t = _ :=
      ⟨_, rfl, u.postTaken_spec h r.cls (s.hcu.arg1.setWidth 8) (s.hcu.arg3.setWidth 4) onA onB⟩
    have record : ∀ g, t.record g =
        if h = g then (s.record g).map fun r => r.posted (s.hcu.arg1.setWidth 8) s.nodeAddr (s.hcu.arg3.setWidth 4) (selected onA onB)
        else s.record g := fun g => by
      rw [taken]
      exact u.record_modRecord h g _
    have queue : ∀ q, t.queue q = ((selected onA onB).foldl (fun u l => u.append (.tx l r.cls) h) u).queue q := fun q => by
      rw [taken]; rfl
    have entries := u.entries_appendSelected h r.cls onA onB
    refine ⟨t, ?_, ?_, fun g ne => ?_, ?_, ?_, fun q neA neB => ?_, ?_, ?_, ?_⟩
    · rw [run s idle, u.postBody_eq code dst hops low hr host, if_neg up, if_neg room]
      exact congrArg (fun x : State => Host.Outcome.next (x.settle u)) ht
    · rw [record, if_pos rfl, hr, Option.map_some, Record.posted_selected]
    · rw [record, if_neg (Ne.symm ne)]
    · rw [queue]; exact entries.1
    · rw [queue]; exact entries.2
    · rw [queue]
      refine State.queue_appendAll_ne _ _ _ _ _ fun k _ => ?_
      cases k <;> assumption
    · rw [taken]; exact ⟨rfl, rfl, rfl⟩
    · rw [taken]; rfl
    · subst taken
      cases s.hcu.port <;> rfl
  · let u : State := { s with hcu := { s.hcu with cmd := 3 } }
    obtain ⟨unnamed, named⟩ := u.postBody_refused
    refine ⟨fun bad => ?_, fun ok handle => ?_, fun r ok filling => ?_⟩
    · rw [run s idle]
      by_cases sel : s.hcu.arg2 = 1 ∨ s.hcu.arg2 = 2 ∨ s.hcu.arg2 = 3
      · have out : ¬(s.hcu.arg1.toNat ≤ 255 ∧ s.hcu.arg3.toNat ≤ 15) := fun h => bad ⟨h.1, h.2, sel⟩
        rw [(named _ (selectionOfCode_selected sel)).1 (show 255 < s.hcu.arg1.toNat ∨ 15 < s.hcu.arg3.toNat by omega)]
        rfl
      · rw [unnamed (selectionOfCode_eq_none.2 sel)]; rfl
    · obtain ⟨dst, hops, sel⟩ := ok
      rw [run s idle, (named _ (selectionOfCode_selected sel)).2 (show ¬(255 < s.hcu.arg1.toNat ∨ 15 < s.hcu.arg3.toNat) by omega) handle]
      rfl
    · obtain ⟨dst, hops, sel⟩ := ok
      obtain ⟨low, hr, host⟩ := filling
      rw [run s idle, u.postBody_eq (selectionOfCode_selected sel) dst hops low hr host]
      simp only [any_selected, notActive, FrameQueue.full_iff, decide_eq_true_eq]
      refine ⟨fun down => ?_, fun up full => ?_⟩
      · exact congrArg Host.Outcome.next (if_pos down)
      · exact congrArg Host.Outcome.next ((if_neg up).trans (if_pos full))

/-! ## RELEASE -/

theorem State.hostHeld_eq_some {s : State} {h : Nat} {r : Record} :
    s.hostHeld h = some r ↔ h < 1024 ∧ s.record h = some r ∧ (r.host = .filling ∨ r.host = .claimed) := by
  unfold State.hostHeld
  constructor
  · intro e
    split at e
    · rename_i x named
      obtain ⟨low, hr⟩ := State.namedRecord_some named
      split at e
      · rename_i held; cases e; exact ⟨low, hr, held⟩
      · cases e
    · cases e
  · rintro ⟨low, hr, held⟩
    have named : s.namedRecord h = some r := (if_pos low).trans hr
    rw [named]
    exact if_pos held

/-- The removal of a holder changes the buffer and in-use alone. -/
theorem State.removeHolder_spec (s : State) (h : Nat) (clear : Record → Record) :
    s.removeHolder h clear =
      { s with
        buf := (s.removeHolder h clear).buf
        portA := (s.removeHolder h clear).portA
        portB := (s.removeHolder h clear).portB } := by
  have freed : s.freeRecord h = { s with buf := (s.freeRecord h).buf, portA := (s.freeRecord h).portA, portB := (s.freeRecord h).portB } := by
    unfold State.freeRecord State.reportFree
    split
    · rfl
    · split
      · rfl
      · rename_i l _; cases l <;> rfl
  unfold State.removeHolder
  split
  · rfl
  · split
    · exact freed
    · rfl

/-- The removal of a holder changes of a port at most in-use. -/
theorem State.port_removeHolder (s : State) (h : Nat) (clear : Record → Record) (l : LinkId) :
    (s.removeHolder h clear).port l =
      { s.port l with
        ctl := { (s.port l).ctl with inUse := ((s.removeHolder h clear).port l).ctl.inUse }
        dat := { (s.port l).dat with inUse := ((s.removeHolder h clear).port l).dat.inUse } } := by
  unfold State.removeHolder
  split
  · rfl
  · rename_i r hr
    split
    · rw [s.port_freeRecord h r hr]
      split
      · cases r.cls <;> rfl
      · rfl
    · cases l <;> rfl

/-- In-use once a record is freed: lowered where it counted (R17). -/
theorem State.inUse_freeRecord (s : State) {h : Nat} {r : Record} (hr : s.record h = some r) (l : LinkId) (c : Cls) :
    (((s.freeRecord h).port l).credit c).inUse =
      ((s.port l).credit c).inUse - (if r.origin = .link l ∧ r.cls = c then r.cells.length else 0) := by
  rw [s.port_freeRecord h r hr]
  by_cases origin : r.origin = .link l
  · cases c <;> cases hc : r.cls <;> simp [origin, LinkPort.modCredit, LinkPort.credit]
  · simp [origin]

theorem State.releaseTaken_spec (s : State) (h : Nat) :
    s.releaseTaken h =
      State.answer
        { s with
          buf := (s.removeHostHolder h).buf, portA := (s.removeHostHolder h).portA, portB := (s.removeHostHolder h).portB
          hcu := { s.hcu with held := s.hcu.held - 1, port := DataPort.unless h s.hcu.port } }
        .ok {} := by
  have spec := s.removeHolder_spec h fun r => { r with host := .none }
  unfold State.releaseTaken State.removeHostHolder
  rw [State.closePort_spec, spec]
  rfl

/-- Settles O11: the body of RELEASE, as the removal of the host's holder. -/
theorem releaseResult : Obligations.ReleaseResult := by
  unfold Obligations.ReleaseResult
  intro s idle
  let u : State := { s with hcu := { s.hcu with cmd := 5 } }
  have run : exec .release s = .next u.releaseBody := by
    show Host.Outcome.next (s.takeCommand 5 State.releaseBody) = _
    rw [idle.takeCommand]
  refine ⟨fun free => ?_, fun r low hr held => ?_⟩
  · have none : u.hostHeld s.hcu.arg0.toNat = .none := Option.eq_none_iff_forall_ne_some.2 fun r hr => by
      obtain ⟨low, hr, held⟩ := State.hostHeld_eq_some.1 hr
      exact free ⟨low, r, hr, held⟩
    have body : u.releaseBody = u.answer .badHandle := by
      unfold State.releaseBody
      rw [show u.hostHeld u.hcu.arg0.toNat = .none from none]
    rw [run, body]; rfl
  · let h := s.hcu.arg0.toNat
    have named : u.hostHeld h = some r := State.hostHeld_eq_some.2 ⟨low, hr, held⟩
    obtain ⟨t, ht, taken⟩ : ∃ t, u.releaseTaken h = t ∧ t = _ := ⟨_, rfl, u.releaseTaken_spec h⟩
    have body : u.releaseBody = t.settle u := by
      unfold State.releaseBody
      rw [show u.hostHeld u.hcu.arg0.toNat = some r from named]
      exact congrArg (fun x : State => x.settle u) ht
    have port : ∀ l, t.port l = (u.removeHostHolder h).port l := fun l => by rw [taken]; cases l <;> rfl
    have ur : u.record h = some r := hr
    have record : ∀ g, t.record g = (u.removeHostHolder h).record g := fun g => by rw [taken]; rfl
    have free : t.buf.free = (u.removeHostHolder h).buf.free := by rw [taken]; rfl
    have removed : u.removeHostHolder h =
        if ({ r with host := .none } : Record).refCount = 0 then u.freeRecord h else u.modRecord h fun r => { r with host := .none } := by
      unfold State.removeHostHolder State.removeHolder
      rw [ur]
    have last : ({ r with host := .none } : Record).refCount = 0 ↔ r.linkA = .none ∧ r.linkB = .none := by
      unfold Record.refCount
      by_cases a : r.linkA = .none <;> by_cases b : r.linkB = .none <;> simp [a, b]
    refine ⟨t, by rw [run, body], fun a b => ?_, fun others => ?_, fun l => ?_, fun g ne => ?_, ?_, ?_⟩
    · rw [if_pos (last.2 ⟨a, b⟩)] at removed
      refine ⟨?_, ?_, fun l c => ?_⟩
      · rw [record, removed, State.record_freeRecord, if_pos rfl]
      · rw [free, removed, u.free_freeRecord h r ur]
      · rw [port, removed, u.inUse_freeRecord ur]; cases l <;> rfl
    · rw [if_neg (mt last.1 others)] at removed
      refine ⟨?_, ?_, ?_, ?_⟩
      · rw [record, removed, State.record_modRecord, if_pos rfl, ur]; rfl
      · rw [free, removed]; rfl
      · exact (port .a).trans (by rw [removed]; rfl)
      · exact (port .b).trans (by rw [removed]; rfl)
    · rw [port]
      have e := u.port_removeHolder h (fun r => { r with host := .none }) l
      cases l <;> exact e
    · rw [record, State.removeHostHolder, State.record_removeHolder, if_neg (Ne.symm ne)]; rfl
    · rw [taken]
      exact ⟨u.removeHolder_buf_mem h _, u.removeHolder_buf_wrong h _, u.removeHolder_buf_links h _⟩
    · subst taken
      cases s.hcu.port <;> rfl

/-! ## Commands turned away -/

/-- Each command of Table 7-3 is the taking of its code, with its own body. -/
theorem exec_command {c : Instr} {code : Word} (h : (c, code) ∈ commandCodes) :
    code.toNat < 256 ∧ ∃ body, ∀ s, exec c s = .next (s.takeCommand code body) := by
  simp only [commandCodes, List.mem_cons, Prod.mk.injEq, List.not_mem_nil, or_false] at h
  rcases h with ⟨rfl, rfl⟩ | ⟨rfl, rfl⟩ | ⟨rfl, rfl⟩ | ⟨rfl, rfl⟩ | ⟨rfl, rfl⟩ | ⟨rfl, rfl⟩ |
    ⟨rfl, rfl⟩ | ⟨rfl, rfl⟩ | ⟨rfl, rfl⟩ |
    ⟨rfl, rfl⟩ | ⟨rfl, rfl⟩ | ⟨rfl, rfl⟩ | ⟨rfl, rfl⟩
  all_goals exact ⟨by decide, _, fun _ => rfl⟩

/-- Settles O6: a command is turned away before its body is reached. -/
theorem commandsTurnedAway : Obligations.CommandsTurnedAway := by
  unfold Obligations.CommandsTurnedAway
  refine ⟨fun s busy => ⟨fun c code h => ?_, fun code => ?_, fun code => ?_, fun v => ⟨rfl, rfl, rfl, rfl⟩⟩,
    fun s ready idle => ⟨fun c code h => ?_, fun code small => ?_⟩, fun s code idle => ?_⟩
  · obtain ⟨-, body, run⟩ := exec_command h
    rw [run, s.takeCommand_busy _ _ busy]; rfl
  · show Host.Outcome.next (s.unknownCode code) = _
    unfold State.unknownCode
    dsimp only
    rw [if_pos busy]; rfl
  · show execCmdOverrun code s = _
    unfold execCmdOverrun
    rw [if_pos busy]; rfl
  · obtain ⟨-, body, run⟩ := exec_command h
    rw [run, s.takeCommand_notReady _ _ idle ready]; rfl
  · show Host.Outcome.next (s.unknownCode code) = _
    unfold State.unknownCode
    dsimp only
    rw [if_neg (by rw [idle]; nofun), if_pos small, if_neg (by rw [ready]; nofun)]
    rfl
  · refine ⟨if code.toNat < 256 then code.setWidth 8 else Config.completedOfUnknown code, ?_, fun small => if_pos small⟩
    show Host.Outcome.next (s.unknownCode code) = _
    unfold State.unknownCode
    dsimp only
    rw [if_neg (by rw [idle.2]; nofun), if_pos idle.1]
    rfl

end Sys2Proof.Machine
end

