-- ==== Sys2Proof/Proofs/Resets.lean ====
section
/-! SUPPORT. The reset input, the end of initialization and soft reset, and the laws at the state after the reset input. -/

namespace Sys2Proof.Machine

/-! ## The reset input -/

theorem State.queue_reset (q : QueueId) : (State.reset.queue q).entries = [] ∧ (State.reset.queue q).limit = 64 := by
  cases q with
  | host c => cases c <;> exact ⟨rfl, rfl⟩
  | tx l c => cases l <;> cases c <;> exact ⟨rfl, rfl⟩

theorem State.reset_record (h : Nat) : State.reset.record h = none := rfl

theorem State.port_reset (l : LinkId) : State.reset.port l = .reset := by
  cases l <;> rfl

/-- Settles O3: the reset input is one assignment, and each setting reads from it by the layout of its register. -/
theorem resetInputResult : Obligations.ResetInputResult := by
  unfold Obligations.ResetInputResult
  intro s
  refine ⟨rfl, rfl, rfl, rfl, State.queue_reset, fun l => ?_, rfl, rfl, rfl, rfl, rfl, rfl, rfl, rfl, rfl, fun l => ?_⟩
  · rw [State.port_reset]; exact ⟨rfl, rfl, rfl, rfl, rfl⟩
  · cases l
    all_goals
      refine ⟨by decide, by decide, by decide, by decide, by decide, by decide, fun q => ?_, by decide⟩
      cases q with
      | host c => cases c <;> decide
      | tx l c => cases l <;> cases c <;> decide

/-! ## The end of initialization -/

theorem wholeFreeList_eq : wholeFreeList = List.range 1024 := by
  unfold wholeFreeList Config.cellCount
  rfl

/-- What the end of initialization leaves: the buffer as it writes it, READY, and the scrubber's pass. -/
theorem State.initTaken_spec (s : State) :
    s.initTaken =
      { s with
        ready := true
        buf := { mem := [], wrong := [], links := s.buf.links, free := wholeFreeList, records := [] }
        scrub := if s.scrub.mode = .off then s.scrub
          else { s.scrub with running := true, position := 0, timer := some s.scrub.interval } } := by
  unfold State.initTaken State.passAtReady
  by_cases off : s.scrub.mode = .off
  · rw [if_pos off, if_pos off]
  · rw [if_neg off, if_neg off]; rfl

/-- Settles O4: the end of initialization is one assignment of the buffer, and the pass of the scrubber's mode. -/
theorem initCompleteResult : Obligations.InitCompleteResult := by
  unfold Obligations.InitCompleteResult
  intro s ready
  have run : exec .initComplete s = .next s.initTaken := by
    show execInitComplete s = _
    unfold execInitComplete
    rw [ready]; rfl
  rw [State.initTaken_spec] at run
  refine ⟨_, run, rfl, ?_, rfl, fun _ => rfl, fun _ => rfl, rfl, rfl⟩
  dsimp only
  exact wholeFreeList_eq

/-! ## Soft reset -/

/-- Settles O5: soft reset is one assignment at every block; the scrubber goes by its mode and READY. -/
theorem softResetResult : Obligations.SoftResetResult := by
  unfold Obligations.SoftResetResult
  intro s
  have scrub : s.softResetTaken.scrub = s.scrub.softReset s.ready := rfl
  refine ⟨s.softResetTaken, rfl, rfl, fun ready => ?_, fun ready => ?_, ⟨rfl, rfl, rfl⟩, rfl, fun q => ?_, rfl, rfl, rfl, fun l => ?_,
    rfl, rfl, rfl, rfl, rfl, rfl, rfl, ?_⟩
  · exact if_pos ready
  · exact if_neg (by rw [ready]; nofun)
  · cases q with
    | host c => cases c <;> exact ⟨rfl, rfl⟩
    | tx l c => cases l <;> cases c <;> exact ⟨rfl, rfl⟩
  · cases l <;> rfl
  · rw [scrub]
    unfold Scrubber.softReset
    by_cases goes : s.scrub.mode = .continuous ∧ s.ready = true
    · rw [if_pos goes, if_pos goes]
      exact ⟨rfl, rfl, rfl, by simp [goes.1, goes.2], rfl⟩
    · rw [if_neg goes, if_neg goes]
      refine ⟨rfl, rfl, rfl, ?_, rfl⟩
      show false = _
      rw [eq_comm, Bool.and_eq_false_iff, beq_eq_false_iff_ne, ← Bool.not_eq_true, ← not_and_or]
      exact goes

/-! ## The laws after the reset input -/

theorem State.reset_cellsAccounted : State.reset.CellsAccounted :=
  ⟨fun ready => Bool.noConfusion ready, fun _ => ⟨rfl, rfl, rfl, rfl⟩, fun _ h => absurd h List.not_mem_nil, rfl⟩

theorem State.reset_quietLinksClear : State.reset.QuietLinksClear := by
  refine State.reset.quietLinksClear_iff.2 ⟨fun l _ => ?_, fun l h => State.placedAt_of_none fun r hr => ?_, rfl⟩
  case refine_2 => exact absurd ((State.reset_record h).symm.trans hr) nofun
  refine ⟨fun c => (State.queue_reset _).1, ?_, fun c => ?_, ?_, ?_⟩
  all_goals rw [State.port_reset]
  · rfl
  · cases c <;> exact ⟨rfl, rfl, rfl, rfl⟩
  · rfl
  · rfl

theorem State.reset_holdersAgree : State.reset.HoldersAgree :=
  State.reset.holdersAgree_iff_placesFit.2 ⟨State.reset_cellsAccounted,
    State.placesFit_of_clear (fun _ => rfl) (fun q => (State.queue_reset q).1) (fun l => by rw [State.port_reset]; rfl)
      (fun l => by rw [State.port_reset]; rfl) fun l => by rw [State.port_reset]; rfl⟩

theorem State.reset_creditsCovered : State.reset.CreditsCovered :=
  State.creditsCovered_of_clear rfl (fun l c => by rw [State.port_reset]; cases c <;> rfl) fun l => by rw [State.port_reset]; rfl

theorem State.reset_settingsInRange : State.reset.SettingsInRange := by
  have cfg : LinkCfg.default.InRange := by unfold LinkCfg.InRange; decide
  exact ⟨cfg, cfg, by decide, fun c => by cases c <;> decide, by decide⟩

/-- Settles O59: nothing is allocated, queued, granted or in use, and every setting has its default. -/
theorem resetMeetsLaws : Obligations.ResetMeetsLaws := by
  unfold Obligations.ResetMeetsLaws
  refine ⟨Memory.wf_reset, ⟨by decide, List.Pairwise.nil, fun _ h => absurd h List.not_mem_nil⟩, State.reset_settingsInRange, fun q => ?_,
    State.reset_cellsAccounted, State.reset_quietLinksClear, ⟨by decide, nofun⟩, State.reset_holdersAgree, ⟨rfl, by decide⟩,
    State.reset_creditsCovered⟩
  obtain ⟨entries, limit⟩ := State.queue_reset q
  rw [entries, limit]
  decide

end Sys2Proof.Machine
end

