-- ==== Sys2Proof/Proofs/Deliveries.lean ====
section
/-! SUPPORT. The delivery decision: the lookup, the parts admitted and refused, and the free of a frame that no holder keeps
(section 4.8). -/

namespace Sys2Proof.Machine

/-! ## The lookup -/

/-- The lookup of the delivery decision finds the lowest valid entry of the address. -/
theorem State.deliveryAction_of_entry (s : State) (d : Byte) {front back : List DeliveryEntry} {e : DeliveryEntry}
    (table : s.table = front ++ e :: back) (ne : d ≠ 0) (valid : e.valid = true) (address : e.address = d)
    (front_none : ∀ x ∈ front, ¬(x.valid = true ∧ x.address = d)) : s.deliveryAction d = e.action := by
  have skip : front.find? (fun x => x.valid && x.address == d) = none := List.find?_eq_none.2 fun x hx => by
    simpa using front_none x hx
  have found : (e :: back).find? (fun x => x.valid && x.address == d) = some e :=
    List.find?_cons_of_pos (p := fun x : DeliveryEntry => x.valid && x.address == d) (by simp [valid, address])
  unfold State.deliveryAction
  rw [if_neg ne, table, List.find?_append, skip, found]
  rfl

theorem State.deliveryAction_default (s : State) (d : Byte) (no : d = 0 ∨ ∀ x ∈ s.table, ¬(x.valid = true ∧ x.address = d)) :
    s.deliveryAction d = if d = s.nodeAddr ∨ d = 0 then .host else if d = 255 then .hostAndForward else .forward := by
  have none : (if d = 0 then none else s.table.find? fun x => x.valid && x.address == d) = .none := by
    rcases no with zero | no
    · exact if_pos zero
    · split
      · rfl
      · exact List.find?_eq_none.2 fun x hx => by simpa using no x hx
  unfold State.deliveryAction
  rw [none]

/-! ## The parts -/

theorem State.flag_countPart_drop (s : State) {n : PartCounter} (drop : n.isDrop = true) : (s.countPart n).flag .drop = true := by
  unfold State.countPart
  dsimp only
  rw [if_pos drop]
  exact State.flag_raise _ _

theorem State.noteArrival_eq (s : State) (c : Cls) (n : Nat) : s.noteArrival c n = s ∨ s.noteArrival c n = s.raise (.arrival c) := by
  unfold State.noteArrival
  dsimp only
  split
  · exact .inr rfl
  · exact .inl rfl

/-- What an operation leaves of a frame's admission to one queue: the handle at its tail, the record changed, nothing else of the
queues, the free list, the ports and the part's counters. -/
structure State.Admits (s t : State) (q : QueueId) (h : Nat) (f : Record → Record) : Prop where
  record : t.record h = (s.record h).map f
  tail : (t.queue q).entries = (s.queue q).entries ++ [h]
  others : ∀ p, p ≠ q → t.queue p = s.queue p
  free : t.buf.free = s.buf.free
  counters : t.ev.counters = s.ev.counters
  port : ∀ l, t.port l = s.port l

theorem State.admits_append (s : State) (q : QueueId) (h : Nat) (f : Record → Record) :
    s.Admits ((s.append q h).modRecord h f) q h f := by
  refine ⟨?_, ?_, fun p ne => ?_, rfl, rfl, fun l => by cases l <;> rfl⟩
  · rw [State.record_modRecord, if_pos rfl]; rfl
  · rw [State.queue_modRecord, State.append, State.queue_setEntries]
  · rw [State.queue_modRecord, State.append, State.queue_setEntries_ne _ _ _ _ ne]

/-- A host part that finds room. -/
theorem State.admitHost_room (s : State) (c : Cls) (h : Nat) (room : (s.queue (.host c)).entries.length < (s.queue (.host c)).limit) :
    s.admitHost c h = (s.enterHost c h).noteArrival c (s.queue (.host c)).entries.length :=
  if_neg fun full => Nat.not_le.2 room ((FrameQueue.full_iff _).1 full)

theorem State.admits_admitHost (s : State) (c : Cls) (h : Nat) (room : (s.queue (.host c)).entries.length < (s.queue (.host c)).limit) :
    s.Admits (s.admitHost c h) (.host c) h Record.withHostQueued := by
  have entered := s.admits_append (.host c) h Record.withHostQueued
  rw [s.admitHost_room c h room]
  rcases State.noteArrival_eq (s.enterHost c h) c (s.queue (.host c)).entries.length with e | e
  · rw [e]; exact entered
  · rw [e]
    exact ⟨entered.record, entered.tail, entered.others, entered.free, entered.counters, entered.port⟩

/-- A host part refused by a full TAIL_DROP queue. -/
theorem State.admitHost_tailDrop (s : State) (c : Cls) (h : Nat) (full : (s.queue (.host c)).limit ≤ (s.queue (.host c)).entries.length)
    (mode : (s.queues.hostCfg c).mode = .tailDrop) : s.admitHost c h = s.countPart .hrTailDrop := by
  unfold State.admitHost
  dsimp only
  rw [if_pos ((FrameQueue.full_iff _).2 full), mode]

theorem State.admits_admitForward (s : State) (l : LinkId) (h : Nat) (r : Record) (e : s.forwardRefusal l r = none) :
    s.Admits (s.admitForward l r.cls h r.hops) (.tx l r.cls) h fun x => { x.withLinkQueued l with hops := x.hops - 1 } := by
  rw [s.admitForward_admitted l h r e]
  exact s.admits_append _ h _

/-- The tests of a forward part read the link's state and its queue alone. -/
theorem State.forwardRefusal_congr {s t : State} {l : LinkId} {r : Record} (port : t.port l = s.port l)
    (queue : t.queue (.tx l r.cls) = s.queue (.tx l r.cls)) : t.forwardRefusal l r = s.forwardRefusal l r := by
  unfold State.forwardRefusal
  rw [port, queue]

theorem State.forwardRefusal_isDrop {s : State} {l : LinkId} {r : Record} {n : PartCounter} (e : s.forwardRefusal l r = some n) :
    n.isDrop = true ∧ n ≠ .hrTailDrop := by
  unfold State.forwardRefusal at e
  split at e
  · cases e; exact ⟨rfl, nofun⟩
  · split at e
    · cases e; exact ⟨rfl, nofun⟩
    · split at e
      · cases e; exact ⟨rfl, nofun⟩
      · cases e

/-! ## What the decision leaves -/

/-- A frame that the decision leaves without a holder: freed, and counted under one counter. -/
def State.FreedBy (s t : State) (l : LinkId) (h : Nat) (r : Record) (n : PartCounter) : Prop :=
  t.record h = none ∧ t.buf.free = s.buf.free ++ r.cells ∧ t.ev.counters.get n = s.ev.counters.get n + 1 ∧
  ((t.port l).credit r.cls).inUse = ((s.port l).credit r.cls).inUse - r.cells.length ∧
  t.flag .drop = true ∧ t.queues = s.queues

section
variable {s : State} {l : LinkId} {h : Nat} {r : Record}

/-- What the decision requests, before the test for a holder. -/
theorem State.deliver_eq (hr : s.record h = some r) {u : State}
    (hu : (if r.source = some s.nodeAddr then s.countPart .loopDiscard else s.deliverParts l h r) = u) :
    s.deliver l h = if u.isHeld h then u else u.freeRecord h := by
  unfold State.deliver
  rw [hr]
  dsimp only
  rw [hu]

theorem State.isHeld_of_record {u : State} (hr : u.record h = some r) : u.isHeld h = true ↔ r.refCount ≠ 0 := by
  unfold State.isHeld
  rw [hr]
  simp

/-- The decision of a frame whose parts are all refused. -/
theorem State.deliver_refused (hr : s.record h = some r) (zero : r.refCount = 0) (origin : r.origin = .link l) {u : State}
    (hu : (if r.source = some s.nodeAddr then s.countPart .loopDiscard else s.deliverParts l h r) = u)
    (buf : u.buf = s.buf) (port : u.port l = s.port l) (queues : u.queues = s.queues) {n : PartCounter}
    (count : u.ev.counters.get n = s.ev.counters.get n + 1) (drop : u.flag .drop = true) :
    s.deliver l h = u.freeRecord h ∧ s.FreedBy (s.deliver l h) l h r n := by
  have ur : u.record h = some r := by rw [State.record, buf]; exact hr
  have e : s.deliver l h = u.freeRecord h := by
    rw [State.deliver_eq hr hu, if_neg fun held => (State.isHeld_of_record ur).1 held zero]
  refine ⟨e, ?_⟩
  rw [e]
  refine ⟨?_, ?_, ?_, ?_, ?_, ?_⟩
  · rw [State.record_freeRecord, if_pos rfl]
  · rw [u.free_freeRecord h r ur, buf]
  · rw [State.freeRecord_ev]; exact count
  · rw [u.inUse_freeRecord ur, port, if_pos ⟨origin, rfl⟩]
  · show (u.freeRecord h).ev.flags.getLsbD _ = true
    rw [State.freeRecord_ev]; exact drop
  · rw [State.freeRecord_queues]; exact queues

/-- The decision of a frame whose only part is refused, under the counter of its refusal. -/
theorem State.deliver_counted (hr : s.record h = some r) (zero : r.refCount = 0) (origin : r.origin = .link l) {n : PartCounter}
    (drop : n.isDrop = true)
    (hu : (if r.source = some s.nodeAddr then s.countPart .loopDiscard else s.deliverParts l h r) = s.countPart n) :
    s.FreedBy (s.deliver l h) l h r n :=
  (State.deliver_refused hr zero origin hu (s.countPart_buf n) (s.port_countPart n l) (s.countPart_queues n)
    (by rw [State.countPart_counter, PartCounters.get_set]) (s.flag_countPart_drop drop)).2

/-- The decision of a frame that a part admits. -/
theorem State.deliver_admitted (hr : s.record h = some r) (source : r.source ≠ some s.nodeAddr) {x : Record}
    (hx : (s.deliverParts l h r).record h = some x) (held : x.refCount ≠ 0) : s.deliver l h = s.deliverParts l h r := by
  rw [State.deliver_eq hr (if_neg source), if_pos ((State.isHeld_of_record hx).2 held)]

end

theorem Record.refCount_withHostQueued (r : Record) : r.withHostQueued.refCount ≠ 0 :=
  Record.refCount_ne_zero (.inl nofun)

/-- The record of an admitted forward part (R25, R87). -/
def Record.forwarded (r : Record) (l : LinkId) : Record :=
  { r.withLinkQueued l with hops := r.hops - 1 }

theorem Record.refCount_forwarded (r : Record) (l : LinkId) : (r.forwarded l).refCount ≠ 0 :=
  Record.refCount_ne_zero (.inr ⟨l, by cases l <;> nofun⟩)

/-! ## The decision, action by action -/

section
variable {s : State} {l : LinkId} {h : Nat} {r : Record}

theorem State.forwardRefusal_none (hops : r.hops ≠ 0) (active : (s.port l).state = .active)
    (room : (s.queue (.tx l r.cls)).entries.length < (s.queue (.tx l r.cls)).limit) : s.forwardRefusal l r = none := by
  unfold State.forwardRefusal
  rw [if_neg hops, if_neg (not_not.2 active), if_neg (Nat.not_le.2 room)]

/-- A FORWARD action that is refused. -/
theorem State.deliver_forward_refused (hr : s.record h = some r) (zero : r.refCount = 0) (origin : r.origin = .link l)
    (source : r.source ≠ some s.nodeAddr) (act : s.deliveryAction (r.destination.getD 0) = .forward) {n : PartCounter}
    (refusal : s.forwardRefusal l.other r = some n) : s.FreedBy (s.deliver l h) l h r n := by
  refine State.deliver_counted hr zero origin (State.forwardRefusal_isDrop refusal).1 ?_
  rw [if_neg source, State.deliverParts, act]
  exact s.admitForward_refused l.other h r n refusal

/-- A FORWARD action that is admitted. -/
theorem State.deliver_forward_admitted (hr : s.record h = some r) (source : r.source ≠ some s.nodeAddr)
    (act : s.deliveryAction (r.destination.getD 0) = .forward) (refusal : s.forwardRefusal l.other r = none) :
    s.Admits (s.deliver l h) (.tx l.other r.cls) h fun x => x.forwarded l.other := by
  have parts : s.deliverParts l h r = s.admitForward l.other r.cls h r.hops := by rw [State.deliverParts, act]
  have admits := s.admits_admitForward l.other h r refusal
  rw [← parts] at admits
  rw [State.deliver_admitted hr source (admits.record.trans (by rw [hr]; rfl)) (r.refCount_forwarded l.other)]
  exact admits

/-- A HOST action that finds room. -/
theorem State.deliver_host_admitted (hr : s.record h = some r) (source : r.source ≠ some s.nodeAddr)
    (act : s.deliveryAction (r.destination.getD 0) = .host)
    (room : (s.queue (.host r.cls)).entries.length < (s.queue (.host r.cls)).limit) :
    s.deliver l h = s.admitHost r.cls h := by
  have parts : s.deliverParts l h r = s.admitHost r.cls h := by rw [State.deliverParts, act]
  have admits := s.admits_admitHost r.cls h room
  rw [← parts] at admits ⊢
  exact State.deliver_admitted hr source (admits.record.trans (by rw [hr]; rfl)) r.refCount_withHostQueued

/-- A HOST_AND_FORWARD action is the host part, and then the forward part. -/
theorem State.deliverParts_both (act : s.deliveryAction (r.destination.getD 0) = .hostAndForward) :
    s.deliverParts l h r = (s.admitHost r.cls h).admitForward l.other r.cls h r.hops := by
  rw [State.deliverParts, act]

/-- Both parts of a HOST_AND_FORWARD action admitted. -/
theorem State.deliver_both_admitted (hr : s.record h = some r) (source : r.source ≠ some s.nodeAddr)
    (act : s.deliveryAction (r.destination.getD 0) = .hostAndForward) (refusal : s.forwardRefusal l.other r = none)
    (room : (s.queue (.host r.cls)).entries.length < (s.queue (.host r.cls)).limit) :
    (s.deliver l h).record h = some ((r.withHostQueued).forwarded l.other) ∧
    ((s.deliver l h).queue (.host r.cls)).entries = (s.queue (.host r.cls)).entries ++ [h] ∧
    ((s.deliver l h).queue (.tx l.other r.cls)).entries = (s.queue (.tx l.other r.cls)).entries ++ [h] ∧
    ∀ q, q ≠ .host r.cls → q ≠ .tx l.other r.cls → (s.deliver l h).queue q = s.queue q := by
  have host := s.admits_admitHost r.cls h room
  have refusal' : (s.admitHost r.cls h).forwardRefusal l.other r = none :=
    (State.forwardRefusal_congr (host.port _) (host.others _ nofun)).trans refusal
  have forward := (s.admitHost r.cls h).admits_admitForward l.other h r refusal'
  rw [← State.deliverParts_both act] at forward
  have record : (s.deliverParts l h r).record h = some ((r.withHostQueued).forwarded l.other) := by
    rw [forward.record, host.record, hr]; rfl
  rw [State.deliver_admitted hr source record (Record.refCount_forwarded _ _)]
  refine ⟨record, ?_, ?_, fun q ne ne' => ?_⟩
  · rw [forward.others _ QueueId.noConfusion, host.tail]
  · rw [forward.tail, host.others _ QueueId.noConfusion]
  · rw [forward.others q ne', host.others q ne]

/-- The host part of a HOST_AND_FORWARD action admitted, the forward part refused. -/
theorem State.deliver_both_host (hr : s.record h = some r) (source : r.source ≠ some s.nodeAddr)
    (act : s.deliveryAction (r.destination.getD 0) = .hostAndForward) {n : PartCounter} (refusal : s.forwardRefusal l.other r = some n)
    (room : (s.queue (.host r.cls)).entries.length < (s.queue (.host r.cls)).limit) :
    (s.deliver l h).record h = some r.withHostQueued ∧
    ((s.deliver l h).queue (.host r.cls)).entries = (s.queue (.host r.cls)).entries ++ [h] ∧
    (∀ q, q ≠ .host r.cls → (s.deliver l h).queue q = s.queue q) ∧ (s.deliver l h).buf.free = s.buf.free ∧
    (s.deliver l h).ev.counters.get n = s.ev.counters.get n + 1 ∧ (s.deliver l h).flag .drop = true := by
  have host := s.admits_admitHost r.cls h room
  have refusal' : (s.admitHost r.cls h).forwardRefusal l.other r = some n :=
    (State.forwardRefusal_congr (host.port _) (host.others _ nofun)).trans refusal
  have parts : s.deliverParts l h r = (s.admitHost r.cls h).countPart n := by
    rw [State.deliverParts_both act, State.admitForward_refused _ _ _ _ _ refusal']
  have record : (s.deliverParts l h r).record h = some r.withHostQueued := by
    rw [parts, State.record_countPart, host.record, hr]; rfl
  rw [State.deliver_admitted hr source record r.refCount_withHostQueued]
  refine ⟨record, ?_⟩
  rw [parts]
  have queue : ∀ q, ((s.admitHost r.cls h).countPart n).queue q = (s.admitHost r.cls h).queue q := fun q => by simp [State.queue]
  refine ⟨?_, fun q ne => ?_, ?_, ?_, State.flag_countPart_drop _ (State.forwardRefusal_isDrop refusal).1⟩
  · rw [queue, host.tail]
  · rw [queue, host.others q ne]
  · rw [State.countPart_buf, host.free]
  · rw [State.countPart_counter, PartCounters.get_set, host.counters]

/-- Both parts of a HOST_AND_FORWARD action refused: two counts, and the frame freed. -/
theorem State.deliver_both_refused (hr : s.record h = some r) (zero : r.refCount = 0) (origin : r.origin = .link l)
    (source : r.source ≠ some s.nodeAddr) (act : s.deliveryAction (r.destination.getD 0) = .hostAndForward) {n : PartCounter}
    (refusal : s.forwardRefusal l.other r = some n) (full : (s.queue (.host r.cls)).limit ≤ (s.queue (.host r.cls)).entries.length)
    (mode : (s.queues.hostCfg r.cls).mode = .tailDrop) :
    s.FreedBy (s.deliver l h) l h r n ∧ (s.deliver l h).ev.counters.hrTailDrop = s.ev.counters.hrTailDrop + 1 := by
  obtain ⟨drop, other⟩ := State.forwardRefusal_isDrop refusal
  have refusal' : (s.countPart .hrTailDrop).forwardRefusal l.other r = some n :=
    (State.forwardRefusal_congr (s.port_countPart _ _) (by simp [State.queue])).trans refusal
  have parts : s.deliverParts l h r = (s.countPart .hrTailDrop).countPart n := by
    rw [State.deliverParts_both act, s.admitHost_tailDrop r.cls h full mode, State.admitForward_refused _ _ _ _ _ refusal']
  obtain ⟨e, freed⟩ := State.deliver_refused (n := n) hr zero origin ((if_neg source).trans parts) (by simp) (by simp) (by simp)
    (by rw [State.countPart_counter, PartCounters.get_set, State.countPart_counter, PartCounters.get_set_ne _ _ _ _ other])
    (State.flag_countPart_drop _ drop)
  refine ⟨freed, ?_⟩
  rw [e, State.freeRecord_ev, State.countPart_counter]
  show PartCounters.get (PartCounters.set _ _ _) .hrTailDrop = _
  rw [PartCounters.get_set_ne _ _ _ _ other.symm, State.countPart_counter, PartCounters.get_set]
  rfl

/-- The host part of a HOST_AND_FORWARD action refused, the forward part admitted. -/
theorem State.deliver_both_forward (hr : s.record h = some r) (source : r.source ≠ some s.nodeAddr)
    (act : s.deliveryAction (r.destination.getD 0) = .hostAndForward) (refusal : s.forwardRefusal l.other r = none)
    (full : (s.queue (.host r.cls)).limit ≤ (s.queue (.host r.cls)).entries.length)
    (mode : (s.queues.hostCfg r.cls).mode = .tailDrop) :
    (s.countPart .hrTailDrop).Admits (s.deliver l h) (.tx l.other r.cls) h (fun x => x.forwarded l.other) ∧
    (s.deliver l h).flag .drop = true := by
  have refusal' : (s.countPart .hrTailDrop).forwardRefusal l.other r = none :=
    (State.forwardRefusal_congr (s.port_countPart _ _) (by simp [State.queue])).trans refusal
  have parts : s.deliverParts l h r = (s.countPart .hrTailDrop).admitForward l.other r.cls h r.hops := by
    rw [State.deliverParts_both act, s.admitHost_tailDrop r.cls h full mode]
  have admits := (s.countPart .hrTailDrop).admits_admitForward l.other h r refusal'
  have record := admits.record.trans (by rw [State.record_countPart, hr]; rfl : _ = some (r.forwarded l.other))
  rw [← parts] at admits record
  rw [State.deliver_admitted hr source record (r.refCount_forwarded l.other)]
  refine ⟨admits, ?_⟩
  rw [parts, State.admitForward_admitted _ _ _ _ refusal']
  exact s.flag_countPart_drop (n := .hrTailDrop) rfl

/-- The arrival event of an admission, by the notify level (R31). -/
theorem State.flag_admitHost_arrival (s : State) (c : Cls) (h : Nat)
    (room : (s.queue (.host c)).entries.length < (s.queue (.host c)).limit) :
    (s.admitHost c h).flag (.arrival c) = true ↔
      s.flag (.arrival c) = true ∨ ((s.queue (.host c)).entries.length < (s.queues.hostCfg c).notify ∧
        (s.queues.hostCfg c).notify ≤ (s.queue (.host c)).entries.length + 1) := by
  have count : ((s.enterHost c h).queue (.host c)).entries.length = (s.queue (.host c)).entries.length + 1 := by
    rw [State.enterHost, State.queue_modRecord, State.append, State.queue_setEntries, List.length_append]; rfl
  have cfg : (s.enterHost c h).queues.hostCfg c = s.queues.hostCfg c := by
    cases c <;> simp [State.enterHost, State.append, State.setEntries, Queues.hostCfg, State.modRecord]
  rw [s.admitHost_room c h room]
  unfold State.noteArrival
  rw [count, cfg]
  dsimp only
  split
  · rename_i crossed
    rw [State.flag_raise]
    exact ⟨fun _ => .inr crossed, fun _ => rfl⟩
  · rename_i not
    exact ⟨.inl, fun either => either.resolve_right not⟩

end

/-- Settles O37: each action's parts, admitted or refused, and the free of a frame that no holder keeps. -/
theorem deliveryDecision : Obligations.DeliveryDecision := by
  unfold Obligations.DeliveryDecision
  refine ⟨fun s l h r hr zero origin => ?_, fun s d => ⟨fun front e back table ne valid address none => ?_, s.deliveryAction_default d⟩⟩
  case refine_2 => exact s.deliveryAction_of_entry d table ne valid address none
  refine ⟨fun source => ?_, fun source act => ?_, fun source act hops => ?_, fun source act hops down => ?_,
    fun source act hops active room => ?_, fun source act hops active full => ?_, fun source act hops active room hostRoom => ?_,
    fun source act room => ?_, fun source act full mode => ?_, fun source act n refusal => ⟨fun room => ?_, fun full mode => ?_⟩,
    fun source act refusal full mode => ?_⟩
  · exact State.deliver_counted hr zero origin rfl (if_pos source)
  · exact State.deliver_counted hr zero origin rfl (by rw [if_neg source, State.deliverParts, act])
  · exact State.deliver_forward_refused hr zero origin source act (by unfold State.forwardRefusal; rw [if_pos hops])
  · exact State.deliver_forward_refused hr zero origin source act (by unfold State.forwardRefusal; rw [if_neg hops, if_pos down])
  · have admits := State.deliver_forward_admitted hr source act (State.forwardRefusal_none hops active room)
    exact ⟨admits.record.trans (by rw [hr]; rfl), admits.tail, admits.others⟩
  · exact State.deliver_forward_refused hr zero origin source act
      (by unfold State.forwardRefusal; rw [if_neg hops, if_neg (not_not.2 active), if_pos full])
  · obtain ⟨record, rest⟩ := State.deliver_both_admitted hr source act (State.forwardRefusal_none hops active room) hostRoom
    exact ⟨record.trans (by cases l <;> rfl), rest⟩
  · have admits := s.admits_admitHost r.cls h room
    rw [State.deliver_host_admitted hr source act room]
    exact ⟨admits.record.trans (by rw [hr]; rfl), admits.tail, s.flag_admitHost_arrival r.cls h room⟩
  · exact State.deliver_counted hr zero origin rfl
      (by rw [if_neg source, State.deliverParts, act]; exact s.admitHost_tailDrop r.cls h full mode)
  · exact State.deliver_both_host hr source act refusal room
  · exact State.deliver_both_refused hr zero origin source act refusal full mode
  · obtain ⟨admits, drop⟩ := State.deliver_both_forward hr source act refusal full mode
    refine ⟨admits.record.trans (by rw [State.record_countPart, hr]; rfl), ?_, fun q ne => ?_, ?_, ?_, drop⟩
    · rw [admits.tail]; simp [State.queue]
    · rw [admits.others q ne]; simp [State.queue]
    · rw [admits.free]; simp
    · rw [admits.counters]; rfl

end Sys2Proof.Machine
end

