-- ==== Sys2Proof/Proofs/LinkDrops.lean ====
section
/-! SUPPORT. A link's holders removed from frames one after another, and what becomes of a flush by it: the rule that the drops of heads,
the credit stall and the teardown share (R10, R16, R17, R37, R61). -/

namespace Sys2Proof.Machine

/-! ## One record without a link's holder -/

/-- What remains of a record without a link's holder: nothing where that was the last (R16). -/
def Record.shed (l : LinkId) (r : Record) : Option Record :=
  if (r.setHolder l .none).refCount = 0 then none else some (r.setHolder l .none)

theorem Record.shed_of_alone {l : LinkId} {r : Record} (host : r.host = .none) (other : r.holder l.other = .none) : r.shed l = none :=
  if_pos ((r.refCount_setHolder_none l).2 ⟨host, other⟩)

theorem Record.shed_of_held {l : LinkId} {r : Record} (held : ¬(r.host = .none ∧ r.holder l.other = .none)) :
    r.shed l = some (r.setHolder l .none) :=
  if_neg (mt (r.refCount_setHolder_none l).1 held)

theorem Record.setHolder_none_twice (l : LinkId) (r : Record) : (r.setHolder l .none).setHolder l .none = r.setHolder l .none := by
  cases l <;> rfl

/-- A second removal of the same holder changes nothing. -/
theorem Record.shed_shed (l : LinkId) (o : Option Record) : (o.bind (Record.shed l)).bind (Record.shed l) = o.bind (Record.shed l) := by
  cases o with
  | none => rfl
  | some r =>
    rw [Option.bind_some]
    by_cases last : (r.setHolder l .none).refCount = 0
    · rw [Record.shed, if_pos last]; rfl
    · rw [Record.shed, if_neg last, Option.bind_some, Record.shed, Record.setHolder_none_twice, if_neg last]

/-! ## Holders removed from some frames -/

/-- A port without in-use, what is due, its stall timers and the unacknowledged list. -/
def LinkPort.bare (p : LinkPort) : LinkPort :=
  { p.side with tx := { p.tx with unacked := [] }, counters := p.counters }

/-- An operation that takes a link's holder off each of some frames, in their order, and changes of the buffer and the ports nothing
else but what is due, the stall timers and the link's own unacknowledged list. -/
structure State.Sheds (s t : State) (l : LinkId) (hs : List Nat) : Prop where
  record : ∀ g, t.record g = if g ∈ hs then (s.record g).bind (Record.shed l) else s.record g
  freed : hs.Nodup → s.ChainsFreed t (s.heldByLinkAlone l hs)
  cells : s.SameCells t
  port : ∀ k, (t.port k).bare = (s.port k).bare
  others : ∀ k, k ≠ l → (t.port k).tx = (s.port k).tx

section
variable {s t u : State} {l : LinkId} {hs ks : List Nat} {h : Nat}

theorem State.heldByLinkAlone_append (s : State) (l : LinkId) (xs ys : List Nat) :
    s.heldByLinkAlone l (xs ++ ys) = s.heldByLinkAlone l xs ++ s.heldByLinkAlone l ys := by
  simp [State.heldByLinkAlone]

theorem State.heldByLinkAlone_congr (same : ∀ k ∈ ks, t.record k = s.record k) : t.heldByLinkAlone l ks = s.heldByLinkAlone l ks :=
  congrArg (List.filter _) (List.filterMap_congr same)

/-- Frames stripped in two goes, one list after the other. -/
theorem State.Sheds.append (a : s.Sheds t l hs) (b : t.Sheds u l ks) : s.Sheds u l (hs ++ ks) where
  record g := by
    rw [b.record, a.record]
    by_cases first : g ∈ hs <;> by_cases second : g ∈ ks <;> simp [first, second, Record.shed_shed]
  freed nodup := by
    obtain ⟨nodup_hs, nodup_ks, disjoint⟩ := List.nodup_append.1 nodup
    have same : t.heldByLinkAlone l ks = s.heldByLinkAlone l ks := State.heldByLinkAlone_congr fun k hk => by
      rw [a.record, if_neg fun h => disjoint k h k hk rfl]
    rw [State.heldByLinkAlone_append, ← same]
    exact (a.freed nodup_hs).append (b.freed nodup_ks)
  cells := ⟨b.cells.1.trans a.cells.1, b.cells.2.1.trans a.cells.2.1, b.cells.2.2.trans a.cells.2.2⟩
  port k := (b.port k).trans (a.port k)
  others k ne := (b.others k ne).trans (a.others k ne)

/-- An operation that leaves the buffer and what these facts say of the ports strips no frame. -/
theorem State.Sheds.of_same (buf : t.buf = s.buf) (inUse : ∀ k c, ((t.port k).credit c).inUse = ((s.port k).credit c).inUse)
    (port : ∀ k, (t.port k).bare = (s.port k).bare) (others : ∀ k, k ≠ l → (t.port k).tx = (s.port k).tx) : s.Sheds t l [] where
  record g := by rw [if_neg List.not_mem_nil, State.record, buf]; rfl
  freed _ := ⟨by rw [buf]; exact (List.append_nil _).symm, inUse⟩
  cells := by rw [State.SameCells, buf]; exact ⟨rfl, rfl, rfl⟩
  port := port
  others := others

theorem State.Sheds.of_ports (buf : t.buf = s.buf) (port : ∀ k, t.port k = s.port k) : s.Sheds t l [] :=
  .of_same buf (fun k c => by rw [port]) (fun k => by rw [port]) fun k _ => by rw [port]

theorem State.Sheds.refl (s : State) (l : LinkId) : s.Sheds s l [] :=
  .of_ports rfl fun _ => rfl

theorem State.Sheds.holdersRemoved (a : s.Sheds t l hs) : s.HoldersRemoved t l hs := by
  refine ⟨fun h mem r hr => ?_, fun h out => by rw [a.record, if_neg out]⟩
  have left : t.record h = r.shed l := by rw [a.record, if_pos mem, hr]; rfl
  exact ⟨fun host other => left.trans (Record.shed_of_alone host other), fun held => left.trans (Record.shed_of_held held)⟩

theorem State.removeLinkHolder_sheds (s : State) (l : LinkId) (h : Nat) : s.Sheds (s.removeLinkHolder l h) l [h] where
  record g := by
    rw [State.removeLinkHolder, State.record_removeHolder]
    by_cases e : h = g
    · subst e; rw [if_pos rfl, if_pos (List.mem_singleton.2 rfl)]; rfl
    · rw [if_neg e, if_neg fun m => e (List.mem_singleton.1 m).symm]
  freed _ := (s.removeLinkHolder_removed l h).2
  cells := ⟨s.removeHolder_buf_mem h _, s.removeHolder_buf_wrong h _, s.removeHolder_buf_links h _⟩
  port k := by rw [State.removeLinkHolder, State.port_removeHolder]; rfl
  others k _ := (s.removeHolder_links h _).tx k

theorem State.countPart_sheds (s : State) (n : PartCounter) (l : LinkId) : s.Sheds (s.countPart n) l [] :=
  .of_ports (s.countPart_buf n) (s.port_countPart n)

theorem State.entryLeft_ports (s : State) (q : QueueId) (h : Nat) (k : LinkId) : (s.entryLeft q h).port k = s.port k := by
  rw [State.entryLeft_spec]
  split
  · cases k <;> rfl
  · rfl

/-- The taking of a transmit queue's head off stops its stall timer and changes nothing else of the ports. -/
theorem State.port_popHead (s : State) (l : LinkId) (c : Cls) (k : LinkId) :
    (s.popHead (.tx l c)).port k = if k = l then (s.port k).modCredit c (fun x => { x with stallTimer := none }) else s.port k := by
  have entries : ∀ es, (s.setEntries (.tx l c) es).port k = s.port k := fun es => by cases k <;> rfl
  rw [State.popHead, State.stopStall, State.modCredit, State.port_modPort_cases, entries]

theorem State.popHead_sheds (s : State) (l : LinkId) (c : Cls) : s.Sheds (s.popHead (.tx l c)) l [] := by
  refine .of_same (s.popHead_buf _) (fun k d => ?_) (fun k => ?_) fun k ne => ?_
  · rw [s.port_popHead]
    split
    · cases c <;> cases d <;> rfl
    · rfl
  · rw [s.port_popHead]
    split
    · cases c <;> rfl
    · rfl
  · rw [s.port_popHead, if_neg ne]

/-- The head of a transmit queue dropped: its holder on the queue's side removed. -/
theorem State.dropHead_sheds (s : State) (l : LinkId) (c : Cls) (h : Nat) : s.Sheds (s.dropHead (.tx l c) h) l [h] := by
  have left : ((s.popHead (.tx l c)).removeLinkHolder l h).Sheds (s.dropHead (.tx l c) h) l [] :=
    .of_ports (State.entryLeft_buf _ _ h) fun k => State.entryLeft_ports _ (.tx l c) h k
  exact ((s.popHead_sheds l c).append (State.removeLinkHolder_sheds _ l h)).append left

theorem State.teardownDrop_sheds (s : State) (l : LinkId) (h : Nat) : s.Sheds (s.teardownDrop l h) l [h] :=
  (s.removeLinkHolder_sheds l h).append (State.countPart_sheds _ _ l)

/-- A fold whose step strips each frame strips them all, in their order. -/
theorem State.foldl_sheds (f : State → Nat → State) (hf : ∀ (t : State) (h : Nat), t.Sheds (f t h) l [h]) (hs : List Nat) (s : State) :
    s.Sheds (hs.foldl f s) l hs := by
  induction hs generalizing s with
  | nil => exact .refl s l
  | cons h hs ih => exact (hf s h).append (ih (f s h))

/-! ## The flush -/

theorem State.flag_cmdDone_raise_drop (s : State) : (s.raise .drop).flag .cmdDone = s.flag .cmdDone := by
  simp [State.raise, State.flag, Event.bit]

theorem State.FlushFollows.refl (s : State) {marked : Prop} (no : ¬marked) : s.FlushFollows s marked :=
  ⟨fun yes => absurd yes no, fun _ => ⟨rfl, rfl, rfl⟩⟩

/-- An operation that leaves the flush, CMD_DONE and the Host Command Unit as they are, after one with or without the mark. -/
theorem State.FlushFollows.same_after {marked : Prop} (a : s.FlushFollows t marked) (flush : u.flush = t.flush)
    (flag : u.flag .cmdDone = t.flag .cmdDone) (hcu : u.hcu = t.hcu) : s.FlushFollows u marked := by
  rw [State.FlushFollows, flush, flag, hcu]
  exact a

/-- The same, before it. -/
theorem State.FlushFollows.same_before {marked : Prop} (a : t.FlushFollows u marked) (flush : t.flush = s.flush)
    (flag : t.flag .cmdDone = s.flag .cmdDone) (hcu : t.hcu = s.hcu) : s.FlushFollows u marked := by
  rw [State.FlushFollows, State.flushDone, flush, flag, hcu] at a
  exact a

/-- Entries taken off in two goes: once the mark has gone with the first there is none for the second. -/
theorem State.FlushFollows.or {marked : Prop} {among : Option (QueueId × Nat) → Prop} (none : ¬among .none) (a : s.FlushFollows t marked)
    (b : t.FlushFollows u (among t.flush.active)) : s.FlushFollows u (marked ∨ among s.flush.active) := by
  by_cases yes : marked
  · obtain ⟨flush, flag, hcu⟩ := a.1 yes
    have no : ¬among t.flush.active := by rw [flush]; exact none
    obtain ⟨flush', flag', hcu'⟩ := b.2 no
    exact ⟨fun _ => ⟨flush'.trans flush, flag'.trans flag, hcu'.trans hcu⟩, fun n => absurd (.inl yes) n⟩
  · obtain ⟨flush, flag, hcu⟩ := a.2 yes
    rw [State.FlushFollows, State.flushDone, flush, flag, hcu] at b
    exact ⟨fun m => b.1 (m.resolve_left yes), fun n => b.2 fun m => n (.inr m)⟩

theorem State.FlushFollows.congr {marked marked' : Prop} (a : s.FlushFollows t marked) (e : marked' ↔ marked) :
    s.FlushFollows t marked' := by
  rw [State.FlushFollows, e]
  exact a

theorem State.popHead_rest (s : State) (q : QueueId) :
    (s.popHead q).flush = s.flush ∧ (s.popHead q).ev = s.ev ∧ (s.popHead q).hcu = s.hcu := by
  unfold State.popHead State.stopStall
  split
  · exact ⟨rfl, rfl, rfl⟩
  · simp

/-- A flush follows the drop of a head. -/
theorem State.dropHead_follows (s : State) (l : LinkId) (c : Cls) (h : Nat) :
    s.FlushFollows (s.dropHead (.tx l c) h) (s.Marks (.tx l c) [h]) := by
  obtain ⟨flush, ev, hcu⟩ := s.popHead_rest (.tx l c)
  let u := (s.popHead (.tx l c)).removeLinkHolder l h
  have uflush : u.flush = s.flush := ((s.popHead (.tx l c)).removeHolder_flush h _).trans flush
  have uev : u.ev = s.ev := ((s.popHead (.tx l c)).removeHolder_ev h _).trans ev
  have uhcu : u.hcu = s.hcu := ((s.popHead (.tx l c)).removeHolder_hcu h _).trans hcu
  have follows := (u.entryLeft_follows (.tx l c) h).same_before uflush (by rw [State.flag, uev]; rfl) uhcu
  exact follows.congr (by rw [State.Marks, State.Marks, uflush])

end

end Sys2Proof.Machine
end

