-- ==== Sys2Proof/Proofs/CreditStall.lean ====
section
/-! SUPPORT. The credit-stall timers at a write of CFG_SESSION, and the head that an expiry drops (sections 6.7 and 6.8). -/

namespace Sys2Proof.Machine

/-! ## The timer after a step -/

/-- The credit-stall timer of a class as a step leaves it. -/
def State.stallAfter (s : State) (l : LinkId) (c : Cls) : Timer :=
  if s.waitsForCredit l c = true ∧ (s.port l).cfg.stallLimit ≠ 0 then
    some (((s.port l).credit c).stallTimer.getD (1000 * (s.port l).cfg.stallLimit))
  else none

theorem State.refreshStall_eq (s : State) (l : LinkId) (c : Cls) :
    s.refreshStall l c = s.setPort l ((s.port l).modCredit c fun k => { k with stallTimer := s.stallAfter l c }) := by
  unfold State.refreshStall State.stallAfter
  dsimp only
  split
  · cases c <;> rfl
  · rfl

/-- What makes a head wait for credit: its cells, the link's state, its window and its available credit. -/
theorem State.waitsForCredit_setPort (s : State) (l : LinkId) (c : Cls) (p : LinkPort) (state : p.state = (s.port l).state)
    (tx : p.tx = (s.port l).tx) (available : (p.credit c).available = ((s.port l).credit c).available) :
    (s.setPort l p).waitsForCredit l c = s.waitsForCredit l c := by
  have head : (s.setPort l p).headCells l c = s.headCells l c := by
    unfold State.headCells
    rw [State.queue_setPort]
    simp only [State.record_setPort]
  unfold State.waitsForCredit State.isActive LinkPort.windowOpen
  rw [head, State.port_setPort, state, tx, available]

/-- The timer of a class once other parts of the port have changed: by the waiting head and the limit then configured. -/
theorem State.stallAfter_setPort (s : State) (l : LinkId) (c : Cls) (p : LinkPort) (state : p.state = (s.port l).state)
    (tx : p.tx = (s.port l).tx) (credit : p.credit c = (s.port l).credit c) :
    (s.setPort l p).stallAfter l c =
      if s.waitsForCredit l c = true ∧ p.cfg.stallLimit ≠ 0 then
        some (((s.port l).credit c).stallTimer.getD (1000 * p.cfg.stallLimit))
      else none := by
  unfold State.stallAfter
  rw [s.waitsForCredit_setPort l c p state tx (by rw [credit]), State.port_setPort, credit]

/-- The fields of CFG_SESSION in the value written. -/
theorem sessionFields (v : Word) :
    field v 6 0 = v.toNat % 128 ∧ field v 14 8 = v.toNat / 256 % 128 ∧ field v 23 16 = v.toNat / 65536 % 256 ∧
      field v 28 24 = v.toNat / 16777216 % 32 := by
  simp [field, BitVec.toNat_ushiftRight, Nat.shiftRight_eq_div_pow]

/-- CREDIT_STALL_LIMIT takes every value of its field. -/
theorem LinkCfg.writeSession_stallLimit (c : LinkCfg) (v : Word) : (c.writeSession v).stallLimit = v.toNat / 65536 % 256 := by
  have stall := (sessionFields v).2.2.1
  rw [← stall]
  exact if_pos ⟨Nat.zero_le _, by omega⟩

/-- The credit-stall timer of a class after a write of CREDIT_STALL_LIMIT. -/
def State.stallWritten (s : State) (l : LinkId) (n : Nat) (c : Cls) : Timer :=
  if s.waitsForCredit l c = true ∧ n ≠ 0 then some (((s.port l).credit c).stallTimer.getD (1000 * n)) else none

/-- A write of CFG_SESSION: the fields within their ranges taken, and the two stall timers as the waiting heads have them. -/
theorem State.writeSession_spec (s : State) (l : LinkId) (v : Word) :
    s.writeSession l v =
      s.setPort l
        { s.port l with
          cfg := (s.port l).cfg.writeSession v
          ctl := { (s.port l).ctl with stallTimer := s.stallWritten l (v.toNat / 65536 % 256) .control }
          dat := { (s.port l).dat with stallTimer := s.stallWritten l (v.toNat / 65536 % 256) .data } } := by
  have control := s.stallAfter_setPort l .control { s.port l with cfg := (s.port l).cfg.writeSession v } rfl rfl rfl
  have data := fun t : Timer => s.stallAfter_setPort l .data
    { s.port l with cfg := (s.port l).cfg.writeSession v, ctl := { (s.port l).ctl with stallTimer := t } } rfl rfl rfl
  simp only [LinkCfg.writeSession_stallLimit] at control data
  unfold State.stallWritten
  rw [← control, ← data _, State.writeSession, State.refreshStall_eq, State.refreshStall_eq]
  cases l <;> rfl

/-! ## The expiry -/

theorem State.flag_countLink_drop (s : State) (l : LinkId) {n : LinkCounter} (drop : n.isDrop = true) :
    (s.countLink l n).flag .drop = true := by
  unfold State.countLink
  dsimp only
  rw [if_pos drop]
  exact State.flag_raise _ _

theorem State.flag_cmdDone_countLink (s : State) (l : LinkId) (n : LinkCounter) :
    (s.countLink l n).flag .cmdDone = s.flag .cmdDone := by
  unfold State.countLink
  dsimp only
  split
  · rw [State.flag_cmdDone_raise_drop]; simp [State.flag]
  · simp [State.flag]

@[simp] theorem State.queue_countLink (s : State) (l : LinkId) (n : LinkCounter) (q : QueueId) : (s.countLink l n).queue q = s.queue q := by
  simp [State.queue]

/-- A count of a link leaves everything of the ports but that link's counters. -/
theorem State.port_countLink_kept (s : State) (l k : LinkId) (n : LinkCounter) :
    (s.countLink l n).port k = { s.port k with counters := ((s.countLink l n).port k).counters } := by
  cases l <;> cases k <;> cases n <;> rfl

/-- The drop of the head of a transmit queue, counted under one of the link's drop counters. -/
theorem State.countedDrop_spec (s : State) (l : LinkId) (c : Cls) (h : Nat) {rest : List Nat} {n : LinkCounter} (drop : n.isDrop = true)
    (hq : (s.queue (.tx l c)).entries = h :: rest) {t : State} (ht : t = (s.dropHead (.tx l c) h).countLink l n) :
    (t.queue (.tx l c)).entries = rest ∧ (∀ q, q ≠ .tx l c → t.queue q = s.queue q) ∧
      ((t.port l).credit c).stallTimer = none ∧ (t.port l).tx = (s.port l).tx ∧ (t.port l).state = (s.port l).state ∧
      (t.port l).counters = (s.port l).counters.set n ((s.port l).counters.get n + 1) ∧ t.flag .drop = true ∧
      s.HoldersRemoved t l [h] ∧ s.ChainsFreed t (s.heldByLinkAlone l [h]) ∧ s.SameCells t ∧
      s.FlushFollows t (s.Marks (.tx l c) [h]) := by
  subst ht
  have sheds := s.dropHead_sheds l c h
  have counters : ((s.dropHead (.tx l c) h).port l).counters = (s.port l).counters :=
    (congrArg LinkPort.counters (sheds.port l) :)
  have kept := (s.dropHead (.tx l c) h).port_countLink_kept l
  have stall : (((s.dropHead (.tx l c) h).port l).credit c).stallTimer = none := by
    have left : ((s.popHead (.tx l c)).port l).credit c = { (s.port l).credit c with stallTimer := none } := by
      rw [s.port_popHead, if_pos rfl]; cases c <;> rfl
    rw [State.dropHead, State.entryLeft_ports, State.removeLinkHolder, State.port_removeHolder]
    cases c <;> exact (congrArg CreditClass.stallTimer left :)
  have freed := sheds.freed (List.nodup_singleton h)
  refine ⟨?_, fun q ne => ?_, ?_, ?_, ?_, ?_, State.flag_countLink_drop _ l drop, ?_, ?_, ?_, ?_⟩
  · rw [State.queue_countLink, State.queue_dropHead, if_pos rfl, hq]; rfl
  · rw [State.queue_countLink, State.queue_dropHead, if_neg ne]
  · rw [kept]; cases c <;> exact stall
  · rw [kept]; exact (s.dropHead_links _ h).tx l
  · rw [kept]; exact (s.dropHead_links _ h).state l
  · rw [State.port_countLink, counters]
  · have removed := sheds.holdersRemoved
    simpa only [State.HoldersRemoved, State.record_countLink] using removed
  · refine ⟨by rw [State.countLink_buf]; exact freed.1, fun k d => ?_⟩
    rw [kept]; exact freed.2 k d
  · rw [State.SameCells, State.countLink_buf]; exact sheds.cells
  · exact (s.dropHead_follows l c h).same_after (State.countLink_flush _ _ _) (State.flag_cmdDone_countLink _ _ _) (State.countLink_hcu _ _ _)

/-- Settles O47: the write of CFG_SESSION by its fields and timers, the expiry by the counted drop of the head. -/
theorem creditStallResult : Obligations.CreditStallResult := by
  unfold Obligations.CreditStallResult
  refine ⟨fun s l v => ?_, fun s l c h rest r active running hq hr => ?_⟩
  · obtain ⟨silence, realign, -, hail⟩ := sessionFields v
    have spec := s.writeSession_spec l v
    have timer : ∀ d, (((s.writeSession l v).port l).credit d).stallTimer = s.stallWritten l (v.toNat / 65536 % 256) d := fun d => by
      rw [spec, State.port_setPort]; cases d <;> rfl
    refine ⟨s.writeSession l v, rfl, fun zero d => (timer d).trans (if_neg fun both => both.2 zero), fun ne d waits => ?_, ?_⟩
    · rw [timer, State.stallWritten, if_pos ⟨waits, ne⟩]
      cases ((s.port l).credit d).stallTimer <;> rfl
    · have control := timer .control
      have data := timer .data
      dsimp only [LinkPort.credit] at control data
      rw [control, data, spec, ← silence, ← realign, ← hail, ← LinkCfg.writeSession_stallLimit (s.port l).cfg v]
      rfl
  · obtain ⟨queue, others, stall, tx, -, counters, drop, removed, freed, cells, follows⟩ :=
      s.countedDrop_spec l c h (n := .creditStallDrops) rfl hq rfl
    have dropped : s.stallDrop l c = (s.dropHead (.tx l c) h).countLink l .creditStallDrops := by
      unfold State.stallDrop; rw [hq]
    have free := freed.1
    have marks : s.Marks (.tx l c) [h] ↔ s.flush.active = some (.tx l c, h) := by
      rw [State.Marks.cons]; exact or_iff_left (State.Marks.nil s _)
    refine ⟨s.stallDrop l c, ?_, ?_⟩
    · exact congrArg Host.Outcome.next (if_pos ⟨(s.isActive_iff l).2 active, running⟩)
    rw [dropped]
    refine ⟨queue, others, stall, tx, counters, drop, fun host other => ?_, fun held => ?_, fun g ne => ?_, cells, fun m => ?_, fun m => ?_⟩
    · refine ⟨(removed.1 h (List.mem_singleton.2 rfl) r hr).1 host other, ?_⟩
      rw [free]
      simp [State.heldByLinkAlone, hr, host, other]
    · refine ⟨(removed.1 h (List.mem_singleton.2 rfl) r hr).2 held, ?_⟩
      have none : s.heldByLinkAlone l [h] = [] := by
        simpa [State.heldByLinkAlone, hr] using held
      rw [free, none]
      exact List.append_nil _
    · exact removed.2 g fun m => ne (List.mem_singleton.1 m)
    · obtain ⟨flush, flag, hcu⟩ := follows.1 (marks.2 m)
      rw [flush, hcu]
      exact ⟨rfl, rfl, rfl, rfl, rfl, flag⟩
    · obtain ⟨flush, -, hcu⟩ := follows.2 (mt marks.1 m)
      exact ⟨flush, hcu⟩

end Sys2Proof.Machine
end

