-- ==== Sys2Proof/Proofs/Teardowns.lean ====
section
/-! SUPPORT. What a teardown leaves: the frames of a link's side taken off in the order of its steps, and the session cleared
(sections 3.7 and 3.8). -/

namespace Sys2Proof.Machine

/-! ## Frames taken off with a count of each -/

/-- An operation that takes a link's holder off some frames, counts each as torn down, and takes some entries off their queues. -/
structure State.TearsOff (s t : State) (l : LinkId) (entries : List (QueueId × Nat)) (hs : List Nat) : Prop where
  sheds : s.Sheds t l hs
  follows : s.FlushFollows t (∃ e ∈ entries, s.flush.active = some e)
  count : t.ev.counters.teardownDrop = s.ev.counters.teardownDrop + BitVec.ofNat 32 hs.length

section
variable {s t u : State} {l : LinkId} {es fs : List (QueueId × Nat)} {hs ks : List Nat}

theorem State.TearsOff.refl (s : State) (l : LinkId) : s.TearsOff s l [] [] :=
  ⟨.refl s l, .refl s (by simp), by simp⟩

theorem State.TearsOff.append (a : s.TearsOff t l es hs) (b : t.TearsOff u l fs ks) : s.TearsOff u l (es ++ fs) (hs ++ ks) where
  sheds := a.sheds.append b.sheds
  follows := (a.follows.or (among := fun active => ∃ e ∈ fs, active = some e) (by simp) b.follows).congr (by
    simp only [List.mem_append, or_and_right, exists_or])
  count := by
    rw [b.count, a.count, List.length_append, BitVec.ofNat_add, BitVec.add_assoc]

theorem State.removeLinkHolder_rest (s : State) (l : LinkId) (h : Nat) :
    (s.removeLinkHolder l h).flush = s.flush ∧ (s.removeLinkHolder l h).ev = s.ev ∧ (s.removeLinkHolder l h).hcu = s.hcu :=
  ⟨s.removeHolder_flush h _, s.removeHolder_ev h _, s.removeHolder_hcu h _⟩

theorem State.flag_cmdDone_countPart (s : State) (n : PartCounter) : (s.countPart n).flag .cmdDone = s.flag .cmdDone := by
  unfold State.countPart
  dsimp only
  split
  · rw [State.flag_cmdDone_raise_drop]; rfl
  · rfl

/-- A count of one torn down, after the removal of a holder that counted none. -/
theorem State.TearsOff.of_counted {h : Nat} (sheds : s.Sheds t l [h]) (follows : s.FlushFollows t (∃ e ∈ es, s.flush.active = some e))
    (counters : t.ev.counters = s.ev.counters) : s.TearsOff (t.countPart .teardownDrop) l es [h] where
  sheds := sheds.append (t.countPart_sheds .teardownDrop l)
  follows := follows.same_after (t.countPart_flush _) (t.flag_cmdDone_countPart _) (t.countPart_hcu _)
  count := by rw [State.countPart_counter, counters]; rfl

theorem State.teardownDrop_tearsOff (s : State) (l : LinkId) (h : Nat) : s.TearsOff (s.teardownDrop l h) l [] [h] := by
  obtain ⟨flush, ev, hcu⟩ := s.removeLinkHolder_rest l h
  exact .of_counted (s.removeLinkHolder_sheds l h)
    ((State.FlushFollows.refl s (by simp)).same_after flush (by rw [State.flag, ev]; rfl) hcu) (by rw [ev])

theorem State.entryLeft_counters (s : State) (q : QueueId) (h : Nat) : (s.entryLeft q h).ev.counters = s.ev.counters := by
  rw [State.entryLeft_spec]
  split <;> rfl

theorem State.dropHead_tearsOff (s : State) (l : LinkId) (c : Cls) (h : Nat) :
    s.TearsOff ((s.dropHead (.tx l c) h).countPart .teardownDrop) l [(.tx l c, h)] [h] := by
  refine .of_counted (s.dropHead_sheds l c h) ((s.dropHead_follows l c h).congr (by simp [State.Marks])) ?_
  rw [State.dropHead, State.entryLeft_counters, ((s.popHead (.tx l c)).removeLinkHolder_rest l h).2.1, (s.popHead_rest (.tx l c)).2.1]

/-- A fold of steps that each take one frame off takes them all off, in their order. -/
theorem State.foldl_tearsOff (f : State → Nat → State) (g : Nat → List (QueueId × Nat))
    (hf : ∀ (t : State) (h : Nat), t.TearsOff (f t h) l (g h) [h]) (hs : List Nat) (s : State) :
    s.TearsOff (hs.foldl f s) l (hs.flatMap g) hs := by
  induction hs generalizing s with
  | nil => exact .refl s l
  | cons h hs ih => exact (hf s h).append (ih (f s h))

/-! ## The steps -/

/-- The frame of a first transmission on a link's line. -/
def State.sendingHandles (s : State) (l : LinkId) : List Nat :=
  match (s.port l).tx.line with
  | .frame f => if f.resend then [] else [f.handle]
  | .control _ => []
  | .none => []

theorem State.droppedHandles_eq (s : State) (l : LinkId) :
    s.droppedHandles l =
      s.sendingHandles l ++ (s.port l).tx.unacked ++ (s.queue (.tx l .control)).entries ++ (s.queue (.tx l .data)).entries := rfl

theorem State.clearSending_tearsOff (s : State) (l : LinkId) : s.TearsOff (s.clearSending l) l [] (s.sendingHandles l) := by
  unfold State.clearSending State.sendingHandles
  cases (s.port l).tx.line with
  | frame f =>
    dsimp only
    split
    · exact .refl s l
    · exact s.teardownDrop_tearsOff l _
  | control _ => exact .refl s l
  | none => exact .refl s l

theorem State.clearUnacked_tearsOff (s : State) (l : LinkId) : s.TearsOff (s.clearUnacked l) l [] (s.port l).tx.unacked := by
  have dropped := State.foldl_tearsOff (l := l) (fun t h => t.teardownDrop l h) (fun _ => []) (fun t h => t.teardownDrop_tearsOff l h)
    (s.port l).tx.unacked s
  rw [List.flatMap_eq_nil_iff.2 fun _ _ => rfl] at dropped
  have emptied : ∀ t : State, t.TearsOff (t.modTx l fun x => { x with unacked := [] }) l [] [] := fun t => by
    refine ⟨.of_same (by simp [State.modTx]) (fun k c => ?_) (fun k => ?_) fun k ne => ?_,
      (State.FlushFollows.refl t (by simp)).same_after (by simp [State.modTx]) (by simp [State.modTx, State.flag]) (by simp [State.modTx]),
      by simp [State.modTx]⟩
    · rw [State.modTx, State.port_modPort_cases]; split <;> rfl
    · rw [State.modTx, State.port_modPort_cases]; split <;> rfl
    · rw [State.modTx, State.port_modPort_cases, if_neg ne]
  have both := dropped.append (emptied _)
  rw [List.append_nil (s.port l).tx.unacked] at both
  exact both

theorem State.clearTxQueue_tearsOff (s : State) (l : LinkId) (c : Cls) :
    s.TearsOff (s.clearTxQueue l c) l ((s.queue (.tx l c)).entries.map fun h => (.tx l c, h)) (s.queue (.tx l c)).entries := by
  have dropped := State.foldl_tearsOff (l := l) (fun t h => (t.dropHead (.tx l c) h).countPart .teardownDrop) (fun h => [(.tx l c, h)])
    (fun t h => t.dropHead_tearsOff l c h) (s.queue (.tx l c)).entries s
  rwa [← List.map_eq_flatMap] at dropped

end

theorem State.foldl_queues (f : State → Nat → State) (hf : ∀ (t : State) (h : Nat), (f t h).queues = t.queues) (hs : List Nat) (s : State) :
    (hs.foldl f s).queues = s.queues := by
  induction hs generalizing s with
  | nil => rfl
  | cons h hs ih => exact (ih (f s h)).trans (hf s h)

theorem State.teardownDrop_queues (s : State) (l : LinkId) (h : Nat) : (s.teardownDrop l h).queues = s.queues :=
  (State.countPart_queues _ _).trans (s.removeHolder_queues h _)

theorem State.clearSending_queues (s : State) (l : LinkId) : (s.clearSending l).queues = s.queues := by
  unfold State.clearSending
  split
  · split
    · rfl
    · exact s.teardownDrop_queues l _
  · rfl
  · rfl

theorem State.clearUnacked_queues (s : State) (l : LinkId) : (s.clearUnacked l).queues = s.queues :=
  (State.modPort_queues _ l _).trans (State.foldl_queues _ (fun t h => t.teardownDrop_queues l h) _ s)

/-- The entries of the queues after steps 1 to 5. -/
theorem State.queue_cleared (s : State) (l : LinkId) (q : QueueId) :
    ((s.cleared l).queue q).entries = if q = .tx l .control ∨ q = .tx l .data then [] else (s.queue q).entries := by
  have kept : (((s.clearFilling l).clearSending l).clearUnacked l).queues = s.queues := by
    rw [State.clearUnacked_queues, State.clearSending_queues, State.clearFilling]
    split
    · exact s.freeRecord_queues _
    · rfl
  have same : ((((s.clearFilling l).clearSending l).clearUnacked l).queue q).entries = (s.queue q).entries := by
    rw [State.queue, kept]; rfl
  rw [State.cleared, State.queue_clearTxQueue, State.queue_clearTxQueue, same]
  by_cases control : q = .tx l .control <;> by_cases data : q = .tx l .data <;> simp [control, data]

/-- Steps 2 to 5, from the state that step 1 leaves. -/
theorem State.cleared_tearsOff (s : State) (l : LinkId) :
    ∃ entries, (s.clearFilling l).TearsOff (s.cleared l) l entries (s.droppedHandles l) ∧
      ((∃ e ∈ entries, s.flush.active = some e) ↔ s.MarksSide l) := by
  let t := s.clearFilling l
  have txs : (t.port l).tx = (s.port l).tx := (s.clearFilling_links l).tx l
  have queues : t.queues = s.queues := by
    simp only [t, State.clearFilling]
    split
    · exact s.freeRecord_queues _
    · rfl
  have sending : t.sendingHandles l = s.sendingHandles l := by rw [State.sendingHandles, txs]; rfl
  have unacked : ((t.clearSending l).port l).tx.unacked = (s.port l).tx.unacked := by rw [(t.clearSending_links l).tx, txs]
  let u := (t.clearSending l).clearUnacked l
  have uq : ∀ q, (u.queue q).entries = (s.queue q).entries := fun q => by
    have : u.queues = s.queues := by rw [State.clearUnacked_queues, State.clearSending_queues, queues]
    rw [State.queue, this]; rfl
  have control := u.clearTxQueue_tearsOff l .control
  have data := (u.clearTxQueue l .control).clearTxQueue_tearsOff l .data
  rw [State.queue_clearTxQueue, if_neg (by simp), uq] at data
  rw [uq] at control
  have list := (t.clearSending l).clearUnacked_tearsOff l
  rw [unacked] at list
  have first := t.clearSending_tearsOff l
  rw [sending] at first
  refine ⟨_, ((first.append list).append control).append data, ?_⟩
  simp [State.MarksSide, State.Marks, or_and_right, exists_or]

/-- Step 1: the record being filled freed, whole, and nothing else changed but in-use. -/
theorem State.clearFilling_spec (s : State) (l : LinkId) :
    (∀ g, (s.clearFilling l).record g = if g ∈ s.fillingHandles l then none else s.record g) ∧
      s.ChainsFreed (s.clearFilling l) ((s.fillingHandles l).filterMap s.record) ∧ s.SameCells (s.clearFilling l) ∧
      (s.clearFilling l).queues = s.queues ∧ (s.clearFilling l).flush = s.flush ∧ (s.clearFilling l).ev = s.ev ∧
      (s.clearFilling l).hcu = s.hcu ∧ ∀ k, ((s.clearFilling l).port k).bare = (s.port k).bare := by
  unfold State.clearFilling State.fillingHandles
  cases (s.port l).rx.frame with
  | none => exact ⟨fun g => by simp, .nil s, ⟨rfl, rfl, rfl⟩, rfl, rfl, rfl, rfl, fun _ => rfl⟩
  | some f =>
    refine ⟨fun g => ?_, ?_, by simp [State.SameCells], by simp, by simp, by simp, by simp, fun k => ?_⟩
    · rw [State.record_freeRecord]; simp [eq_comm]
    · cases hr : s.record f.handle with
      | none => simpa [hr, s.freeRecord_none _ hr] using State.ChainsFreed.nil s
      | some r =>
        refine ⟨by simp [hr, s.free_freeRecord _ r hr], fun k c => ?_⟩
        rw [s.inUse_freeRecord hr]
        simp [hr, cellsFrom_cons]
    · cases hr : s.record f.handle with
      | none => simp [s.freeRecord_none _ hr]
      | some r =>
        dsimp only
        rw [s.port_freeRecord _ r hr]
        split
        · cases r.cls <;> rfl
        · rfl

/-! ## What the five steps leave -/

/-- What the steps of a teardown leave of the records, the cells, the queues, the flush and the count of torn down frames. -/
structure State.Stripped (s t : State) (l : LinkId) : Prop where
  filling : ∀ h ∈ s.fillingHandles l, t.record h = none
  dropped : ∀ h, h ∉ s.fillingHandles l → h ∈ s.droppedHandles l → t.record h = (s.record h).bind (Record.shed l)
  others : ∀ h, h ∉ s.fillingHandles l ++ s.droppedHandles l → t.record h = s.record h
  freed : (s.fillingHandles l ++ s.droppedHandles l).Nodup →
    s.ChainsFreed t ((s.fillingHandles l).filterMap s.record ++ s.heldByLinkAlone l (s.droppedHandles l))
  cells : s.SameCells t
  queues : ∀ q, (t.queue q).entries = if q = .tx l .control ∨ q = .tx l .data then [] else (s.queue q).entries
  count : t.ev.counters.teardownDrop = s.ev.counters.teardownDrop + BitVec.ofNat 32 (s.droppedHandles l).length
  follows : s.FlushFollows t (s.MarksSide l)

section
variable {s t u : State} {l : LinkId}

theorem State.cleared_stripped (s : State) (l : LinkId) : s.Stripped (s.cleared l) l := by
  obtain ⟨record, freed, cells, queues, flush, ev, hcu, -⟩ := s.clearFilling_spec l
  obtain ⟨entries, torn, marks⟩ := s.cleared_tearsOff l
  refine ⟨fun h mem => ?_, fun h out mem => ?_, fun h out => ?_, fun nodup => ?_, ?_, s.queue_cleared l, ?_, ?_⟩
  · rw [torn.sheds.record, record, if_pos mem]; split <;> rfl
  · rw [torn.sheds.record, if_pos mem, record, if_neg out]
  · rw [List.mem_append, not_or] at out
    rw [torn.sheds.record, if_neg out.2, record, if_neg out.1]
  · obtain ⟨-, nodup', disjoint⟩ := List.nodup_append.1 nodup
    have same : (s.clearFilling l).heldByLinkAlone l (s.droppedHandles l) = s.heldByLinkAlone l (s.droppedHandles l) :=
      State.heldByLinkAlone_congr fun h mem => by rw [record, if_neg fun m => disjoint h m h mem rfl]
    have dropped := torn.sheds.freed nodup'
    rw [same] at dropped
    exact freed.append dropped
  · have after := torn.sheds.cells
    exact ⟨after.1.trans cells.1, after.2.1.trans cells.2.1, after.2.2.trans cells.2.2⟩
  · rw [torn.count, ev]
  · have follows := torn.follows.same_before flush (by rw [State.flag, ev]; rfl) hcu
    exact follows.congr (by rw [← marks, flush])

/-- Steps 1 to 5 leave a port as it was but for in-use, what is due, the stall timers and the link's own list; of the other link they
leave the transmitter as it was. -/
theorem State.port_cleared (s : State) (l : LinkId) :
    (∀ k, ((s.cleared l).port k).bare = (s.port k).bare) ∧ ∀ k, k ≠ l → ((s.cleared l).port k).tx = (s.port k).tx := by
  obtain ⟨-, -, -, -, -, -, -, bare⟩ := s.clearFilling_spec l
  obtain ⟨entries, torn, -⟩ := s.cleared_tearsOff l
  exact ⟨fun k => (torn.sheds.port k).trans (bare k), fun k ne => (torn.sheds.others k ne).trans ((s.clearFilling_links l).tx k)⟩

/-- An operation after the steps that leaves what they speak of. -/
theorem State.Stripped.same_after (a : s.Stripped t l) (buf : u.buf = t.buf) (queues : u.queues = t.queues) (flush : u.flush = t.flush)
    (hcu : u.hcu = t.hcu) (counters : u.ev.counters = t.ev.counters) (flag : u.flag .cmdDone = t.flag .cmdDone)
    (inUse : ∀ k c, ((u.port k).credit c).inUse = ((t.port k).credit c).inUse) : s.Stripped u l := by
  have record : ∀ h, u.record h = t.record h := fun h => by rw [State.record, buf]; rfl
  refine ⟨fun h m => (record h).trans (a.filling h m), fun h n m => (record h).trans (a.dropped h n m),
    fun h n => (record h).trans (a.others h n), fun nodup => ?_, ?_, fun q => ?_, ?_, a.follows.same_after flush flag hcu⟩
  · obtain ⟨free, lowered⟩ := a.freed nodup
    exact ⟨by rw [buf, free], fun k c => by rw [inUse, lowered]⟩
  · rw [State.SameCells, buf]; exact a.cells
  · rw [State.queue, queues]; exact a.queues q
  · rw [counters]; exact a.count

theorem State.Stripped.modPort_after (a : s.Stripped t l) (g : LinkPort → LinkPort)
    (inUse : ∀ p c, ((g p).credit c).inUse = (p.credit c).inUse) : s.Stripped (t.modPort l g) l :=
  a.same_after (t.modPort_buf l g) (t.modPort_queues l g) (t.modPort_flush l g) (t.modPort_hcu l g) (by rw [t.modPort_ev l g])
    (by rw [State.flag, t.modPort_ev l g]; rfl) fun k c => by
      rw [State.port_modPort_cases]
      split
      · exact inUse _ c
      · rfl

/-- A change of the port before the steps that leaves what they read of it. -/
theorem State.Stripped.modPort_before {g : LinkPort → LinkPort} (rx : (g (s.port l)).rx = (s.port l).rx)
    (tx : (g (s.port l)).tx = (s.port l).tx) (inUse : ∀ c, ((g (s.port l)).credit c).inUse = ((s.port l).credit c).inUse)
    (a : (s.modPort l g).Stripped t l) : s.Stripped t l := by
  let x := s.modPort l g
  have filling : x.fillingHandles l = s.fillingHandles l := by
    rw [State.fillingHandles, State.port_modPort, rx]; rfl
  have queues : ∀ q, x.queue q = s.queue q := fun q => s.queue_modPort l g q
  have dropped : x.droppedHandles l = s.droppedHandles l := by
    rw [State.droppedHandles, State.port_modPort, tx, queues, queues]; rfl
  have record : ∀ h, x.record h = s.record h := fun h => s.record_modPort l g h
  have same : x.heldByLinkAlone l (s.droppedHandles l) = s.heldByLinkAlone l (s.droppedHandles l) :=
    State.heldByLinkAlone_congr fun h _ => record h
  have records : x.record = s.record := funext record
  have buf : x.buf = s.buf := s.modPort_buf l g
  have ev : x.ev = s.ev := s.modPort_ev l g
  obtain ⟨a1, a2, a3, a4, a5, a6, a7, a8⟩ := a
  refine ⟨fun h m => a1 h (by rwa [filling]), fun h n m => ?_, fun h n => ?_, fun nodup => ?_, ?_, fun q => ?_, ?_, ?_⟩
  · rw [a2 h (by rwa [filling]) (by rwa [dropped]), record]
  · rw [a3 h (by rwa [filling, dropped]), record]
  · obtain ⟨free, lowered⟩ := a4 (by rwa [filling, dropped])
    rw [filling, dropped, same, records] at free lowered
    refine ⟨by rw [free, buf], fun k c => ?_⟩
    rw [lowered, State.port_modPort_cases]
    split
    · rename_i e; subst e; rw [inUse]
    · rfl
  · rw [State.SameCells, buf] at a5; exact a5
  · rw [a6, queues]
  · rw [a7, ev, dropped]
  · have marks : x.MarksSide l ↔ s.MarksSide l := by
      rw [State.MarksSide, State.Marks, State.Marks, queues, queues, State.modPort_flush]; rfl
    exact (a8.same_before (s.modPort_flush l g) (by rw [State.flag, ev]; rfl) (s.modPort_hcu l g)).congr marks.symm

end

/-! ## The session cleared, and FAULT -/

/-- A port with its session cleared. -/
def LinkPort.closed (p : LinkPort) : LinkPort :=
  { p with
    align := .none, validRun := 0, invalidRun := 0
    hailTimer := none, greetTimer := none, silenceTimer := none, realignTimer := none, holdTimer := none, refreshTimer := none
    rx := .reset
    tx := { Transmitter.reset with liveWindow := p.tx.liveWindow, lastEnd := p.tx.lastEnd }
    ctl := p.ctl.teardown
    dat := p.dat.teardown }

theorem State.clearSession_eq (s : State) (l : LinkId) : s.clearSession l = s.modPort l LinkPort.closed := rfl

/-- The clearing of a session reads of the Credit Unit in-use alone, and nothing of the unacknowledged list. -/
theorem LinkPort.closed_of_bare {p q : LinkPort} (e : p.bare = q.bare) :
    p.closed = { q.closed with ctl := p.ctl.teardown, dat := p.dat.teardown } :=
  (congrArg (fun b : LinkPort => { b.closed with ctl := p.ctl.teardown, dat := p.dat.teardown }) e :)

/-- The port of a link after its entry to FAULT, from the port before and the Credit Unit with in-use kept. -/
def LinkPort.faulted (p : LinkPort) (reason : FaultReason) (ctl dat : CreditClass) : LinkPort :=
  { p.closed with
    state := .fault, lastFault := reason, holdTimer := some p.cfg.holdDownUs
    ctl := ctl.teardown, dat := dat.teardown
    counters := if p.state = .active then { p.counters with linkDowns := p.counters.linkDowns + 1 } else p.counters }

/-- What an entry to FAULT leaves meets the statement of it. -/
theorem State.faultedBy_of {s t : State} {l : LinkId} {reason : FaultReason} {ctl dat : CreditClass} (stripped : s.Stripped t l)
    (elsewhere : s.SameElsewhere t) (port : t.port l = (s.port l).faulted reason ctl dat)
    (other : (t.port l.other).state = (s.port l.other).state ∧ (t.port l.other).rx = (s.port l.other).rx ∧
      (t.port l.other).tx = (s.port l.other).tx)
    (down : (s.port l).state = .active → t.flag (.linkDown l) = true) : s.FaultedBy t l reason := by
  have counters : (t.port l).counters.linkDowns =
      if (s.port l).state = .active then (s.port l).counters.linkDowns + 1 else (s.port l).counters.linkDowns := by
    rw [port, LinkPort.faulted]
    split <;> rfl
  have session : ∀ q : LinkPort, q = (s.port l).faulted reason ctl dat →
      q.tx.unacked = [] ∧ q.tx.line = .none ∧ q.tx.nextSeq = 0 ∧ q.tx.replay = none ∧ q.tx.replayCount = 0 ∧
      q.tx.held = none ∧ q.tx.replayTimer = none ∧ q.tx.idleTimer = none ∧ q.tx.liveWindow = (s.port l).tx.liveWindow ∧
      q.rx = .reset ∧ q.ctl.CountsZero ∧ q.dat.CountsZero ∧ q.ctl.live = 0 ∧ q.dat.live = 0 ∧
      q.ctl.due = false ∧ q.dat.due = false ∧ q.ctl.stallTimer = none ∧ q.dat.stallTimer = none ∧
      q.align = .none ∧ q.validRun = 0 ∧ q.invalidRun = 0 ∧ q.hailTimer = none ∧ q.greetTimer = none ∧
      q.silenceTimer = none ∧ q.realignTimer = none ∧ q.refreshTimer = none ∧
      q.partner = (s.port l).partner ∧ q.cfg = (s.port l).cfg := by
    rintro q rfl
    refine ⟨rfl, rfl, rfl, rfl, rfl, rfl, rfl, rfl, rfl, rfl, ⟨rfl, rfl, rfl, rfl⟩, ⟨rfl, rfl, rfl, rfl⟩, rfl, rfl, rfl, rfl, rfl, rfl,
      rfl, rfl, rfl, rfl, rfl, rfl, rfl, rfl, rfl, rfl⟩
  obtain ⟨unacked, line, nextSeq, replay, replayCount, held, replayTimer, idleTimer, liveWindow, rx, ctlZero, datZero, ctlLive, datLive,
    ctlDue, datDue, ctlStall, datStall, align, validRun, invalidRun, hailTimer, greetTimer, silenceTimer, realignTimer, refreshTimer,
    partner, cfg⟩ := session _ port
  refine ⟨by rw [port]; rfl, by rw [port]; rfl, by rw [port]; rfl, ?_, stripped.follows⟩
  refine ⟨by simp [stripped.queues], by simp [stripped.queues], unacked, line, nextSeq, replay, replayCount, held, replayTimer, idleTimer,
    liveWindow, rx, ctlZero, datZero, ctlLive, datLive, ctlDue, datDue, ctlStall, datStall, align, validRun, invalidRun, hailTimer,
    greetTimer, silenceTimer, realignTimer, refreshTimer, partner, cfg, stripped.filling, fun h mem out r hr => ?_, stripped.others,
    stripped.freed, stripped.count, counters, down, fun m => (stripped.follows.1 m).1, fun m => (stripped.follows.2 m).1, fun c => ?_,
    fun c => ?_, other.1, other.2.1, other.2.2, elsewhere, stripped.cells⟩
  · have left : t.record h = r.shed l := by rw [stripped.dropped h out mem, hr]; rfl
    exact ⟨fun host others => left.trans (Record.shed_of_alone host others), fun held => left.trans (Record.shed_of_held held)⟩
  · simp [stripped.queues]
  · have ne : l.other ≠ l := by cases l <;> simp [LinkId.other]
    simp [stripped.queues, ne]

/-- The port at the beginning of the teardown on the way to FAULT. -/
def LinkPort.toFault (reason : FaultReason) (p : LinkPort) : LinkPort :=
  { p with state := .fault, lastFault := reason }

/-- An entry to FAULT: the steps of its teardown, the session cleared, LINK_DOWNS where the link was in ACTIVE, the hold-down timer. -/
theorem State.enterFault_eq (s : State) (l : LinkId) (reason : FaultReason) :
    s.enterFault l reason =
      State.modPort
        (if (s.port l).state = .active then
          ((((s.modPort l (LinkPort.toFault reason)).cleared l).modPort l LinkPort.closed).countLink l .linkDowns).raise (.linkDown l)
        else ((s.modPort l (LinkPort.toFault reason)).cleared l).modPort l LinkPort.closed) l
        fun p => { p with holdTimer := some p.cfg.holdDownUs } := by
  unfold State.enterFault State.teardown
  dsimp only
  rw [State.modPort_modPort]
  by_cases active : (s.port l).state = .active
  · rw [if_pos active, if_pos ((State.isActive_iff _ l).2 (by simpa using active))]; rfl
  · rw [if_neg active, if_neg fun on => active (by simpa using (State.isActive_iff _ l).1 on)]; rfl

theorem State.flag_cmdDone_raise_linkDown (s : State) (l : LinkId) : (s.raise (.linkDown l)).flag .cmdDone = s.flag .cmdDone := by
  cases l <;> simp [State.raise, State.flag, Event.bit, Event.linkDown]

/-- The count of a fall out of ACTIVE, with its event. -/
def State.noteDown (s : State) (l : LinkId) : State :=
  (s.countLink l .linkDowns).raise (.linkDown l)

theorem State.port_noteDown (s : State) (l k : LinkId) :
    (s.noteDown l).port k =
      if k = l then
        { s.port k with counters := { (s.port k).counters with linkDowns := (s.port k).counters.linkDowns + 1 } }
      else s.port k := by
  have counted : (s.noteDown l).port k =
      (s.modPort l fun p => { p with counters := p.counters.set .linkDowns (p.counters.get .linkDowns + 1) }).port k := by
    cases k <;> rfl
  rw [counted, State.port_modPort_cases]
  rfl

theorem State.Stripped.noteDown {s t : State} {l : LinkId} (a : s.Stripped t l) : s.Stripped (t.noteDown l) l :=
  a.same_after (t.countLink_buf l _) (t.countLink_queues l _) (t.countLink_flush l _) (t.countLink_hcu l _)
    (t.countLink_ev_counters l _) ((State.flag_cmdDone_raise_linkDown _ l).trans (t.flag_cmdDone_countLink l _)) fun k c => by
      rw [t.port_noteDown]
      split
      · cases c <;> rfl
      · rfl

/-- The steps and the clearing of the session on the way to FAULT. -/
theorem State.closed_parts (s : State) (l : LinkId) (reason : FaultReason) {u : State}
    (hu : u = ((s.modPort l (LinkPort.toFault reason)).cleared l).modPort l LinkPort.closed) :
    s.Stripped u l ∧
      (∃ ctl dat : CreditClass, u.port l =
        { ((s.port l).toFault reason).closed with ctl := ctl.teardown, dat := dat.teardown }) ∧
      ∀ k, k ≠ l → (u.port k).bare = (s.port k).bare ∧ (u.port k).tx = (s.port k).tx := by
  let x := s.modPort l (LinkPort.toFault reason)
  obtain ⟨bare, tx⟩ := x.port_cleared l
  subst hu
  refine ⟨State.Stripped.modPort_before (g := LinkPort.toFault reason) rfl rfl (fun c => by cases c <;> rfl)
    ((x.cleared_stripped l).modPort_after _ fun p c => by cases c <;> rfl),
    ⟨((x.cleared l).port l).ctl, ((x.cleared l).port l).dat, ?_⟩, fun k ne => ?_⟩
  · rw [State.port_modPort, LinkPort.closed_of_bare (bare l), State.port_modPort]
  · have before : x.port k = s.port k := by rw [State.port_modPort_cases, if_neg ne]
    rw [State.port_modPort_cases, if_neg ne, bare, tx k ne, before]
    exact ⟨rfl, rfl⟩

/-- What an entry to FAULT leaves. -/
theorem State.enterFault_parts (s : State) (l : LinkId) (reason : FaultReason) :
    s.Stripped (s.enterFault l reason) l ∧
      (∃ ctl dat, (s.enterFault l reason).port l = (s.port l).faulted reason ctl dat) ∧
      (∀ k, k ≠ l → ((s.enterFault l reason).port k).bare = (s.port k).bare ∧ ((s.enterFault l reason).port k).tx = (s.port k).tx) ∧
      ((s.port l).state = .active → (s.enterFault l reason).flag (.linkDown l) = true) := by
  obtain ⟨u, hu⟩ : ∃ u, u = ((s.modPort l (LinkPort.toFault reason)).cleared l).modPort l LinkPort.closed := ⟨_, rfl⟩
  obtain ⟨stripped, ⟨ctl, dat, port⟩, others⟩ := s.closed_parts l reason hu
  have timed : ∀ (p : LinkPort) (c : Cls), (({ p with holdTimer := some p.cfg.holdDownUs } : LinkPort).credit c).inUse = (p.credit c).inUse :=
    fun p c => by cases c <;> rfl
  rw [s.enterFault_eq l reason, ← hu]
  by_cases active : (s.port l).state = .active
  · rw [if_pos active]
    refine ⟨stripped.noteDown.modPort_after _ timed, ⟨ctl, dat, ?_⟩, fun k ne => ?_, fun _ => ?_⟩
    · have down := u.port_noteDown l l
      rw [if_pos rfl, port] at down
      rw [State.port_modPort, LinkPort.faulted, if_pos active]
      exact congrArg (fun p : LinkPort => { p with holdTimer := some p.cfg.holdDownUs }) down
    · have down := u.port_noteDown l k
      rw [if_neg ne] at down
      rw [State.port_modPort_cases, if_neg ne, ← State.noteDown, down]
      exact others k ne
    · rw [State.flag, State.modPort_ev]
      exact State.flag_raise _ _
  · rw [if_neg active]
    refine ⟨stripped.modPort_after _ timed, ⟨ctl, dat, ?_⟩, fun k ne => ?_, fun on => absurd on active⟩
    · rw [State.port_modPort, port, LinkPort.faulted, if_neg active]; rfl
    · rw [State.port_modPort_cases, if_neg ne]
      exact others k ne

/-! ## The GRANTs that follow -/

/-- An operation that changes at most what GRANTs are due of links in ACTIVE. -/
structure State.OnlyDue (s t : State) : Prop where
  buf : t.buf = s.buf
  queues : t.queues = s.queues
  flush : t.flush = s.flush
  hcu : t.hcu = s.hcu
  ev : t.ev = s.ev
  due : ∀ k, t.port k =
    { s.port k with
      ctl := { (s.port k).ctl with due := (t.port k).ctl.due }, dat := { (s.port k).dat with due := (t.port k).dat.due } }
  quiet : ∀ k, (s.port k).state ≠ .active → t.port k = s.port k

section
variable {s t u : State}

theorem State.OnlyDue.refl (s : State) : s.OnlyDue s :=
  ⟨rfl, rfl, rfl, rfl, rfl, fun _ => rfl, fun _ _ => rfl⟩

theorem State.OnlyDue.trans (a : s.OnlyDue t) (b : t.OnlyDue u) : s.OnlyDue u where
  buf := b.buf.trans a.buf
  queues := b.queues.trans a.queues
  flush := b.flush.trans a.flush
  hcu := b.hcu.trans a.hcu
  ev := b.ev.trans a.ev
  due k := by
    have first := a.due k
    have second := b.due k
    rw [first] at second
    exact second
  quiet k off := by
    have state : (t.port k).state ≠ .active := by rw [a.due k]; exact off
    rw [b.quiet k state, a.quiet k off]

theorem State.OnlyDue.inUse (a : s.OnlyDue t) (k : LinkId) (c : Cls) : ((t.port k).credit c).inUse = ((s.port k).credit c).inUse := by
  rw [a.due k]; cases c <;> rfl

theorem State.noteGrant_onlyDue (s b : State) (l : LinkId) (c : Cls) : s.OnlyDue (s.noteGrant b l c) := by
  unfold State.noteGrant
  split
  · rename_i on
    have port : ∀ k, (s.makeDue l c).port k = if k = l then (s.port k).modCredit c (fun x => { x with due := true }) else s.port k :=
      fun k => by rw [State.makeDue, State.modCredit, State.port_modPort_cases]
    refine ⟨s.modCredit_buf l c _, s.modCredit_queues l c _, s.modCredit_flush l c _, s.modCredit_hcu l c _, s.modCredit_ev l c _,
      fun k => ?_, fun k off => ?_⟩
    · rw [port]
      split
      · cases c <;> rfl
      · rfl
    · rw [port, if_neg]
      rintro rfl
      exact off ((s.isActive_iff k).1 on.1)
  · exact .refl s

theorem State.noteGrants_onlyDue (s b : State) : s.OnlyDue (s.noteGrants b) :=
  (((s.noteGrant_onlyDue b .a .control).trans (State.noteGrant_onlyDue _ b .a .data)).trans
    (State.noteGrant_onlyDue _ b .b .control)).trans (State.noteGrant_onlyDue _ b .b .data)

theorem State.Stripped.onlyDue {l : LinkId} (a : s.Stripped t l) (b : t.OnlyDue u) : s.Stripped u l :=
  a.same_after b.buf b.queues b.flush b.hcu (by rw [b.ev]) (by rw [State.flag, b.ev]; rfl) b.inUse

end

/-- An entry to FAULT with the GRANTs that it makes due on the other link. -/
theorem State.enterFault_faultedBy (s b : State) (l : LinkId) (reason : FaultReason) :
    s.FaultedBy ((s.enterFault l reason).noteGrants b) l reason := by
  obtain ⟨stripped, ⟨ctl, dat, port⟩, others, down⟩ := s.enterFault_parts l reason
  have grants := (s.enterFault l reason).noteGrants_onlyDue b
  have ne : l.other ≠ l := by cases l <;> simp [LinkId.other]
  obtain ⟨bare, tx⟩ := others l.other ne
  have off : ((s.enterFault l reason).port l).state ≠ .active := by rw [port]; nofun
  refine State.faultedBy_of (stripped.onlyDue grants) ((s.enterFault_same l reason).trans (State.noteGrants_same _ b))
    ((grants.quiet l off).trans port) ?_ fun active => ?_
  · rw [grants.due l.other]
    exact ⟨(congrArg LinkPort.state bare :), (congrArg LinkPort.rx bare :), tx⟩
  · rw [State.flag, grants.ev]
    exact down active

end Sys2Proof.Machine
end

