-- ==== Sys2Proof/Proofs/PoisonedChoices.lean ====
section
/-! SUPPORT. The choices of an arbiter at poisoned frames, and at a CONTROL head without credit (sections 5.2, 5.3 and 5.6). -/

namespace Sys2Proof.Machine

section
variable {s : State} {l : LinkId} {c : Cls} {h : Nat} {rest : List Nat} {r : Record}

/-! ## What may be sent -/

/-- A free line with no NAK, ACK or GRANT due: the replay comes first, then the heads of the queues. -/
structure State.NothingDue (s : State) (l : LinkId) : Prop where
  free : s.lineFree l = true
  nak : (s.port l).rx.nakDue = false
  ack : (s.port l).rx.ackDue = false
  control : (s.port l).ctl.due = false
  data : (s.port l).dat.due = false

theorem State.NothingDue.candidate_replay (a : s.NothingDue l) (e : s.nextReplay l = some h) : s.candidate l false = some (.replay h) := by
  unfold State.candidate
  simp [a.nak, a.ack, a.control, a.data, e]

/-- The next replay frame is the first of the list at or after the replay point. -/
theorem State.nextReplay_first {n k : Byte} {xs ys : List Nat} (replay : (s.port l).tx.replay = some n)
    (list : (s.port l).tx.unacked = xs ++ h :: ys) (seq : s.seqOn l h = some k) (after : (k - n).toNat < 128)
    (before : ∀ x ∈ xs, ∀ j, s.seqOn l x = some j → 128 ≤ (j - n).toNat) : s.nextReplay l = some h := by
  have skip : xs.find? (s.handleAtOrAfter l n) = none := List.find?_eq_none.2 fun x hx => by
    unfold State.handleAtOrAfter
    cases e : s.seqOn l x with
    | none => exact Bool.false_ne_true
    | some j => simpa [atOrAfter] using before x hx j e
  have found : s.handleAtOrAfter l n h = true := by
    unfold State.handleAtOrAfter
    rw [seq]
    exact decide_eq_true after
  unfold State.nextReplay
  rw [replay, list]
  dsimp only
  rw [List.find?_append, skip, List.find?_cons_of_pos found]
  rfl

theorem State.nextReplay_none (replay : (s.port l).tx.replay = none) : s.nextReplay l = none := by
  unfold State.nextReplay
  rw [replay]

theorem State.eligibleHead_of_room (hq : (s.queue (.tx l c)).entries = h :: rest) (hr : s.record h = some r)
    (replay : (s.port l).tx.replay = none) (room : (s.port l).tx.unacked.length < (s.port l).tx.liveWindow)
    (credit : r.cells.length ≤ ((s.port l).credit c).available) : s.eligibleHead l c = some h := by
  have window : (s.port l).windowOpen = true := by simp [LinkPort.windowOpen, replay, room]
  unfold State.eligibleHead
  rw [hq]
  dsimp only
  rw [hr]
  exact if_pos ⟨window, credit⟩

/-- A head whose cells exceed the credit may not be sent. -/
theorem State.eligibleHead_without_credit
    (short : ∀ g others o, (s.queue (.tx l c)).entries = g :: others → s.record g = some o →
      ((s.port l).credit c).available < o.cells.length) : s.eligibleHead l c = none := by
  cases e : s.eligibleHead l c with
  | none => rfl
  | some g =>
    obtain ⟨others, o, hq, ho, -, credit⟩ := State.eligibleHead_some e
    exact absurd credit (Nat.not_le.2 (short g others o hq ho))

/-- The candidate is the head of a class that may be sent, of DATA where the CONTROL head lacks credit. -/
theorem State.NothingDue.candidate_head (a : s.NothingDue l) (replay : (s.port l).tx.replay = none) (head : s.eligibleHead l c = some h)
    (control : c = .data → s.eligibleHead l .control = none) : s.candidate l false = some (.head c h) := by
  have none := State.nextReplay_none replay
  unfold State.candidate
  cases c with
  | control => simp [a.nak, a.ack, a.control, a.data, none, head]
  | data => simp [a.nak, a.ack, a.control, a.data, none, control rfl, head]

/-! ## The choice -/

/-- The choice with its first candidate: there is always fuel for one. -/
theorem State.choose_eq (s : State) (l : LinkId) :
    s.choose l = State.arbitrate
      ((s.queue (.tx l .control)).entries.length + (s.queue (.tx l .data)).entries.length + 1) l false s := rfl

/-- A poisoned replay frame ends the session (R104). -/
theorem State.choose_poisoned_replay (free : s.lineFree l = true) (e : s.candidate l false = some (.replay h))
    (poisoned : s.isPoisoned h = true) : s.choose l = (s.enterFault l .replayDataLost).noteGrants s := by
  rw [State.choose_eq, State.arbitrate, if_pos free, e]
  exact if_pos poisoned

/-- A sound head goes out. -/
theorem State.choose_sound_head (free : s.lineFree l = true) (e : s.candidate l false = some (.head c h))
    (sound : s.isPoisoned h = false) : s.choose l = s.beginFirst l c h := by
  rw [State.choose_eq, State.arbitrate, if_pos free, e]
  exact if_neg (by rw [sound]; exact Bool.false_ne_true)

/-- A queue without its head lowers by 1 the heads that the arbiter could drop. -/
theorem State.arbiterFuel_poisonDrop (hq : (s.queue (.tx l c)).entries = h :: rest) :
    s.arbiterFuel l = (s.poisonDrop l c h).arbiterFuel l + 1 := by
  have queue : ∀ q, (s.poisonDrop l c h).queue q = (s.dropHead (.tx l c) h).queue q := fun q => by
    rw [State.queue, State.poisonDrop, (State.noteGrants_onlyDue _ s).queues, State.countLink_queues]; rfl
  unfold State.arbiterFuel
  rw [queue, queue, State.queue_dropHead, State.queue_dropHead]
  cases c with
  | control => simp [hq]; omega
  | data => simp [hq]; omega

/-- A poisoned head is dropped, and the choice made again (R94). -/
theorem State.choose_poisoned_head (free : s.lineFree l = true) (e : s.candidate l false = some (.head c h))
    (hq : (s.queue (.tx l c)).entries = h :: rest) (poisoned : s.isPoisoned h = true) :
    s.choose l = (s.poisonDrop l c h).choose l := by
  have unfolded : s.choose l = State.arbitrate ((s.poisonDrop l c h).arbiterFuel l + 1) l false s := by
    rw [State.choose, s.arbiterFuel_poisonDrop hq]
  rw [unfolded, State.arbitrate, if_pos free, e]
  exact if_pos poisoned

/-! ## What a drop and a beginning leave -/

/-- What the drop of a poisoned head leaves. -/
theorem State.poisonDrop_spec (free : s.lineFree l = true) (hq : (s.queue (.tx l c)).entries = h :: rest) {t : State}
    (ht : t = s.poisonDrop l c h) :
    t.lineFree l = true ∧ (t.queue (.tx l c)).entries = rest ∧ (∀ q, q ≠ .tx l c → t.queue q = s.queue q) ∧
      (t.port l).counters = { (s.port l).counters with poisonDrops := (s.port l).counters.poisonDrops + 1 } ∧ t.flag .drop = true ∧
      (t.port l).tx = (s.port l).tx ∧ s.SameCells t ∧ s.FlushFollows t (s.Marks (.tx l c) [h]) ∧
      s.HoldersRemoved t l [h] ∧ s.ChainsFreed t (s.heldByLinkAlone l [h]) := by
  obtain ⟨u, hu⟩ : ∃ u, u = (s.dropHead (.tx l c) h).countLink l .poisonDrops := ⟨_, rfl⟩
  obtain ⟨queue, others, -, tx, state, counters, drop, removed, freed, cells, follows⟩ :=
    s.countedDrop_spec l c h (n := .poisonDrops) rfl hq hu
  have grants : u.OnlyDue t := by rw [ht, State.poisonDrop, ← hu]; exact u.noteGrants_onlyDue s
  have record : t.record = u.record := by unfold State.record; rw [grants.buf]
  have queues : t.queue = u.queue := by unfold State.queue; rw [grants.queues]
  have ev : ∀ e, t.flag e = u.flag e := fun e => by rw [State.flag, grants.ev]; rfl
  have same_tx : (t.port l).tx = (u.port l).tx := by rw [grants.due l]
  have same_state : (t.port l).state = (u.port l).state := by rw [grants.due l]
  obtain ⟨active, line⟩ := (s.lineFree_iff l).1 free
  refine ⟨(t.lineFree_iff l).2 ⟨by rw [same_state, state, active], by rw [same_tx, tx, line]⟩, by rw [queues]; exact queue,
    fun q ne => by rw [queues]; exact others q ne, ?_, (ev .drop).trans drop, same_tx.trans tx, ?_,
    follows.same_after grants.flush (ev .cmdDone) grants.hcu, ?_, ?_⟩
  · rw [grants.due l]; exact counters
  · rw [State.SameCells, grants.buf]; exact cells
  · rw [State.HoldersRemoved, record]; exact removed
  · obtain ⟨free, lowered⟩ := freed
    exact ⟨by rw [grants.buf, free], fun k d => by rw [grants.inUse, lowered]⟩

/-- A flush follows the beginning of a first transmission. -/
theorem State.beginFirst_follows (s : State) (l : LinkId) (c : Cls) {h : Nat} {r : Record} (hr : s.record h = some r) :
    s.FlushFollows (s.beginFirst l c h) (s.Marks (.tx l c) [h]) := by
  obtain ⟨flush, ev, hcu⟩ := s.popHead_rest (.tx l c)
  let u := (s.popHead (.tx l c)).setLinkHolder l h (.sending (s.port l).tx.nextSeq)
  have uflush : u.flush = s.flush := flush
  have begun : s.beginFirst l c h =
      (u.entryLeft (.tx l c) h).modTx l fun t => { t with line := .frame (txFrame h r (s.port l).tx.nextSeq false), idleTimer := none } := by
    unfold State.beginFirst; rw [hr]; rfl
  have follows := (u.entryLeft_follows (.tx l c) h).same_before uflush
    (show u.flag .cmdDone = s.flag .cmdDone from (congrArg (fun e : EventUnit => e.flags.getLsbD Event.cmdDone.bit) ev :)) hcu
  rw [begun]
  refine (follows.congr ?_).same_after (by simp [State.modTx]) (by simp [State.modTx, State.flag]) (by simp [State.modTx])
  rw [State.Marks, State.Marks, uflush]

end

/-- Settles O44: a poisoned replay frame by the teardown of its entry to FAULT, a head by the candidate that it is. -/
theorem poisonedChoice : Obligations.PoisonedChoice := by
  unfold Obligations.PoisonedChoice
  intro s l free p nak ack control data
  have nothing : s.NothingDue l := ⟨free, nak, ack, control, data⟩
  have poisonedOf : ∀ h r, s.record h = some r → s.isPoisoned h = r.poisoned := fun h r hr => by
    unfold State.isPoisoned; rw [hr]
  refine ⟨fun n xs h ys r k replay list hr poisoned seq after before => ?_, fun c h rest r replay hq hr room credit short => ?_⟩
  · have candidate := nothing.candidate_replay (State.nextReplay_first replay list seq after before)
    rw [State.choose_poisoned_replay free candidate ((poisonedOf h r hr).trans poisoned)]
    exact s.enterFault_faultedBy s l _
  · have candidate := nothing.candidate_head replay (State.eligibleHead_of_room hq hr replay room credit)
      fun data => State.eligibleHead_without_credit (short data)
    refine ⟨fun poisoned => ?_, fun sound => ?_⟩
    · have dropped := State.choose_poisoned_head free candidate hq ((poisonedOf h r hr).trans poisoned)
      exact ⟨_, dropped, State.poisonDrop_spec free hq rfl⟩
    · obtain ⟨record, queue, -, -, line, -, -⟩ := s.beginFirst_parts l c h r hr
      rw [State.choose_sound_head free candidate ((poisonedOf h r hr).trans sound)]
      refine ⟨by rw [line, if_pos rfl], ?_, fun q ne => ?_, by rw [record, if_pos rfl], s.beginFirst_follows l c hr⟩
      · rw [queue, State.queue_popHead, if_pos rfl, hq]; rfl
      · rw [queue, State.queue_popHead, if_neg ne]

end Sys2Proof.Machine
end

