-- ==== Sys2Proof/Proofs/Ruled.lean ====
section
/-! SUPPORT. What the laws of the settings, of the queues' bounds and of the flush read of a state (`State.ruled`), and what it is
for a step to keep the three laws (`State.Keeps`); the operations of the links, up to what follows every step. -/

namespace Sys2Proof.Machine

/-! ## What the laws read -/

/-- The parts of a state that the laws of settings, queues and flush read. -/
structure Ruled where
  cfgA : LinkCfg
  cfgB : LinkCfg
  interval : Nat
  nodeAddr : Byte
  queues : Queues
  active : Option (QueueId × Nat)
  busy : Bool

/-- What the three laws read of a state. -/
def State.ruled (s : State) : Ruled where
  cfgA := s.portA.cfg
  cfgB := s.portB.cfg
  interval := s.scrub.interval
  nodeAddr := s.nodeAddr
  queues := s.queues
  active := s.flush.active
  busy := s.hcu.busy

/-- A step from one state to another keeps the ranges of the settings, the bounds of the queues and the law of the flush. -/
structure State.Keeps (s t : State) : Prop where
  settings : s.SettingsInRange → t.SettingsInRange
  bounded : s.QueuesBounded → t.QueuesBounded
  marked : s.FlushMarked → t.FlushMarked

section
variable {s t u : State}

theorem State.Keeps.refl (s : State) : s.Keeps s := ⟨id, id, id⟩

theorem State.Keeps.trans (h : s.Keeps t) (k : t.Keeps u) : s.Keeps u :=
  ⟨k.settings ∘ h.settings, k.bounded ∘ h.bounded, k.marked ∘ h.marked⟩

theorem State.queue_of_queues (e : t.queues = s.queues) (q : QueueId) : t.queue q = s.queue q :=
  congrArg (Queues.get · q) e

/-- The ranges of the settings read no queue's limit and no queue's entries. -/
theorem State.SettingsInRange.congr (h : s.SettingsInRange) (cfgA : t.portA.cfg = s.portA.cfg) (cfgB : t.portB.cfg = s.portB.cfg)
    (interval : t.scrub.interval = s.scrub.interval) (host : ∀ c, t.queues.hostCfg c = s.queues.hostCfg c)
    (nodeAddr : t.nodeAddr = s.nodeAddr) : t.SettingsInRange := by
  simp only [State.SettingsInRange, cfgA, cfgB, interval, host, nodeAddr]
  exact h

/-- A flush that goes on, its mark in its queue. -/
theorem State.FlushMarked.congr (h : s.FlushMarked) (active : t.flush.active = s.flush.active) (busy : t.hcu.busy = s.hcu.busy)
    (mark : ∀ q m, s.flush.active = some (q, m) → m ∈ (s.queue q).entries → m ∈ (t.queue q).entries) : t.FlushMarked := by
  obtain ⟨busy_iff, marked⟩ := h
  exact ⟨by rw [busy, active]; exact busy_iff, fun q m e => mark q m (active.symm.trans e) (marked q m (active.symm.trans e))⟩

/-- An idle unit with no flush in progress. -/
theorem State.FlushMarked.of_idle (active : t.flush.active = none) (busy : t.hcu.busy = false) : t.FlushMarked :=
  ⟨by simp [active, busy], fun q m e => by rw [active] at e; cases e⟩

theorem State.FlushMarked.idle (h : s.FlushMarked) (busy : s.hcu.busy = false) : s.flush.active = none := by
  simpa [busy] using h.1

/-- A step that changes nothing of what the laws read keeps them. -/
theorem State.Keeps.of_ruled (h : t.ruled = s.ruled) : s.Keeps t where
  settings hs := hs.congr (congrArg Ruled.cfgA h) (congrArg Ruled.cfgB h) (congrArg Ruled.interval h)
    (fun c => congrArg (Queues.hostCfg · c) (congrArg Ruled.queues h)) (congrArg Ruled.nodeAddr h)
  bounded hs q := by rw [State.queue_of_queues (congrArg Ruled.queues h) q]; exact hs q
  marked hs := hs.congr (congrArg Ruled.active h) (congrArg Ruled.busy h) fun q m _ mem => by
    rw [State.queue_of_queues (congrArg Ruled.queues h) q]; exact mem

theorem State.Keeps.then_ruled (h : s.Keeps t) (e : u.ruled = t.ruled) : s.Keeps u := h.trans (.of_ruled e)

/-- A step under a condition, which acts on nothing where the condition does not hold. -/
theorem State.Keeps.ite {p : Prop} [Decidable p] (h : p → s.Keeps t) : s.Keeps (if p then t else s) := by
  split
  · rename_i hp; exact h hp
  · exact .refl s

end

/-! ## What changes nothing that the laws read -/

theorem State.ruled_modPort (s : State) (l : LinkId) (f : LinkPort → LinkPort) (h : (f (s.port l)).cfg = (s.port l).cfg) :
    (s.modPort l f).ruled = s.ruled := by
  cases l
  · exact congrArg (fun c => { s.ruled with cfgA := c }) h
  · exact congrArg (fun c => { s.ruled with cfgB := c }) h

@[simp] theorem State.ruled_modTx (s : State) (l : LinkId) (f : Transmitter → Transmitter) : (s.modTx l f).ruled = s.ruled :=
  s.ruled_modPort l _ rfl

@[simp] theorem State.ruled_modRx (s : State) (l : LinkId) (f : Receiver → Receiver) : (s.modRx l f).ruled = s.ruled :=
  s.ruled_modPort l _ rfl

@[simp] theorem State.ruled_modCredit (s : State) (l : LinkId) (c : Cls) (f : CreditClass → CreditClass) :
    (s.modCredit l c f).ruled = s.ruled :=
  s.ruled_modPort l _ (LinkPort.modCredit_cfg _ c f)

@[simp] theorem State.ruled_raise (s : State) (e : Event) : (s.raise e).ruled = s.ruled := rfl

@[simp] theorem State.ruled_answer (s : State) (c : ResultCode) (r : Results) : (s.answer c r).ruled = s.ruled := rfl

@[simp] theorem State.ruled_modRecord (s : State) (h : Nat) (f : Record → Record) : (s.modRecord h f).ruled = s.ruled := rfl

@[simp] theorem State.ruled_countPart (s : State) (c : PartCounter) : (s.countPart c).ruled = s.ruled := by
  simp [State.ruled]

@[simp] theorem State.ruled_countLink (s : State) (l : LinkId) (c : LinkCounter) : (s.countLink l c).ruled = s.ruled := by
  unfold State.countLink
  dsimp only
  split
  · exact s.ruled_modPort l _ rfl
  · exact s.ruled_modPort l _ rfl

@[simp] theorem State.ruled_writeWord (s : State) (p : Nat) (w : CellWord) : (s.writeWord p w).ruled = s.ruled := rfl

@[simp] theorem State.ruled_noteRead (s : State) (k : Reader) (p : Nat) : (s.noteRead k p).ruled = s.ruled := by
  simp [State.ruled]

@[simp] theorem State.ruled_freeRecord (s : State) (h : Nat) : (s.freeRecord h).ruled = s.ruled := by
  unfold State.freeRecord State.reportFree
  split
  · rfl
  · split
    · rfl
    · exact State.ruled_modCredit _ _ _ _

@[simp] theorem State.ruled_removeHolder (s : State) (h : Nat) (clear : Record → Record) : (s.removeHolder h clear).ruled = s.ruled := by
  unfold State.removeHolder
  split
  · rfl
  · split
    · exact s.ruled_freeRecord h
    · rfl

@[simp] theorem State.ruled_removeLinkHolder (s : State) (l : LinkId) (h : Nat) : (s.removeLinkHolder l h).ruled = s.ruled :=
  s.ruled_removeHolder h _

/-- A fold of a step that changes nothing that the laws read. -/
theorem State.ruled_foldl {α : Type} (f : State → α → State) (hf : ∀ (t : State) (a : α), (f t a).ruled = t.ruled) (xs : List α)
    (s : State) : (xs.foldl f s).ruled = s.ruled := by
  induction xs generalizing s with
  | nil => rfl
  | cons a xs ih => exact (ih _).trans (hf s a)

/-! ## Entries that leave a queue -/

/-- What the laws read once an entry has left a queue, from what they read before. -/
theorem State.ruled_entryLeft {s t : State} (h : t.ruled = s.ruled) (q : QueueId) (g : Nat) :
    (t.entryLeft q g).ruled = (s.entryLeft q g).ruled := by
  have active : t.flush.active = s.flush.active := congrArg Ruled.active h
  rw [State.entryLeft_spec, State.entryLeft_spec, active]
  split
  · exact congrArg (fun r => { r with active := none, busy := false }) h
  · exact h

theorem State.ruled_popHead (s : State) (q : QueueId) : (s.popHead q).ruled = (s.setEntries q (s.queue q).entries.tail).ruled := by
  cases q with
  | host c => rfl
  | tx l c => exact State.ruled_modCredit _ l c _

/-- The entries of a queue are no setting. -/
theorem State.SettingsInRange.setEntries {s : State} (hs : s.SettingsInRange) (q : QueueId) (es : List Nat) :
    (s.setEntries q es).SettingsInRange :=
  hs.congr rfl rfl rfl (fun c => by cases c <;> simp [State.setEntries, Queues.hostCfg]) rfl

/-- The completion of a flush changes no setting and no queue. -/
theorem State.entryLeft_settings_queue (s : State) (q : QueueId) (h : Nat) :
    (s.SettingsInRange → (s.entryLeft q h).SettingsInRange) ∧ ∀ r, (s.entryLeft q h).queue r = s.queue r := by
  rw [State.entryLeft_spec]
  split
  · exact ⟨fun hs => hs.congr rfl rfl rfl (fun _ => rfl) rfl, fun _ => rfl⟩
  · exact ⟨id, fun _ => rfl⟩

/-- The head entry of a queue gone: a flush whose mark it was completes, and any other goes on (R37). -/
theorem State.keeps_entryLeft (s : State) {q : QueueId} {h : Nat} {rest : List Nat} (hq : (s.queue q).entries = h :: rest) :
    s.Keeps ((s.setEntries q rest).entryLeft q h) := by
  obtain ⟨settings, queue⟩ := (s.setEntries q rest).entryLeft_settings_queue q h
  refine ⟨fun hs => settings (hs.setEntries q rest), fun hs r => ?_, fun hs => ?_⟩
  · rw [queue]
    by_cases e : r = q
    · subst e
      have bound := hs r
      rw [hq] at bound
      rw [State.queue_setEntries]
      exact ⟨bound.1, (Nat.le_succ _).trans bound.2⟩
    · rw [State.queue_setEntries_ne _ _ _ _ e]; exact hs r
  · rw [State.entryLeft_spec]
    split
    · exact .of_idle rfl rfl
    · rename_i other
      refine hs.congr rfl rfl fun r m active mem => ?_
      rw [State.mem_setEntries]
      split
      · rename_i e
        subst e
        rw [hq] at mem
        exact (List.mem_cons.1 mem).resolve_left fun e => other (e ▸ active)
      · exact mem

theorem State.ruled_dropHead (s : State) (q : QueueId) (h : Nat) :
    (s.dropHead q h).ruled = ((s.setEntries q (s.queue q).entries.tail).entryLeft q h).ruled := by
  refine State.ruled_entryLeft (Eq.trans ?_ (s.ruled_popHead q)) q h
  cases q
  · exact State.ruled_removeHolder _ h _
  · exact State.ruled_removeHolder _ h _

theorem State.dropHead_keeps (s : State) {q : QueueId} {h : Nat} {rest : List Nat} (hq : (s.queue q).entries = h :: rest) :
    s.Keeps (s.dropHead q h) :=
  (s.keeps_entryLeft hq).then_ruled (by rw [State.ruled_dropHead, hq]; rfl)

/-! ## Entries that join a queue -/

/-- A handle appended where a bounded queue has room. -/
theorem State.Keeps.append {s t : State} (k : s.Keeps t) (q : QueueId) (h : Nat)
    (room : s.QueuesBounded → (t.queue q).entries.length < 256) : s.Keeps (t.append q h) where
  settings hs := (k.settings hs).setEntries q _
  bounded hs r := by
    have bound := k.bounded hs
    by_cases e : r = q
    · subst e
      rw [State.append, State.queue_setEntries]
      exact ⟨(bound r).1, by simpa using room hs⟩
    · rw [State.append, State.queue_setEntries_ne _ _ _ _ e]; exact bound r
  marked hs := (k.marked hs).congr rfl rfl fun r m _ mem => by
    rw [State.append, State.mem_setEntries]
    split
    · rename_i e; subst e; exact List.mem_append_left _ mem
    · exact mem

/-- A queue below its limit has room. -/
theorem State.QueuesBounded.room {s : State} (hs : s.QueuesBounded) {q : QueueId} (h : (s.queue q).full ≠ true) :
    (s.queue q).entries.length < 256 := by
  have limit := (hs q).1.2
  have below : ¬(s.queue q).limit ≤ (s.queue q).entries.length := mt (FrameQueue.full_iff _).2 h
  omega

/-! ## The arbiters, and what follows every step -/

@[simp] theorem State.ruled_noteGrant (s b : State) (l : LinkId) (c : Cls) : (s.noteGrant b l c).ruled = s.ruled := by
  unfold State.noteGrant State.makeDue
  split
  · exact s.ruled_modCredit l c _
  · rfl

@[simp] theorem State.ruled_noteGrants (s b : State) : (s.noteGrants b).ruled = s.ruled := by
  simp [State.noteGrants]

@[simp] theorem State.ruled_refreshStall (s : State) (l : LinkId) (c : Cls) : (s.refreshStall l c).ruled = s.ruled := by
  unfold State.refreshStall
  dsimp only
  split
  · exact s.ruled_modCredit l c _
  · exact s.ruled_modCredit l c _

@[simp] theorem State.ruled_refreshStalls (s : State) : s.refreshStalls.ruled = s.ruled := by
  simp [State.refreshStalls]

@[simp] theorem State.ruled_beginBlock (s : State) (l : LinkId) (b : LineBlock) : (s.beginBlock l b).ruled = s.ruled :=
  s.ruled_modTx l _

theorem State.ruled_beginNak (s : State) (l : LinkId) : (s.beginNak l).ruled = s.ruled := by
  simp [State.beginNak]

theorem State.ruled_beginAck (s : State) (l : LinkId) : (s.beginAck l).ruled = s.ruled := by
  simp [State.beginAck]

theorem State.ruled_beginGrant (s : State) (l : LinkId) (c : Cls) : (s.beginGrant l c).ruled = s.ruled := by
  simp [State.beginGrant, State.decideGrant]

theorem State.ruled_beginResend (s : State) (l : LinkId) (h : Nat) : (s.beginResend l h).ruled = s.ruled := by
  unfold State.beginResend
  split
  · rfl
  · exact s.ruled_beginBlock l _

/-- The beginning of a first transmission takes its head off the queue. -/
theorem State.beginFirst_keeps (s : State) (l : LinkId) (c : Cls) (h : Nat) {rest : List Nat}
    (hq : (s.queue (.tx l c)).entries = h :: rest) : s.Keeps (s.beginFirst l c h) := by
  unfold State.beginFirst
  split
  · exact .refl s
  · refine (s.keeps_entryLeft hq).then_ruled ((State.ruled_beginBlock _ l _).trans (State.ruled_entryLeft ?_ _ h))
    refine (State.ruled_modRecord _ h _).trans ((s.ruled_popHead _).trans ?_)
    rw [hq]; rfl

theorem State.poisonDrop_keeps (s : State) (l : LinkId) (c : Cls) (h : Nat) {rest : List Nat}
    (hq : (s.queue (.tx l c)).entries = h :: rest) : s.Keeps (s.poisonDrop l c h) :=
  (s.dropHead_keeps hq).then_ruled (by simp [State.poisonDrop])

/-! ## Teardown -/

theorem State.ruled_teardownDrop (s : State) (l : LinkId) (h : Nat) : (s.teardownDrop l h).ruled = s.ruled := by
  simp [State.teardownDrop]

theorem State.ruled_clearFilling (s : State) (l : LinkId) : (s.clearFilling l).ruled = s.ruled := by
  unfold State.clearFilling
  split
  · exact s.ruled_freeRecord _
  · rfl

theorem State.ruled_clearSending (s : State) (l : LinkId) : (s.clearSending l).ruled = s.ruled := by
  unfold State.clearSending
  split
  · split
    · rfl
    · exact s.ruled_teardownDrop l _
  · rfl
  · rfl

theorem State.ruled_clearUnacked (s : State) (l : LinkId) : (s.clearUnacked l).ruled = s.ruled :=
  (State.ruled_modTx _ l _).trans (State.ruled_foldl _ (fun t h => t.ruled_teardownDrop l h) _ s)

/-- A queue emptied, head first, each with a drop counted. -/
theorem State.dropAll_keeps (q : QueueId) (hs : List Nat) (s : State) (h : (s.queue q).entries = hs) :
    s.Keeps (hs.foldl (fun t h => (t.dropHead q h).countPart .teardownDrop) s) := by
  induction hs generalizing s with
  | nil => exact .refl s
  | cons a hs ih =>
    refine ((s.dropHead_keeps h).then_ruled (State.ruled_countPart _ .teardownDrop)).trans (ih _ ?_)
    rw [State.queue, State.countPart_queues, ← State.queue, s.queue_dropHead, if_pos rfl, h]
    rfl

theorem State.clearTxQueue_keeps (s : State) (l : LinkId) (c : Cls) : s.Keeps (s.clearTxQueue l c) :=
  State.dropAll_keeps _ _ s rfl

theorem State.ruled_clearSession (s : State) (l : LinkId) : (s.clearSession l).ruled = s.ruled := s.ruled_modPort l _ rfl

theorem State.teardown_keeps (s : State) (l : LinkId) (target : LinkState) : s.Keeps (s.teardown l target) := by
  have start : ((((s.modPort l fun p => { p with state := target }).clearFilling l).clearSending l).clearUnacked l).ruled = s.ruled :=
    (State.ruled_clearUnacked _ l).trans ((State.ruled_clearSending _ l).trans ((State.ruled_clearFilling _ l).trans
      (s.ruled_modPort l _ rfl)))
  have cleared := (((State.Keeps.of_ruled start).trans (State.clearTxQueue_keeps _ l .control)).trans
    (State.clearTxQueue_keeps _ l .data)).then_ruled (State.ruled_clearSession _ l)
  unfold State.teardown
  dsimp only
  split
  · exact cleared.then_ruled (State.ruled_countLink _ l .linkDowns)
  · exact cleared

theorem State.enterFault_keeps (s : State) (l : LinkId) (reason : FaultReason) : s.Keeps (s.enterFault l reason) :=
  ((State.Keeps.of_ruled (s.ruled_modPort l _ rfl)).trans (State.teardown_keeps _ l .fault)).then_ruled
    (State.ruled_modPort _ l _ rfl)

/-! ## The choice -/

theorem State.arbitrate_keeps (fuel : Nat) (l : LinkId) (keep : Bool) (s : State) : s.Keeps (State.arbitrate fuel l keep s) := by
  induction fuel generalizing s with
  | zero => exact .refl s
  | succ fuel ih =>
    unfold State.arbitrate
    split
    · split
      · exact .of_ruled (s.ruled_beginNak l)
      · exact .of_ruled (s.ruled_beginAck l)
      · exact .of_ruled (s.ruled_beginGrant l _)
      · split
        · exact (s.enterFault_keeps l _).then_ruled (State.ruled_noteGrants _ s)
        · exact .of_ruled (s.ruled_beginResend l _)
      · rename_i c h candidate
        obtain ⟨rest, -, hq, -⟩ := State.eligibleHead_some (State.candidate_head candidate)
        split
        · exact (s.poisonDrop_keeps l c h hq).trans (ih _)
        · exact s.beginFirst_keeps l c h hq
      · exact .of_ruled (s.ruled_beginBlock l _)
      · exact .of_ruled (s.ruled_modPort l _ rfl)
    · exact .refl s

theorem State.choose_keeps (s : State) (l : LinkId) (keep : Bool) : s.Keeps (s.choose l keep) :=
  State.arbitrate_keeps _ l keep s

theorem State.chooseBoth_keeps (s : State) (first : LinkId) : s.Keeps (s.chooseBoth first) :=
  (((s.choose_keeps first _).trans (State.choose_keeps _ _ _)).trans (State.choose_keeps _ _ _)).trans (State.choose_keeps _ _ _)

theorem State.arbiters_keeps (s : State) : s.Keeps s.arbiters := by
  unfold State.arbiters
  split
  · exact State.Keeps.trans (t := { s with choices := s.choices + 1 }) (.of_ruled rfl) (State.chooseBoth_keeps _ _)
  · exact s.chooseBoth_keeps _

/-- What follows every step keeps the laws. -/
theorem State.Keeps.settle {s t : State} (h : s.Keeps t) (b : State) : s.Keeps (t.settle b) :=
  ((h.then_ruled (t.ruled_noteGrants b)).trans (State.arbiters_keeps _)).then_ruled (State.ruled_refreshStalls _)

end Sys2Proof.Machine
end

