-- ==== Sys2Proof/Proofs/RuledLinks.lean ====
section
/-! SUPPORT. The receivers, the deliveries and the transmitters: each operation keeps the laws of settings, queues and flush. -/

namespace Sys2Proof.Machine

/-! ## Link states -/

theorem State.ruled_enterHunt (s : State) (l : LinkId) : (s.enterHunt l).ruled = s.ruled := s.ruled_modPort l _ rfl

theorem State.ruled_beginHail (s : State) (l : LinkId) : (s.beginHail l).ruled = s.ruled := s.ruled_modPort l _ rfl

@[simp] theorem State.ruled_hailNow (s : State) (l : LinkId) : (s.hailNow l).ruled = s.ruled := by
  unfold State.hailNow
  split
  · exact s.ruled_beginHail l
  · exact s.ruled_modTx l _

theorem State.ruled_enterGreet (s : State) (l : LinkId) : (s.enterGreet l).ruled = s.ruled :=
  (State.ruled_hailNow _ l).trans (s.ruled_modPort l _ rfl)

theorem State.ruled_makeDue (s : State) (l : LinkId) (c : Cls) : (s.makeDue l c).ruled = s.ruled := s.ruled_modCredit l c _

theorem State.ruled_dueAtEntry (s : State) (l : LinkId) (c : Cls) : (s.dueAtEntry l c).ruled = s.ruled := by
  unfold State.dueAtEntry
  split
  · exact s.ruled_makeDue l c
  · rfl

theorem State.ruled_enterActive (s : State) (l : LinkId) : (s.enterActive l).ruled = s.ruled :=
  (State.ruled_dueAtEntry _ l .data).trans ((State.ruled_dueAtEntry _ l .control).trans (s.ruled_modPort l _ rfl))

/-! ## The receiver -/

@[simp] theorem State.ruled_startNak (s : State) (l : LinkId) : (s.startNak l).ruled = s.ruled := by
  refine s.ruled_modPort l _ ?_
  split <;> rfl

theorem State.ruled_giveBack (s : State) (l : LinkId) (f : RxFrame) : (s.giveBack l f).ruled = s.ruled := by
  simp [State.giveBack, State.unconsume]

theorem State.ruled_failFrame (s : State) (l : LinkId) (f : RxFrame) : (s.failFrame l f).ruled = s.ruled := by
  simp [State.failFrame, State.ruled_giveBack]

@[simp] theorem State.ruled_marker (s : State) (l : LinkId) : (s.marker l).ruled = s.ruled := by
  unfold State.marker
  rw [State.ruled_modRx]
  split
  · exact s.ruled_failFrame l _
  · rfl

@[simp] theorem State.ruled_passOver (s : State) (l : LinkId) : (s.passOver l).ruled = s.ruled := s.ruled_modRx l _

@[simp] theorem State.ruled_countValid (s : State) (l : LinkId) : (s.countValid l).ruled = s.ruled := s.ruled_modPort l _ rfl

theorem State.ruled_takeIn (s : State) (l : LinkId) (header : BitVec 128) : (s.takeIn l header).ruled = s.ruled := by
  unfold State.takeIn State.consume
  exact (State.ruled_modRx _ l _).trans (State.ruled_modCredit _ l _ _)

theorem State.ruled_behind (s : State) (l : LinkId) : (s.behind l).ruled = s.ruled := by
  simp [State.behind]

theorem State.ruled_ahead (s : State) (l : LinkId) : (s.ahead l).ruled = s.ruled := by
  simp [State.ahead]

theorem State.judgeHeader_keeps (s t : State) (l : LinkId) (header : BitVec 128) (h : s.judgeHeader l header = .ok t) : s.Keeps t := by
  unfold State.judgeHeader at h
  dsimp only at h
  split at h
  · split at h
    · cases h; exact s.enterFault_keeps l _
    · split at h
      · cases h; exact s.enterFault_keeps l _
      · split at h
        · cases h
        · cases h; exact .of_ruled (s.ruled_takeIn l header)
  · split at h
    · cases h; exact .of_ruled (s.ruled_behind l)
    · cases h; exact .of_ruled (s.ruled_ahead l)

@[simp] theorem State.ruled_huntBlock (s : State) (l : LinkId) : (s.huntBlock l).ruled = s.ruled := by
  unfold State.huntBlock
  dsimp only
  split
  · rw [State.ruled_enterGreet, State.ruled_countValid]
  · exact s.ruled_countValid l

@[simp] theorem State.ruled_activeBlock (s : State) (l : LinkId) : (s.activeBlock l).ruled = s.ruled := by
  have counted : ((s.countValid l).modPort l fun p => { p with silenceTimer := some p.cfg.silenceTimeoutUs }).ruled = s.ruled :=
    (State.ruled_modPort _ l _ rfl).trans (s.ruled_countValid l)
  unfold State.activeBlock
  dsimp only
  split
  · exact (State.ruled_modPort _ l _ rfl).trans counted
  · exact counted

theorem State.ruled_enterRealigning (s : State) (l : LinkId) : (s.enterRealigning l).ruled = s.ruled :=
  (State.ruled_startNak _ l).trans (s.ruled_modPort l _ rfl)

theorem State.noMarker_keeps (s : State) (l : LinkId) : s.Keeps (s.noMarker l) := by
  have counted : (s.modPort l fun p => { p with validRun := 0, invalidRun := p.invalidRun + 1 }).ruled = s.ruled :=
    s.ruled_modPort l _ rfl
  unfold State.noMarker
  split
  · exact .refl s
  · refine State.Keeps.settle (.of_ruled ?_) s
    split
    · exact (State.ruled_enterRealigning _ l).trans counted
    · exact counted

theorem State.ruled_checkedOut (s : State) (l : LinkId) (kind : BlockKind) : (s.checkedOut l kind).ruled = s.ruled := by
  have marked : ((s.marker l).modPort l fun p => { p with validRun := 0, invalidRun := 0 }).ruled = s.ruled :=
    (State.ruled_modPort _ l _ rfl).trans (s.ruled_marker l)
  unfold State.checkedOut
  split
  · cases kind
    · dsimp only
      split
      · rw [State.ruled_countLink, marked]
      · exact marked
    · dsimp only
      rw [State.ruled_modRx]
      split
      · rw [State.ruled_startNak, State.ruled_countLink, marked]
      · exact marked
  · rfl

theorem State.validControl_keeps (s : State) (l : LinkId) (act : State → State) (hact : ∀ t : State, t.Keeps (act t)) :
    s.Keeps (s.validControl l act) := by
  have counted : ((s.marker l).countValid l).ruled = s.ruled := by simp
  unfold State.validControl
  split
  · exact .refl s
  · exact .refl s
  · exact .of_ruled (by simp)
  · dsimp only
    split
    · exact (State.Keeps.of_ruled ((State.ruled_enterActive _ l).trans counted)).trans (hact _)
    · exact .of_ruled counted
  · exact (State.Keeps.of_ruled (by simp)).trans (hact _)

theorem State.ruled_greetHail (s : State) (l : LinkId) (sender : Byte) (seen : Bool) : (s.greetHail l sender seen).ruled = s.ruled := by
  have entered : ∀ t : State, t.ruled = s.ruled → (if seen ∧ (t.port l).yesSent then t.enterActive l else t).ruled = s.ruled :=
    fun t e => by
      split
      · exact (t.ruled_enterActive l).trans e
      · exact e
  refine entered _ ?_
  split
  · rfl
  · exact (State.ruled_hailNow _ l).trans (s.ruled_modPort l _ rfl)

theorem State.takeHail_keeps (s : State) (l : LinkId) (sender revision : Byte) (seen : Bool) :
    s.Keeps (s.takeHail l sender revision seen) := by
  have counted : s.Keeps ((s.marker l).countValid l) := .of_ruled (by simp)
  have active : s.Keeps ((s.marker l).activeBlock l) := .of_ruled (by simp)
  unfold State.takeHail
  split
  · exact .refl s
  · exact .refl s
  · exact .of_ruled (by simp)
  · dsimp only
    split
    · exact counted.trans (State.enterFault_keeps _ l _)
    · split
      · exact counted.trans (State.enterFault_keeps _ l _)
      · split
        · exact counted.trans (State.enterFault_keeps _ l _)
        · split
          · exact counted.trans (State.enterFault_keeps _ l _)
          · exact counted.then_ruled (State.ruled_greetHail _ l sender seen)
  · dsimp only
    split
    · exact active
    · exact active.trans (State.enterFault_keeps _ l _)

theorem State.validFrame_keeps (s t : State) (l : LinkId) (header : BitVec 128) (h : s.validFrame l header = .ok t) : s.Keeps t := by
  have counted : ((s.marker l).countValid l).ruled = s.ruled := by simp
  have active : ((s.marker l).activeBlock l).ruled = s.ruled := by simp
  unfold State.validFrame at h
  split at h
  · cases h; exact .refl s
  · cases h; exact .refl s
  · cases h; exact .of_ruled (by simp)
  · dsimp only at h
    split at h
    · exact (State.Keeps.of_ruled ((State.ruled_enterActive _ l).trans counted)).trans (State.judgeHeader_keeps _ t l header h)
    · cases h; exact .of_ruled ((State.ruled_passOver _ l).trans counted)
  · dsimp only at h
    split at h
    · cases h; exact .of_ruled ((State.ruled_passOver _ l).trans active)
    · exact (State.Keeps.of_ruled active).trans (State.judgeHeader_keeps _ t l header h)

theorem State.ruled_takeByte (s : State) (l : LinkId) (b : Byte) : (s.takeByte l b).ruled = s.ruled := by
  unfold State.takeByte State.payloadByte
  split
  · split
    · dsimp only
      split
      · split
        · rw [State.ruled_writeWord, State.ruled_modRx]
        · exact s.ruled_modRx l _
      · exact s.ruled_modRx l _
    · rw [State.ruled_passOver, State.ruled_failFrame]
  · rfl

/-! ## Deliveries -/

theorem State.ruled_noteArrival (s : State) (c : Cls) (n : Nat) : (s.noteArrival c n).ruled = s.ruled := by
  rcases s.noteArrival_eq c n with e | e <;> rw [e]
  exact s.ruled_raise _

/-- The host part of a delivery: a full queue of a positive limit has a head to drop before the handle joins it. -/
theorem State.admitHost_keeps (s : State) (c : Cls) (h : Nat) : s.Keeps (s.admitHost c h) := by
  unfold State.admitHost
  dsimp only
  split
  · rename_i full
    split
    · exact .of_ruled (s.ruled_countPart _)
    · refine State.Keeps.then_ruled ?_ (State.ruled_noteArrival _ c _)
      refine State.Keeps.then_ruled ?_ (State.ruled_modRecord _ h _)
      unfold State.dropOldest
      split
      · rename_i empty
        refine (State.Keeps.refl s).append _ h fun hs => ?_
        rw [empty]; decide
      · rename_i g rest hq
        refine ((s.dropHead_keeps hq).then_ruled (State.ruled_countPart _ _)).append _ h fun hs => ?_
        have bound := (hs (.host c)).2
        rw [hq] at bound
        rw [State.queue, State.countPart_queues, ← State.queue, State.queue_dropHead, if_pos rfl, hq]
        exact bound
  · rename_i room
    refine State.Keeps.then_ruled ?_ (State.ruled_noteArrival _ c _)
    exact ((State.Keeps.refl s).append _ h fun hs => hs.room room).then_ruled (State.ruled_modRecord _ h _)

theorem State.admitForward_keeps (s : State) (l : LinkId) (c : Cls) (h : Nat) (hops : BitVec 4) :
    s.Keeps (s.admitForward l c h hops) := by
  unfold State.admitForward
  split
  · exact .of_ruled (s.ruled_countPart _)
  · split
    · exact .of_ruled (s.ruled_countPart _)
    · split
      · exact .of_ruled (s.ruled_countPart _)
      · rename_i room
        exact ((State.Keeps.refl s).append _ h fun hs => hs.room room).then_ruled (State.ruled_modRecord _ h _)

theorem State.deliverParts_keeps (s : State) (l : LinkId) (h : Nat) (r : Record) : s.Keeps (s.deliverParts l h r) := by
  unfold State.deliverParts
  split
  · exact s.admitHost_keeps _ h
  · exact s.admitForward_keeps _ _ h _
  · exact (s.admitHost_keeps _ h).trans (State.admitForward_keeps _ _ _ h _)
  · exact .of_ruled (s.ruled_countPart _)

theorem State.deliver_keeps (s : State) (l : LinkId) (h : Nat) : s.Keeps (s.deliver l h) := by
  have freed : ∀ t : State, s.Keeps t → s.Keeps (if t.isHeld h then t else t.freeRecord h) := fun t k => by
    split
    · exact k
    · exact k.then_ruled (t.ruled_freeRecord h)
  unfold State.deliver
  split
  · exact .refl s
  · refine freed _ ?_
    split
    · exact .of_ruled (s.ruled_countPart _)
    · exact s.deliverParts_keeps l h _

theorem State.acceptFrame_keeps (s : State) (l : LinkId) (f : RxFrame) : s.Keeps (s.acceptFrame l f) :=
  (State.Keeps.of_ruled ((State.ruled_countLink _ l _).trans (s.ruled_modPort l _ rfl))).trans (State.deliver_keeps _ l _)

theorem State.trailerEnd_keeps (s : State) (l : LinkId) (check : BitVec 32) : s.Keeps (s.trailerEnd l check) := by
  unfold State.trailerEnd
  split
  · split
    · exact s.acceptFrame_keeps l _
    · exact .of_ruled (s.ruled_failFrame l _)
  · exact .of_ruled (s.ruled_modRx l _)

theorem State.ruled_trailerAbort (s : State) (l : LinkId) : (s.trailerAbort l).ruled = s.ruled := by
  unfold State.trailerAbort
  split
  · rw [State.ruled_countLink, State.ruled_giveBack]
  · exact s.ruled_modRx l _

/-! ## The transmitter -/

@[simp] theorem State.ruled_testEpisode (s : State) (l : LinkId) : (s.testEpisode l).ruled = s.ruled := by
  unfold State.testEpisode
  split
  · exact s.ruled_modTx l _
  · rfl

@[simp] theorem State.ruled_dropOldestEntries (s : State) (l : LinkId) (k : Nat) : (s.dropOldestEntries l k).ruled = s.ruled :=
  (State.ruled_modTx _ l _).trans (State.ruled_foldl _ (fun t h => t.ruled_removeLinkHolder l h) _ s)

theorem State.ruled_confirm (s : State) (l : LinkId) (k : Nat) (point : Byte) : (s.confirm l k point).ruled = s.ruled := by
  unfold State.confirm State.restartReplay
  rw [State.ruled_modPort _ l _ rfl, State.ruled_modTx]
  split
  · exact s.ruled_dropOldestEntries l k
  · split
    · exact s.ruled_dropOldestEntries l k
    · split
      · rw [State.ruled_modTx, State.ruled_dropOldestEntries]
      · exact s.ruled_dropOldestEntries l k

theorem State.startEpisode_keeps (s : State) (l : LinkId) (point : Byte) : s.Keeps (s.startEpisode l point) := by
  have counted : s.Keeps ((s.countLink l .replays).modTx l fun t => { t with replayCount := t.replayCount + 1 }) :=
    .of_ruled (by simp)
  unfold State.startEpisode
  dsimp only
  split
  · exact counted.trans (State.enterFault_keeps _ l _)
  · exact counted.then_ruled (State.ruled_modPort _ l _ rfl)

theorem State.ruled_takeAck (s : State) (l : LinkId) (n : Byte) : (s.takeAck l n).ruled = s.ruled := by
  unfold State.takeAck
  split
  · rw [State.ruled_testEpisode, State.ruled_confirm]
  · exact s.ruled_countLink l _

theorem State.takeNak_keeps (s : State) (l : LinkId) (n : Byte) : s.Keeps (s.takeNak l n) := by
  unfold State.takeNak
  split
  · refine State.Keeps.trans (.of_ruled ?_) (State.startEpisode_keeps _ l n)
    split
    · rfl
    · exact s.ruled_confirm l _ _
  · split
    · exact .of_ruled (s.ruled_takeAck l _)
    · exact .of_ruled (s.ruled_countLink l _)

theorem State.replayExpired_keeps (s : State) (l : LinkId) : s.Keeps (s.replayExpired l) := by
  unfold State.replayExpired
  split
  · exact .refl s
  · split
    · exact s.startEpisode_keeps l _
    · exact .refl s

theorem State.ruled_takeGrant (s : State) (l : LinkId) (c : Cls) (v : Credit) : (s.takeGrant l c v).ruled = s.ruled := by
  rw [State.takeGrant_spec]
  split
  · exact s.ruled_modCredit l c _
  · rfl

theorem State.ruled_readTxWord (s : State) (l : LinkId) : (s.readTxWord l).ruled = s.ruled := by
  unfold State.readTxWord
  split
  · split
    · exact (State.ruled_modTx _ l _).trans (s.ruled_noteRead _ _)
    · rfl
  · rfl
  · rfl

@[simp] theorem State.ruled_endBlock (s : State) (l : LinkId) : (s.endBlock l).ruled = s.ruled := s.ruled_modTx l _

@[simp] theorem State.ruled_endFrame (s : State) (l : LinkId) (e : FrameEnd) : (s.endFrame l e).ruled = s.ruled := s.ruled_modTx l _

theorem State.ruled_firstEnd (s : State) (l : LinkId) (f : TxFrame) : (s.firstEnd l f).ruled = s.ruled := by
  unfold State.firstEnd
  split
  · rfl
  · dsimp only
    rw [State.ruled_countLink, State.ruled_modCredit, State.ruled_modPort _ l _ rfl, State.setLinkHolder, State.ruled_modRecord,
      State.ruled_endFrame]

theorem State.ruled_firstAbort (s : State) (l : LinkId) (f : TxFrame) : (s.firstAbort l f).ruled = s.ruled := by
  simp [State.firstAbort]

theorem State.ruled_applyHeld (s : State) (l : LinkId) : (s.applyHeld l).ruled = s.ruled := by
  unfold State.applyHeld
  split
  · rfl
  · rw [State.ruled_modTx, State.ruled_dropOldestEntries]

theorem State.ruled_resendEnded (s : State) (l : LinkId) (f : TxFrame) : (s.resendEnded l f).ruled = s.ruled := by
  simp [State.resendEnded, State.ruled_applyHeld]

theorem State.resendAborted_keeps (s : State) (l : LinkId) : s.Keeps (s.resendAborted l) :=
  (State.Keeps.of_ruled (s.ruled_endFrame l _)).trans (State.enterFault_keeps _ l _)

@[simp] theorem State.ruled_noteHailSent (s : State) (l : LinkId) (seen : Bool) : (s.noteHailSent l seen).ruled = s.ruled :=
  s.ruled_modPort l _ rfl

theorem State.ruled_nextHail (s : State) (l : LinkId) : (s.nextHail l).ruled = s.ruled := by
  unfold State.nextHail
  split
  · exact s.ruled_beginHail l
  · rfl

theorem State.ruled_hailSent (s : State) (l : LinkId) : (s.hailSent l).ruled = s.ruled := by
  unfold State.hailSent
  split
  · dsimp only
    split
    · rw [State.ruled_nextHail]; simp
    · simp
  · rfl

theorem State.ruled_controlSent (s : State) (l : LinkId) : (s.controlSent l).ruled = s.ruled := by
  unfold State.controlSent
  split
  · split
    · simp
    · exact s.ruled_endBlock l
    · exact s.ruled_endBlock l
    · exact s.ruled_endBlock l
    · exact s.ruled_endBlock l
    · rfl
    · rfl
  · rfl

theorem State.ruled_keepSent (s : State) (l : LinkId) : (s.keepSent l).ruled = s.ruled := by
  unfold State.keepSent
  split
  · split
    · exact s.ruled_modTx l _
    · rw [State.ruled_nextHail, State.ruled_endBlock]
    · rfl
    · rfl
    · rfl
  · rfl

end Sys2Proof.Machine
end

