-- ==== Sys2Proof/Proofs/SettingsAndFlushLaws.lean ====
section
/-! SUPPORT. Every command keeps the ranges of the settings, the bounds of the queues and the law of the flush (sections 2.1, 2.3, 2.7,
7.1 and 10.1). -/

namespace Sys2Proof.Machine

/-! ## Host commands -/

/-- A command, whose body is reached while the unit is IDLE. -/
theorem State.takeCommand_keeps (s : State) (code : Word) (body : State → State)
    (h : ∀ t : State, t.hcu.busy = false → t.Keeps (body t)) : s.Keeps (s.takeCommand code body) := by
  unfold State.takeCommand
  split
  · exact .of_ruled rfl
  · rename_i idle
    have kept : s.Keeps { s with hcu := { s.hcu with cmd := code } } := .of_ruled rfl
    dsimp only
    split
    · exact kept.trans (h _ (by simpa using idle))
    · exact .of_ruled rfl

theorem State.ruled_unknownCode (s : State) (code : Word) : (s.unknownCode code).ruled = s.ruled := by
  unfold State.unknownCode
  dsimp only
  split <;> rfl

@[simp] theorem State.ruled_closePort (s : State) (h : Nat) : (s.closePort h).ruled = s.ruled := by
  rw [State.closePort_spec]; rfl

theorem State.allocBody_keeps (s : State) : s.Keeps s.allocBody := by
  unfold State.allocBody
  dsimp only
  split
  · exact .of_ruled rfl
  · rename_i c _
    split
    · exact .of_ruled rfl
    · split
      · exact .of_ruled rfl
      · split
        · exact .of_ruled rfl
        · exact State.Keeps.settle (s := s) (t := s.allocTaken _ c) (.of_ruled rfl) s

theorem State.ruled_openBody (s : State) : s.openBody.ruled = s.ruled := by
  unfold State.openBody
  dsimp only
  split
  · rfl
  · split
    · rfl
    · split
      · rfl
      · split
        · rfl
        · split <;> rfl

/-- A handle appended to the transmit queues of some links, each with room. -/
theorem State.Keeps.appendAll {s : State} (links : List LinkId) (c : Cls) (h : Nat) (nodup : links.Nodup) {t : State} (k : s.Keeps t)
    (room : ∀ l ∈ links, s.QueuesBounded → (t.queue (.tx l c)).entries.length < 256) :
    s.Keeps (links.foldl (fun u l => u.append (.tx l c) h) t) := by
  induction links generalizing t with
  | nil => exact k
  | cons m links ih =>
    obtain ⟨out, nodup⟩ := List.nodup_cons.1 nodup
    refine ih nodup (k.append _ h (room m List.mem_cons_self)) fun l hl hs => ?_
    have other : (t.append (.tx m c) h).queue (.tx l c) = t.queue (.tx l c) :=
      State.queue_setEntries_ne _ _ _ _ fun e => out (by cases e; exact hl)
    rw [other]
    exact room l (List.mem_cons_of_mem _ hl) hs

theorem State.postBody_keeps (s : State) : s.Keeps s.postBody := by
  unfold State.postBody
  dsimp only
  split
  · exact .of_ruled rfl
  · rename_i links selection
    split
    · exact .of_ruled rfl
    · split
      · exact .of_ruled rfl
      · rename_i r _
        split
        · exact .of_ruled rfl
        · split
          · exact .of_ruled rfl
          · split
            · exact .of_ruled rfl
            · rename_i room
              have appended := State.Keeps.appendAll links r.cls s.hcu.arg0.toNat (selectionOfCode_links selection).2
                (State.Keeps.of_ruled (s.ruled_modRecord s.hcu.arg0.toNat fun r =>
                  r.posted (s.hcu.arg1.setWidth 8) s.nodeAddr (s.hcu.arg3.setWidth 4) links))
                fun l hl hs => hs.room fun full => room (List.any_eq_true.2 ⟨l, hl, full⟩)
              refine State.Keeps.settle (appended.then_ruled ?_) s
              exact (State.ruled_answer _ _ _).trans (State.ruled_closePort _ _)

/-- A head taken off its queue while no flush is in progress. -/
theorem State.keeps_setEntries_tail (s : State) {q : QueueId} {h : Nat} {rest : List Nat} (hq : (s.queue q).entries = h :: rest)
    (idle : s.hcu.busy = false) : s.Keeps (s.setEntries q rest) where
  settings hs := hs.setEntries q rest
  bounded hs r := by
    have bounded := (s.keeps_entryLeft hq).bounded hs r
    rwa [((s.setEntries q rest).entryLeft_settings_queue q h).2] at bounded
  marked hs := .of_idle (hs.idle idle) idle

theorem State.claimBody_keeps (s : State) (idle : s.hcu.busy = false) : s.Keeps s.claimBody := by
  unfold State.claimBody
  split
  · exact .of_ruled rfl
  · rename_i c _
    split
    · exact .of_ruled rfl
    · rename_i h rest hq
      split
      · exact .of_ruled rfl
      · refine (s.keeps_setEntries_tail hq idle).then_ruled ?_
        have popped := s.ruled_popHead (.host c)
        rw [hq] at popped
        unfold State.claimTaken
        dsimp only
        split <;> exact popped

theorem State.releaseBody_keeps (s : State) : s.Keeps s.releaseBody := by
  unfold State.releaseBody
  split
  · exact .of_ruled rfl
  · refine State.Keeps.settle (.of_ruled ?_) s
    exact (State.ruled_answer _ _ _).trans ((State.ruled_closePort _ _).trans (s.ruled_removeHolder _ _))

theorem State.ruled_queryBody (s : State) : s.queryBody.ruled = s.ruled := by
  unfold State.queryBody
  split <;> rfl

/-- A FLUSH marks an entry of its queue. -/
theorem State.flushBody_keeps (s : State) : s.Keeps s.flushBody := by
  unfold State.flushBody
  split
  · exact .of_ruled rfl
  · rename_i q _
    split
    · exact .of_ruled rfl
    · rename_i mark tail
      refine ⟨fun hs => hs.congr rfl rfl rfl (fun _ => rfl) rfl, id, fun _ => ⟨⟨fun _ => rfl, fun _ => rfl⟩, fun p m e => ?_⟩⟩
      cases e
      exact List.mem_of_getLast? tail

theorem State.ruled_linkStartBody (s : State) : s.linkStartBody.ruled = s.ruled := by
  unfold State.linkStartBody
  split
  · rfl
  · split
    · rfl
    · split
      · rfl
      · exact (State.ruled_answer _ _ _).trans (s.ruled_enterHunt _)

theorem State.linkStopBody_keeps (s : State) : s.Keeps s.linkStopBody := by
  unfold State.linkStopBody
  split
  · exact .of_ruled rfl
  · split
    · exact .of_ruled rfl
    · exact ((s.teardown_keeps _ .disabled).then_ruled (State.ruled_answer _ _ _)).settle s

theorem State.ruled_tableSetBody (s : State) : s.tableSetBody.ruled = s.ruled := by
  unfold State.tableSetBody
  split
  · rfl
  · split <;> rfl

theorem State.ruled_tableGetBody (s : State) : s.tableGetBody.ruled = s.ruled := by
  unfold State.tableGetBody
  split <;> rfl

theorem State.ruled_reportTakeBody (s : State) : s.reportTakeBody.ruled = s.ruled := by
  unfold State.reportTakeBody
  split <;> rfl

theorem State.ruled_scrubStartBody (s : State) : s.scrubStartBody.ruled = s.ruled := by
  unfold State.scrubStartBody
  split <;> rfl

theorem State.commandWrite_keeps (s : State) (code : Word) : s.Keeps (s.commandWrite code) := by
  unfold State.commandWrite
  split
  · exact s.takeCommand_keeps code _ fun t _ => t.allocBody_keeps
  · exact s.takeCommand_keeps code _ fun t _ => .of_ruled t.ruled_openBody
  · exact s.takeCommand_keeps code _ fun t _ => t.postBody_keeps
  · exact s.takeCommand_keeps code _ State.claimBody_keeps
  · exact s.takeCommand_keeps code _ fun t _ => t.releaseBody_keeps
  · exact s.takeCommand_keeps code _ fun t _ => .of_ruled t.ruled_queryBody
  · exact s.takeCommand_keeps code _ fun t _ => t.flushBody_keeps
  · exact s.takeCommand_keeps code _ fun t _ => .of_ruled t.ruled_linkStartBody
  · exact s.takeCommand_keeps code _ fun t _ => t.linkStopBody_keeps
  · exact s.takeCommand_keeps code _ fun t _ => .of_ruled t.ruled_tableSetBody
  · exact s.takeCommand_keeps code _ fun t _ => .of_ruled t.ruled_tableGetBody
  · exact s.takeCommand_keeps code _ fun t _ => .of_ruled t.ruled_reportTakeBody
  · exact s.takeCommand_keeps code _ fun t _ => .of_ruled t.ruled_scrubStartBody
  · exact .of_ruled (s.ruled_unknownCode code)

/-! ## The data port and the scrubber -/

theorem State.ruled_portRead (s : State) : s.portRead.ruled = s.ruled := by
  have moved : ∀ (t : State) (v : Word), (t.stepPort.setBusData v).ruled = t.ruled := fun _ _ => rfl
  unfold State.portRead State.portMoveOut
  split
  · dsimp only
    rw [moved]
    split
    · exact (State.ruled_raise _ _).trans (s.ruled_noteRead _ _)
    · exact s.ruled_noteRead _ _
  · rfl

theorem State.ruled_portWrite (s : State) (v : Word) : (s.portWrite v).ruled = s.ruled := by
  have moved : ∀ t : State, t.stepPort.ruled = t.ruled := fun _ => rfl
  unfold State.portWrite State.portMoveIn
  split
  · split
    · exact (moved _).trans ((State.ruled_writeWord _ _ _).trans (s.ruled_noteRead _ _))
    · rfl
  · rfl

theorem State.ruled_scrubWord (s : State) (p : Nat) (free : Bool) : (s.scrubWord p free).ruled = s.ruled := by
  have written : ∀ w, ((s.noteRead .scrub p).writeWord p w).ruled = s.ruled := fun w => s.ruled_noteRead _ _
  unfold State.scrubWord
  dsimp only
  split
  · exact s.ruled_noteRead _ _
  · exact written _
  · split
    · exact written _
    · exact s.ruled_noteRead _ _

theorem State.ruled_endPass (s : State) : s.endPass.ruled = s.ruled := by
  unfold State.endPass
  dsimp only
  split <;> rfl

theorem State.ruled_scrubAdvance (s : State) : s.scrubAdvance.ruled = s.ruled := by
  unfold State.scrubAdvance
  split
  · exact s.ruled_endPass
  · rfl

theorem State.ruled_scrubExpired (s : State) : s.scrubExpired.ruled = s.ruled := by
  unfold State.scrubExpired State.scrubTake
  split
  · rw [State.ruled_scrubAdvance]
    split
    · exact s.ruled_scrubWord _ _
    · split
      · rfl
      · exact s.ruled_scrubWord _ _
  · rfl

/-! ## Writes of the settings -/

/-- A field keeps within its range: the value written where that is in range, else the old one (R173). -/
theorem taken_inRange {lo hi old : Nat} (h : lo ≤ old ∧ old ≤ hi) (v : Nat) : lo ≤ taken lo hi v old ∧ taken lo hi v old ≤ hi := by
  unfold taken
  split
  · assumption
  · exact h

theorem taken_le {hi old : Nat} (h : old ≤ hi) (v : Nat) : taken 0 hi v old ≤ hi :=
  (taken_inRange ⟨Nat.zero_le _, h⟩ v).2

section
variable {c : LinkCfg}

theorem LinkCfg.InRange.writeAllow (h : c.InRange) (v : Word) : (c.writeAllow v).InRange := by
  obtain ⟨allowC, allowD, rest⟩ := h
  exact ⟨taken_le allowC _, taken_le allowD _, rest⟩

theorem LinkCfg.InRange.writeFlow (h : c.InRange) (v : Word) : (c.writeFlow v).InRange := by
  obtain ⟨allowC, allowD, window, ackStep, ackDelay, grantStep, rest⟩ := h
  exact ⟨allowC, allowD, taken_inRange window _, taken_inRange ackStep _, taken_inRange ackDelay _, taken_inRange grantStep _, rest⟩

theorem LinkCfg.InRange.writeReplay (h : c.InRange) (v : Word) : (c.writeReplay v).InRange := by
  obtain ⟨allowC, allowD, window, ackStep, ackDelay, grantStep, timeout, limit, keep, refresh, rest⟩ := h
  exact ⟨allowC, allowD, window, ackStep, ackDelay, grantStep, taken_inRange timeout _, taken_inRange limit _, taken_inRange keep _,
    taken_inRange refresh _, rest⟩

theorem LinkCfg.InRange.writeSession (h : c.InRange) (v : Word) : (c.writeSession v).InRange := by
  obtain ⟨allowC, allowD, window, ackStep, ackDelay, grantStep, timeout, limit, keep, refresh, silence, realign, stall, hail, rest⟩ := h
  exact ⟨allowC, allowD, window, ackStep, ackDelay, grantStep, timeout, limit, keep, refresh, taken_inRange silence _,
    taken_inRange realign _, taken_le stall _, taken_inRange hail _, rest⟩

theorem LinkCfg.InRange.writeStart (h : c.InRange) (v : Word) : (c.writeStart v).InRange := by
  obtain ⟨allowC, allowD, window, ackStep, ackDelay, grantStep, timeout, limit, keep, refresh, silence, realign, stall, hail, greet,
    hold⟩ := h
  exact ⟨allowC, allowD, window, ackStep, ackDelay, grantStep, timeout, limit, keep, refresh, silence, realign, stall, hail,
    taken_inRange greet _, taken_inRange hold _⟩

end

/-- A write of a link's settings that keeps each in its range. -/
theorem State.modCfg_keeps (s : State) (l : LinkId) (f : LinkCfg → LinkCfg) (hf : ∀ c : LinkCfg, c.InRange → (f c).InRange) :
    s.Keeps (s.modCfg l f) where
  settings hs := by
    obtain ⟨a, b, rest⟩ := hs
    cases l
    · exact ⟨hf _ a, b, rest⟩
    · exact ⟨a, hf _ b, rest⟩
  bounded hs q := by rw [State.modCfg, State.queue_modPort]; exact hs q
  marked hs := hs.congr (by simp [State.modCfg]) (by simp [State.modCfg]) fun q m _ mem => by
    rw [State.modCfg, State.queue_modPort]; exact mem

theorem State.writeSession_keeps (s : State) (l : LinkId) (v : Word) : s.Keeps (s.writeSession l v) :=
  (s.modCfg_keeps l _ fun _ h => h.writeSession v).then_ruled
    ((State.ruled_refreshStall _ l .data).trans (State.ruled_refreshStall _ l .control))

theorem State.writeLinkWord_keeps (s : State) (l : LinkId) (i : Nat) (v : Word) : s.Keeps (s.writeLinkWord l i v) := by
  unfold State.writeLinkWord
  split
  · exact s.modCfg_keeps l _ fun _ h => h.writeAllow v
  · exact s.modCfg_keeps l _ fun _ h => h.writeFlow v
  · exact s.modCfg_keeps l _ fun _ h => h.writeReplay v
  · exact s.writeSession_keeps l v
  · exact s.modCfg_keeps l _ fun _ h => h.writeStart v
  · split
    · split
      · exact .of_ruled (s.ruled_modPort l _ rfl)
      · exact .refl s
    · exact .refl s

/-- The node address is never the address that stands for all nodes. -/
theorem State.writeNodeAddr_keeps (s : State) (v : Word) : s.Keeps (s.writeNodeAddr v) := by
  unfold State.writeNodeAddr
  split
  · refine ⟨fun hs => ?_, id, id⟩
    obtain ⟨a, b, interval, host, old⟩ := hs
    refine ⟨a, b, interval, host, fun new => ?_⟩
    have value := congrArg BitVec.toNat new
    have below : s.nodeAddr.toNat ≤ 254 := by
      have ne : s.nodeAddr.toNat ≠ 255 := fun e => old (BitVec.eq_of_toNat_eq e)
      have lt := s.nodeAddr.isLt
      omega
    have small : taken 1 254 (field v 7 0) s.nodeAddr.toNat ≤ 254 := by
      unfold taken
      split
      · rename_i range; exact range.2
      · exact below
    rw [BitVec.toNat_ofNat, Nat.mod_eq_of_lt (by omega)] at value
    rw [value] at small
    exact absurd small (by decide)
  · exact .refl s

theorem State.queue_writeLimit (s : State) (q r : QueueId) (v : Word) :
    (s.writeLimit q v).queue r =
      if r = q then { s.queue q with limit := taken 1 256 (field v 24 16) (s.queue q).limit } else s.queue r := by
  split
  · rename_i e; subst e; exact Queues.get_set _ _ _
  · rename_i ne; exact Queues.get_set_ne _ _ _ _ ne

theorem State.writeLimit_keeps (s : State) (q : QueueId) (v : Word) : s.Keeps (s.writeLimit q v) where
  settings hs := hs.congr rfl rfl rfl (fun c => by cases c <;> simp [State.writeLimit, Queues.hostCfg]) rfl
  bounded hs r := by
    rw [State.queue_writeLimit]
    split
    · exact ⟨taken_inRange (hs q).1 _, (hs q).2⟩
    · exact hs r
  marked hs := hs.congr rfl rfl fun r m _ mem => by
    rw [State.queue_writeLimit]
    split
    · rename_i e; subst e; exact mem
    · exact mem

theorem State.writeHrConfig_keeps (s : State) (v : Word) : s.Keeps (s.writeHrConfig v) := by
  have queue : ∀ q, (s.writeHrConfig v).queue q = s.queue q := fun q => by
    rcases q with (_ | _) | ⟨_ | _, _ | _⟩ <;> rfl
  refine ⟨fun hs => ?_, fun hs q => by rw [queue]; exact hs q,
    fun hs => hs.congr rfl rfl fun q m _ mem => by rw [queue]; exact mem⟩
  obtain ⟨a, b, interval, host, nodeAddr⟩ := hs
  refine ⟨a, b, interval, fun c => ?_, nodeAddr⟩
  cases c
  · exact taken_inRange (host .control) _
  · exact taken_inRange (host .data) _

theorem State.ruled_writeScrubMode (s : State) (m : ScrubMode) (n : Nat) : (s.writeScrubMode m n).ruled = s.ruled := by
  unfold State.writeScrubMode
  dsimp only
  split
  · rfl
  · split <;> rfl

theorem State.writeScrubControl_keeps (s : State) (v : Word) : s.Keeps (s.writeScrubControl v) := by
  have interval : s.Keeps { s with scrub := { s.scrub with interval := taken 1 1023 (field v 25 16) s.scrub.interval } } := by
    refine ⟨fun hs => ?_, id, id⟩
    obtain ⟨a, b, old, rest⟩ := hs
    exact ⟨a, b, taken_inRange old _, rest⟩
  unfold State.writeScrubControl
  dsimp only
  split
  · exact interval
  · exact interval.then_ruled (State.ruled_writeScrubMode _ _ _)

/-! ## Resets -/

theorem State.ruled_initTaken (s : State) : s.initTaken.ruled = s.ruled := by
  unfold State.initTaken State.passAtReady
  split <;> rfl

/-- The reset input gives every setting its default, and empties the queues. -/
theorem State.resetTaken_keeps (s : State) : s.Keeps s.resetTaken := by
  obtain ⟨-, -, settings, bounded, -, -, marked, -⟩ := resetMeetsLaws
  exact ⟨fun _ => settings, fun _ => bounded, fun _ => marked⟩

/-- A soft reset keeps every setting, empties the queues and gives the flush up. -/
theorem State.softResetTaken_keeps (s : State) : s.Keeps s.softResetTaken := by
  have queue : ∀ q, s.softResetTaken.queue q = { s.queue q with entries := [] } := fun q => by
    rcases q with (_ | _) | ⟨_ | _, _ | _⟩ <;> rfl
  refine ⟨fun hs => hs.congr rfl rfl ?_ (fun c => by cases c <;> rfl) rfl, fun hs q => ?_, fun _ => .of_idle rfl rfl⟩
  · show (s.scrub.softReset s.ready).interval = _
    unfold Scrubber.softReset
    split <;> rfl
  · rw [queue]
    exact ⟨(hs q).1, Nat.zero_le _⟩

/-! ## Every command -/

theorem State.writePartWord_keeps (s : State) (i : Nat) (v : Word) : s.Keeps (s.writePartWord i v) := by
  unfold State.writePartWord
  split
  · exact .ite fun _ => s.softResetTaken_keeps
  · exact s.writeNodeAddr_keeps v
  · exact .of_ruled rfl
  · exact .of_ruled rfl
  · exact .of_ruled rfl
  · exact .of_ruled rfl
  · exact .of_ruled rfl
  · exact .of_ruled rfl
  · exact s.commandWrite_keeps v
  · exact .of_ruled (s.ruled_portWrite v)
  · exact s.writeLimit_keeps _ v
  · exact s.writeLimit_keeps _ v
  · exact s.writeLimit_keeps _ v
  · exact s.writeLimit_keeps _ v
  · exact s.writeLimit_keeps _ v
  · exact s.writeLimit_keeps _ v
  · exact s.writeHrConfig_keeps v
  · exact s.writeScrubControl_keeps v
  · split
    · split
      · exact .of_ruled rfl
      · exact .refl s
    · exact .refl s

theorem State.writeRegister_keeps (s : State) (reg : BitVec 7) (v : Word) : s.Keeps (s.writeRegister reg v) := by
  unfold State.writeRegister
  dsimp only
  split
  · exact s.writePartWord_keeps _ v
  · split
    · exact s.writeLinkWord_keeps _ _ v
    · split
      · exact .refl s
      · split
        · exact s.writeLinkWord_keeps _ _ v
        · exact .refl s

theorem State.received_keeps (s : State) (l : LinkId) (act : State → State) (h : s.Keeps (act s)) : s.Keeps (s.received l act) :=
  .ite fun _ => h.settle s

theorem State.Keeps.of_next {s t u : State} (h : s.Keeps u) (e : (Host.Outcome.next u : Answer) = .next t) : s.Keeps t := by
  cases e; exact h

theorem execFrameHeaderReceived_keeps (l : LinkId) (header : BitVec 128) (s t : State)
    (e : execFrameHeaderReceived l header s = .next t) : s.Keeps t := by
  unfold execFrameHeaderReceived at e
  split at e
  · split at e
    · split at e
      · rename_i u hu
        exact ((s.validFrame_keeps u l header hu).settle s).of_next e
      · cases e
    · exact ((State.Keeps.of_ruled (s.ruled_checkedOut l .frame)).settle s).of_next e
  · exact (State.Keeps.refl s).of_next e

/-- The end of a frame block, under a condition on the frame on the line. -/
theorem State.frameEnd_keeps (s : State) (l : LinkId) (p : TxFrame → Bool) (act : TxFrame → State) (h : ∀ f, s.Keeps (act f)) :
    s.Keeps (match s.frameOnLine l with | some f => if p f then (act f).settle s else s | none => s) := by
  split
  · exact .ite fun _ => (h _).settle s
  · exact .refl s

theorem State.flushStep_keeps (s : State) : s.Keeps s.flushStep := by
  unfold State.flushStep
  split
  · exact .refl s
  · split
    · exact .refl s
    · rename_i h rest hq
      exact State.Keeps.trans (t := { s with flush := { s.flush with removed := s.flush.removed + 1 } }) (.of_ruled rfl)
        (State.dropHead_keeps _ hq)

theorem State.stallDrop_keeps (s : State) (l : LinkId) (c : Cls) : s.Keeps (s.stallDrop l c) := by
  unfold State.stallDrop
  split
  · exact .refl s
  · rename_i h rest hq
    exact (s.dropHead_keeps hq).then_ruled (State.ruled_countLink _ l _)

theorem State.ruled_refreshGrants (s : State) (l : LinkId) : (s.refreshGrants l).ruled = s.ruled :=
  (State.ruled_makeDue _ l .data).trans ((State.ruled_makeDue _ l .control).trans (s.ruled_modPort l _ rfl))

/-- Every command keeps the three laws. -/
theorem exec_keeps (c : Instr) (s t : State) (e : exec c s = .next t) : s.Keeps t := by
  cases c with
  | resetInput => exact s.resetTaken_keeps.of_next e
  | initComplete =>
    refine State.Keeps.of_next (.of_ruled ?_) e
    split
    · rfl
    · exact s.ruled_initTaken
  | softReset => exact s.softResetTaken_keeps.of_next e
  | alloc => exact (s.takeCommand_keeps 1 _ fun t _ => t.allocBody_keeps).of_next e
  | openPort => exact (s.takeCommand_keeps 2 _ fun t _ => .of_ruled t.ruled_openBody).of_next e
  | post => exact (s.takeCommand_keeps 3 _ fun t _ => t.postBody_keeps).of_next e
  | claim => exact (s.takeCommand_keeps 4 _ State.claimBody_keeps).of_next e
  | release => exact (s.takeCommand_keeps 5 _ fun t _ => t.releaseBody_keeps).of_next e
  | query => exact (s.takeCommand_keeps 6 _ fun t _ => .of_ruled t.ruled_queryBody).of_next e
  | flush => exact (s.takeCommand_keeps 7 _ fun t _ => t.flushBody_keeps).of_next e
  | linkStart => exact (s.takeCommand_keeps 8 _ fun t _ => .of_ruled t.ruled_linkStartBody).of_next e
  | linkStop => exact (s.takeCommand_keeps 9 _ fun t _ => t.linkStopBody_keeps).of_next e
  | tableSet => exact (s.takeCommand_keeps 10 _ fun t _ => .of_ruled t.ruled_tableSetBody).of_next e
  | tableGet => exact (s.takeCommand_keeps 11 _ fun t _ => .of_ruled t.ruled_tableGetBody).of_next e
  | reportTake => exact (s.takeCommand_keeps 12 _ fun t _ => .of_ruled t.ruled_reportTakeBody).of_next e
  | scrubStart => exact (s.takeCommand_keeps 13 _ fun t _ => .of_ruled t.ruled_scrubStartBody).of_next e
  | unknownCommand code => exact (State.Keeps.of_ruled (s.ruled_unknownCode code)).of_next e
  | cmdOverrun code =>
    refine State.Keeps.of_next ?_ e
    split
    · exact .of_ruled rfl
    · exact s.commandWrite_keeps code
  | portDataRead => exact (State.Keeps.of_ruled s.ruled_portRead).of_next e
  | portDataWrite v => exact (State.Keeps.of_ruled (s.ruled_portWrite v)).of_next e
  | eventFlagsClear v => exact (State.Keeps.of_ruled (s := s) (t := s.clearFlags v) rfl).of_next e
  | eventEnableWrite v => exact (State.Keeps.of_ruled (s := s) (t := s.writeEnables v) rfl).of_next e
  | nodeAddrWrite v => exact (s.writeNodeAddr_keeps v).of_next e
  | scrubModeWrite v => exact (s.writeScrubControl_keeps v).of_next e
  | creditStallLimitWrite l v => exact (s.writeSession_keeps l v).of_next e
  | registerWrite reg v => exact (s.writeRegister_keeps reg v).of_next e
  | invalidMarker l => exact (State.Keeps.ite fun _ => s.noMarker_keeps l).of_next e
  | checkedOutBlock l kind => exact (s.received_keeps l _ (.of_ruled (s.ruled_checkedOut l kind))).of_next e
  | keepReceived l => exact (s.received_keeps l _ (s.validControl_keeps l _ State.Keeps.refl)).of_next e
  | hailReceived l sender revision seen => exact (s.received_keeps l _ (s.takeHail_keeps l sender revision seen)).of_next e
  | ackReceived l seq =>
    exact (s.received_keeps l _ (s.validControl_keeps l _ fun t => .of_ruled (t.ruled_takeAck l seq))).of_next e
  | nakReceived l seq => exact (s.received_keeps l _ (s.validControl_keeps l _ fun t => t.takeNak_keeps l seq)).of_next e
  | grantReceived l c v =>
    exact (s.received_keeps l _ (s.validControl_keeps l _ fun t => .of_ruled (t.ruled_takeGrant l c v))).of_next e
  | frameHeaderReceived l header => exact execFrameHeaderReceived_keeps l header s t e
  | framePayloadBytes l bytes =>
    exact (s.received_keeps l _ (.of_ruled (State.ruled_foldl _ (fun t b => t.ruled_takeByte l b) bytes s))).of_next e
  | frameTruncated l => exact (s.received_keeps l _ (.of_ruled (s.ruled_marker l))).of_next e
  | frameTrailerEnd l check => exact (s.received_keeps l _ (s.trailerEnd_keeps l check)).of_next e
  | frameTrailerAbort l => exact (s.received_keeps l _ (.of_ruled (s.ruled_trailerAbort l))).of_next e
  | hailSendEnd l => exact (State.Keeps.ite fun _ => (State.Keeps.of_ruled (s.ruled_hailSent l)).settle s).of_next e
  | controlBlockSent l => exact (State.Keeps.ite fun _ => (State.Keeps.of_ruled (s.ruled_controlSent l)).settle s).of_next e
  | txWordRead l => exact (State.Keeps.ite fun _ => .of_ruled (s.ruled_readTxWord l)).of_next e
  | firstTransmissionEnd l => exact (s.frameEnd_keeps l _ _ fun f => .of_ruled (s.ruled_firstEnd l f)).of_next e
  | firstTransmissionAbort l => exact (s.frameEnd_keeps l _ _ fun f => .of_ruled (s.ruled_firstAbort l f)).of_next e
  | resendEnd l => exact (s.frameEnd_keeps l _ _ fun f => .of_ruled (s.ruled_resendEnded l f)).of_next e
  | resendAbort l => exact (s.frameEnd_keeps l _ (fun _ => s.resendAborted l) fun _ => s.resendAborted_keeps l).of_next e
  | hailTimerExpiry l =>
    exact (State.Keeps.ite fun _ => .of_ruled ((State.ruled_hailNow _ l).trans (s.ruled_modPort l _ rfl))).of_next e
  | greetTimeout l => exact (State.Keeps.ite fun _ => (s.enterFault_keeps l _).settle s).of_next e
  | silenceTimeout l => exact (State.Keeps.ite fun _ => (s.enterFault_keeps l _).settle s).of_next e
  | realignTimeout l => exact (State.Keeps.ite fun _ => (s.enterFault_keeps l _).settle s).of_next e
  | holdDownExpiry l =>
    refine (State.Keeps.ite fun _ => .of_ruled ?_).of_next e
    split
    · exact s.ruled_enterHunt l
    · exact s.ruled_modPort l _ rfl
  | replayTimerExpiry l => exact (State.Keeps.ite fun _ => (s.replayExpired_keeps l).settle s).of_next e
  | ackDelayExpiry l => exact (State.Keeps.ite fun _ => (State.Keeps.of_ruled (s.ruled_modRx l _)).settle s).of_next e
  | idleTimerExpiry l =>
    exact (State.Keeps.ite fun _ => ((State.Keeps.of_ruled (s.ruled_modTx l _)).trans (State.choose_keeps _ l true)).settle s).of_next e
  | grantRefreshExpiry l => exact (State.Keeps.ite fun _ => (State.Keeps.of_ruled (s.ruled_refreshGrants l)).settle s).of_next e
  | creditStallExpiry l c => exact (State.Keeps.ite fun _ => (s.stallDrop_keeps l c).settle s).of_next e
  | flushRemoval => exact (State.Keeps.ite fun _ => s.flushStep_keeps.settle s).of_next e
  | scrubStep => exact (State.Keeps.of_ruled s.ruled_scrubExpired).of_next e
  | keepSendEnd l => exact (State.Keeps.of_ruled (s.ruled_keepSent l)).of_next e

/-- Every step keeps the three laws: none of them reads the queue of commands. -/
theorem step_keeps_rules (s t : State) (e : step s = .next t) : s.Keeps t := by
  unfold step at e
  split at e
  · cases e; exact .refl s
  · rename_i c rest _
    exact State.Keeps.trans (t := { s with pending := rest }) (.of_ruled rfl) (exec_keeps c _ t e)

/-- Settles O52: a write takes a value in its range alone, and an entry joins a queue only below its limit. -/
theorem settingsAndQueuesKept : Obligations.SettingsAndQueuesKept := by
  unfold Obligations.SettingsAndQueuesKept
  exact ⟨fun s t hs e => (step_keeps_rules s t e).settings hs, fun s t hs e => (step_keeps_rules s t e).bounded hs⟩

/-- Settles O55: whatever takes the marked entry off its queue completes the flush with it, and CLAIM runs only while there is none. -/
theorem flushLawKept : Obligations.FlushLawKept := by
  unfold Obligations.FlushLawKept
  exact fun s t hs e => (step_keeps_rules s t e).marked hs

end Sys2Proof.Machine
end

