-- ==== Sys2Proof/Proofs/HostQueues.lean ====
section
/-! SUPPORT. The drop of a queue's head, on the host's side or a link's, and by it the removals of a flush; FLUSH and CLAIM (sections 2.6,
2.7, 7.3.4 and 7.4). -/

namespace Sys2Proof.Machine

/-! ## The drop of a head -/

theorem Record.refCount_eq_zero (r : Record) : r.refCount = 0 ↔ r.host = .none ∧ r.linkA = .none ∧ r.linkB = .none := by
  unfold Record.refCount
  by_cases h : r.host = .none <;> by_cases a : r.linkA = .none <;> by_cases b : r.linkB = .none <;> simp [h, a, b]

/-- A queue's head dropped: taken off, its holder on the queue's side removed, the flush told. -/
theorem State.dropHead_eq (s : State) (q : QueueId) (h : Nat) :
    s.dropHead q h = ((s.popHead q).removeHolder h q.clear).entryLeft q h := by
  cases q <;> rfl

theorem State.dropHead_buf (s : State) (q : QueueId) (h : Nat) :
    (s.dropHead q h).buf = ((s.popHead q).removeHolder h q.clear).buf := by
  rw [State.dropHead_eq, State.entryLeft_buf]

theorem State.dropHead_sameCells (s : State) (q : QueueId) (h : Nat) : s.SameCells (s.dropHead q h) := by
  rw [State.SameCells, State.dropHead_buf, State.removeHolder_buf_mem, State.removeHolder_buf_wrong, State.removeHolder_buf_links,
    State.popHead_buf]
  exact ⟨rfl, rfl, rfl⟩

section
variable {s : State} {h : Nat} {r : Record}

/-- The record of a dropped head whose holder on the queue's side was the last: freed, its chain at the tail of the free list. -/
theorem State.dropHead_last (hr : s.record h = some r) (q : QueueId) (last : (q.clear r).refCount = 0) :
    (s.dropHead q h).record h = none ∧ (s.dropHead q h).buf.free = s.buf.free ++ r.cells := by
  have popped : (s.popHead q).record h = some r := (s.record_popHead q h).trans hr
  have removed : (s.popHead q).removeHolder h q.clear = (s.popHead q).freeRecord h := by
    unfold State.removeHolder
    rw [popped]
    exact if_pos last
  refine ⟨?_, ?_⟩
  · rw [State.record_dropHead, if_pos rfl, hr]; exact if_pos last
  · rw [State.dropHead_buf, removed, State.free_freeRecord _ h r popped, State.popHead_buf]

/-- The record of a dropped head that another side holds. -/
theorem State.dropHead_held (hr : s.record h = some r) (q : QueueId) (held : (q.clear r).refCount ≠ 0) :
    (s.dropHead q h).record h = some (q.clear r) ∧ (s.dropHead q h).buf.free = s.buf.free := by
  have removed : (s.popHead q).removeHolder h q.clear = (s.popHead q).modRecord h q.clear := by
    unfold State.removeHolder
    rw [(s.record_popHead q h).trans hr]
    exact if_neg held
  refine ⟨?_, ?_⟩
  · rw [State.record_dropHead, if_pos rfl, hr]; exact if_neg held
  · rw [State.dropHead_buf, removed, State.modRecord_buf_free, State.popHead_buf]

end

/-- The removal of an entry is no drop: no counter counts it (R36). -/
theorem State.dropHead_counters (s : State) (q : QueueId) (h : Nat) :
    (s.dropHead q h).ev.counters = s.ev.counters ∧ ∀ l, ((s.dropHead q h).port l).counters = (s.port l).counters := by
  refine ⟨?_, fun l => ?_⟩
  · rw [State.dropHead_eq, State.entryLeft_counters, State.removeHolder_ev, (s.popHead_rest q).2.1]
  · rw [State.dropHead_eq, State.entryLeft_ports, State.port_removeHolder]
    cases q with
    | host c => cases l <;> rfl
    | tx k c =>
      rw [State.port_popHead]
      split
      · cases c <;> rfl
      · rfl

/-- A flush follows the drop of a head, of whichever queue. -/
theorem State.dropHead_flush (s : State) (q : QueueId) (h : Nat) : s.FlushFollows (s.dropHead q h) (s.Marks q [h]) := by
  obtain ⟨flush, ev, hcu⟩ := s.popHead_rest q
  have uflush := ((s.popHead q).removeHolder_flush h q.clear).trans flush
  have uev := ((s.popHead q).removeHolder_ev h q.clear).trans ev
  have uhcu := ((s.popHead q).removeHolder_hcu h q.clear).trans hcu
  rw [State.dropHead_eq]
  refine ((State.entryLeft_follows _ q h).same_before uflush (by rw [State.flag, uev]; rfl) uhcu).congr ?_
  rw [State.Marks, State.Marks, uflush]

theorem State.marks_singleton (s : State) (q : QueueId) (h : Nat) : s.Marks q [h] ↔ s.flush.active = some (q, h) :=
  (State.Marks.cons s q h []).trans (or_iff_left (State.Marks.nil s q))

/-! ## FLUSH -/

theorem queueOfCode_code (q : QueueId) : queueOfCode q.code = some q := by
  rcases q with (_ | _) | ⟨_ | _, _ | _⟩ <;> rfl

theorem code_of_queueOfCode {n : Nat} {q : QueueId} (h : queueOfCode n = some q) : n = q.code := by
  unfold queueOfCode at h
  split at h <;> cases h <;> rfl

section
variable {s : State} {q : QueueId}

theorem State.flushBody_badArg (other : ∀ p : QueueId, s.hcu.arg0.toNat ≠ p.code) : s.flushBody = s.answer .badArg := by
  have none : queueOfCode s.hcu.arg0.toNat = .none :=
    Option.eq_none_iff_forall_ne_some.2 fun p hp => other p (code_of_queueOfCode hp)
  unfold State.flushBody
  rw [none]

theorem State.flushBody_empty (code : s.hcu.arg0.toNat = q.code) (empty : (s.queue q).entries = []) :
    s.flushBody = State.answer { s with flush := { s.flush with removed := 0 } } .ok := by
  have tail : (s.queue q).entries.getLast? = none := by rw [empty]; rfl
  unfold State.flushBody
  rw [code, queueOfCode_code]
  dsimp only
  rw [tail]

theorem State.flushBody_tail (code : s.hcu.arg0.toNat = q.code) {front : List Nat} {mark : Nat}
    (hq : (s.queue q).entries = front ++ [mark]) : s.flushBody = s.flushTaken q mark := by
  have tail : (s.queue q).entries.getLast? = some mark := by rw [hq]; exact List.getLast?_concat
  unfold State.flushBody
  rw [code, queueOfCode_code]
  dsimp only
  rw [tail]

end

/-- A removal of a flush in progress is the drop of the head, counted in the removed count. -/
theorem State.flushStep_eq (s : State) {q : QueueId} {mark h : Nat} {rest : List Nat} (active : s.flush.active = some (q, mark))
    (hq : (s.queue q).entries = h :: rest) :
    s.flushStep = State.dropHead { s with flush := { s.flush with removed := s.flush.removed + 1 } } q h := by
  unfold State.flushStep
  rw [active]
  dsimp only
  rw [hq]

/-- Settles O13: FLUSH by the tail of its queue, a removal by the drop of the head. -/
theorem flushResult : Obligations.FlushResult := by
  unfold Obligations.FlushResult
  refine ⟨fun s q idle => ?_, fun s q mark h rest r active hq hr => ?_⟩
  · let u : State := { s with hcu := { s.hcu with cmd := 7 } }
    have run : exec .flush s = .next u.flushBody := by
      show Host.Outcome.next (s.takeCommand 7 State.flushBody) = _
      rw [idle.takeCommand]
    refine ⟨fun other => ?_, fun code => ⟨fun empty => ?_, fun front mark hq => ?_⟩⟩
    · rw [run, State.flushBody_badArg (s := u) other]; rfl
    · rw [run, State.flushBody_empty (s := u) code empty]; rfl
    · rw [run, State.flushBody_tail (s := u) code hq]; rfl
  · obtain ⟨u, hu⟩ : ∃ u : State, u = { s with flush := { s.flush with removed := s.flush.removed + 1 } } := ⟨_, rfl⟩
    have step : s.flushStep = u.dropHead q h := by rw [hu]; exact s.flushStep_eq active hq
    have ur : u.record h = some r := by rw [hu]; exact hr
    have marks : u.Marks q [h] ↔ h = mark := by
      rw [u.marks_singleton, show u.flush.active = some (q, mark) by rw [hu]; exact active]
      constructor
      · intro e; cases e; rfl
      · intro e; rw [e]
    have last := Record.refCount_eq_zero (q.clear r)
    have freed := State.dropHead_last ur q
    have kept := State.dropHead_held ur q
    have follows := u.dropHead_flush q h
    have removed : (u.dropHead q h).flush.removed = u.flush.removed := by
      by_cases m : u.Marks q [h]
      · rw [(follows.1 m).1]; rfl
      · rw [(follows.2 m).1]
    have counters := u.dropHead_counters q h
    have cells := u.dropHead_sameCells q h
    have queue := u.queue_dropHead q
    refine ⟨s.flushStep, congrArg Host.Outcome.next (if_pos (by rw [active]; rfl)), ?_⟩
    rw [step]
    subst hu
    refine ⟨?_, fun p ne => ?_, removed, fun host a b => ?_, fun n => ?_, fun g ne => ?_, cells, counters.1, fun l => ?_, fun e => ?_,
      fun ne => ?_⟩
    · rw [queue, if_pos rfl]; exact congrArg List.tail hq
    · rw [queue, if_neg ne]; rfl
    · exact freed (last.2 (by cases q <;> exact ⟨host, a, b⟩))
    · have held := kept (mt last.1 (by cases q <;> exact n))
      cases q <;> exact held
    · rw [State.record_dropHead, if_neg (Ne.symm ne)]; rfl
    · rw [counters.2]; cases l <;> rfl
    · obtain ⟨flush, flag, hcu⟩ := follows.1 (marks.2 e)
      rw [flush, hcu]
      exact ⟨rfl, rfl, rfl, rfl, rfl, flag⟩
    · obtain ⟨flush, -, hcu⟩ := follows.2 (mt marks.1 ne)
      rw [flush, hcu]
      exact ⟨active, rfl⟩

/-! ## CLAIM -/

theorem hostQueueOfCode_eq_none {v : Word} (one : v ≠ 1) (two : v ≠ 2) : hostQueueOfCode v.toNat = none := by
  unfold hostQueueOfCode
  split
  · rename_i e; exact absurd (BitVec.eq_of_toNat_eq e) one
  · rename_i e; exact absurd (BitVec.eq_of_toNat_eq e) two
  · rfl

theorem claimResults_eq (h : Nat) (r : Record) (n : Nat) :
    claimResults h r n =
      { r0 := wordOfNat h
        r1 := wordOfNat r.length
        r2 := (match r.cls with | .control => 1 | .data => 2)
        r3 := (match r.destination with | some d => d.setWidth 32 | none => 0)
        r4 := (match r.source with | some d => d.setWidth 32 | none => 0)
        r5 := (match r.origin with | .host => 1 | .link .a => 2 | .link .b => 3)
        r6 := (if r.poisoned then 1 else 0)
        r7 := wordOfNat n } := by
  have byte : ∀ b : Option Byte, wordOfOptByte b = (match b with | some d => d.setWidth 32 | none => 0) := fun b => by
    cases b <;> rfl
  have cls : wordOfNat (Cls.code r.cls) = (match r.cls with | .control => 1 | .data => 2) := by cases r.cls <;> rfl
  have origin : wordOfNat r.origin.code = (match r.origin with | .host => 1 | .link .a => 2 | .link .b => 3) := by
    rcases r.origin with _ | ⟨_ | _⟩ <;> rfl
  have poisoned : placeBit r.poisoned 0 = (if r.poisoned then 1 else 0) := by cases r.poisoned <;> rfl
  rw [claimResults, byte, byte, cls, origin, poisoned]

/-- Settles O10: the body of CLAIM, the head taken off its queue with its record CLAIMED. -/
theorem claimResult : Obligations.ClaimResult := by
  unfold Obligations.ClaimResult
  intro s c idle
  let u : State := { s with hcu := { s.hcu with cmd := 4 } }
  have run : exec .claim s = .next u.claimBody := by
    show Host.Outcome.next (s.takeCommand 4 State.claimBody) = _
    rw [idle.takeCommand]
  refine ⟨fun one two => ?_, fun arg => ?_⟩
  · have body : u.claimBody = u.answer .badArg := by
      unfold State.claimBody
      rw [show hostQueueOfCode u.hcu.arg0.toNat = none from hostQueueOfCode_eq_none one two]
    rw [run, body]; rfl
  have named : hostQueueOfCode u.hcu.arg0.toNat = some c := by
    rw [show u.hcu.arg0 = s.hcu.arg0 from rfl, arg]; cases c <;> rfl
  refine ⟨fun empty => ?_, fun h rest hq => ?_⟩
  · have body : u.claimBody = u.answer .empty := by
      unfold State.claimBody
      rw [named]
      dsimp only
      rw [show (u.queue (.host c)).entries = [] from empty]
    rw [run, body]; rfl
  have uq : (u.queue (.host c)).entries = h :: rest := hq
  have body : u.claimBody = if 64 ≤ s.hcu.held then u.answer .handleLimit else u.claimTaken c h := by
    unfold State.claimBody
    rw [named]
    dsimp only
    rw [uq]
    rfl
  refine ⟨fun limit => ?_, fun r room hr => ?_⟩
  · rw [run, body, if_pos limit]; rfl
  have taken : u.claimTaken c h =
      (((u.popHead (.host c)).modRecord h fun r => { r with host := .claimed }).setHeld (s.hcu.held + 1)).answer .ok
        (claimResults h r rest.length) := by
    unfold State.claimTaken
    rw [show u.record h = some r from hr, uq]
    rfl
  refine ⟨u.claimTaken c h, by rw [run, body, if_neg (Nat.not_le.2 room)], ?_⟩
  rw [taken]
  refine ⟨?_, fun g ne => ?_, ?_, fun q ne => ?_, ⟨rfl, rfl, rfl⟩, rfl, ?_⟩
  · show ((u.popHead (.host c)).modRecord h _).record h = _
    rw [State.record_modRecord, if_pos rfl, State.record_popHead]
    exact congrArg _ hr
  · show ((u.popHead (.host c)).modRecord h _).record g = _
    rw [State.record_modRecord, if_neg (Ne.symm ne), State.record_popHead]
    rfl
  · show ((u.popHead (.host c)).queue (.host c)).entries = rest
    rw [State.queue_popHead, if_pos rfl, uq]
    rfl
  · show (u.popHead (.host c)).queue q = _
    rw [State.queue_popHead, if_neg ne]
    rfl
  · refine Eq.trans ?_ (congrArg (State.answered _ 4 .ok) (claimResults_eq h r rest.length))
    rfl

end Sys2Proof.Machine
end

