-- ==== Sys2Proof/Proofs/DropOldest.lean ====
section
/-! SUPPORT. A full DROP_OLDEST host queue: the exchange of its head for the new frame, at an admission and at a delivery (sections 2.4,
2.5, 2.7 and 4.8). -/

namespace Sys2Proof.Machine

/-! ## Flags of other events -/

theorem State.flag_raise_of_ne (s : State) {e f : Event} (ne : f.bit ≠ e.bit) : (s.raise e).flag f = s.flag f := by
  have one : (1#14 <<< e.bit).getLsbD f.bit = false := by
    rw [BitVec.getLsbD_shiftLeft, BitVec.getLsbD_one]
    have apart : f.bit < e.bit ∨ f.bit - e.bit ≠ 0 := by omega
    rcases apart with below | above
    · simp [below]
    · simp [above]
  simp [State.raise, State.flag, one]

theorem Event.arrival_bit_lt (c : Cls) : (Event.arrival c).bit < 2 := by cases c <;> decide

theorem State.flag_arrival_countPart (s : State) (n : PartCounter) (c : Cls) :
    (s.countPart n).flag (.arrival c) = s.flag (.arrival c) := by
  have bit := Event.arrival_bit_lt c
  unfold State.countPart
  dsimp only
  split
  · refine State.flag_raise_of_ne _ fun e => ?_
    rw [e] at bit
    exact absurd bit (by decide)
  · rfl

/-- The drop of a head sets CMD_DONE at most. -/
theorem State.flag_arrival_dropHead (s : State) (q : QueueId) (h : Nat) (c : Cls) :
    (s.dropHead q h).flag (.arrival c) = s.flag (.arrival c) := by
  have before : ((s.popHead q).removeHolder h q.clear).flag (.arrival c) = s.flag (.arrival c) := by
    rw [State.flag, State.removeHolder_ev, (s.popHead_rest q).2.1]
    rfl
  rw [State.dropHead_eq, State.entryLeft_spec]
  split
  · refine Eq.trans (State.flag_raise_of_ne _ fun e => ?_) before
    have bit := Event.arrival_bit_lt c
    rw [e] at bit
    exact absurd bit (by decide)
  · exact before

/-! ## The exchange -/

/-- What the exchange of a full queue's head `g`, with its record `o`, for a frame `h` leaves, the frame's record then being `n`. -/
def State.Exchanged (s t : State) (c : Cls) (h g : Nat) (rest : List Nat) (o n : Record) : Prop :=
  (t.queue (.host c)).entries = rest ++ [h] ∧ t.record h = some n ∧
  (o.linkA = .none → o.linkB = .none → t.record g = none ∧ t.buf.free = s.buf.free ++ o.cells) ∧
  (¬(o.linkA = .none ∧ o.linkB = .none) → t.record g = some { o with host := .none } ∧ t.buf.free = s.buf.free) ∧
  (∀ k, k ≠ h → k ≠ g → t.record k = s.record k) ∧
  t.ev.counters.hrOldestDrop = s.ev.counters.hrOldestDrop + 1 ∧ t.flag .drop = true ∧
  (∀ x, t.flag (.arrival x) = s.flag (.arrival x)) ∧ s.FlushFollows t (s.Marks (.host c) [g])

section
variable {s t u : State} {c : Cls} {h g : Nat} {rest : List Nat} {o n n' : Record}

/-- An operation on the new frame after the exchange. -/
theorem State.Exchanged.after (e : s.Exchanged t c h g rest o n) (ne : h ≠ g) (queue : u.queue (.host c) = t.queue (.host c))
    (record : u.record h = some n') (others : ∀ k, k ≠ h → u.record k = t.record k) (free : u.buf.free = t.buf.free)
    (count : u.ev.counters.hrOldestDrop = t.ev.counters.hrOldestDrop) (drop : t.flag .drop = true → u.flag .drop = true)
    (arrival : ∀ x, u.flag (.arrival x) = t.flag (.arrival x)) (done : u.flag .cmdDone = t.flag .cmdDone) (flush : u.flush = t.flush)
    (hcu : u.hcu = t.hcu) : s.Exchanged u c h g rest o n' := by
  obtain ⟨tail, -, last, held, same, oldest, dropped, arrived, follows⟩ := e
  have at_g := others g (Ne.symm ne)
  refine ⟨by rw [queue, tail], record, fun a b => ?_, fun held' => ?_, fun k kh kg => (others k kh).trans (same k kh kg),
    count.trans oldest, drop dropped, fun x => (arrival x).trans (arrived x), follows.same_after flush done hcu⟩
  · rw [at_g, free]; exact last a b
  · rw [at_g, free]; exact held held'

/-- A refused part, counted after the exchange. -/
theorem State.Exchanged.countPart (e : s.Exchanged t c h g rest o n) (ne : h ≠ g) {p : PartCounter} (drop : p.isDrop = true)
    (other : p ≠ .hrOldestDrop) : s.Exchanged (t.countPart p) c h g rest o n :=
  e.after ne (by simp [State.queue]) (by rw [State.record_countPart]; exact e.2.1) (fun k _ => State.record_countPart _ _ _)
    (by rw [State.countPart_buf])
    (by rw [State.countPart_counter]; exact PartCounters.get_set_ne _ _ .hrOldestDrop _ other.symm)
    (fun _ => t.flag_countPart_drop drop) (t.flag_arrival_countPart p) (t.flag_cmdDone_countPart p) (t.countPart_flush p)
    (t.countPart_hcu p)

/-- An admitted forward part after the exchange. -/
theorem State.Exchanged.enterForward (e : s.Exchanged t c h g rest o n) (ne : h ≠ g) (l : LinkId) :
    s.Exchanged (t.enterForward l c h) c h g rest o (n.forwarded l) := by
  refine e.after ne ?_ ?_ (fun k kh => ?_) rfl rfl id (fun _ => rfl) rfl rfl rfl
  · exact State.queue_setEntries_ne _ _ _ _ nofun
  · rw [State.enterForward, State.record_modRecord, if_pos rfl]
    exact congrArg _ e.2.1
  · rw [State.enterForward, State.record_modRecord, if_neg (Ne.symm kh)]
    rfl

/-- The admission to a full DROP_OLDEST queue: the head dropped and counted, and no arrival, for the count is as it was. -/
theorem State.admitHost_dropOldest (hq : (s.queue (.host c)).entries = g :: rest) (full : (s.queue (.host c)).limit ≤ (g :: rest).length)
    (mode : (s.queues.hostCfg c).mode = .dropOldest) :
    s.admitHost c h = ((s.dropHead (.host c) g).countPart .hrOldestDrop).enterHost c h := by
  have dropped : s.dropOldest c = (s.dropHead (.host c) g).countPart .hrOldestDrop := by
    unfold State.dropOldest
    rw [hq]
  have count : ((((s.dropHead (.host c) g).countPart .hrOldestDrop).enterHost c h).queue (.host c)).entries.length = rest.length + 1 := by
    rw [State.enterHost, State.queue_modRecord, State.append, State.queue_setEntries, State.queue, State.countPart_queues, ← State.queue,
      State.queue_dropHead, if_pos rfl, hq, List.length_append]
    rfl
  have isFull : (s.queue (.host c)).full = true := (FrameQueue.full_iff _).2 (by rw [hq]; exact full)
  unfold State.admitHost
  dsimp only
  rw [if_pos isFull, mode, dropped]
  unfold State.noteArrival
  rw [count, hq]
  exact if_neg fun crossed => by simp only [List.length_cons] at crossed; omega

theorem State.admitHost_dropOldest_counters (hq : (s.queue (.host c)).entries = g :: rest)
    (full : (s.queue (.host c)).limit ≤ (g :: rest).length) (mode : (s.queues.hostCfg c).mode = .dropOldest) :
    (s.admitHost c h).ev.counters = s.ev.counters.set .hrOldestDrop (s.ev.counters.hrOldestDrop + 1) := by
  rw [State.admitHost_dropOldest hq full mode]
  show ((s.dropHead (.host c) g).countPart .hrOldestDrop).ev.counters = _
  rw [State.countPart_counter, (s.dropHead_counters _ g).1]
  rfl

theorem State.admitHost_exchanged {r : Record} (hq : (s.queue (.host c)).entries = g :: rest)
    (full : (s.queue (.host c)).limit ≤ (g :: rest).length) (mode : (s.queues.hostCfg c).mode = .dropOldest) (hr : s.record h = some r)
    (ho : s.record g = some o) (ne : h ≠ g) :
    s.Exchanged (s.admitHost c h) c h g rest o r.withHostQueued ∧ ∀ q, q ≠ .host c → (s.admitHost c h).queue q = s.queue q := by
  obtain ⟨v, hv⟩ : ∃ v, v = (s.dropHead (.host c) g).countPart .hrOldestDrop := ⟨_, rfl⟩
  have queue : ∀ q, v.queue q = (s.dropHead (.host c) g).queue q := fun q => by rw [hv]; simp [State.queue]
  have record : ∀ k, v.record k = (s.dropHead (.host c) g).record k := fun k => by rw [hv, State.record_countPart]
  have free : v.buf.free = (s.dropHead (.host c) g).buf.free := by rw [hv, State.countPart_buf]
  have admits := v.admits_append (.host c) h Record.withHostQueued
  have others : ∀ k, k ≠ h → (v.enterHost c h).record k = (s.dropHead (.host c) g).record k := fun k kh => by
    rw [State.enterHost, State.record_modRecord, if_neg (Ne.symm kh), ← record]
    rfl
  have last := Record.refCount_eq_zero ((QueueId.host c).clear o)
  rw [State.admitHost_dropOldest hq full mode, ← hv]
  refine ⟨⟨?_, ?_, fun a b => ?_, fun held => ?_, fun k kh kg => ?_, ?_, ?_, fun x => ?_, ?_⟩, fun q nq => ?_⟩
  · refine admits.tail.trans ?_
    rw [queue, State.queue_dropHead, if_pos rfl, hq]
    rfl
  · refine admits.record.trans ?_
    rw [record, State.record_dropHead, if_neg (Ne.symm ne), hr]
    rfl
  · obtain ⟨gone, freed⟩ := State.dropHead_last ho (.host c) (last.2 ⟨rfl, a, b⟩)
    exact ⟨(others g (Ne.symm ne)).trans gone, admits.free.trans (free.trans freed)⟩
  · obtain ⟨kept, same⟩ := State.dropHead_held ho (.host c) (mt last.1 fun none => held none.2)
    exact ⟨(others g (Ne.symm ne)).trans kept, admits.free.trans (free.trans same)⟩
  · rw [others k kh, State.record_dropHead, if_neg (Ne.symm kg)]
  · have counters := State.admitHost_dropOldest_counters (h := h) hq full mode
    rw [State.admitHost_dropOldest hq full mode, ← hv] at counters
    rw [counters]
    rfl
  · show v.flag .drop = true
    rw [hv]
    exact State.flag_countPart_drop _ rfl
  · show v.flag (.arrival x) = _
    rw [hv, State.flag_arrival_countPart, State.flag_arrival_dropHead]
  · have counted := (s.dropHead_flush (.host c) g).same_after (u := v) (by rw [hv, State.countPart_flush])
      (by rw [hv, State.flag_cmdDone_countPart]) (by rw [hv, State.countPart_hcu])
    exact counted.same_after rfl rfl rfl
  · refine (admits.others q nq).trans ?_
    rw [queue, State.queue_dropHead, if_neg nq]

end

/-! ## Deliveries -/

/-- The tests of a forward part read of the link its state alone. -/
theorem State.forwardRefusal_of_state {s t : State} {l : LinkId} {r : Record} (state : (t.port l).state = (s.port l).state)
    (queue : t.queue (.tx l r.cls) = s.queue (.tx l r.cls)) : t.forwardRefusal l r = s.forwardRefusal l r := by
  unfold State.forwardRefusal
  rw [state, queue]

theorem State.forwardRefusal_ne_oldestDrop {s : State} {l : LinkId} {r : Record} {n : PartCounter} (e : s.forwardRefusal l r = some n) :
    n ≠ .hrOldestDrop := by
  unfold State.forwardRefusal at e
  split at e
  · cases e; nofun
  · split at e
    · cases e; nofun
    · split at e
      · cases e; nofun
      · cases e

/-- Settles O38: the exchange at the admission, and the parts of a delivery that follow it. -/
theorem dropOldestResult : Obligations.DropOldestResult := by
  unfold Obligations.DropOldestResult
  intro s c h g rest r o hq full mode hr ho ne
  obtain ⟨exchanged, queue⟩ := State.admitHost_exchanged hq full mode hr ho ne
  refine ⟨exchanged, queue, fun l cls source => ?_⟩
  subst cls
  have record := exchanged.2.1
  have refusal : (s.admitHost r.cls h).forwardRefusal l.other r = s.forwardRefusal l.other r :=
    State.forwardRefusal_of_state ((s.admitHost_parts r.cls h).1.state _) (queue _ nofun)
  refine ⟨fun act => ?_, fun act n refused => ?_, fun act admitted => ?_⟩
  · have parts : s.deliverParts l h r = s.admitHost r.cls h := by rw [State.deliverParts, act]
    rw [State.deliver_admitted hr source (by rw [parts]; exact record) r.refCount_withHostQueued, parts]
    exact ⟨exchanged, queue⟩
  · have parts : s.deliverParts l h r = (s.admitHost r.cls h).countPart n := by
      rw [State.deliverParts_both act, State.admitForward_refused _ _ _ _ _ (refusal.trans refused)]
    have other := State.forwardRefusal_ne_oldestDrop refused
    have counted := exchanged.countPart ne (State.forwardRefusal_isDrop refused).1 other
    rw [State.deliver_admitted hr source (by rw [parts]; exact counted.2.1) r.refCount_withHostQueued, parts]
    refine ⟨counted, ?_, fun q nq => ?_⟩
    · rw [State.countPart_counter, PartCounters.get_set, State.admitHost_dropOldest_counters hq full mode,
        PartCounters.get_set_ne _ _ _ _ other]
    · rw [State.queue, State.countPart_queues, ← State.queue]
      exact queue q nq
  · have parts : s.deliverParts l h r = (s.admitHost r.cls h).enterForward l.other r.cls h := by
      rw [State.deliverParts_both act, State.admitForward_admitted _ _ _ _ (refusal.trans admitted)]
      rfl
    have entered := exchanged.enterForward ne l.other
    rw [State.deliver_admitted hr source (by rw [parts]; exact entered.2.1) (Record.refCount_forwarded _ _), parts]
    have admits := (s.admitHost r.cls h).admits_append (.tx l.other r.cls) h fun x => x.forwarded l.other
    refine ⟨?_, ?_, fun q nh nt => (admits.others q nt).trans (queue q nh)⟩
    · cases l <;> exact entered
    · exact admits.tail.trans (by rw [queue (.tx l.other r.cls) QueueId.noConfusion])

end Sys2Proof.Machine
end

