-- ==== Sys2Proof/Proofs/SettingsWrites.lean ====
section
/-! SUPPORT. The writes of the settings, register by register and field by field (sections 2.3 to 2.5, 3.9, 7.6 and 10.1). -/

namespace Sys2Proof.Machine

/-! ## Fields -/

theorem field_eq (v : Word) (hi lo : Nat) : field v hi lo = v.toNat / 2 ^ lo % 2 ^ (hi + 1 - lo) := by
  rw [field, BitVec.toNat_ushiftRight, Nat.shiftRight_eq_div_pow]

theorem bit_eq (v : Word) (i : Nat) : v.getLsbD i = (v.toNat / 2 ^ i % 2 == 1) := by
  rw [BitVec.getLsbD, Nat.testBit_eq_decide_div_mod_eq]
  rfl

/-- A field whose range begins at 0. -/
theorem taken_from_zero (hi value old : Nat) : taken 0 hi value old = if value ≤ hi then value else old := by
  simp [taken]

/-- A field that cannot exceed its range. -/
theorem taken_of_le {lo hi value : Nat} (h : value ≤ hi) (old : Nat) : taken lo hi value old = if lo ≤ value then value else old := by
  simp [taken, h]

/-- The admission mode of a queue by its bit. -/
theorem admissionModeOfBit_eq (v : Word) (i : Nat) :
    admissionModeOfBit (v.getLsbD i) = if v.toNat / 2 ^ i % 2 = 1 then .dropOldest else .tailDrop := by
  rw [bit_eq, admissionModeOfBit]
  simp

/-! ## The settings of a link -/

section
variable (c : LinkCfg) (v : Word)

theorem LinkCfg.writeFlow_eq :
    c.writeFlow v =
      { c with
        window := taken 1 32 (v.toNat % 64) c.window
        ackStep := taken 1 8 (v.toNat / 256 % 16) c.ackStep
        ackDelay := taken 1 64 (v.toNat / 65536 % 128) c.ackDelay
        grantStep := taken 1 64 (v.toNat / 16777216 % 128) c.grantStep } := by
  simp [LinkCfg.writeFlow, field_eq]

theorem LinkCfg.writeAllow_eq :
    c.writeAllow v =
      { c with
        allowC := if v.toNat % 128 ≤ 64 then v.toNat % 128 else c.allowC
        allowD := if v.toNat / 65536 % 1024 ≤ 1008 then v.toNat / 65536 % 1024 else c.allowD } := by
  simp [LinkCfg.writeAllow, field_eq, taken_from_zero]

theorem LinkCfg.writeReplay_eq :
    c.writeReplay v =
      { c with
        replayTimeout := if 1 ≤ v.toNat % 256 then v.toNat % 256 else c.replayTimeout
        replayLimit := if 1 ≤ v.toNat / 256 % 16 then v.toNat / 256 % 16 else c.replayLimit
        keepInterval := taken 1 64 (v.toNat / 65536 % 128) c.keepInterval
        grantRefresh := if 1 ≤ v.toNat / 16777216 % 256 then v.toNat / 16777216 % 256 else c.grantRefresh } := by
  have timeout := taken_of_le (lo := 1) (hi := 255) (value := v.toNat % 256) (by omega) c.replayTimeout
  have limit := taken_of_le (lo := 1) (hi := 15) (value := v.toNat / 256 % 16) (by omega) c.replayLimit
  have refresh := taken_of_le (lo := 1) (hi := 255) (value := v.toNat / 16777216 % 256) (by omega) c.grantRefresh
  rw [← timeout, ← limit, ← refresh]
  simp [LinkCfg.writeReplay, field_eq]

theorem LinkCfg.writeStart_eq :
    c.writeStart v =
      { c with
        greetTimeout := taken 1 64 (v.toNat % 128) c.greetTimeout
        holdDown := if 1 ≤ v.toNat / 256 % 256 then v.toNat / 256 % 256 else c.holdDown
        autoRestart := v.toNat / 65536 % 2 == 1 } := by
  have hold := taken_of_le (lo := 1) (hi := 255) (value := v.toNat / 256 % 256) (by omega) c.holdDown
  rw [← hold, LinkCfg.writeStart, bit_eq]
  simp [field_eq]

end

/-- A write of a link's register that changes its settings alone. -/
theorem State.modCfg_eq (s : State) (l : LinkId) {f : LinkCfg → LinkCfg} {c : LinkCfg} (h : f (s.port l).cfg = c) :
    s.modCfg l f = s.setPort l { s.port l with cfg := c } := by
  rw [← h]; rfl

/-! ## The registers of the part -/

theorem State.exec_writeLimit (s : State) (q : QueueId) (v : Word) :
    exec (.registerWrite (BitVec.ofNat 7 (23 + q.code)) v) s = .next (s.writeLimit q v) := by
  rcases q with (_ | _) | ⟨_ | _, _ | _⟩ <;> rfl

theorem State.writeHrConfig_eq (s : State) (v : Word) :
    s.writeHrConfig v =
      { s with queues := { s.queues with
          hrcCfg :=
            { mode := if v.toNat % 2 = 1 then .dropOldest else .tailDrop
              notify := taken 1 256 (v.toNat / 16 % 512) s.queues.hrcCfg.notify }
          hrdCfg :=
            { mode := if v.toNat / 2 % 2 = 1 then .dropOldest else .tailDrop
              notify := taken 1 256 (v.toNat / 65536 % 512) s.queues.hrdCfg.notify } } } := by
  unfold State.writeHrConfig
  rw [admissionModeOfBit_eq, admissionModeOfBit_eq]
  simp [field_eq]

/-- Settles O22: each register's write by its fields. -/
theorem settingsWriteResult : Obligations.SettingsWriteResult := by
  unfold Obligations.SettingsWriteResult
  refine ⟨fun s q v => ?_, fun s l v => ?_, fun s v => ?_, fun s l v => ?_, fun s l v => ?_, fun s l v => ?_, fun s v => ?_⟩
  · have limit : field v 24 16 = v.toNat / 65536 % 512 := field_eq v 24 16
    refine ⟨s.writeLimit q v, s.exec_writeLimit q v, ?_, fun p ne => ?_, rfl, ?_, ?_⟩
    · rw [State.queue_writeLimit, if_pos rfl, limit]; rfl
    · rw [State.queue_writeLimit, if_neg ne]
    · simp [State.writeLimit]
    · simp [State.writeLimit]
  · refine Eq.trans (b := .next (s.modCfg l fun c => c.writeFlow v)) (by cases l <;> rfl) ?_
    exact congrArg Host.Outcome.next (s.modCfg_eq l ((s.port l).cfg.writeFlow_eq v))
  · exact congrArg Host.Outcome.next (s.writeHrConfig_eq v)
  · refine Eq.trans (b := .next (s.modCfg l fun c => c.writeAllow v)) (by cases l <;> rfl) ?_
    exact congrArg Host.Outcome.next (s.modCfg_eq l ((s.port l).cfg.writeAllow_eq v))
  · refine Eq.trans (b := .next (s.modCfg l fun c => c.writeReplay v)) (by cases l <;> rfl) ?_
    exact congrArg Host.Outcome.next (s.modCfg_eq l ((s.port l).cfg.writeReplay_eq v))
  · refine Eq.trans (b := .next (s.modCfg l fun c => c.writeStart v)) (by cases l <;> rfl) ?_
    exact congrArg Host.Outcome.next (s.modCfg_eq l ((s.port l).cfg.writeStart_eq v))
  · have low : field v 7 0 = v.toNat % 256 := (field_eq v 7 0).trans (by simp)
    refine ⟨fun a b one most => ?_, fun no => congrArg Host.Outcome.next ?_⟩
    · have value : BitVec.ofNat 8 (taken 1 254 (field v 7 0) s.nodeAddr.toNat) = v.setWidth 8 := by
        rw [low, taken, if_pos ⟨one, most⟩]
        exact BitVec.eq_of_toNat_eq (by simp)
      refine congrArg Host.Outcome.next ?_
      unfold State.writeNodeAddr
      rw [if_pos ⟨a, b⟩, value]
    · unfold State.writeNodeAddr
      split
      · rename_i both
        have out : ¬(1 ≤ v.toNat % 256 ∧ v.toNat % 256 ≤ 254) := by
          rcases no with a | b | zero | last
          · exact absurd both.1 a
          · exact absurd both.2 b
          · omega
          · omega
        rw [low, taken, if_neg out, BitVec.ofNat_toNat, BitVec.setWidth_eq]
      · rfl

end Sys2Proof.Machine
end

