-- ==== Sys2Proof/Proofs/LinkPorts.lean ====
section
/-! SUPPORT. The steps of a link's bring-up as writes of its port, and what its receiver does with a valid block by the state of the
link (sections 3.2 to 3.6). -/

namespace Sys2Proof.Machine

/-! ## Writes of a port -/

theorem State.modPort_eq (s : State) (l : LinkId) (f : LinkPort → LinkPort) : s.modPort l f = s.setPort l (f (s.port l)) := rfl

theorem State.modRx_setPort (s : State) (l : LinkId) (p : LinkPort) (f : Receiver → Receiver) :
    (s.setPort l p).modRx l f = s.setPort l { p with rx := f p.rx } := by
  cases l <;> rfl

/-- A counter that is no drop counter changes the port alone. -/
theorem State.countLink_eq (s : State) (l : LinkId) {n : LinkCounter} (plain : n.isDrop = false) :
    s.countLink l n =
      s.setPort l { s.port l with counters := (s.port l).counters.set n ((s.port l).counters.get n + 1) } := by
  unfold State.countLink
  rw [plain]
  rfl

theorem State.port_raise (s : State) (e : Event) (l : LinkId) : (s.raise e).port l = s.port l := by cases l <;> rfl

theorem Receiver.passing_no {r : Receiver} (h : r.passing = .no) : { r with passing := .no } = r := by rw [← h]

theorem LinkState.live_iff (x : LinkState) : x.live = true ↔ x = .hunt ∨ x = .greet ∨ x = .active := by
  cases x <;> simp [LinkState.live]

theorem LinkState.live_eq_false (x : LinkState) : x.live = false ↔ x = .disabled ∨ x = .fault := by
  cases x <;> simp [LinkState.live]

theorem LinkPort.live_of_hunt {p : LinkPort} (h : p.state = .hunt) : p.state.live = true := by rw [h]; rfl

theorem LinkPort.live_of_greet {p : LinkPort} (h : p.state = .greet) : p.state.live = true := by rw [h]; rfl

theorem LinkPort.live_of_active {p : LinkPort} (h : p.state = .active) : p.state.live = true := by rw [h]; rfl

/-! ## HAILs -/

/-- A port whose HAIL begins to go out. -/
def LinkPort.hailing (p : LinkPort) (node : Byte) : LinkPort :=
  { p with
    hailTimer := some (1000 * p.cfg.hailInterval)
    tx := { p.tx with hailDue := false, line := .control (.hail node 1 p.hailReceived) } }

/-- A port whose HAIL is due: it begins on a free line, and waits otherwise. -/
def LinkPort.hailed (p : LinkPort) (node : Byte) : LinkPort :=
  if p.tx.line = .none then p.hailing node else { p with tx := { p.tx with hailDue := true } }

theorem State.beginHail_eq (s : State) (l : LinkId) : s.beginHail l = s.setPort l ((s.port l).hailing s.nodeAddr) := rfl

theorem State.hailNow_eq (s : State) (l : LinkId) : s.hailNow l = s.setPort l ((s.port l).hailed s.nodeAddr) := by
  unfold State.hailNow LinkPort.hailed
  split
  · rfl
  · rfl

theorem LinkPort.hailed_free {p : LinkPort} (h : p.tx.line = .none) (node : Byte) : p.hailed node = p.hailing node := if_pos h

theorem LinkPort.hailed_taken {p : LinkPort} (h : p.tx.line ≠ .none) (node : Byte) :
    p.hailed node = { p with tx := { p.tx with hailDue := true } } := if_neg h

/-- A HAIL due changes the HAIL timer, the line and what waits for it alone. -/
theorem LinkPort.hailed_parts (p : LinkPort) (node : Byte) :
    p.hailed node =
      { p with
        hailTimer := (p.hailed node).hailTimer
        tx := { p.tx with hailDue := (p.hailed node).tx.hailDue, line := (p.hailed node).tx.line } } := by
  unfold LinkPort.hailed
  split <;> rfl

/-! ## The runs, and the entries to GREET and ACTIVE -/

/-- A port with no frame in progress after a valid block has been counted in HUNT or GREET. -/
def LinkPort.counted (p : LinkPort) : LinkPort :=
  { p with validRun := p.validRun + 1, invalidRun := 0, rx := { p.rx with passing := .no } }

/-- A port at the beginning of a session, before its first HAIL is due. -/
def LinkPort.sessionBegun (p : LinkPort) : LinkPort :=
  { p with
    state := .greet, partner := 0, hailReceived := false, yesSent := false, validRun := 0, invalidRun := 0
    greetTimer := some (10000 * p.cfg.greetTimeout), refreshTimer := none
    rx := { p.rx with expected := 0 }
    tx := { p.tx with nextSeq := 0, liveWindow := p.cfg.window }
    ctl := p.ctl.greet p.cfg.allowC
    dat := p.dat.greet p.cfg.allowD }

theorem State.marker_countValid (s : State) (l : LinkId) (h : (s.port l).rx.frame = none) :
    (s.marker l).countValid l = s.setPort l (s.port l).counted := by
  rw [s.marker_clear l h]
  cases l <;> rfl

theorem State.enterHunt_eq (s : State) (l : LinkId) :
    s.enterHunt l =
      s.setPort l
        { s.port l with
          state := .hunt, validRun := 0, invalidRun := 0, holdTimer := none
          tx := { (s.port l).tx with line := .control .keep } } := rfl

theorem State.enterGreet_eq (s : State) (l : LinkId) :
    s.enterGreet l = s.setPort l ((s.port l).sessionBegun.hailed s.nodeAddr) := by
  have begun : s.enterGreet l = (s.setPort l (s.port l).sessionBegun).hailNow l := rfl
  rw [begun, State.hailNow_eq, State.port_setPort, State.setPort_setPort, State.setPort_nodeAddr]

/-- A valid block in HUNT is counted, and the fourth in a row begins a session. -/
theorem State.marker_huntBlock (s : State) (l : LinkId) (h : (s.port l).rx.frame = none) :
    (s.marker l).huntBlock l =
      if 4 ≤ (s.port l).validRun + 1 then s.setPort l ((s.port l).counted.sessionBegun.hailed s.nodeAddr)
      else s.setPort l (s.port l).counted := by
  unfold State.huntBlock
  rw [s.marker_countValid l h]
  dsimp only
  rw [State.enterGreet_eq, State.port_setPort, State.setPort_setPort, State.setPort_nodeAddr]
  rfl

/-- What a class has grantable reads of a port its live allowances, in-use and outstanding grants alone. -/
theorem State.grantable_congr {s t : State} {l : LinkId} (buf : t.buf = s.buf)
    (credit : ∀ k c, { (t.port k).credit c with due := false } = { (s.port k).credit c with due := false }) (c : Cls) :
    t.grantable l c = s.grantable l c := by
  have live : ∀ k c, ((t.port k).credit c).live = ((s.port k).credit c).live := fun k c => (congrArg CreditClass.live (credit k c) :)
  have inUse : ∀ k c, ((t.port k).credit c).inUse = ((s.port k).credit c).inUse := fun k c => (congrArg CreditClass.inUse (credit k c) :)
  have outstanding : ∀ k c, ((t.port k).credit c).outstanding = ((s.port k).credit c).outstanding := fun k c =>
    (congrArg CreditClass.outstanding (credit k c) :)
  unfold State.grantable
  dsimp only
  rw [live, inUse, outstanding, State.totalOutstanding_congr outstanding, State.freeCount, buf]
  rfl

theorem State.dueAtEntry_eq (s : State) (l : LinkId) (c : Cls) :
    s.dueAtEntry l c = s.modCredit l c fun k => { k with due := k.due || decide (0 < s.grantable l c) } := by
  unfold State.dueAtEntry State.makeDue
  split
  · rename_i some; simp [some]
  · rename_i none
    simp only [none, decide_false, Bool.or_false]
    cases l <;> cases c <;> rfl

/-- A port on its entry to ACTIVE, before the GRANTs that are due at it. -/
def LinkPort.activated (p : LinkPort) : LinkPort :=
  { p with
    state := .active, align := .aligned, validRun := 0, invalidRun := 0, greetTimer := none, hailTimer := none
    silenceTimer := some (1000 * p.cfg.silenceTimeout), refreshTimer := some (100 * p.cfg.grantRefresh)
    tx := { p.tx with hailDue := false } }

/-- A port with what is due of each class at an entry to ACTIVE. -/
def LinkPort.granting (p : LinkPort) (ctl dat : Bool) : LinkPort :=
  { p with ctl := { p.ctl with due := p.ctl.due || ctl }, dat := { p.dat with due := p.dat.due || dat } }

theorem State.enterActive_eq (s : State) (l : LinkId) :
    s.enterActive l =
      (s.setPort l ((s.port l).activated.granting (decide (0 < s.grantable l .control)) (decide (0 < s.grantable l .data)))).raise
        (.linkUp l) := by
  have entered : s.enterActive l = (((s.setPort l (s.port l).activated).dueAtEntry l .control).dueAtEntry l .data).raise (.linkUp l) := rfl
  have control : (s.setPort l (s.port l).activated).grantable l .control = s.grantable l .control :=
    State.grantable_congr (s.setPort_buf l _) (fun k c => by cases l <;> cases k <;> cases c <;> rfl) .control
  have data : ((s.setPort l (s.port l).activated).dueAtEntry l .control).grantable l .data = s.grantable l .data := by
    rw [State.dueAtEntry_eq]
    exact State.grantable_congr ((State.modCredit_buf _ l _ _).trans (s.setPort_buf l _))
      (fun k c => by cases l <;> cases k <;> cases c <;> rfl) .data
  rw [entered, State.dueAtEntry_eq _ l .data, data, State.dueAtEntry_eq, control]
  cases l <;> rfl

theorem Event.eq_linkUp {x : Event} {l : LinkId} (h : x.bit = (Event.linkUp l).bit) : x = .linkUp l := by
  cases l <;> cases x <;> simp_all [Event.bit, Event.linkUp]

theorem State.flag_raise_linkUp (s : State) (l : LinkId) (x : Event) : (s.raise (.linkUp l)).flag x = (s.flag x || x == .linkUp l) := by
  by_cases e : x = .linkUp l
  · rw [e, State.flag_raise]; simp
  · rw [State.flag_raise_of_ne _ fun bit => e (Event.eq_linkUp bit)]; simp [e]

/-- A block that completes the greeting is counted and enters ACTIVE. -/
theorem State.enteredActive (s : State) (l : LinkId) : s.EnteredActive ((s.setPort l (s.port l).counted).enterActive l) l := by
  have grants : ∀ c, (s.setPort l (s.port l).counted).grantable l c = s.grantable l c :=
    State.grantable_congr (s.setPort_buf l _) fun k c => by cases l <;> cases k <;> cases c <;> rfl
  rw [State.enterActive_eq, State.port_setPort, State.setPort_setPort, grants, grants]
  refine ⟨?_, fun x => ?_, ?_⟩
  · rw [State.port_raise, State.port_setPort]; rfl
  · rw [State.flag_raise_linkUp, State.flag, State.setPort_ev]; rfl
  · rw [State.port_raise, State.port_setPort]
    cases l <;> rfl

/-! ## Valid blocks by the state of the link -/

section
variable {s t : State} {l : LinkId} {act : State → State}

/-- What arrives in a live state has its effect, and what follows every step follows it. -/
theorem State.next_received (live : (s.port l).state.live = true) (effect : act s = t) :
    (.next (s.received l act) : Answer) = .next (t.settle s) := by
  rw [s.received_live l act live, effect]

theorem State.validControl_hunt (hunt : (s.port l).state = .hunt) : s.validControl l act = (s.marker l).huntBlock l := by
  simp [State.validControl, hunt]

/-- A block other than HAIL before the partner's HAIL is counted. -/
theorem State.validControl_early (greet : (s.port l).state = .greet) (frame : (s.port l).rx.frame = none)
    (early : (s.port l).hailReceived = false) : s.validControl l act = s.setPort l (s.port l).counted := by
  simp [State.validControl, greet, s.marker_countValid l frame, LinkPort.counted, early]

/-- A block other than HAIL after the partner's HAIL enters ACTIVE, and is then handled. -/
theorem State.validControl_late (greet : (s.port l).state = .greet) (frame : (s.port l).rx.frame = none)
    (late : (s.port l).hailReceived = true) :
    s.validControl l act = act ((s.setPort l (s.port l).counted).enterActive l) := by
  simp [State.validControl, greet, s.marker_countValid l frame, LinkPort.counted, late]

theorem State.validControl_active (active : (s.port l).state = .active) (frame : (s.port l).rx.frame = none) :
    s.validControl l act = act (s.setPort l (s.port l).afterValid) := by
  simp [State.validControl, active, s.marker_activeBlock l frame]

end

end Sys2Proof.Machine
end

