-- ==== Sys2Proof/Proofs/LinkCommands.lean ====
section
/-! SUPPORT. What an entry to FAULT and a teardown on the way to DISABLED leave, and LINK_START and LINK_STOP
(sections 3.3, 3.7, 3.8 and 7.4). -/

namespace Sys2Proof.Machine

/-! ## Entries to FAULT -/

theorem State.noteGrants_self (s : State) : s.noteGrants s = s := by
  have same : ∀ l c, s.noteGrant s l c = s := fun l c => if_neg fun on => on.2.1 rfl
  simp only [State.noteGrants, same]

/-- What an entry to FAULT leaves, before any GRANT that it makes due. -/
theorem State.enterFault_leaves (s : State) (l : LinkId) (reason : FaultReason) : s.FaultedBy (s.enterFault l reason) l reason := by
  have left := s.enterFault_faultedBy (s.enterFault l reason) l reason
  rwa [State.noteGrants_self] at left

/-- The parts of a port that the statement of a teardown reads. -/
structure LinkPort.SameSession (p q : LinkPort) : Prop where
  state : q.state = p.state
  partner : q.partner = p.partner
  cfg : q.cfg = p.cfg
  frame : q.rx.frame = p.rx.frame
  tx : q.tx = p.tx
  ctl : q.ctl = p.ctl
  dat : q.dat = p.dat
  counters : q.counters = p.counters

/-- A write of a port that leaves these parts, before an entry to FAULT. -/
theorem State.FaultedBy.of_setPort {s t : State} {l : LinkId} {q : LinkPort} {reason : FaultReason}
    (h : (s.setPort l q).FaultedBy t l reason) (same : (s.port l).SameSession q) : s.FaultedBy t l reason := by
  obtain ⟨state, partner, cfg, frame, tx, ctl, dat, counters⟩ := same
  have filling : (s.setPort l q).fillingHandles l = s.fillingHandles l := by
    rw [State.fillingHandles, State.port_setPort, frame]; rfl
  have dropped : (s.setPort l q).droppedHandles l = s.droppedHandles l := by
    simp only [State.droppedHandles_eq, State.sendingHandles, State.port_setPort, tx, State.queue_setPort]
  have alone : ∀ hs, (s.setPort l q).heldByLinkAlone l hs = s.heldByLinkAlone l hs := fun hs =>
    State.heldByLinkAlone_congr fun h _ => s.record_setPort l q h
  have inUse : ∀ k c, (((s.setPort l q).port k).credit c).inUse = ((s.port k).credit c).inUse := fun k c => by
    rw [← State.setPort_port s l, State.setPort_setPort]
    cases l <;> cases k <;> cases c <;> simp_all [LinkPort.credit]
  have freed : ∀ rs, (s.setPort l q).ChainsFreed t rs ↔ s.ChainsFreed t rs := fun rs => by
    simp only [State.ChainsFreed, State.setPort_buf, inUse]
  have records : (s.setPort l q).record = s.record := funext (s.record_setPort l q)
  have marks : (s.setPort l q).MarksSide l ↔ s.MarksSide l := by
    simp only [State.MarksSide, State.Marks, State.queue_setPort, State.setPort_flush]
  have flag : ∀ x, (s.setPort l q).flag x = s.flag x := fun x => by rw [State.flag, State.setPort_ev]; rfl
  simp only [State.FaultedBy, State.TornDown, State.FlushFollows, State.flushDone, State.SameElsewhere, State.SameCells, filling, dropped,
    alone, freed, records, marks, flag, State.port_setPort, State.port_setPort_other, State.queue_setPort, State.setPort_flush,
    State.setPort_hcu, State.setPort_ev, State.setPort_ready, State.setPort_table, State.setPort_nodeAddr, State.setPort_scrub,
    State.setPort_reports, State.setPort_pending, State.setPort_buf, state, partner, cfg, tx, counters] at h ⊢
  exact h

theorem LinkPort.afterValid_partner (p : LinkPort) : p.afterValid.partner = p.partner := by
  unfold LinkPort.afterValid
  dsimp only
  split <;> rfl

/-- The count of a valid block leaves these parts. -/
theorem LinkPort.afterValid_sameSession (p : LinkPort) : p.SameSession p.afterValid :=
  ⟨p.afterValid_state, p.afterValid_partner, p.afterValid_cfg, p.afterValid_frame, p.afterValid_tx, p.afterValid_ctl, p.afterValid_dat,
    p.afterValid_counters⟩

theorem LinkPort.counted_sameSession (p : LinkPort) : p.SameSession p.counted :=
  ⟨rfl, rfl, rfl, rfl, rfl, rfl, rfl, rfl⟩

/-- An entry to FAULT at a block, once the block has been counted. -/
theorem State.enterFault_after {s : State} {l : LinkId} {q : LinkPort} (same : (s.port l).SameSession q) (reason : FaultReason) :
    s.FaultedBy ((s.setPort l q).enterFault l reason) l reason :=
  ((s.setPort l q).enterFault_leaves l reason).of_setPort same

/-! ## A teardown on the way to DISABLED -/

/-- The state of a port changed at the end of a teardown, with what the counter and the event of a fall out of ACTIVE add. -/
theorem State.teardown_eq (s : State) (l : LinkId) (target : LinkState) :
    s.teardown l target =
      if s.isActive l then (((s.unburdened l).clearSession l).modPort l fun p => { p with state := target }).noteDown l
      else ((s.unburdened l).clearSession l).modPort l fun p => { p with state := target } := by
  have session := (s.cleared_veilEq l target).clearSession (by simp [State.cleared_state])
  rw [← session]
  rfl

/-- Teardowns on the way to different states differ in the state alone. -/
theorem State.teardown_target (s : State) (l : LinkId) (a b : LinkState) :
    s.teardown l a = (s.teardown l b).modPort l fun p => { p with state := a } := by
  rw [s.teardown_eq l a, s.teardown_eq l b]
  generalize (s.unburdened l).clearSession l = u
  split
  · cases l <;> rfl
  · cases l <;> rfl

/-- What is left of a teardown does not speak of the state that it led to, nor of the hold-down timer. -/
theorem State.TornDown.restated {s t : State} {l : LinkId} {p : LinkPort} (h : s.TornDown (t.setPort l p) l) (x : LinkState) (y : Timer) :
    s.TornDown (t.setPort l { p with state := x, holdTimer := y }) l := by
  have inUse : ∀ k c, (((t.setPort l { p with state := x, holdTimer := y }).port k).credit c).inUse =
      (((t.setPort l p).port k).credit c).inUse := fun k c => by cases l <;> cases k <;> cases c <;> rfl
  have freed : ∀ rs, s.ChainsFreed (t.setPort l { p with state := x, holdTimer := y }) rs ↔ s.ChainsFreed (t.setPort l p) rs := fun rs => by
    simp only [State.ChainsFreed, State.setPort_buf, inUse]
  have flag : ∀ q z, (t.setPort l q).flag z = t.flag z := fun q z => by rw [State.flag, State.setPort_ev]; rfl
  simp only [State.TornDown, State.SameElsewhere, State.SameCells, freed, flag, State.port_setPort, State.port_setPort_other,
    State.queue_setPort, State.record_setPort, State.setPort_flush, State.setPort_ev, State.setPort_ready, State.setPort_table,
    State.setPort_nodeAddr, State.setPort_scrub, State.setPort_reports, State.setPort_pending, State.setPort_buf] at h ⊢
  exact h

theorem State.enterFault_lastFault (s : State) (l : LinkId) :
    s.enterFault l (s.port l).lastFault = (s.teardown l .fault).modPort l fun p => { p with holdTimer := some p.cfg.holdDownUs } := by
  have kept : (s.modPort l fun p => { p with lastFault := (s.port l).lastFault }) = s := s.setPort_port l
  unfold State.enterFault
  rw [kept]

theorem State.teardown_holdTimer (s : State) (l : LinkId) (target : LinkState) : ((s.teardown l target).port l).holdTimer = none := by
  unfold State.teardown
  dsimp only
  split
  · rw [State.port_raise, State.port_countLink, State.clearSession, State.port_modPort]
  · rw [State.clearSession, State.port_modPort]

/-- What a teardown on the way to DISABLED leaves. -/
theorem State.teardown_disabled (s : State) (l : LinkId) :
    ((s.teardown l .disabled).port l).state = .disabled ∧ ((s.teardown l .disabled).port l).lastFault = (s.port l).lastFault ∧
      ((s.teardown l .disabled).port l).holdTimer = none ∧ s.TornDown (s.teardown l .disabled) l ∧
      s.FlushFollows (s.teardown l .disabled) (s.MarksSide l) := by
  have hold := s.teardown_holdTimer l .disabled
  obtain ⟨-, reason, -, torn, follows⟩ := s.enterFault_leaves l (s.port l).lastFault
  rw [State.enterFault_lastFault] at reason torn follows
  rw [s.teardown_target l .disabled .fault] at hold ⊢
  refine ⟨by rw [State.port_modPort], ?_, hold, ?_, ?_⟩
  · rw [State.port_modPort] at reason ⊢
    exact reason
  · have again := State.TornDown.restated torn .disabled ((s.teardown l .fault).port l).holdTimer
    exact again
  · exact follows.same_after (by simp) (by simp [State.flag]) (by simp)

/-! ## LINK_START and LINK_STOP -/

theorem linkOfCode_eq_none {v : Word} (one : v ≠ 1) (two : v ≠ 2) : linkOfCode v.toNat = none := by
  unfold linkOfCode
  split
  · rename_i e; exact absurd (BitVec.eq_of_toNat_eq e) one
  · rename_i e; exact absurd (BitVec.eq_of_toNat_eq e) two
  · rfl

theorem linkOfCode_code {v : Word} {l : LinkId} (h : v = match l with | .a => 1 | .b => 2) : linkOfCode v.toNat = some l := by
  subst h; cases l <;> rfl

section
variable {s : State} {l : LinkId}

theorem State.UnitIdle.linkStart_badArg (idle : s.UnitIdle) (other : linkOfCode s.hcu.arg0.toNat = none) :
    exec .linkStart s = .next (s.answered 8 .badArg {}) := by
  refine congrArg Host.Outcome.next ((idle.takeCommand 8 State.linkStartBody).trans ?_)
  simp only [State.linkStartBody, other]
  rfl

/-- The tests of LINK_START, in their order, once its link is named. -/
theorem State.UnitIdle.linkStart_named (idle : s.UnitIdle) (code : linkOfCode s.hcu.arg0.toNat = some l) :
    exec .linkStart s = .next
      (if s.nodeAddr = 0 then s.answered 8 .notConfigured {}
      else if (s.port l).state.live then s.answered 8 .wrongState {}
      else (s.enterHunt l).answered 8 .ok {}) := by
  refine congrArg Host.Outcome.next ((idle.takeCommand 8 State.linkStartBody).trans ?_)
  simp only [State.linkStartBody, code]
  cases l <;> rfl

theorem State.UnitIdle.linkStop_badArg (idle : s.UnitIdle) (other : linkOfCode s.hcu.arg0.toNat = none) :
    exec .linkStop s = .next (s.answered 9 .badArg {}) := by
  refine congrArg Host.Outcome.next ((idle.takeCommand 9 State.linkStopBody).trans ?_)
  simp only [State.linkStopBody, other]
  rfl

/-- LINK_STOP once its link is named, on the state `u` with the code kept. -/
theorem State.UnitIdle.linkStop_named (idle : s.UnitIdle) (code : linkOfCode s.hcu.arg0.toNat = some l) {u : State}
    (hu : u = { s with hcu := { s.hcu with cmd := 9 } }) :
    exec .linkStop s = .next
      (if (s.port l).state = .disabled then s.answered 9 .ok {} else ((u.teardown l .disabled).answer .ok).settle u) := by
  refine congrArg Host.Outcome.next ((idle.takeCommand 9 State.linkStopBody).trans ?_)
  subst hu
  simp only [State.linkStopBody, code]
  cases l <;> rfl

end

/-- The Host Command Unit answers a LINK_STOP whose teardown may have completed a flush: of that completion nothing stays but the idle
unit. -/
theorem State.FlushFollows.answer_hcu {s t : State} {marked : Prop} (follows : s.FlushFollows t marked) (idle : s.hcu.busy = false) :
    (t.answer .ok).hcu = { s.hcu with result := .ok, completed := s.hcu.cmd.setWidth 8, res := {} } := by
  rw [State.answer, State.complete_hcu]
  by_cases m : marked
  · rw [(follows.1 m).2.2]
    simp [idle]
  · rw [(follows.2 m).2.2]

/-- What is left of a teardown does not speak of the command that is answered then. -/
theorem State.TornDown.answer {s t : State} {l : LinkId} (h : s.TornDown t l) (c : ResultCode) (r : Results) :
    s.TornDown (t.answer c r) l := by
  have port : ∀ k, (t.answer c r).port k = t.port k := fun k => by cases k <;> rfl
  have freed : ∀ rs, s.ChainsFreed (t.answer c r) rs ↔ s.ChainsFreed t rs := fun rs => by
    simp only [State.ChainsFreed, port, State.answer_buf]
  have flag : (t.answer c r).flag (.linkDown l) = t.flag (.linkDown l) :=
    State.flag_raise_of_ne _ (by cases l <;> decide)
  have record : ∀ g, (t.answer c r).record g = t.record g := fun _ => rfl
  have queue : ∀ q, (t.answer c r).queue q = t.queue q := fun _ => rfl
  have counters : (t.answer c r).ev.counters = t.ev.counters := rfl
  simp only [State.TornDown, State.SameElsewhere, State.SameCells, port, freed, flag, record, queue, counters, State.answer_flush,
    State.answer_ready, State.answer_table, State.answer_nodeAddr, State.answer_scrub, State.answer_reports, State.answer_pending,
    State.answer_buf]
  exact h

/-- Settles O14: LINK_START and LINK_STOP, test by test, and what a teardown on the way to DISABLED leaves. -/
theorem linkCommands : Obligations.LinkCommands := by
  unfold Obligations.LinkCommands
  refine ⟨fun s l idle => ⟨fun one two => idle.linkStart_badArg (linkOfCode_eq_none one two), fun code =>
      ⟨fun node => ?_, fun node off fault => ?_, fun node off => ?_⟩⟩,
    fun s l idle => ⟨fun one two => idle.linkStop_badArg (linkOfCode_eq_none one two), fun code => ⟨fun off => ?_, fun on => ?_⟩⟩⟩
  · rw [idle.linkStart_named (linkOfCode_code code), if_pos node]
  · have live : (s.port l).state.live = true := by
      rw [← Bool.not_eq_false]
      exact fun h => ((LinkState.live_eq_false _).1 h).elim off fault
    rw [idle.linkStart_named (linkOfCode_code code), if_neg node, if_pos live]
  · have quiet : (s.port l).state.live = false := (LinkState.live_eq_false _).2 off
    rw [idle.linkStart_named (linkOfCode_code code), if_neg node, if_neg (by simp [quiet]), State.enterHunt_eq]
  · rw [idle.linkStop_named (linkOfCode_code code) rfl, if_pos off]
  · obtain ⟨u, hu⟩ : ∃ u : State, u = { s with hcu := { s.hcu with cmd := 9 } } := ⟨_, rfl⟩
    have port : u.port l = s.port l := by subst hu; cases l <;> rfl
    obtain ⟨state, reason, hold, torn, follows⟩ := u.teardown_disabled l
    have answered : ∀ k, ((u.teardown l .disabled).answer .ok).port k = (u.teardown l .disabled).port k := fun k => by cases k <;> rfl
    refine ⟨(u.teardown l .disabled).answer .ok, ?_, ?_, ?_, ?_, ?_, ?_, State.flag_raise _ _⟩
    · rw [idle.linkStop_named (linkOfCode_code code) hu, if_neg on, hu]
    · rw [answered, state]
    · rw [answered, reason, port]
    · rw [answered, hold]
    · have left := torn.answer .ok {}
      subst hu
      exact left
    · have hcu := follows.answer_hcu (by subst hu; exact idle.2)
      subst hu
      exact hcu

end Sys2Proof.Machine
end

