-- ==== Sys2Proof/Proofs/LinkTimers.lean ====
section
/-! SUPPORT. The timers of a link's bring-up and session, the ends of control blocks on the line, and the receiver that is off
(sections 3.2 to 3.4, 3.6, 3.7 and 5.2). -/

namespace Sys2Proof.Machine

/-! ## The receiver that is off -/

/-- Settles O24: with the receiver off, what arrives is not acted on. -/
theorem receiverOff : Obligations.ReceiverOff := by
  unfold Obligations.ReceiverOff
  intro s l off
  have quiet : (s.port l).state.live = false := (LinkState.live_eq_false _).2 off
  have received : ∀ act, (.next (s.received l act) : Answer) = .next s := fun act => congrArg Host.Outcome.next (s.received_off l act quiet)
  have unread : ¬((s.port l).state.live = true) := by simp [quiet]
  exact ⟨congrArg Host.Outcome.next (if_neg unread), fun _ => received _, received _, fun _ _ _ => received _, fun _ => received _,
    fun _ => received _, fun _ _ => received _, fun _ => if_neg unread, fun _ => received _, received _, fun _ => received _, received _⟩

/-! ## Expiries -/

section
variable {s : State} {l : LinkId}

/-- The expiry of a running HAIL timer in GREET makes the next HAIL due. -/
theorem exec_hailTimerExpiry (greet : (s.port l).state = .greet) (running : (s.port l).hailTimer.isSome = true) {q : LinkPort}
    (hq : LinkPort.hailed { s.port l with hailTimer := none } s.nodeAddr = q) : exec (.hailTimerExpiry l) s = .next (s.setPort l q) := by
  refine congrArg Host.Outcome.next ((if_pos ⟨greet, running⟩).trans ?_)
  rw [State.hailNow_eq, State.port_modPort, State.modPort_nodeAddr, State.modPort_eq, State.setPort_setPort, hq]

theorem exec_holdDownExpiry (fault : (s.port l).state = .fault) (running : (s.port l).holdTimer.isSome = true) :
    exec (.holdDownExpiry l) s = .next
      (if (s.port l).cfg.autoRestart then s.enterHunt l else s.setPort l { s.port l with holdTimer := none }) :=
  congrArg Host.Outcome.next (if_pos ⟨fault, running⟩)

end

/-- Settles O45: each expiry under its condition; three of them are entries to FAULT. -/
theorem linkTimerExpiries : Obligations.LinkTimerExpiries := by
  unfold Obligations.LinkTimerExpiries
  intro s l
  have faults : ∀ (c : Instr) (reason : FaultReason), exec c s = .next ((s.enterFault l reason).settle s) →
      ∃ t : State, exec c s = .next (t.settle s) ∧ s.FaultedBy t l reason := fun c reason e =>
    ⟨_, e, s.enterFault_leaves l reason⟩
  refine ⟨fun greet running => ⟨fun free => ?_, fun taken => ?_⟩, fun greet running => ?_, fun active running => ?_,
    fun active realigning running => ?_, fun fault running => ⟨fun auto => ?_, fun manual => ?_⟩⟩
  · exact exec_hailTimerExpiry greet running (if_pos free)
  · exact exec_hailTimerExpiry greet running (if_neg taken)
  · exact faults _ _ (congrArg Host.Outcome.next (if_pos ⟨greet, running⟩))
  · exact faults _ _ (congrArg Host.Outcome.next (if_pos ⟨(s.isActive_iff l).2 active, running⟩))
  · exact faults _ _ (congrArg Host.Outcome.next (if_pos ⟨(s.isActive_iff l).2 active, realigning, running⟩))
  · rw [exec_holdDownExpiry fault running, if_pos auto, State.enterHunt_eq]
  · rw [exec_holdDownExpiry fault running, if_neg (by simp [manual])]

/-! ## Ends of control blocks -/

/-- A port whose line is free after a block, with a HAIL sent with seen = yes remembered. -/
def LinkPort.lineEnded (p : LinkPort) (yes : Bool) : LinkPort :=
  { p with yesSent := yes, tx := { p.tx with line := .none } }

theorem State.endBlock_eq (s : State) (l : LinkId) : s.endBlock l = s.setPort l ((s.port l).lineEnded (s.port l).yesSent) := rfl

theorem State.noteHailSent_endBlock (s : State) (l : LinkId) (seen : Bool) :
    (s.noteHailSent l seen).endBlock l = s.setPort l ((s.port l).lineEnded ((s.port l).yesSent || seen)) := by
  cases l <;> rfl

/-- The HAIL that waits begins once the line is free. -/
theorem State.nextHail_setPort (s : State) (l : LinkId) (p : LinkPort) :
    (s.setPort l p).nextHail l = s.setPort l (if p.tx.hailDue then p.hailing s.nodeAddr else p) := by
  unfold State.nextHail
  rw [State.beginHail_eq, State.port_setPort, State.setPort_setPort, State.setPort_nodeAddr]
  split <;> rfl

section
variable {s : State} {l : LinkId}

theorem exec_controlBlockSent {b : ControlBlock} (active : (s.port l).state = .active) (line : (s.port l).tx.line = .control b) :
    exec (.controlBlockSent l) s = .next ((s.controlSent l).settle s) :=
  congrArg Host.Outcome.next (if_pos (by simp [State.controlOnLine, (s.isActive_iff l).2 active, line]))

/-- The end of a HAIL: the HAIL that waits begins in GREET. -/
theorem exec_hailSendEnd {a r : Byte} {seen : Bool} (line : (s.port l).tx.line = .control (.hail a r seen)) :
    exec (.hailSendEnd l) s = .next
      ((s.setPort l
        (if (s.port l).state = .greet ∧ (s.port l).tx.hailDue = true then
          ((s.port l).lineEnded ((s.port l).yesSent || seen)).hailing s.nodeAddr
        else (s.port l).lineEnded ((s.port l).yesSent || seen))).settle s) := by
  have sent : s.hailSent l =
      if (s.port l).state = .greet then ((s.noteHailSent l seen).endBlock l).nextHail l else (s.noteHailSent l seen).endBlock l := by
    simp only [State.hailSent, line]
    rw [State.noteHailSent_endBlock, State.port_setPort]
    rfl
  refine congrArg Host.Outcome.next ((if_pos (by simp [State.hailOnLine, line])).trans (congrArg (State.settle · s) ?_))
  rw [sent, State.noteHailSent_endBlock, State.nextHail_setPort]
  by_cases greet : (s.port l).state = .greet
  · simp [greet, LinkPort.lineEnded]
  · simp [greet]

/-- The end of a KEEP: in HUNT the next begins, in GREET the HAIL that waits. -/
theorem State.keepSent_hunt (line : (s.port l).tx.line = .control .keep) (hunt : (s.port l).state = .hunt) : s.keepSent l = s := by
  have kept : (s.modTx l fun t => { t with line := .control .keep }) = s := by rw [← line]; exact s.setPort_port l
  simp only [State.keepSent, line, hunt, if_true, kept]

theorem State.keepSent_greet (line : (s.port l).tx.line = .control .keep) (greet : (s.port l).state = .greet) :
    s.keepSent l =
      s.setPort l
        (if (s.port l).tx.hailDue then ((s.port l).lineEnded (s.port l).yesSent).hailing s.nodeAddr
        else (s.port l).lineEnded (s.port l).yesSent) := by
  simp only [State.keepSent, line, greet, if_true]
  rw [State.endBlock_eq, State.nextHail_setPort]
  rfl

end

/-- Settles O39: the end of each block that a link without a frame on its line sends, and the HAIL that waits for it. -/
theorem controlBlockEnds : Obligations.ControlBlockEnds := by
  unfold Obligations.ControlBlockEnds
  intro s l
  refine ⟨fun b active line => ?_, fun a r seen line => ⟨fun greet due => ?_, fun no => ?_⟩,
    fun line => ⟨fun hunt => ?_, fun greet due => ?_, fun greet none => ?_⟩⟩
  · rw [exec_controlBlockSent active line]
    simp only [State.controlSent, (s.isActive_iff l).2 active, line, if_true]
    cases b with
    | hail a r seen => exact congrArg (fun t : State => Host.Outcome.next (t.settle s)) (s.noteHailSent_endBlock l seen)
    | ack _ => rfl
    | nak _ => rfl
    | grant _ _ => rfl
    | keep => rfl
  · rw [exec_hailSendEnd line, if_pos ⟨greet, due⟩]; rfl
  · rw [exec_hailSendEnd line, if_neg no]; rfl
  · exact congrArg Host.Outcome.next (State.keepSent_hunt line hunt)
  · exact congrArg Host.Outcome.next ((State.keepSent_greet line greet).trans (by rw [if_pos due]; rfl))
  · exact congrArg Host.Outcome.next ((State.keepSent_greet line greet).trans (by rw [if_neg (by simp [none])]; rfl))

end Sys2Proof.Machine
end

