-- ==== Sys2Proof/Proofs/ValidBlocks.lean ====
section
/-! SUPPORT. What a link does with damaged and missing blocks, with KEEPs and HAILs, and while REALIGNING (sections 3.2, 3.4 to 3.7,
4.1, 4.3 and 4.6). -/

namespace Sys2Proof.Machine

/-! ## NAK episodes -/

/-- A receiver with a NAK episode started, where none was in progress. -/
def Receiver.episode (r : Receiver) (due : Bool) : Receiver :=
  if r.nak = .none then { r with nak := .pending, nakDue := due } else r

theorem Receiver.episode_started {r : Receiver} (h : r.nak = .none) (due : Bool) :
    r.episode due = { r with nak := .pending, nakDue := due } := if_pos h

theorem Receiver.episode_kept {r : Receiver} (h : r.nak ≠ .none) (due : Bool) : r.episode due = r := if_neg h

theorem State.startNak_eq (s : State) (l : LinkId) :
    s.startNak l = s.setPort l { s.port l with rx := (s.port l).rx.episode ((s.port l).align != .realigning) } := by
  rw [State.startNak_spec]
  split
  · rename_i none; rw [Receiver.episode_started none]
  · rename_i some; rw [Receiver.episode_kept some, State.setPort_port]

/-! ## Missing and damaged blocks -/

section
variable {s : State} {l : LinkId}

/-- A place outside a block where one should begin and no marker is found. -/
theorem State.noMarker_outside (outside : (s.port l).rx.inBlock = false) {q : LinkPort}
    (hq : q = { s.port l with validRun := 0, invalidRun := (s.port l).invalidRun + 1 }) :
    s.noMarker l =
      if q.state = .active ∧ q.align = .aligned ∧ 3 ≤ q.invalidRun then
        (s.setPort l
          { q with align := .realigning, realignTimer := some (100 * q.cfg.realignTimeout), rx := q.rx.episode false }).settle s
      else (s.setPort l q).settle s := by
  have runs : (s.modPort l fun p => { p with validRun := 0, invalidRun := p.invalidRun + 1 }) = s.setPort l q := by
    rw [hq, State.modPort_eq]
  have entered : (s.setPort l q).enterRealigning l =
      s.setPort l { q with align := .realigning, realignTimer := some (100 * q.cfg.realignTimeout), rx := q.rx.episode false } := by
    unfold State.enterRealigning
    rw [State.startNak_eq, State.modPort_eq, State.port_setPort, State.setPort_setPort, State.port_setPort, State.setPort_setPort]
    rfl
  simp only [State.noMarker, outside, Bool.false_eq_true, if_false, runs, State.isActive_iff, State.port_setPort, entered]
  split <;> rfl

/-- A port with no frame in progress after a checked-out block. -/
def LinkPort.damaged (p : LinkPort) (kind : BlockKind) : LinkPort :=
  let q :=
    { p with
      validRun := 0, invalidRun := 0
      rx := { p.rx with passing := match kind with | .control => .no | .frame => .toMarker } }
  if p.state = .active ∧ p.align = .aligned then
    { q with
      counters := { p.counters with checkErrors := p.counters.checkErrors + 1 }
      rx := match kind with | .control => q.rx | .frame => q.rx.episode true }
  else q

theorem State.checkedOut_eq (live : (s.port l).state.live = true) (frame : (s.port l).rx.frame = none) (kind : BlockKind) :
    s.checkedOut l kind = s.setPort l ((s.port l).damaged kind) := by
  obtain ⟨q, hq⟩ : ∃ q, q = { s.port l with validRun := 0, invalidRun := 0, rx := { (s.port l).rx with passing := .no } } := ⟨_, rfl⟩
  have runs : ((s.marker l).modPort l fun p => { p with validRun := 0, invalidRun := 0 }) = s.setPort l q := by
    rw [s.marker_clear l frame, hq]
    cases l <;> rfl
  have alike : q.state = (s.port l).state ∧ q.align = (s.port l).align := by subst hq; exact ⟨rfl, rfl⟩
  have counted : (s.setPort l q).countLink l .checkErrors =
      s.setPort l { q with counters := { q.counters with checkErrors := q.counters.checkErrors + 1 } } := by
    rw [State.countLink_eq _ l rfl, State.port_setPort, State.setPort_setPort]; rfl
  simp only [State.checkedOut, live, if_true, runs, State.isActive_iff, State.port_setPort, alike, LinkPort.damaged]
  by_cases aligned : (s.port l).state = .active ∧ (s.port l).align = .aligned
  · simp only [if_pos aligned, counted]
    cases kind with
    | control => subst hq; rfl
    | frame =>
      dsimp only
      rw [State.startNak_eq, State.port_setPort, State.setPort_setPort, State.modRx_setPort]
      subst hq
      dsimp only
      rw [aligned.2]
      unfold Receiver.episode
      split <;> rfl
  · simp only [if_neg aligned]
    cases kind with
    | control => subst hq; rfl
    | frame =>
      dsimp only
      rw [State.modRx_setPort]
      subst hq
      rfl

end

/-- Settles O25: missing markers inside and outside a block, and checked-out blocks in and out of ALIGNED. -/
theorem damagedBlockResult : Obligations.DamagedBlockResult := by
  unfold Obligations.DamagedBlockResult
  refine ⟨fun s l inside => ?_, fun s l state frame passing => ⟨fun no => ?_, fun active aligned third => ?_⟩,
    fun s l kind state frame => ?_⟩
  · have block : (s.port l).rx.inBlock = true := by
      rw [← Bool.not_eq_false, Receiver.inBlock_eq_false]
      exact fun h => inside.elim (absurd h.1) (absurd h.2)
    refine congrArg Host.Outcome.next ?_
    rw [s.noMarker_inBlock l block, ite_self]
  · refine congrArg Host.Outcome.next ((if_pos ((LinkState.live_iff _).2 state)).trans ?_)
    rw [State.noMarker_outside ((Receiver.inBlock_eq_false _).2 ⟨frame, passing⟩) rfl, if_neg no]
  · refine ⟨(s.port l).rx.episode false, ?_, fun none => Receiver.episode_started none _, fun some => Receiver.episode_kept some _⟩
    refine congrArg Host.Outcome.next ((if_pos ((LinkState.live_iff _).2 state)).trans ?_)
    rw [State.noMarker_outside ((Receiver.inBlock_eq_false _).2 ⟨frame, passing⟩) rfl, if_pos ⟨active, aligned, third⟩]
  · have live := (LinkState.live_iff _).2 state
    refine ⟨s.setPort l ((s.port l).damaged kind), State.next_received live (State.checkedOut_eq live frame kind), ?_⟩
    rw [State.port_setPort]
    unfold LinkPort.damaged
    by_cases aligned : (s.port l).state = .active ∧ (s.port l).align = .aligned
    · cases kind with
      | control => simp [aligned]
      | frame =>
        by_cases none : (s.port l).rx.nak = .none
        · simp [aligned, Receiver.episode, none]
        · simp [aligned, Receiver.episode, none]
    · cases kind <;> simp [aligned]

/-! ## KEEPs -/

/-- A valid block counted where no block was being passed over changes the runs alone. -/
theorem LinkPort.counted_outside {p : LinkPort} (h : p.rx.passing = .no) :
    p.counted = { p with validRun := p.validRun + 1, invalidRun := 0 } := by
  rw [LinkPort.counted, Receiver.passing_no h]

section
variable {s t : State} {l : LinkId}

theorem exec_keepReceived (live : (s.port l).state.live = true) (effect : s.validControl l (fun u => u) = t) :
    exec (.keepReceived l) s = .next (t.settle s) :=
  State.next_received live effect

/-- A KEEP before the fourth valid block in a row of HUNT. -/
theorem exec_keepReceived_hunt (hunt : (s.port l).state = .hunt) (frame : (s.port l).rx.frame = none)
    (before : (s.port l).validRun + 1 < 4) : exec (.keepReceived l) s = .next ((s.setPort l (s.port l).counted).settle s) :=
  exec_keepReceived (LinkPort.live_of_hunt hunt)
    ((State.validControl_hunt hunt).trans ((s.marker_huntBlock l frame).trans (if_neg (Nat.not_le.2 before))))

/-- A KEEP at the fourth valid block in a row of HUNT. -/
theorem exec_keepReceived_fourth (hunt : (s.port l).state = .hunt) (frame : (s.port l).rx.frame = none)
    (fourth : 4 ≤ (s.port l).validRun + 1) :
    exec (.keepReceived l) s = .next ((s.setPort l ((s.port l).counted.sessionBegun.hailed s.nodeAddr)).settle s) :=
  exec_keepReceived (LinkPort.live_of_hunt hunt)
    ((State.validControl_hunt hunt).trans ((s.marker_huntBlock l frame).trans (if_pos fourth)))

theorem exec_keepReceived_early (greet : (s.port l).state = .greet) (frame : (s.port l).rx.frame = none)
    (early : (s.port l).hailReceived = false) : exec (.keepReceived l) s = .next ((s.setPort l (s.port l).counted).settle s) :=
  exec_keepReceived (LinkPort.live_of_greet greet) (State.validControl_early greet frame early)

theorem exec_keepReceived_late (greet : (s.port l).state = .greet) (frame : (s.port l).rx.frame = none)
    (late : (s.port l).hailReceived = true) :
    exec (.keepReceived l) s = .next (((s.setPort l (s.port l).counted).enterActive l).settle s) :=
  exec_keepReceived (LinkPort.live_of_greet greet) (State.validControl_late greet frame late)

theorem exec_keepReceived_active (active : (s.port l).state = .active) (frame : (s.port l).rx.frame = none) :
    exec (.keepReceived l) s = .next ((s.setPort l (s.port l).afterValid).settle s) :=
  exec_keepReceived (LinkPort.live_of_active active) (State.validControl_active active frame)

end

/-- Settles O26: a KEEP by the state of the link. -/
theorem keepReceivedResult : Obligations.KeepReceivedResult := by
  unfold Obligations.KeepReceivedResult
  intro s l frame passing
  have counted := LinkPort.counted_outside passing
  refine ⟨fun hunt before => ?_, fun hunt fourth => ?_, fun greet early => ?_, fun greet late => ?_,
    fun active => exec_keepReceived_active active frame⟩
  · rw [exec_keepReceived_hunt hunt frame before, counted]
  · refine ⟨_, exec_keepReceived_fourth hunt frame fourth, ?_⟩
    rw [State.port_setPort, LinkPort.hailed_parts]
    refine ⟨rfl, rfl, rfl, ⟨rfl, rfl, rfl, rfl⟩, ⟨rfl, rfl, rfl, rfl⟩, rfl, rfl, rfl, rfl, rfl, rfl, rfl, rfl, rfl, rfl, rfl,
      fun keep => ?_, rfl⟩
    have taken : (s.port l).counted.sessionBegun.tx.line ≠ .none := fun free => by
      have line : (s.port l).tx.line = .none := free
      rw [keep] at line
      cases line
    rw [LinkPort.hailed_taken taken]
    exact ⟨keep, rfl⟩
  · rw [exec_keepReceived_early greet frame early, counted]
  · obtain ⟨port, flag, -⟩ := s.enteredActive l
    refine ⟨_, exec_keepReceived_late greet frame late, ?_⟩
    rw [port, flag]
    refine ⟨rfl, rfl, rfl, rfl, rfl, rfl, rfl, rfl, rfl, by simp, fun c grantable => ?_⟩
    cases c <;> simp [LinkPort.credit, grantable]

/-! ## HAILs -/

section
variable {s t : State} {l : LinkId} {sender revision : Byte} {seen : Bool}

theorem exec_hailReceived (live : (s.port l).state.live = true) (effect : s.takeHail l sender revision seen = t) :
    exec (.hailReceived l sender revision seen) s = .next (t.settle s) :=
  State.next_received live effect

/-- The checks of a HAIL in GREET, in their order, once it is counted. -/
theorem State.takeHail_greet (greet : (s.port l).state = .greet) (frame : (s.port l).rx.frame = none) :
    s.takeHail l sender revision seen =
      if revision ≠ 1 then (s.setPort l (s.port l).counted).enterFault l .revisionMismatch
      else if sender = 0 ∨ sender = 255 then (s.setPort l (s.port l).counted).enterFault l .malformed
      else if sender = s.nodeAddr then (s.setPort l (s.port l).counted).enterFault l .addressClash
      else if (s.port l).hailReceived = true ∧ sender ≠ (s.port l).partner then
        (s.setPort l (s.port l).counted).enterFault l .partnerRestart
      else (s.setPort l (s.port l).counted).greetHail l sender seen := by
  simp only [State.takeHail, greet, s.marker_countValid l frame, State.port_setPort, State.setPort_nodeAddr]
  rfl

/-- A HAIL in ACTIVE is handled by its seen flag alone. -/
theorem State.takeHail_active (active : (s.port l).state = .active) (frame : (s.port l).rx.frame = none) :
    s.takeHail l sender revision seen =
      if seen then s.setPort l (s.port l).afterValid else (s.setPort l (s.port l).afterValid).enterFault l .partnerRestart := by
  simp only [State.takeHail, active, s.marker_activeBlock l frame]

/-- The first HAIL of the partner records it, and makes a HAIL due. -/
theorem State.greetHail_first {p : LinkPort} (first : p.hailReceived = false) (no : seen = false ∨ p.yesSent = false) :
    (s.setPort l p).greetHail l sender seen =
      s.setPort l (LinkPort.hailed { p with partner := sender, hailReceived := true } s.nodeAddr) := by
  have yes : (LinkPort.hailed { p with partner := sender, hailReceived := true } s.nodeAddr).yesSent = p.yesSent := by
    rw [LinkPort.hailed_parts]
  simp only [State.greetHail, State.port_setPort, first, Bool.false_eq_true, if_false, State.modPort_eq, State.hailNow_eq,
    State.setPort_setPort, State.setPort_nodeAddr, yes]
  rcases no with h | h <;> simp [h]

/-- A further HAIL of the partner is tested for the end of the greeting alone. -/
theorem State.greetHail_further {p : LinkPort} (further : p.hailReceived = true) :
    (s.setPort l p).greetHail l sender seen =
      if seen = true ∧ p.yesSent = true then (s.setPort l p).enterActive l else s.setPort l p := by
  simp only [State.greetHail, State.port_setPort, further, if_true]

end

/-- Settles O27: the checks of a HAIL in their order, and the HAIL that passes them by the flags of the greeting. -/
theorem hailReceivedResult : Obligations.HailReceivedResult := by
  unfold Obligations.HailReceivedResult
  intro s l sender revision seen frame
  have faults : ∀ {q : LinkPort} {reason : FaultReason}, (s.port l).SameSession q → (s.port l).state.live = true →
      s.takeHail l sender revision seen = (s.setPort l q).enterFault l reason →
      ∃ t : State, exec (.hailReceived l sender revision seen) s = .next (t.settle s) ∧ s.FaultedBy t l reason :=
    fun same live e => ⟨_, exec_hailReceived live e, State.enterFault_after same _⟩
  have counted := (s.port l).counted_sameSession
  have passed : (s.port l).state = .greet → revision = 1 ∧ sender ≠ 0 ∧ sender ≠ 255 ∧ sender ≠ s.nodeAddr →
      ((s.port l).hailReceived = true → sender = (s.port l).partner) →
      s.takeHail l sender revision seen = (s.setPort l (s.port l).counted).greetHail l sender seen :=
    fun greet ⟨rev, zero, last, other⟩ partner => by
      rw [State.takeHail_greet greet frame, if_neg (not_not.2 rev), if_neg (not_or.2 ⟨zero, last⟩), if_neg other,
        if_neg fun h => h.2 (partner h.1)]
  refine ⟨fun greet rev => ?_, fun greet rev bad => ?_, fun greet rev zero last clash => ?_,
    fun greet ⟨rev, zero, last, other⟩ received ne => ?_, fun greet legal first no => ?_, fun greet legal received partner yes sent => ?_,
    fun greet legal received partner no => ?_, fun active no => ?_, fun active yes => ?_⟩
  · exact faults counted (LinkPort.live_of_greet greet) (by rw [State.takeHail_greet greet frame, if_pos rev])
  · exact faults counted (LinkPort.live_of_greet greet)
      (by rw [State.takeHail_greet greet frame, if_neg (not_not.2 rev), if_pos bad])
  · exact faults counted (LinkPort.live_of_greet greet)
      (by rw [State.takeHail_greet greet frame, if_neg (not_not.2 rev), if_neg (not_or.2 ⟨zero, last⟩), if_pos clash])
  · exact faults counted (LinkPort.live_of_greet greet)
      (by rw [State.takeHail_greet greet frame, if_neg (not_not.2 rev), if_neg (not_or.2 ⟨zero, last⟩), if_neg other,
        if_pos ⟨received, ne⟩])
  · obtain ⟨q, hq⟩ : ∃ q : LinkPort, q = { (s.port l).counted with partner := sender, hailReceived := true } := ⟨_, rfl⟩
    have line : q.tx.line = (s.port l).tx.line := by subst hq; rfl
    have effect : s.takeHail l sender revision seen = s.setPort l (q.hailed s.nodeAddr) := by
      rw [passed greet legal (by simp [first]), State.greetHail_first (p := (s.port l).counted) first no, hq]
    refine ⟨_, exec_hailReceived (LinkPort.live_of_greet greet) effect, ?_⟩
    rw [State.port_setPort]
    refine ⟨?_, ?_, ?_, fun free => ?_, fun taken => ?_, rfl⟩
    · rw [LinkPort.hailed_parts, hq]; exact greet
    · rw [LinkPort.hailed_parts, hq]
    · rw [LinkPort.hailed_parts, hq]
    · rw [LinkPort.hailed_free (line.trans free), hq]
      exact ⟨rfl, rfl⟩
    · rw [LinkPort.hailed_taken (by rwa [line])]
      exact ⟨line, rfl⟩
  · obtain ⟨port, flag, -⟩ := s.enteredActive l
    have effect : s.takeHail l sender revision seen = (s.setPort l (s.port l).counted).enterActive l := by
      rw [passed greet legal fun _ => partner, State.greetHail_further (p := (s.port l).counted) received, if_pos ⟨yes, sent⟩]
    refine ⟨_, exec_hailReceived (LinkPort.live_of_greet greet) effect, ?_⟩
    rw [port, flag]
    exact ⟨rfl, rfl, by simp⟩
  · have further : ¬(seen = true ∧ (s.port l).counted.yesSent = true) := fun both =>
      no.elim (fun h => by simp [h] at both) fun h => absurd both.2 (by rw [LinkPort.counted, h]; simp)
    refine exec_hailReceived (LinkPort.live_of_greet greet) ?_
    rw [passed greet legal fun _ => partner, State.greetHail_further (p := (s.port l).counted) received, if_neg further, LinkPort.counted]
  · exact faults (s.port l).afterValid_sameSession (LinkPort.live_of_active active)
      (by rw [State.takeHail_active active frame, if_neg (by simp [no])])
  · exact exec_hailReceived (LinkPort.live_of_active active) (by rw [State.takeHail_active active frame, if_pos yes])

/-! ## REALIGNING -/

/-- A valid block that completes no return to ALIGNED. -/
theorem LinkPort.afterValid_counted {p : LinkPort} (h : ¬(p.align = .realigning ∧ 4 ≤ p.validRun + 1)) :
    p.afterValid =
      { p with
        validRun := p.validRun + 1, invalidRun := 0, silenceTimer := some (1000 * p.cfg.silenceTimeout)
        rx := { p.rx with passing := .no } } := if_neg h

/-- The valid block that completes the return to ALIGNED. -/
theorem LinkPort.afterValid_returned {p : LinkPort} (h : p.align = .realigning ∧ 4 ≤ p.validRun + 1) :
    p.afterValid =
      { p with
        validRun := p.validRun + 1, invalidRun := 0, silenceTimer := some (1000 * p.cfg.silenceTimeout)
        align := .aligned, realignTimer := none
        rx := { p.rx with passing := .no, nakDue := p.rx.nakDue || p.rx.nak == .pending } } := if_pos h

section
variable {s t : State} {l : LinkId} {header : BitVec 128}

theorem exec_frameHeaderReceived (live : (s.port l).state.live = true) (check : headerCheckOk header = true)
    (effect : s.validFrame l header = .ok t) : exec (.frameHeaderReceived l header) s = .next (t.settle s) := by
  show execFrameHeaderReceived l header s = _
  rw [execFrameHeaderReceived, if_pos live, if_pos check, effect]

theorem State.passOver_setPort (s : State) (l : LinkId) (p : LinkPort) :
    (s.setPort l p).passOver l = s.setPort l { p with rx := { p.rx with passing := .toTrailer } } := s.modRx_setPort l p _

/-- A valid frame header in ACTIVE: passed over where the link is still REALIGNING, and judged otherwise. -/
theorem State.validFrame_active (active : (s.port l).state = .active) (frame : (s.port l).rx.frame = none) :
    s.validFrame l header =
      if (s.port l).afterValid.align = .realigning then .ok ((s.setPort l (s.port l).afterValid).passOver l)
      else (s.setPort l (s.port l).afterValid).judgeHeader l header := by
  simp only [State.validFrame, active, s.marker_activeBlock l frame, State.port_setPort]

end

/-- Settles O28: the count of a valid block while REALIGNING, before and at the fourth in a row. -/
theorem realigningResult : Obligations.RealigningResult := by
  unfold Obligations.RealigningResult
  intro s l ⟨active, frame⟩ realigning
  refine ⟨fun before => ?_, fun fourth => ?_⟩
  · have counted := LinkPort.afterValid_counted (p := s.port l) fun h => absurd h.2 (by omega)
    refine ⟨by rw [exec_keepReceived_active active frame, counted], fun header check => ?_⟩
    refine exec_frameHeaderReceived (LinkPort.live_of_active active) check ?_
    rw [State.validFrame_active active frame, counted, if_pos realigning, State.passOver_setPort]
  · refine ⟨_, exec_keepReceived_active active frame, ?_⟩
    rw [State.port_setPort, LinkPort.afterValid_returned ⟨realigning, fourth⟩]
    exact ⟨rfl, rfl, rfl, fun pending => by simp [pending], fun other => by simp [other], rfl⟩

end Sys2Proof.Machine
end

