-- ==== Sys2Proof/Proofs/FrameHeaders.lean ====
section
/-! SUPPORT. A valid frame header where it is judged, and the blocks other than HAIL before and at the end of a greeting
(sections 3.4, 4.2 to 4.4, 5.4 and 6.6). -/

namespace Sys2Proof.Machine

/-! ## The checks at a header -/

/-- A header whose length and source are those of a frame. -/
def LegalHeader (header : BitVec 128) : Prop :=
  1 ≤ (header.extractLsb' 40 16).toNat ∧ (header.extractLsb' 40 16).toNat ≤ 1024 ∧
    header.extractLsb' 24 8 ≠ 0 ∧ header.extractLsb' 24 8 ≠ 255

/-- The cells that a header asks for. -/
def headerCells (header : BitVec 128) : Nat :=
  ((header.extractLsb' 40 16).toNat + 63) / 64

/-- How far a header's seq is behind the expected one. -/
def State.seqGap (s : State) (l : LinkId) (header : BitVec 128) : Nat :=
  ((s.port l).rx.expected - header.extractLsb' 8 8).toNat

section
variable {s : State} {l : LinkId} {header : BitVec 128}

theorem State.judgeHeader_malformed (inOrder : s.seqGap l header = 0) (illegal : ¬LegalHeader header) :
    s.judgeHeader l header = .ok (s.enterFault l .malformed) := by
  have bad : (header.extractLsb' 40 16).toNat = 0 ∨ 1024 < (header.extractLsb' 40 16).toNat ∨
      header.extractLsb' 24 8 = 0 ∨ header.extractLsb' 24 8 = 255 := by
    unfold LegalHeader at illegal
    by_contra fine
    simp only [not_or] at fine
    exact illegal ⟨by omega, by omega, fine.2.2⟩
  exact (if_pos inOrder).trans (if_pos bad)

/-- A legal header in order is judged by credit, and taken in where the free list holds its cells. -/
theorem State.judgeHeader_legal (inOrder : s.seqGap l header = 0) (legal : LegalHeader header) :
    s.judgeHeader l header =
      if ((s.port l).credit (headerFields header).cls).outstanding < headerCells header then .ok (s.enterFault l .creditViolation)
      else if s.freeCount < headerCells header then .error .allocationShort
      else .ok (s.takeIn l header) := by
  obtain ⟨low, high, zero, last⟩ := legal
  have fine : ¬((header.extractLsb' 40 16).toNat = 0 ∨ 1024 < (header.extractLsb' 40 16).toNat ∨
      header.extractLsb' 24 8 = 0 ∨ header.extractLsb' 24 8 = 255) := by
    simp only [not_or]
    exact ⟨by omega, by omega, zero, last⟩
  exact (if_pos inOrder).trans (if_neg fine)

theorem State.judgeHeader_behind (low : 1 ≤ s.seqGap l header) (high : s.seqGap l header ≤ 128) :
    s.judgeHeader l header = .ok (s.behind l) :=
  (if_neg (Nat.ne_of_gt low)).trans (if_pos high)

theorem State.judgeHeader_ahead (far : 129 ≤ s.seqGap l header) : s.judgeHeader l header = .ok (s.ahead l) :=
  (if_neg (Nat.ne_of_gt (Nat.lt_of_lt_of_le (by decide) far))).trans (if_neg (Nat.not_le.2 far))

theorem State.behind_eq (s : State) (l : LinkId) :
    s.behind l =
      s.setPort l
        { s.port l with
          rx := { (s.port l).rx with ackDue := true, passing := .toTrailer }
          counters := { (s.port l).counters with seqDiscards := (s.port l).counters.seqDiscards + 1 } } := by
  cases l <;> rfl

theorem State.ahead_eq (s : State) (l : LinkId) :
    s.ahead l =
      s.setPort l
        { s.port l with
          rx := { (s.port l).rx.episode ((s.port l).align != .realigning) with passing := .toTrailer }
          counters := { (s.port l).counters with seqDiscards := (s.port l).counters.seqDiscards + 1 } } := by
  unfold State.ahead
  rw [State.countLink_eq s l rfl, State.startNak_eq, State.port_setPort, State.setPort_setPort, State.passOver_setPort]
  rfl

end

/-! ## A header taken in -/

section
variable (s : State) (l : LinkId) (header : BitVec 128)

theorem State.takeIn_buf :
    (s.takeIn l header).buf = (s.allocate (headerCells header) (arrivalRecord l (headerFields header))).buf := by
  unfold State.takeIn State.consume
  dsimp only
  rw [State.modRx_buf, State.modCredit_buf]
  rfl

theorem State.takeIn_queues : (s.takeIn l header).queues = s.queues := by
  unfold State.takeIn State.consume
  dsimp only
  rw [State.modRx_queues, State.modCredit_queues, State.allocate_queues]

/-- The frame that a receiver begins to write at a header. -/
def arrivalFrame (handle : Nat) (header : BitVec 128) : RxFrame where
  handle := handle
  header := header
  count := 0
  crc := crc32Run crc32Start (bytesOf header 16)
  gather := []

theorem State.port_takeIn :
    (s.takeIn l header).port l =
      { (s.port l).modCredit (headerFields header).cls fun x =>
          { x with consumed := x.consumed + BitVec.ofNat 16 (headerCells header), inUse := x.inUse + headerCells header } with
        rx := { (s.port l).rx with frame := some (arrivalFrame s.nextHandle header) } } := by
  have port : (s.allocate (headerCells header) (arrivalRecord l (headerFields header))).port l = s.port l := by cases l <;> rfl
  have taken : s.takeIn l header =
      ((s.allocate (headerCells header) (arrivalRecord l (headerFields header))).consume l (headerFields header).cls
        (headerCells header)).modRx l fun r => { r with frame := some (arrivalFrame s.nextHandle header) } := rfl
  rw [taken, State.port_modRx, State.consume, State.port_modCredit, port, LinkPort.modCredit_rx]

theorem State.credit_takeIn :
    ((s.takeIn l header).port l).credit (headerFields header).cls =
      { (s.port l).credit (headerFields header).cls with
        consumed := ((s.port l).credit (headerFields header).cls).consumed + BitVec.ofNat 16 (headerCells header)
        inUse := ((s.port l).credit (headerFields header).cls).inUse + headerCells header } := by
  rw [State.port_takeIn]
  cases (headerFields header).cls <;> rfl

theorem State.record_takeIn (g : Nat) :
    (s.takeIn l header).record g =
      if s.nextHandle = g then
        some { arrivalRecord l (headerFields header) with cells := s.buf.free.take (headerCells header) }
      else s.record g := by
  rw [← State.record_allocate, State.record, State.takeIn_buf]
  rfl

end

/-! ## Where a header is judged -/

theorem LinkPort.afterValid_align {p : LinkPort} (h : p.align = .realigning → 4 ≤ p.validRun + 1) : p.afterValid.align ≠ .realigning := by
  by_cases returned : p.align = .realigning ∧ 4 ≤ p.validRun + 1
  · rw [LinkPort.afterValid_returned returned]
    nofun
  · rw [LinkPort.afterValid_counted returned]
    exact fun e => returned ⟨e, h e⟩

theorem LinkPort.afterValid_nak (p : LinkPort) : p.afterValid.rx.nak = p.rx.nak := by
  unfold LinkPort.afterValid
  dsimp only
  split <;> rfl

theorem LinkPort.afterValid_credit (p : LinkPort) (c : Cls) : p.afterValid.credit c = p.credit c := by
  cases c
  · exact p.afterValid_ctl
  · exact p.afterValid_dat

section
variable {s t : State} {l : LinkId} {header : BitVec 128}

/-- A header that a receiving link takes is judged once it is counted. -/
theorem State.TakesFrames.validFrame (takes : s.TakesFrames l) :
    s.validFrame l header = (s.setPort l (s.port l).afterValid).judgeHeader l header := by
  rw [State.validFrame_active takes.1.1 takes.1.2, if_neg (LinkPort.afterValid_align takes.2)]

theorem State.TakesFrames.exec_header (takes : s.TakesFrames l) (check : headerCheckOk header = true)
    (judged : (s.setPort l (s.port l).afterValid).judgeHeader l header = .ok t) :
    exec (.frameHeaderReceived l header) s = .next (t.settle s) :=
  exec_frameHeaderReceived (LinkPort.live_of_active takes.1.1) check (takes.validFrame.trans judged)

/-- The one stop of the model. -/
theorem State.TakesFrames.exec_header_short (takes : s.TakesFrames l) (check : headerCheckOk header = true)
    (judged : (s.setPort l (s.port l).afterValid).judgeHeader l header = .error .allocationShort) :
    exec (.frameHeaderReceived l header) s = .fault .allocationShort := by
  show execFrameHeaderReceived l header s = _
  rw [execFrameHeaderReceived, if_pos (LinkPort.live_of_active takes.1.1), if_pos check, takes.validFrame, judged]

end

/-- Settles O33: a header that is taken, judged by seq, then length and source, then credit, then the free list. -/
theorem frameHeaderResult : Obligations.FrameHeaderResult := by
  unfold Obligations.FrameHeaderResult
  intro s l header takes check
  obtain ⟨u, hu⟩ : ∃ u : State, u = s.setPort l (s.port l).afterValid := ⟨_, rfl⟩
  have port : u.port l = (s.port l).afterValid := by rw [hu, State.port_setPort]
  have buf : u.buf = s.buf := by rw [hu, State.setPort_buf]
  have free : u.freeCount = s.buf.free.length := by rw [State.freeCount, buf]
  have next : u.nextHandle = s.buf.free.headD 0 := by rw [State.nextHandle, buf]
  have gap : u.seqGap l header = ((s.port l).rx.expected - header.extractLsb' 8 8).toNat := by
    rw [State.seqGap, port, LinkPort.afterValid_expected]
  have credit : ∀ c, (u.port l).credit c = (s.port l).credit c := fun c => by rw [port, LinkPort.afterValid_credit]
  have run : ∀ {t : State}, u.judgeHeader l header = .ok t → exec (.frameHeaderReceived l header) s = .next (t.settle s) := fun judged =>
    takes.exec_header check (by rw [← hu, judged])
  have fault : ∀ reason, s.FaultedBy (u.enterFault l reason) l reason := fun reason => by
    rw [hu]; exact State.enterFault_after (s.port l).afterValid_sameSession reason
  refine ⟨fun low high => ?_, fun far => ?_, fun inOrder illegal => ?_, fun inOrder legal short => ?_, fun inOrder legal covered short => ?_,
    fun inOrder legal covered room => ?_⟩
  · refine ⟨_, run (State.judgeHeader_behind (by rwa [gap]) (by rwa [gap])), ?_⟩
    rw [State.behind_eq, State.port_setPort, State.setPort_buf, port, LinkPort.afterValid_counters]
    exact ⟨rfl, rfl, buf⟩
  · refine ⟨_, run (State.judgeHeader_ahead (by rwa [gap])), ?_⟩
    have due : ((s.port l).afterValid.align != .realigning) = true := by simpa using LinkPort.afterValid_align takes.2
    rw [State.ahead_eq, State.port_setPort, State.setPort_buf, port, LinkPort.afterValid_counters, due]
    refine ⟨?_, rfl, buf⟩
    by_cases none : (s.port l).rx.nak = .none
    · rw [if_pos none, Receiver.episode_started ((s.port l).afterValid_nak.trans none)]
    · rw [if_neg none, Receiver.episode_kept fun e => none ((s.port l).afterValid_nak.symm.trans e)]
  · exact ⟨_, run (State.judgeHeader_malformed (gap.trans inOrder) illegal), fault _⟩
  · exact ⟨_, run ((State.judgeHeader_legal (gap.trans inOrder) legal).trans (if_pos (by rw [credit]; exact short))), fault _⟩
  · refine takes.exec_header_short check ?_
    rw [← hu, State.judgeHeader_legal (gap.trans inOrder) legal, if_neg (by rw [credit]; exact Nat.not_lt.2 covered),
      if_pos (by rw [free]; exact short)]
  · refine ⟨u.takeIn l header, run ?_, ?_⟩
    · rw [State.judgeHeader_legal (gap.trans inOrder) legal, if_neg (by rw [credit]; exact Nat.not_lt.2 covered),
        if_neg (by rw [free]; exact Nat.not_lt.2 room)]
    · have taken := (u.credit_takeIn l header).trans (by rw [credit])
      have record : ∀ g, (u.takeIn l header).record g = _ := u.record_takeIn l header
      rw [State.takeIn_buf, State.takeIn_queues]
      refine ⟨by rw [← buf]; rfl, by rw [record, next, if_pos rfl, buf]; rfl, fun g ne => ?_, by rw [← buf]; rfl, by rw [← buf]; rfl,
        congrArg CreditClass.consumed taken, congrArg CreditClass.inUse taken, ?_, ?_, ?_, ?_⟩
      · rw [record, next, if_neg (Ne.symm ne), hu, State.record_setPort]
      · rw [State.port_takeIn, next]
        exact ⟨_, rfl, rfl, rfl, rfl, rfl, rfl⟩
      · rw [State.port_takeIn, port]
        exact (s.port l).afterValid_expected
      · rw [hu, State.setPort_queues]
      · rw [State.port_takeIn, port]
        exact (LinkPort.modCredit_tx _ _ _).trans (s.port l).afterValid_tx

/-! ## Blocks other than HAIL, before and at the end of a greeting -/

section
variable {s t : State} {l : LinkId} {header : BitVec 128} {act act' : State → State}

theorem State.received_congr (same : act s = act' s) : s.received l act = s.received l act' := by
  unfold State.received
  rw [same]

/-- In HUNT, and in GREET before the partner's HAIL, no block other than HAIL is acted on. -/
theorem State.validControl_unacted (frame : (s.port l).rx.frame = none)
    (early : (s.port l).state = .hunt ∨ ((s.port l).state = .greet ∧ (s.port l).hailReceived = false)) (act act' : State → State) :
    s.validControl l act = s.validControl l act' := by
  rcases early with hunt | ⟨greet, early⟩
  · rw [State.validControl_hunt hunt, State.validControl_hunt hunt]
  · rw [State.validControl_early greet frame early, State.validControl_early greet frame early]

theorem State.takeHail_hunt (hunt : (s.port l).state = .hunt) (sender revision : Byte) (seen : Bool) :
    s.takeHail l sender revision seen = s.validControl l act := by
  rw [State.validControl_hunt hunt, State.takeHail, hunt]

theorem State.validFrame_hunt (hunt : (s.port l).state = .hunt) :
    s.validFrame l header = .ok (((s.marker l).huntBlock l).passOver l) := by
  rw [State.validFrame, hunt]

theorem State.validFrame_early (greet : (s.port l).state = .greet) (frame : (s.port l).rx.frame = none)
    (early : (s.port l).hailReceived = false) : s.validFrame l header = .ok ((s.setPort l (s.port l).counted).passOver l) := by
  simp [State.validFrame, greet, s.marker_countValid l frame, LinkPort.counted, early]

theorem State.validFrame_late (greet : (s.port l).state = .greet) (frame : (s.port l).rx.frame = none)
    (late : (s.port l).hailReceived = true) :
    s.validFrame l header = ((s.setPort l (s.port l).counted).enterActive l).judgeHeader l header := by
  simp [State.validFrame, greet, s.marker_countValid l frame, LinkPort.counted, late]

/-- An ACK or NAK that finds the list empty is stale. -/
theorem State.takeAck_empty (empty : (s.port l).tx.unacked = []) (n : Byte) : s.takeAck l n = s.countLink l .staleAcks := by
  simp [State.takeAck, State.entryIndex, empty]

theorem State.takeNak_empty (empty : (s.port l).tx.unacked = []) (n : Byte) : s.takeNak l n = s.countLink l .staleAcks := by
  simp [State.takeNak, State.takeAck_empty empty, State.entryIndex, empty]

end

theorem credit_sub_toNat (v k : Credit) : (v - k).toNat = (v.toNat + 65536 - k.toNat) % 65536 := by
  rw [BitVec.toNat_sub]
  omega

/-- Settles O29: what a block other than HAIL does in HUNT and in GREET, and the one after the partner's HAIL, on the state `e` that
its entry to ACTIVE leaves. -/
theorem greetingCompleted : Obligations.GreetingCompleted := by
  unfold Obligations.GreetingCompleted
  intro s l frame
  refine ⟨fun early => ?_, fun hunt a r seen => ?_, fun early header check => ?_, fun greet late => ?_⟩
  · have unacted : ∀ act : State → State, (.next (s.received l fun t => t.validControl l act) : Answer) = exec (.keepReceived l) s :=
      fun act => congrArg Host.Outcome.next (State.received_congr (State.validControl_unacted frame early act _))
    exact ⟨fun n => ⟨unacted _, unacted _⟩, fun c v => unacted _⟩
  · exact congrArg Host.Outcome.next (State.received_congr (State.takeHail_hunt hunt a r seen))
  · rcases early with ⟨hunt, before⟩ | ⟨greet, early⟩
    · refine exec_frameHeaderReceived (LinkPort.live_of_hunt hunt) check ?_
      rw [State.validFrame_hunt hunt, s.marker_huntBlock l frame, if_neg (Nat.not_le.2 before), State.passOver_setPort]
      rfl
    · refine exec_frameHeaderReceived (LinkPort.live_of_greet greet) check ?_
      rw [State.validFrame_early greet frame early, State.passOver_setPort]
      rfl
  · obtain ⟨e, he⟩ : ∃ e, e = (s.setPort l (s.port l).counted).enterActive l := ⟨_, rfl⟩
    have entered : s.EnteredActive e l := by rw [he]; exact s.enteredActive l
    have port := entered.1
    have live := LinkPort.live_of_greet greet
    have handled : ∀ {act : State → State} {t : State}, act e = t →
        (.next (s.received l fun u => u.validControl l act) : Answer) = .next (t.settle s) := fun effect =>
      State.next_received live ((State.validControl_late greet frame late).trans (by rw [← he, effect]))
    have credit : ∀ c, ((e.port l).credit c).partnerGranted = ((s.port l).credit c).partnerGranted ∧
        ((e.port l).credit c).sent = ((s.port l).credit c).sent ∧
        ((e.port l).credit c).outstanding = ((s.port l).credit c).outstanding := fun c => by
      rw [port]; cases c <;> exact ⟨rfl, rfl, rfl⟩
    have counters : (e.port l).counters = (s.port l).counters := by rw [port]
    refine ⟨e, entered, handled rfl, fun c v granted sent => handled ?_, fun n empty => ?_, fun header check seq => ?_⟩
    · obtain ⟨sameGranted, sameSent, -⟩ := credit c
      rw [State.takeGrant_spec, sameGranted, sameSent, credit_sub_toNat, credit_sub_toNat, if_pos ⟨granted, sent⟩]
      rfl
    · have list : (e.port l).tx.unacked = [] := by rw [port]; exact empty
      have stale : e.countLink l .staleAcks =
          e.setPort l
            { e.port l with
              counters := { (s.port l).counters with staleAcks := (s.port l).counters.staleAcks + 1 } } := by
        rw [State.countLink_eq e l rfl, counters]; rfl
      exact ⟨handled ((State.takeAck_empty list n).trans stale), handled ((State.takeNak_empty list n).trans stale)⟩
    · have inOrder : e.seqGap l header = 0 := by
        have same : (s.port l).rx.expected - header.extractLsb' 8 8 = 0 := by rw [seq]; exact BitVec.sub_self _
        rw [State.seqGap, port]
        exact congrArg BitVec.toNat same
      have faults : ∀ {reason : FaultReason}, e.judgeHeader l header = .ok (e.enterFault l reason) →
          ∃ t : State, exec (.frameHeaderReceived l header) s = .next (t.settle s) ∧ e.FaultedBy t l reason := fun judged =>
        ⟨_, exec_frameHeaderReceived live check ((State.validFrame_late greet frame late).trans (by rw [← he, judged])),
          e.enterFault_leaves l _⟩
      refine ⟨fun illegal => faults (State.judgeHeader_malformed inOrder illegal), fun legal short => ?_⟩
      exact faults ((State.judgeHeader_legal inOrder legal).trans (if_pos (by rw [(credit _).2.2]; exact short)))

end Sys2Proof.Machine
end

