-- ==== Sys2Proof/Proofs/ArbiterChoices.lean ====
section
/-! SUPPORT. The choice of an arbiter candidate by candidate, the GRANTs that a change makes due, and what a settled step leaves of
free lines and credit-stall timers (sections 5.2, 5.7, 6.5 and 6.7). -/

namespace Sys2Proof.Machine

/-! ## The GRANTs that a change makes due -/

/-- Where the change from `before` to `s` makes a GRANT due (R118, log entry 18). -/
def State.MakesDue (s before : State) (l : LinkId) (c : Cls) : Prop :=
  (s.port l).state = .active ∧ s.grantable l c ≠ before.grantable l c ∧ (s.port l).cfg.grantStep ≤ s.grantable l c

theorem LinkId.other_ne (l : LinkId) : l.other ≠ l := by cases l <;> simp [LinkId.other]

theorem LinkId.eq_or_eq_other (k l : LinkId) : k = l ∨ k = l.other := by cases k <;> cases l <;> simp [LinkId.other]

section
variable {s t u b : State} {k l m : LinkId} {c d : Cls}

/-- What is due plays no part in what is grantable. -/
theorem State.OnlyDue.makesDue (a : s.OnlyDue t) : t.MakesDue b l c ↔ s.MakesDue b l c := by
  have credit : ∀ k c, { (t.port k).credit c with due := false } = { (s.port k).credit c with due := false } := fun k c => by
    rw [a.due k]; cases c <;> rfl
  have state : (t.port l).state = (s.port l).state := by rw [a.due l]
  have cfg : (t.port l).cfg = (s.port l).cfg := by rw [a.due l]
  unfold State.MakesDue
  rw [state, cfg, State.grantable_congr a.buf credit]

theorem State.due_noteGrant (s b : State) (m l : LinkId) (d c : Cls) :
    (((s.noteGrant b m d).port l).credit c).due = true ↔
      ((s.port l).credit c).due = true ∨ ((l = m ∧ c = d) ∧ s.MakesDue b l c) := by
  have makes : (s.isActive m = true ∧ s.grantable m d ≠ b.grantable m d ∧ (s.port m).cfg.grantStep ≤ s.grantable m d) ↔
      s.MakesDue b m d := by rw [State.isActive_iff]; rfl
  unfold State.noteGrant
  split
  · rename_i on
    have due := makes.1 on
    rw [State.makeDue, State.modCredit, State.port_modPort_cases]
    by_cases link : l = m
    · subst link
      cases c <;> cases d <;> simp_all [LinkPort.modCredit, LinkPort.credit]
    · simp [link]
  · rename_i off
    refine ⟨.inl, fun or => or.resolve_right ?_⟩
    rintro ⟨⟨rfl, rfl⟩, due⟩
    exact off (makes.2 due)

/-- Of the four comparisons one is of the link and class at hand. -/
theorem State.due_noteGrants (s b : State) (l : LinkId) (c : Cls) :
    (((s.noteGrants b).port l).credit c).due = true ↔ ((s.port l).credit c).due = true ∨ s.MakesDue b l c := by
  have one := s.noteGrant_onlyDue b .a .control
  have two := one.trans (State.noteGrant_onlyDue _ b .a .data)
  have three := two.trans (State.noteGrant_onlyDue _ b .b .control)
  unfold State.noteGrants
  rw [State.due_noteGrant, State.due_noteGrant, State.due_noteGrant, State.due_noteGrant, one.makesDue, two.makesDue, three.makesDue]
  cases l <;> cases c <;> simp

end

/-- The GRANTs made due change the ports alone. -/
theorem State.noteGrants_ports (s b : State) :
    s.noteGrants b = { s with portA := (s.noteGrants b).portA, portB := (s.noteGrants b).portB } := by
  have one : ∀ (t : State) (l : LinkId) (c : Cls), ∃ p q, t.noteGrant b l c = { t with portA := p, portB := q } := fun t l c => by
    unfold State.noteGrant
    split
    · cases l <;> exact ⟨_, _, rfl⟩
    · exact ⟨_, _, rfl⟩
  obtain ⟨p₁, q₁, e₁⟩ := one s .a .control
  obtain ⟨p₂, q₂, e₂⟩ := one _ .a .data
  obtain ⟨p₃, q₃, e₃⟩ := one _ .b .control
  obtain ⟨p₄, q₄, e₄⟩ := one _ .b .data
  rw [State.noteGrants, e₄, e₃, e₂, e₁]

/-! ## The choice, candidate by candidate -/

section
variable {s : State} {l : LinkId} {keep : Bool} {c : Cls} {h : Nat}

theorem State.choose_step (s : State) (l : LinkId) (keep : Bool) :
    s.choose l keep = State.arbitrate
      ((s.queue (.tx l .control)).entries.length + (s.queue (.tx l .data)).entries.length + 1) l keep s := rfl

/-- Without a free line no choice is made. -/
theorem State.choose_taken (taken : s.lineFree l = false) : s.choose l keep = s := by
  rw [State.choose_step, State.arbitrate, taken]
  exact if_neg Bool.false_ne_true

theorem State.choose_nak (free : s.lineFree l = true) (e : s.candidate l keep = some .nak) : s.choose l keep = s.beginNak l := by
  rw [State.choose_step, State.arbitrate, if_pos free, e]

theorem State.choose_ack (free : s.lineFree l = true) (e : s.candidate l keep = some .ack) : s.choose l keep = s.beginAck l := by
  rw [State.choose_step, State.arbitrate, if_pos free, e]

theorem State.choose_grant (free : s.lineFree l = true) (e : s.candidate l keep = some (.grant c)) :
    s.choose l keep = s.beginGrant l c := by
  rw [State.choose_step, State.arbitrate, if_pos free, e]

theorem State.choose_sound_replay (free : s.lineFree l = true) (e : s.candidate l keep = some (.replay h))
    (sound : s.isPoisoned h = false) : s.choose l keep = s.beginResend l h := by
  rw [State.choose_step, State.arbitrate, if_pos free, e]
  exact if_neg (by rw [sound]; exact Bool.false_ne_true)

theorem State.choose_keep (free : s.lineFree l = true) (e : s.candidate l keep = some .keep) :
    s.choose l keep = s.beginBlock l (.control .keep) := by
  rw [State.choose_step, State.arbitrate, if_pos free, e]

theorem State.choose_none (free : s.lineFree l = true) (e : s.candidate l keep = none) : s.choose l keep = s.stayIdle l := by
  rw [State.choose_step, State.arbitrate, if_pos free, e]

/-! ## The candidates -/

theorem State.candidate_nak (nak : (s.port l).rx.nakDue = true) : s.candidate l keep = some .nak := if_pos nak

theorem State.candidate_ack (nak : (s.port l).rx.nakDue = false) (ack : (s.port l).rx.ackDue = true) :
    s.candidate l keep = some .ack := by
  simp [State.candidate, nak, ack]

theorem State.candidate_grant (nak : (s.port l).rx.nakDue = false) (ack : (s.port l).rx.ackDue = false)
    (due : ((s.port l).credit c).due = true) (first : c = .data → (s.port l).ctl.due = false) :
    s.candidate l keep = some (.grant c) := by
  unfold State.candidate
  cases c with
  | control => simp [nak, ack, show (s.port l).ctl.due = true from due]
  | data => simp [nak, ack, first rfl, show (s.port l).dat.due = true from due]

/-! ## When nothing may be sent -/

/-- Nothing may be sent: no NAK, ACK or GRANT is due, and neither a replay frame nor a head may go out. -/
structure State.NothingToSend (s : State) (l : LinkId) : Prop where
  nak : (s.port l).rx.nakDue = false
  ack : (s.port l).rx.ackDue = false
  control : (s.port l).ctl.due = false
  data : (s.port l).dat.due = false
  replay : s.nextReplay l = none
  head : ∀ c, s.eligibleHead l c = none

/-- Where nothing may be sent a KEEP goes out, if the idle timer has expired. -/
theorem State.NothingToSend.candidate (a : s.NothingToSend l) (keep : Bool) :
    s.candidate l keep = if keep then some .keep else none := by
  unfold State.candidate
  simp [a.nak, a.ack, a.control, a.data, a.replay, a.head]

theorem State.candidate_eq_none (s : State) (l : LinkId) : s.candidate l false = none ↔ s.NothingToSend l := by
  refine ⟨fun e => ?_, fun a => a.candidate false⟩
  unfold State.candidate at e
  dsimp only at e
  split at e; · cases e
  split at e; · cases e
  split at e; · cases e
  split at e; · cases e
  split at e; · cases e
  split at e; · cases e
  split at e; · cases e
  rename_i nak ack control data _ replay _ head _ head'
  exact ⟨Bool.eq_false_of_not_eq_true nak, Bool.eq_false_of_not_eq_true ack, Bool.eq_false_of_not_eq_true control,
    Bool.eq_false_of_not_eq_true data, replay, fun c => by cases c; exacts [head, head']⟩

theorem State.eligibleHead_of_empty (empty : (s.queue (.tx l c)).entries = []) : s.eligibleHead l c = none :=
  State.eligibleHead_without_credit fun _ _ _ head _ => nomatch empty.symm.trans head

theorem State.isPoisoned_of_record {r : Record} (hr : s.record h = some r) : s.isPoisoned h = r.poisoned := by
  unfold State.isPoisoned
  rw [hr]

/-- A link whose line carries a block, or has nothing to carry and its idle timer running (R91, R107). -/
def State.Rests (s : State) (l : LinkId) : Prop :=
  s.lineFree l = true → s.NothingToSend l ∧ (s.port l).tx.idleTimer.isSome = true

theorem State.Rests.of_line (line : (s.port l).tx.line ≠ .none) : s.Rests l := fun free =>
  absurd ((s.lineFree_iff l).1 free).2 line

theorem State.Rests.of_state (state : (s.port l).state ≠ .active) : s.Rests l := fun free =>
  absurd ((s.lineFree_iff l).1 free).1 state

/-- The choice of a resting link sends nothing. -/
theorem State.Rests.choose (a : s.Rests l) : s.choose l = s ∨ s.choose l = s.stayIdle l := by
  cases free : s.lineFree l with
  | false => exact .inl (State.choose_taken free)
  | true => exact .inr (State.choose_none free ((s.candidate_eq_none l).2 (a free).1))

theorem State.nothingToSend_stayIdle (s : State) (l k : LinkId) : (s.stayIdle l).NothingToSend k ↔ s.NothingToSend k := by
  rw [← State.candidate_eq_none, ← State.candidate_eq_none]
  cases l <;> cases k <;> exact Iff.rfl

theorem State.stayIdle_idleTimer (s : State) (l : LinkId) : ((s.stayIdle l).port l).tx.idleTimer.isSome = true := by
  rw [State.stayIdle, State.port_modPort]; rfl

theorem State.stayIdle_line (s : State) (l : LinkId) : ((s.stayIdle l).port l).tx.line = (s.port l).tx.line := by
  rw [State.stayIdle, State.port_modPort]

theorem State.Rests.stayIdle {k : LinkId} (a : s.Rests k) (l : LinkId) : (s.stayIdle l).Rests k := by
  have free : (s.stayIdle l).lineFree k = s.lineFree k := by cases l <;> cases k <;> rfl
  intro on
  obtain ⟨nothing, timer⟩ := a (free ▸ on)
  refine ⟨(s.nothingToSend_stayIdle l k).2 nothing, ?_⟩
  rw [State.stayIdle, State.port_modPort_cases]
  split
  · rfl
  · exact timer

theorem State.beginBlock_line (s : State) (l : LinkId) (b : LineBlock) : ((s.beginBlock l b).port l).tx.line = b := by
  rw [State.beginBlock, State.port_modTx]

/-- The next replay frame is an entry of the list, at or after the replay point by the seq in its record. -/
theorem State.nextReplay_some (e : s.nextReplay l = some h) :
    ∃ n, h ∈ (s.port l).tx.unacked ∧ (s.port l).tx.replay = some n ∧ ∃ q, s.seqOn l h = some q ∧ (q - n).toNat < 128 := by
  unfold State.nextReplay at e
  split at e
  · rename_i n replay
    have found := List.find?_some e
    unfold State.handleAtOrAfter at found
    split at found
    · rename_i q seq; exact ⟨n, List.mem_of_find?_eq_some e, replay, q, seq, of_decide_eq_true found⟩
    · cases found
  · cases e

theorem State.candidate_replay (e : s.candidate l keep = some (.replay h)) : s.nextReplay l = some h := by
  unfold State.candidate at e
  dsimp only at e
  split at e; · cases e
  split at e; · cases e
  split at e; · cases e
  split at e; · cases e
  split at e
  · rename_i found; cases e; exact found
  · split at e; · cases e
    split at e; · cases e
    split at e <;> cases e

/-- A resend (R104). -/
theorem State.beginResend_eq {r : Record} (hr : s.record h = some r) :
    s.beginResend l h = s.beginBlock l (.frame (txFrame h r ((r.holder l).seq.getD 0) true)) := by
  unfold State.beginResend
  rw [hr]

end

/-- An arbiter chooses until its link rests: a poisoned head dropped lowers by 1 the heads that it could drop. -/
theorem State.choose_rests (s : State) (l : LinkId) : (s.choose l).Rests l := by
  induction fuel : s.arbiterFuel l generalizing s with
  | zero => exact absurd fuel (Nat.succ_ne_zero _)
  | succ n ih =>
    cases free : s.lineFree l with
    | false => rw [State.choose_taken free]; exact fun on => absurd (free.symm.trans on) Bool.false_ne_true
    | true =>
      cases e : s.candidate l false with
      | none =>
        rw [State.choose_none free e]
        exact fun _ => ⟨(s.nothingToSend_stayIdle l l).2 ((s.candidate_eq_none l).1 e), s.stayIdle_idleTimer l⟩
      | some candidate =>
        cases candidate with
        | nak => rw [State.choose_nak free e]; exact .of_line (by rw [State.beginNak, State.beginBlock_line]; nofun)
        | ack => rw [State.choose_ack free e]; exact .of_line (by rw [State.beginAck, State.beginBlock_line]; nofun)
        | grant c => rw [State.choose_grant free e]; exact .of_line (by rw [State.beginGrant, State.beginBlock_line]; nofun)
        | keep => rw [State.choose_keep free e]; exact .of_line (by rw [State.beginBlock_line]; nofun)
        | replay h =>
          obtain ⟨-, -, -, q, seq, -⟩ := State.nextReplay_some (State.candidate_replay e)
          obtain ⟨r, hr, -⟩ := Option.bind_eq_some_iff.1 seq
          cases poisoned : s.isPoisoned h with
          | true =>
            rw [State.choose_poisoned_replay free e poisoned]
            exact .of_state (by rw [(s.enterFault_faultedBy s l .replayDataLost).1]; nofun)
          | false =>
            rw [State.choose_sound_replay free e poisoned]
            exact .of_line (by rw [State.beginResend_eq hr, State.beginBlock_line]; nofun)
        | head c h =>
          obtain ⟨rest, r, hq, hr, -⟩ := State.eligibleHead_some (State.candidate_head e)
          cases poisoned : s.isPoisoned h with
          | true =>
            rw [State.choose_poisoned_head free e hq poisoned]
            exact ih _ (Nat.succ.inj ((State.arbiterFuel_poisonDrop hq).symm.trans fuel))
          | false =>
            obtain ⟨-, -, -, -, line, -, -⟩ := s.beginFirst_parts l c h r hr
            rw [State.choose_sound_head free e poisoned]
            exact .of_line (by rw [line, if_pos rfl]; nofun)

/-! ## What the choice of one arbiter leaves of the other link -/

/-- What an operation of another link leaves of a link: its port but for in-use, what is due, the stall timers and the counters, its
transmit queues, and of each record that is not freed its cells and the link's holder. -/
structure State.LeavesSide (s t : State) (k : LinkId) : Prop where
  side : (t.port k).side = (s.port k).side
  queues : ∀ c, (t.queue (.tx k c)).entries = (s.queue (.tx k c)).entries
  record : ∀ h r', t.record h = some r' → ∃ r, s.record h = some r ∧ r'.cells = r.cells ∧ r'.holder k = r.holder k

section
variable {s t u : State} {k l : LinkId} {c : Cls} {h : Nat}

theorem State.LeavesSide.of_same (port : (t.port k).side = (s.port k).side) (queues : t.queues = s.queues) (buf : t.buf = s.buf) :
    s.LeavesSide t k :=
  ⟨port, fun c => by rw [State.queue, queues]; rfl, fun h r' e => ⟨r', by rw [State.record, ← buf]; exact e, rfl, rfl⟩⟩

theorem State.LeavesSide.refl (s : State) (k : LinkId) : s.LeavesSide s k := .of_same rfl rfl rfl

theorem State.LeavesSide.trans (a : s.LeavesSide t k) (b : t.LeavesSide u k) : s.LeavesSide u k where
  side := b.side.trans a.side
  queues c := (b.queues c).trans (a.queues c)
  record h r e := by
    obtain ⟨r', e', cells', holder'⟩ := b.record h r e
    obtain ⟨r'', e'', cells'', holder''⟩ := a.record h r' e'
    exact ⟨r'', e'', cells'.trans cells'', holder'.trans holder''⟩

theorem State.LeavesSide.tx (a : s.LeavesSide t k) : (t.port k).tx = (s.port k).tx := (congrArg LinkPort.tx a.side :)

theorem State.LeavesSide.rx (a : s.LeavesSide t k) : (t.port k).rx = (s.port k).rx := (congrArg LinkPort.rx a.side :)

theorem State.LeavesSide.state (a : s.LeavesSide t k) : (t.port k).state = (s.port k).state := (congrArg LinkPort.state a.side :)

theorem State.LeavesSide.available (a : s.LeavesSide t k) (c : Cls) :
    ((t.port k).credit c).available = ((s.port k).credit c).available := by
  cases c
  · exact (congrArg (fun p : LinkPort => p.ctl.available) a.side :)
  · exact (congrArg (fun p : LinkPort => p.dat.available) a.side :)

theorem State.LeavesSide.lineFree (a : s.LeavesSide t k) : t.lineFree k = s.lineFree k := by
  rw [State.lineFree, State.isActive, a.state, a.tx]; rfl

theorem State.OnlyDue.leavesSide (a : s.OnlyDue t) (k : LinkId) : s.LeavesSide t k :=
  .of_same (by rw [a.due k]; rfl) a.queues a.buf

/-- A change of the other link's port. -/
theorem State.modPort_leavesSide (s : State) (ne : k ≠ l) (f : LinkPort → LinkPort) : s.LeavesSide (s.modPort l f) k :=
  .of_same (by rw [State.port_modPort_cases, if_neg ne]) (s.modPort_queues l f) (s.modPort_buf l f)

theorem State.countLink_leavesSide (s : State) (l : LinkId) (n : LinkCounter) (k : LinkId) : s.LeavesSide (s.countLink l n) k :=
  .of_same (by rw [State.port_countLink_kept]; rfl) (s.countLink_queues l n) (s.countLink_buf l n)

theorem State.beginBlock_leavesSide (s : State) (ne : k ≠ l) (b : LineBlock) : s.LeavesSide (s.beginBlock l b) k :=
  s.modPort_leavesSide ne fun p => { p with tx := { p.tx with line := b, idleTimer := none } }

theorem State.modRx_leavesSide (s : State) (ne : k ≠ l) (f : Receiver → Receiver) : s.LeavesSide (s.modRx l f) k :=
  s.modPort_leavesSide ne fun p => { p with rx := f p.rx }

theorem State.beginNak_leavesSide (s : State) (ne : k ≠ l) : s.LeavesSide (s.beginNak l) k :=
  ((s.modRx_leavesSide ne _).trans (State.countLink_leavesSide _ l _ k)).trans (State.beginBlock_leavesSide _ ne _)

theorem State.beginAck_leavesSide (s : State) (ne : k ≠ l) : s.LeavesSide (s.beginAck l) k :=
  (s.modRx_leavesSide ne _).trans (State.beginBlock_leavesSide _ ne _)

theorem State.decideGrant_leavesSide (s : State) (ne : k ≠ l) (c : Cls) : s.LeavesSide (s.decideGrant l c) k :=
  s.modPort_leavesSide ne fun p =>
    p.modCredit c fun x => { x with granted := x.granted + BitVec.ofNat 16 (s.grantable l c), due := false }

theorem State.beginGrant_leavesSide (s : State) (ne : k ≠ l) (c : Cls) : s.LeavesSide (s.beginGrant l c) k :=
  ((s.decideGrant_leavesSide ne c).trans ((State.noteGrants_onlyDue _ s).leavesSide k)).trans (State.beginBlock_leavesSide _ ne _)

theorem State.beginResend_leavesSide (s : State) (ne : k ≠ l) (h : Nat) : s.LeavesSide (s.beginResend l h) k := by
  unfold State.beginResend
  split
  · exact .refl s k
  · exact s.beginBlock_leavesSide ne _

/-- What remains of a record without the other link's holder. -/
theorem Record.shed_some {r r' : Record} (ne : k ≠ l) (e : r.shed l = some r') : r'.cells = r.cells ∧ r'.holder k = r.holder k := by
  unfold Record.shed at e
  split at e
  · cases e
  · cases e; exact ⟨r.setHolder_cells l _, r.holder_setHolder_ne _ ne⟩

/-- The other link's holder removed from some records, and others freed. -/
theorem State.LeavesSide.record_of_shed (ne : k ≠ l)
    (shed : ∀ h, t.record h = none ∨ t.record h = (s.record h).bind (Record.shed l) ∨ t.record h = s.record h) (h : Nat) (r' : Record)
    (e : t.record h = some r') : ∃ r, s.record h = some r ∧ r'.cells = r.cells ∧ r'.holder k = r.holder k := by
  rcases shed h with none | left | same
  · rw [none] at e; cases e
  · rw [left] at e
    obtain ⟨r, hr, shed⟩ := Option.bind_eq_some_iff.1 e
    exact ⟨r, hr, Record.shed_some ne shed⟩
  · exact ⟨r', same ▸ e, rfl, rfl⟩

theorem LinkPort.side_of_bare {p q : LinkPort} (bare : q.bare = p.bare) (tx : q.tx = p.tx) : q.side = p.side := by
  have parts : ∀ x : LinkPort, x.side = { x.bare with tx := x.tx, counters := .reset } := fun _ => rfl
  rw [parts q, parts p, bare, tx]

theorem State.dropHead_leavesSide (s : State) (ne : k ≠ l) (c : Cls) (h : Nat) : s.LeavesSide (s.dropHead (.tx l c) h) k where
  side := s.dropHead_links (.tx l c) h k
  queues d := by rw [State.queue_dropHead, if_neg (by rintro ⟨⟩; exact ne rfl)]
  record := State.LeavesSide.record_of_shed ne fun g => by
    rw [(s.dropHead_sheds l c h).record]
    split
    · exact .inr (.inl rfl)
    · exact .inr (.inr rfl)

theorem State.poisonDrop_leavesSide (s : State) (ne : k ≠ l) (c : Cls) (h : Nat) : s.LeavesSide (s.poisonDrop l c h) k :=
  ((s.dropHead_leavesSide ne c h).trans (State.countLink_leavesSide _ l _ k)).trans ((State.noteGrants_onlyDue _ s).leavesSide k)

theorem State.enterFault_leavesSide (s : State) (ne : k ≠ l) (reason : FaultReason) : s.LeavesSide (s.enterFault l reason) k := by
  obtain ⟨stripped, -, others, -⟩ := s.enterFault_parts l reason
  obtain ⟨bare, tx⟩ := others k ne
  refine ⟨LinkPort.side_of_bare bare tx, fun c => ?_, State.LeavesSide.record_of_shed ne fun h => ?_⟩
  · rw [stripped.queues, if_neg]
    rintro (⟨⟨⟩⟩ | ⟨⟨⟩⟩) <;> exact ne rfl
  · by_cases filling : h ∈ s.fillingHandles l
    · exact .inl (stripped.filling h filling)
    · by_cases dropped : h ∈ s.droppedHandles l
      · exact .inr (.inl (stripped.dropped h filling dropped))
      · exact .inr (.inr (stripped.others h (by simp [filling, dropped])))

/-- The beginning of a first transmission as the taking of its head off, which leaves the links, and the block on the line. -/
theorem State.beginFirst_eq (s : State) (l : LinkId) (c : Cls) {h : Nat} {r : Record} (hr : s.record h = some r) :
    ∃ u : State, s.SameLinks u ∧ s.beginFirst l c h = u.beginBlock l (.frame (txFrame h r (s.port l).tx.nextSeq false)) := by
  refine ⟨((s.popHead (.tx l c)).setLinkHolder l h (.sending (s.port l).tx.nextSeq)).entryLeft (.tx l c) h, ?_, ?_⟩
  · exact ((s.popHead_links _).trans (State.modRecord_links _ _ _)).trans (State.entryLeft_links _ _ _)
  · unfold State.beginFirst
    rw [hr]

theorem State.beginFirst_leavesSide (s : State) (ne : k ≠ l) (c : Cls) (h : Nat) : s.LeavesSide (s.beginFirst l c h) k := by
  cases hr : s.record h with
  | none => unfold State.beginFirst; rw [hr]; exact .refl s k
  | some r =>
    obtain ⟨record, queue, -⟩ := s.beginFirst_parts l c h r hr
    refine ⟨?_, fun d => ?_, fun g r' e => ?_⟩
    · obtain ⟨u, links, begun⟩ := s.beginFirst_eq l c hr
      rw [begun]
      exact (u.beginBlock_leavesSide ne _).side.trans (links k)
    · rw [queue, State.queue_popHead, if_neg (by rintro ⟨⟩; exact ne rfl)]
    · rw [record] at e
      split at e
      · rename_i same
        cases e
        exact ⟨r, same ▸ hr, r.setHolder_cells l _, r.holder_setHolder_ne _ ne⟩
      · exact ⟨r', e, rfl, rfl⟩

theorem State.arbitrate_leavesSide (ne : k ≠ l) (keep : Bool) (fuel : Nat) (s : State) :
    s.LeavesSide (State.arbitrate fuel l keep s) k := by
  induction fuel generalizing s with
  | zero => exact .refl s k
  | succ fuel ih =>
    unfold State.arbitrate
    split
    · split
      · exact s.beginNak_leavesSide ne
      · exact s.beginAck_leavesSide ne
      · exact s.beginGrant_leavesSide ne _
      · split
        · exact (s.enterFault_leavesSide ne _).trans ((State.noteGrants_onlyDue _ s).leavesSide k)
        · exact s.beginResend_leavesSide ne _
      · split
        · exact (s.poisonDrop_leavesSide ne _ _).trans (ih _)
        · exact s.beginFirst_leavesSide ne _ _
      · exact s.beginBlock_leavesSide ne _
      · exact s.modPort_leavesSide ne _
    · exact .refl s k

theorem State.choose_leavesSide (s : State) (ne : k ≠ l) (keep : Bool) : s.LeavesSide (s.choose l keep) k :=
  State.arbitrate_leavesSide ne keep _ s

/-- Where nothing may be sent, an operation of the other link can make a GRANT due and nothing else. -/
theorem State.NothingToSend.left (a : s.NothingToSend k) (b : s.LeavesSide t k) (control : (t.port k).ctl.due = false)
    (data : (t.port k).dat.due = false) : t.NothingToSend k where
  nak := by rw [b.rx]; exact a.nak
  ack := by rw [b.rx]; exact a.ack
  control := control
  data := data
  replay := by
    cases e : t.nextReplay k with
    | none => rfl
    | some h =>
      obtain ⟨n, mem, replay, q, seq, after⟩ := State.nextReplay_some e
      rw [b.tx] at replay mem
      obtain ⟨r', hr', holder⟩ := Option.bind_eq_some_iff.1 seq
      obtain ⟨r, hr, -, same⟩ := b.record h r' hr'
      have entry : s.EntryFrom k n := ⟨h, mem, q, by rw [State.seqOn, hr, Option.bind_some, ← same]; exact holder, after⟩
      exact absurd entry ((s.nextReplay_isNone k n replay).1 (by rw [a.replay]; rfl))
  head c := by
    cases e : t.eligibleHead k c with
    | none => rfl
    | some h =>
      obtain ⟨rest, r', hq, hr', window, credit⟩ := State.eligibleHead_some e
      obtain ⟨r, hr, cells, -⟩ := b.record h r' hr'
      rw [LinkPort.windowOpen, b.tx] at window
      rw [b.queues] at hq
      rw [b.available, cells] at credit
      simp only [Bool.and_eq_true, Option.isNone_iff_eq_none, decide_eq_true_eq] at window
      exact (State.eligibleHead_of_room hq hr window.1 window.2 credit).symm.trans (a.head c)

/-! ## What a settled step leaves -/

/-- The choices of both arbiters leave both links at rest: after the second choices a link has nothing to send but a GRANT that the
other's choice made due, and it takes that at its own (log entry 24). -/
theorem State.chooseBoth_rests (s : State) (first l : LinkId) : (s.chooseBoth first).Rests l := by
  unfold State.chooseBoth
  obtain ⟨u, hu⟩ : ∃ u, u = s.choose first := ⟨_, rfl⟩
  obtain ⟨v, hv⟩ : ∃ v, v = u.choose first.other := ⟨_, rfl⟩
  rw [← hu, ← hv]
  rcases LinkId.eq_or_eq_other l first with rfl | rfl
  · have rested : u.Rests l := hu ▸ s.choose_rests l
    have other : v.Rests l.other := hv ▸ u.choose_rests l.other
    have left : u.LeavesSide v l := hv ▸ u.choose_leavesSide (LinkId.other_ne l).symm false
    have after : (v.choose l).LeavesSide ((v.choose l).choose l.other) l := State.choose_leavesSide _ (LinkId.other_ne l).symm false
    intro free
    rw [after.lineFree] at free
    cases before : v.lineFree l with
    | false => rw [State.choose_taken before, before] at free; cases free
    | true =>
      obtain ⟨nothing, -⟩ := rested (left.lineFree ▸ before)
      have nak : (v.port l).rx.nakDue = false := by rw [left.rx]; exact nothing.nak
      have ack : (v.port l).rx.ackDue = false := by rw [left.rx]; exact nothing.ack
      have granting : ∀ c, v.candidate l false = some (.grant c) → (v.choose l).lineFree l = false := fun c e => by
        rw [State.choose_grant before e, ← Bool.not_eq_true, State.lineFree_iff, State.beginGrant, State.beginBlock_line]
        exact fun on => nomatch on.2
      cases control : (v.port l).ctl.due with
      | true => rw [granting .control (State.candidate_grant nak ack control nofun)] at free; cases free
      | false =>
        cases data : (v.port l).dat.due with
        | true => rw [granting .data (State.candidate_grant nak ack data fun _ => control)] at free; cases free
        | false =>
          have none := nothing.left left control data
          have idle := State.choose_none before ((v.candidate_eq_none l).2 none)
          have resting : (v.choose l).Rests l := v.choose_rests l
          rcases (State.Rests.choose (idle ▸ other.stayIdle l : (v.choose l).Rests l.other)) with same | same
          · rw [same]; exact resting free
          · rw [same]; exact resting.stayIdle l.other (same ▸ after.lineFree ▸ free)
  · exact State.choose_rests _ _

theorem State.arbiters_rests (s : State) (l : LinkId) : s.arbiters.Rests l := by
  unfold State.arbiters
  split
  · exact State.chooseBoth_rests _ _ l
  · exact s.chooseBoth_rests _ l

/-- The credit-stall timers play no part in what may be sent. -/
theorem State.Rests.refreshStall (a : s.Rests l) (k : LinkId) (c : Cls) : (s.refreshStall k c).Rests l := by
  have same : (s.refreshStall k c).candidate l false = s.candidate l false ∧ (s.refreshStall k c).lineFree l = s.lineFree l ∧
      ((s.refreshStall k c).port l).tx.idleTimer = (s.port l).tx.idleTimer := by
    rw [s.refreshStall_eq k c]
    cases k <;> cases c <;> cases l <;> exact ⟨rfl, rfl, rfl⟩
  obtain ⟨candidate, free, timer⟩ := same
  rw [State.Rests, ← State.candidate_eq_none, candidate, free, timer, State.candidate_eq_none]
  exact a

/-- The credit-stall timer of a class runs exactly while its head waits only for credit and the limit is not 0 (R123, R125). -/
def State.StallTold (s : State) (l : LinkId) (c : Cls) : Prop :=
  ((s.port l).credit c).stallTimer.isSome = true ↔ s.waitsForCredit l c = true ∧ (s.port l).cfg.stallLimit ≠ 0

/-- The credit-stall timers play no part in whether a head waits for credit. -/
theorem State.waitsForCredit_refreshStall (s : State) (k l : LinkId) (d c : Cls) :
    (s.refreshStall k d).waitsForCredit l c = s.waitsForCredit l c ∧
      ((s.refreshStall k d).port l).cfg = (s.port l).cfg := by
  rw [s.refreshStall_eq k d]
  cases k <;> cases d <;> cases l <;> cases c <;> exact ⟨rfl, rfl⟩

theorem State.refreshStall_told (s : State) (l : LinkId) (c : Cls) : (s.refreshStall l c).StallTold l c := by
  obtain ⟨waits, cfg⟩ := s.waitsForCredit_refreshStall l l c c
  rw [State.StallTold, waits, cfg, s.refreshStall_eq l c, State.port_setPort, LinkPort.credit_modCredit, State.stallAfter]
  split
  · rename_i on; simp [on]
  · rename_i off; simp only [Option.isSome_none, Bool.false_eq_true, off]

theorem State.StallTold.refreshStall (a : s.StallTold l c) (k : LinkId) (d : Cls) : (s.refreshStall k d).StallTold l c := by
  by_cases same : k = l ∧ d = c
  · obtain ⟨rfl, rfl⟩ := same; exact s.refreshStall_told k d
  · have timer : (((s.refreshStall k d).port l).credit c).stallTimer = ((s.port l).credit c).stallTimer := by
      rw [s.refreshStall_eq k d]
      cases k <;> cases l <;> cases d <;> cases c <;> first | rfl | exact absurd ⟨rfl, rfl⟩ same
    obtain ⟨waits, cfg⟩ := s.waitsForCredit_refreshStall k l d c
    rw [State.StallTold, timer, waits, cfg]
    exact a

theorem State.refreshStalls_told (s : State) (l : LinkId) (c : Cls) : s.refreshStalls.StallTold l c := by
  unfold State.refreshStalls
  cases l <;> cases c
  · exact (((State.refreshStall_told _ _ _).refreshStall _ _).refreshStall _ _).refreshStall _ _
  · exact ((State.refreshStall_told _ _ _).refreshStall _ _).refreshStall _ _
  · exact (State.refreshStall_told _ _ _).refreshStall _ _
  · exact State.refreshStall_told _ _ _

theorem State.settle_rests (s b : State) (l : LinkId) : (s.settle b).Rests l :=
  ((((s.noteGrants b).arbiters_rests l).refreshStall _ _).refreshStall _ _).refreshStall _ _ |>.refreshStall _ _

theorem State.settle_told (s b : State) (l : LinkId) (c : Cls) : (s.settle b).StallTold l c :=
  State.refreshStalls_told _ l c

/-! ## What each block leaves as it begins -/

/-- The NAK of the episode (R79). -/
theorem State.port_beginNak (s : State) (l : LinkId) :
    (s.beginNak l).port l =
      { s.port l with
        rx := { (s.port l).rx with nakDue := false, nak := .sent, ackPending := 0, ackTimer := none, ackDue := false }
        tx := { (s.port l).tx with line := .control (.nak (s.port l).rx.expected), idleTimer := none }
        counters := { (s.port l).counters with naksSent := (s.port l).counters.naksSent + 1 } } := by
  rw [State.beginNak, State.beginBlock, State.port_modTx, State.port_countLink, State.port_modRx]
  rfl

/-- An ACK (R81). -/
theorem State.port_beginAck (s : State) (l : LinkId) :
    (s.beginAck l).port l =
      { s.port l with
        rx := { (s.port l).rx with ackDue := false, ackPending := 0, ackTimer := none }
        tx := { (s.port l).tx with line := .control (.ack ((s.port l).rx.expected - 1)), idleTimer := none } } := by
  rw [State.beginAck, State.beginBlock, State.port_modTx, State.port_modRx]

/-- A GRANT carries the granted count as its own decision leaves it (R119). -/
theorem State.beginGrant_granted (s : State) (l : LinkId) (c : Cls) :
    (((s.beginGrant l c).port l).credit c).granted = ((s.port l).credit c).granted + BitVec.ofNat 16 (s.grantable l c) ∧
      ((s.beginGrant l c).port l).tx.line =
        .control (.grant c (((s.port l).credit c).granted + BitVec.ofNat 16 (s.grantable l c))) := by
  have decided : (((s.decideGrant l c).port l).credit c).granted =
      ((s.port l).credit c).granted + BitVec.ofNat 16 (s.grantable l c) := by
    rw [State.decideGrant, State.port_modCredit, LinkPort.credit_modCredit]
  rw [State.beginGrant, State.beginBlock_line, decided]
  refine ⟨?_, rfl⟩
  rw [← decided, State.beginBlock, State.port_modTx, ((s.decideGrant l c).noteGrants_onlyDue s).due l]
  cases c <;> rfl

theorem State.beginFirst_nextSeq (s : State) (l : LinkId) (c : Cls) {r : Record} (hr : s.record h = some r) :
    ((s.beginFirst l c h).port l).tx.nextSeq = (s.port l).tx.nextSeq := by
  obtain ⟨u, links, begun⟩ := s.beginFirst_eq l c hr
  rw [begun, State.beginBlock, State.port_modTx, ← links.tx l]

end

/-- Settles O43: the choice by its candidate, the GRANTs due by the comparison of the link and class at hand, and a settled step by the
rest that the arbiters leave. -/
theorem arbiterChoice : Obligations.ArbiterChoice := by
  unfold Obligations.ArbiterChoice
  refine ⟨fun s l free => ⟨fun nak => ?_, fun nak ack => ?_, fun nak ack => ⟨fun control => ?_, fun control data => ?_,
    fun control data => ?_⟩⟩, fun s b l c => ?_, fun s b l => ?_⟩
  · rw [State.choose_nak free (State.candidate_nak nak), State.port_beginNak]
    exact ⟨rfl, rfl, rfl, rfl, rfl, rfl, rfl⟩
  · rw [State.choose_ack free (State.candidate_ack nak ack), State.port_beginAck]
    exact ⟨rfl, rfl, rfl, rfl⟩
  · obtain ⟨granted, line⟩ := s.beginGrant_granted l .control
    rw [State.choose_grant free (State.candidate_grant (c := .control) nak ack control nofun)]
    exact ⟨granted, line.trans (by rw [← granted]; rfl)⟩
  · obtain ⟨granted, line⟩ := s.beginGrant_granted l .data
    rw [State.choose_grant free (State.candidate_grant (c := .data) nak ack data fun _ => control)]
    exact ⟨granted, line.trans (by rw [← granted]; rfl)⟩
  · have nothing : s.NothingDue l := ⟨free, nak, ack, control, data⟩
    refine ⟨fun n xs h ys r k replay list hr sound seq after before => ?_, fun c h rest r replay hq hr room empty => ⟨?_, ?_⟩⟩
    · have candidate := nothing.candidate_replay (State.nextReplay_first replay list seq after before)
      have holder : (r.holder l).seq = some k := by rw [State.seqOn, hr] at seq; exact seq
      rw [State.choose_sound_replay free candidate ((State.isPoisoned_of_record hr).trans sound), State.beginResend_eq hr, holder,
        State.beginBlock, State.port_modTx]
      exact ⟨rfl, s.modTx_buf l _, rfl⟩
    · intro credit sound
      have candidate := nothing.candidate_head replay (State.eligibleHead_of_room hq hr replay room credit)
        fun data => State.eligibleHead_of_empty (empty data)
      obtain ⟨record, queue, -, -, line, -, counts⟩ := s.beginFirst_parts l c h r hr
      rw [State.choose_sound_head free candidate ((State.isPoisoned_of_record hr).trans sound)]
      refine ⟨by rw [line, if_pos rfl], ?_, by rw [record, if_pos rfl], s.beginFirst_nextSeq l c hr,
        (congrArg CreditClass.sent (counts l c) :), s.beginFirst_follows l c hr⟩
      rw [queue, State.queue_popHead, if_pos rfl, hq]; rfl
    · intro short other
      have lacking : s.eligibleHead l c = none := State.eligibleHead_without_credit fun g others o hq' ho => by
        cases hq.symm.trans hq'
        cases hr.symm.trans ho
        exact short
      have heads : ∀ d, s.eligibleHead l d = none := fun d => by
        cases c with
        | control => cases d; exacts [lacking, State.eligibleHead_of_empty (other rfl)]
        | data => cases d; exacts [State.eligibleHead_of_empty (empty rfl), lacking]
      have none : s.NothingToSend l := ⟨nak, ack, control, data, State.nextReplay_none replay, heads⟩
      rw [State.choose_none free (none.candidate false)]
      exact ⟨(s.stayIdle_line l).trans ((s.lineFree_iff l).1 free).2, s.stayIdle_idleTimer l, s.modPort_queues l _⟩
  · have grants := s.noteGrants_onlyDue b
    refine ⟨rfl, ?_, ?_, grants.due l, ?_⟩
    · rw [State.settle, State.settle, State.noteGrants_self]
    · exact s.due_noteGrants b l c
    · exact s.noteGrants_ports b
  · refine ⟨fun active line => ?_, fun c => s.settle_told b l c⟩
    obtain ⟨nothing, timer⟩ := s.settle_rests b l ((State.lineFree_iff _ l).2 ⟨active, line⟩)
    refine ⟨timer, nothing.candidate false, nothing.nak, nothing.ack, nothing.control, nothing.data, fun n replay => ?_,
      fun c h rest r replay hq hr room => ?_⟩
    · exact (State.nextReplay_isNone _ l n replay).1 (by rw [nothing.replay]; rfl)
    · refine Nat.lt_of_not_le fun credit => ?_
      cases (State.eligibleHead_of_room hq hr replay room credit).symm.trans (nothing.head c)

end Sys2Proof.Machine
end

