-- ==== Sys2Proof/Proofs/TransmitTimers.lean ====
section
/-! SUPPORT. The timers of a link's transmission: replay, ACK delay, grant refresh and idle (sections 4.7, 5.5 to 5.7 and 6.5.4). -/

namespace Sys2Proof.Machine

/-! ## Replay episodes -/

/-- A port with one more replay episode counted. -/
def LinkPort.replayed (p : LinkPort) : LinkPort :=
  { p with
    counters := { p.counters with replays := p.counters.replays + 1 }
    tx := { p.tx with replayCount := p.tx.replayCount + 1 } }

/-- A port with a replay episode begun at a point. -/
def LinkPort.replaying (p : LinkPort) (point : Byte) : LinkPort :=
  { p.replayed with
    tx := { p.replayed.tx with
      replay := some point, replayTimer := some (20 * p.cfg.replayTimeout), line := p.tx.line.overtake } }

theorem State.startEpisode_eq (s : State) (l : LinkId) (point : Byte) :
    s.startEpisode l point =
      if (s.port l).cfg.replayLimit < (s.port l).tx.replayCount + 1 then
        (s.setPort l (s.port l).replayed).enterFault l .replayLimit
      else s.setPort l ((s.port l).replaying point) := by
  have counted : ((s.countLink l .replays).modTx l fun t => { t with replayCount := t.replayCount + 1 }) =
      s.setPort l (s.port l).replayed := by
    rw [State.countLink_eq s l rfl]
    cases l <;> rfl
  unfold State.startEpisode
  rw [counted]
  dsimp only
  rw [State.port_setPort, State.modPort_eq, State.setPort_setPort, State.port_setPort]
  rfl

/-- What the entry to FAULT at too many episodes leaves: its statement does not read the count of the episode. -/
theorem State.FaultedBy.of_replayed {s t : State} {l : LinkId} {reason : FaultReason}
    (h : (s.setPort l (s.port l).replayed).FaultedBy t l reason) : s.FaultedBy t l reason := by
  have freed : ∀ rs, (s.setPort l (s.port l).replayed).ChainsFreed t rs ↔ s.ChainsFreed t rs := fun rs => by
    have inUse : ∀ k c, (((s.setPort l (s.port l).replayed).port k).credit c).inUse = ((s.port k).credit c).inUse := fun k c => by
      cases l <;> cases k <;> cases c <;> rfl
    simp only [State.ChainsFreed, State.setPort_buf, inUse]
  simp only [State.FaultedBy, State.TornDown, freed] at h ⊢
  cases l <;> exact h

/-! ## Expiries -/

section
variable {s : State} {l : LinkId}

theorem exec_replayTimerExpiry {h : Nat} {rest : List Nat} {n : Byte} (active : (s.port l).state = .active)
    (running : (s.port l).tx.replayTimer.isSome = true) (list : (s.port l).tx.unacked = h :: rest) (seq : s.seqOn l h = some n) :
    exec (.replayTimerExpiry l) s = .next ((s.startEpisode l n).settle s) := by
  have oldest : s.replayExpired l = s.startEpisode l n := by simp only [State.replayExpired, list, seq]
  rw [← oldest]
  exact congrArg Host.Outcome.next (if_pos ⟨(s.isActive_iff l).2 active, running⟩)

/-- A free line with nothing to send carries a KEEP once its idle timer has expired (R107). -/
theorem exec_idleTimerExpiry (free : s.lineFree l = true) (running : (s.port l).tx.idleTimer.isSome = true)
    (nothing : s.NothingToSend l) :
    exec (.idleTimerExpiry l) s = .next
      ((s.setPort l { s.port l with tx := { (s.port l).tx with line := .control .keep, idleTimer := none } }).settle s) := by
  obtain ⟨t, ht⟩ : ∃ t, t = s.modTx l fun x => { x with idleTimer := none } := ⟨_, rfl⟩
  have free' : t.lineFree l = true := by rw [ht, ← free]; cases l <;> rfl
  have candidate : t.candidate l true = some .keep := by
    have same : t.candidate l true = s.candidate l true := by rw [ht]; cases l <;> rfl
    exact same.trans (nothing.candidate true)
  have sent : t.choose l true = s.setPort l { s.port l with tx := { (s.port l).tx with line := .control .keep, idleTimer := none } } := by
    rw [State.choose_keep free' candidate, ht]; cases l <;> rfl
  rw [← sent, ht]
  exact congrArg Host.Outcome.next (if_pos ⟨free, running⟩)

end

/-- Settles O46: each expiry under its condition; the replay timer's by the episodes counted, the idle timer's by the candidate KEEP. -/
theorem transmitTimerExpiries : Obligations.TransmitTimerExpiries := by
  unfold Obligations.TransmitTimerExpiries
  intro s l active
  have on : s.isActive l = true := (s.isActive_iff l).2 active
  refine ⟨fun h rest n running list seq => ⟨fun within => ?_, fun beyond => ?_⟩, fun running => ?_, fun running => ?_,
    fun running line nak ack control data replay heads => ?_⟩
  · refine ⟨s.setPort l ((s.port l).replaying n), ?_, ?_⟩
    · rw [exec_replayTimerExpiry active running list seq, State.startEpisode_eq, if_neg (Nat.not_lt.2 within)]
    · rw [State.port_setPort, State.setPort_buf, State.setPort_queues]
      refine ⟨rfl, rfl, rfl, rfl, fun f frame => ?_, fun b block => ?_, rfl, rfl, rfl⟩
      · exact congrArg LineBlock.overtake frame
      · exact congrArg LineBlock.overtake block
  · refine ⟨_, exec_replayTimerExpiry active running list seq, ?_⟩
    rw [State.startEpisode_eq, if_pos beyond]
    exact (State.enterFault_leaves _ l _).of_replayed
  · exact congrArg Host.Outcome.next (if_pos ⟨on, running⟩)
  · refine congrArg Host.Outcome.next ((if_pos ⟨on, running⟩).trans (congrArg (State.settle · s) ?_))
    cases l <;> rfl
  · have waiting : ∀ c, s.eligibleHead l c = none := fun c => by
      cases e : s.eligibleHead l c with
      | none => rfl
      | some h =>
        obtain ⟨rest, r, hq, hr, window, credit⟩ := State.eligibleHead_some e
        have room : (s.port l).tx.unacked.length < (s.port l).tx.liveWindow := by simpa [LinkPort.windowOpen, replay] using window
        rcases heads c h rest r hq hr with full | short <;> omega
    exact exec_idleTimerExpiry ((s.lineFree_iff l).2 ⟨active, line⟩) running
      ⟨nak, ack, control, data, State.nextReplay_none replay, waiting⟩

end Sys2Proof.Machine
end

