-- ==== Sys2Proof/Proofs/FrameReception.lean ====
section
/-! SUPPORT. The payload and the trailer of a frame in progress: words written, frames that fail, are given back or are accepted
(sections 4.4 to 4.7). -/

namespace Sys2Proof.Machine

/-! ## Words made of bytes -/

/-- A byte of a word made of gathered bytes. -/
theorem byteOf_wordOfBytes (bytes : List Byte) (i : Nat) (hi : i < 8) : byteOf (wordOfBytes bytes) i = bytes.getD i 0 := by
  induction bytes generalizing i with
  | nil =>
    apply BitVec.eq_of_getLsbD_eq
    intro j hj
    simp [byteOf, wordOfBytes]
  | cons b bytes ih =>
    have cons : wordOfBytes (b :: bytes) = (wordOfBytes bytes <<< 8) ||| b.setWidth 64 := rfl
    apply BitVec.eq_of_getLsbD_eq
    intro j hj
    cases i with
    | zero =>
      rw [cons]
      simp [byteOf, BitVec.getLsbD_setWidth, hj]
      omega
    | succ i =>
      have rest := congrArg (fun x : Byte => x.getLsbD j) (ih i (by omega))
      rw [List.getD_cons_succ, ← rest, cons]
      have beyond : b.getLsbD (8 * (i + 1) + j) = false := BitVec.getLsbD_of_ge _ _ (by omega)
      have inside : 8 * (i + 1) + j < 64 := by omega
      have above : ¬8 * (i + 1) + j < 8 := by omega
      have place : 8 * (i + 1) + j - 8 = 8 * i + j := by omega
      simp [byteOf, hj, beyond, inside, above, place, BitVec.getLsbD_eq_getElem (show 8 * i + j < 64 by omega)]

theorem State.byteAt_writeWord (s : State) (p a : Nat) (w : CellWord) :
    (s.writeWord p w).byteAt a = if a / 8 = p then byteOf w (a % 8) else s.byteAt a :=
  Memory.readByte_writeWord _ p a w

/-- The bytes of a word made of gathered bytes, once it is written. -/
theorem State.byteAt_writeWord_bytes (s : State) (p : Nat) (bytes : List Byte) (i : Nat) (hi : i < 8) :
    (s.writeWord p (wordOfBytes bytes)).byteAt (8 * p + i) = bytes.getD i 0 := by
  rw [State.byteAt_writeWord, if_pos (by omega), ← byteOf_wordOfBytes bytes i hi]
  congr 1
  omega

/-! ## Payload bytes -/

/-- A port whose receiver writes a frame. -/
def LinkPort.filling (p : LinkPort) (f : RxFrame) : LinkPort :=
  { p with rx := { p.rx with frame := some f } }

/-- The frame in progress with a payload byte taken. -/
def RxFrame.take (f : RxFrame) (b : Byte) (gather : List Byte) : RxFrame :=
  { f with count := f.count + 1, crc := crc32Byte f.crc b, gather := gather }

section
variable {s : State} {l : LinkId} {f : RxFrame} {r : Record}

theorem LinkPort.filling_self {p : LinkPort} (frame : p.rx.frame = some f) : p.filling f = p := by
  unfold LinkPort.filling
  rw [← frame]

/-- A byte that neither fills a word nor ends the payload is gathered. -/
theorem State.takeByte_gathered (frame : (s.port l).rx.frame = some f) (b : Byte) (part : f.gather.length + 1 ≠ 8)
    (below : f.count + 1 < f.length) : s.takeByte l b = s.setPort l ((s.port l).filling (f.take b (f.gather ++ [b]))) := by
  have short : ¬((f.gather ++ [b]).length = 8 ∨ f.count + 1 = f.length) := by
    rw [List.length_append]
    simp only [List.length_singleton]
    omega
  simp only [State.takeByte, frame, if_pos (Nat.lt_of_succ_lt below), State.payloadByte, if_neg short]
  split <;> rfl

/-- A byte that fills a word or ends the payload writes the word (R73). -/
theorem State.takeByte_written (frame : (s.port l).rx.frame = some f) (hr : s.record f.handle = some r) (b : Byte)
    (below : f.count < f.length) (whole : f.gather.length + 1 = 8 ∨ f.count + 1 = f.length) :
    s.takeByte l b =
      (s.setPort l ((s.port l).filling (f.take b []))).writeWord (wordPosition r.cells f.count) (wordOfBytes (f.gather ++ [b])) := by
  have whole' : (f.gather ++ [b]).length = 8 ∨ f.count + 1 = f.length := by
    rwa [List.length_append]
  simp only [State.takeByte, frame, if_pos below, State.payloadByte, hr, if_pos whole']
  rfl

/-- Bytes that neither fill a word nor end the payload are gathered one after another. -/
theorem State.foldl_takeByte_gathered (bytes : List Byte) (frame : (s.port l).rx.frame = some f)
    (part : f.gather.length + bytes.length < 8) (below : f.count + bytes.length < f.length) :
    bytes.foldl (fun t b => t.takeByte l b) s =
      s.setPort l ((s.port l).filling
        { f with count := f.count + bytes.length, crc := crc32Run f.crc bytes, gather := f.gather ++ bytes }) := by
  induction bytes generalizing s f with
  | nil =>
    rw [List.append_nil]
    exact ((congrArg (s.setPort l) (LinkPort.filling_self frame)).trans (s.setPort_port l)).symm
  | cons b bytes ih =>
    rw [List.length_cons] at part below
    have taken := State.takeByte_gathered frame b (by omega) (by omega)
    have next : ((s.setPort l ((s.port l).filling (f.take b (f.gather ++ [b])))).port l).rx.frame =
        some (f.take b (f.gather ++ [b])) := by rw [State.port_setPort]; rfl
    have gathered : (f.take b (f.gather ++ [b])).gather.length = f.gather.length + 1 := List.length_append
    rw [List.foldl_cons, taken, ih next (by rw [gathered]; omega) (show f.count + 1 + bytes.length < f.length by omega),
      State.port_setPort, State.setPort_setPort]
    simp only [LinkPort.filling, RxFrame.take, List.append_assoc, List.length_cons, Nat.add_comm 1, Nat.add_assoc]
    rfl

theorem exec_framePayloadBytes {bytes : List Byte} {t : State} (active : (s.port l).state = .active)
    (effect : bytes.foldl (fun u b => u.takeByte l b) s = t) : exec (.framePayloadBytes l bytes) s = .next (t.settle s) :=
  State.next_received (act := fun t => bytes.foldl (fun u b => u.takeByte l b) t) (LinkPort.live_of_active active) effect

/-- Bytes of which the last fills a word or ends the payload: the word is written with them. -/
theorem State.foldl_takeByte_written (front : List Byte) (b : Byte) (frame : (s.port l).rx.frame = some f)
    (hr : s.record f.handle = some r) (part : f.gather.length + front.length < 8) (below : f.count + front.length < f.length)
    (whole : f.gather.length + front.length + 1 = 8 ∨ f.count + front.length + 1 = f.length) :
    (front ++ [b]).foldl (fun t b => t.takeByte l b) s =
      (s.setPort l ((s.port l).filling
        { f with count := f.count + front.length + 1, crc := crc32Run f.crc (front ++ [b]), gather := [] })).writeWord
        (wordPosition r.cells (f.count + front.length)) (wordOfBytes (f.gather ++ front ++ [b])) := by
  have gathered := State.foldl_takeByte_gathered front frame part below
  obtain ⟨g, hg⟩ : ∃ g : RxFrame,
    g = { f with count := f.count + front.length, crc := crc32Run f.crc front, gather := f.gather ++ front } := ⟨_, rfl⟩
  rw [← hg] at gathered
  obtain ⟨handle, count, length, gather⟩ :
      g.handle = f.handle ∧ g.count = f.count + front.length ∧ g.length = f.length ∧ g.gather = f.gather ++ front := by
    rw [hg]; exact ⟨rfl, rfl, rfl, rfl⟩
  have crc : crc32Run f.crc (front ++ [b]) = crc32Byte (crc32Run f.crc front) b := List.foldl_append
  have taken : g.take b [] = { f with count := f.count + front.length + 1, crc := crc32Run f.crc (front ++ [b]), gather := [] } := by
    rw [hg, crc]; rfl
  have next : ((s.setPort l ((s.port l).filling g)).port l).rx.frame = some g := by rw [State.port_setPort]; rfl
  have written := State.takeByte_written next (r := r) (by rw [State.record_setPort, handle, hr]) b (by omega)
    (by rw [gather, List.length_append]; omega)
  rw [List.foldl_append, gathered, List.foldl_cons, List.foldl_nil, written, count, gather, taken, State.port_setPort,
    State.setPort_setPort]
  rfl

/-- What a word written with gathered bytes leaves, beside a change of the port. -/
theorem State.writeWord_spec (s : State) (l : LinkId) (p : LinkPort) (word : Nat) (bytes : List Byte) {t : State}
    (ht : t = (s.setPort l p).writeWord word (wordOfBytes bytes)) :
    (∀ i, i < 8 → t.byteAt (8 * word + i) = bytes.getD i 0) ∧ (∀ a, a / 8 ≠ word → t.byteAt a = s.byteAt a) ∧
      t.judge word = .good ∧ t.port l = p ∧ t.buf.free = s.buf.free ∧ t.buf.records = s.buf.records := by
  subst ht
  refine ⟨State.byteAt_writeWord_bytes _ word bytes, fun a ne => ?_, State.judge_writeWord _ _ _, ?_, ?_, ?_⟩
  · rw [State.byteAt_writeWord, if_neg ne, State.byteAt, State.setPort_buf]; rfl
  · cases l <;> rfl
  · rw [State.writeWord_buf_free, State.setPort_buf]
  · rw [State.writeWord_buf_records, State.setPort_buf]

/-- The bytes of one word of a chain have one position. -/
theorem wordPosition_of_aligned (cells : List Nat) {n i : Nat} (aligned : n % 8 = 0) (hi : i < 8) :
    wordPosition cells (n + i) = wordPosition cells n := by
  unfold wordPosition Config.cellBytes
  rw [show (n + i) / 64 = n / 64 by omega, show (n + i) % 64 / 8 = n % 64 / 8 by omega]

/-! ## Frames given back -/

/-- The frame in progress given back (R76, R77, R115): its record freed, its consumption reversed, no frame in progress. -/
structure State.GivenBack (s t : State) (l : LinkId) (f : RxFrame) (r : Record) : Prop where
  record : t.record f.handle = none
  free : t.buf.free = s.buf.free ++ r.cells
  others : ∀ g, g ≠ f.handle → t.record g = s.record g
  cells : s.SameCells t
  frame : (t.port l).rx.frame = none
  expected : (t.port l).rx.expected = (s.port l).rx.expected
  consumed : ((t.port l).credit r.cls).consumed = ((s.port l).credit r.cls).consumed - BitVec.ofNat 16 (cellsFor f.length)
  inUse : ((t.port l).credit r.cls).inUse = ((s.port l).credit r.cls).inUse - r.cells.length

/-- A later change of the port that leaves these parts. -/
theorem State.GivenBack.setPort {t : State} (a : s.GivenBack t l f r) {p : LinkPort} (frame : p.rx.frame = (t.port l).rx.frame)
    (expected : p.rx.expected = (t.port l).rx.expected) (credit : ∀ c, p.credit c = (t.port l).credit c) :
    s.GivenBack (t.setPort l p) l f r where
  record := (t.record_setPort l p _).trans a.record
  free := (congrArg Buffer.free (t.setPort_buf l p)).trans a.free
  others g ne := (t.record_setPort l p g).trans (a.others g ne)
  cells := by rw [State.SameCells, State.setPort_buf]; exact a.cells
  frame := by rw [State.port_setPort, frame]; exact a.frame
  expected := by rw [State.port_setPort, expected]; exact a.expected
  consumed := by rw [State.port_setPort, credit]; exact a.consumed
  inUse := by rw [State.port_setPort, credit]; exact a.inUse

theorem State.giveBack_spec (hr : s.record f.handle = some r) (origin : r.origin = .link l) (cls : r.cls = f.cls) :
    s.GivenBack (s.giveBack l f) l f r ∧ ((s.giveBack l f).port l).counters = (s.port l).counters ∧
      ((s.giveBack l f).port l).rx = { (s.port l).rx with frame := none } ∧
      ((s.giveBack l f).port l).align = (s.port l).align := by
  have freed := s.port_freeRecord f.handle r hr l
  rw [if_pos origin] at freed
  have port : (s.giveBack l f).port l =
      { ((s.port l).modCredit r.cls fun k => { k with inUse := k.inUse - r.cells.length }).modCredit r.cls
          (fun k => { k with consumed := k.consumed - BitVec.ofNat 16 (cellsFor f.length) }) with
        rx := { (s.port l).rx with frame := none } } := by
    rw [State.giveBack, State.port_modRx, State.unconsume, State.port_modCredit, freed, ← cls]
    simp
  have buf : (s.giveBack l f).buf = (s.freeRecord f.handle).buf := by simp [State.giveBack, State.unconsume]
  have record : (s.giveBack l f).record = (s.freeRecord f.handle).record := by unfold State.record; rw [buf]
  refine ⟨⟨?_, ?_, fun g ne => ?_, ?_, ?_, ?_, ?_, ?_⟩, ?_, ?_, ?_⟩
  · rw [record, State.record_freeRecord, if_pos rfl]
  · rw [buf, s.free_freeRecord f.handle r hr]
  · rw [record, State.record_freeRecord, if_neg ne.symm]
  · rw [State.SameCells, buf]; exact ⟨s.freeRecord_buf_mem _, s.freeRecord_buf_wrong _, s.freeRecord_buf_links _⟩
  all_goals rw [port]
  · cases r.cls <;> rfl
  · cases r.cls <;> rfl
  · cases r.cls <;> rfl
  · cases r.cls <;> rfl

/-- A frame fails: given back, CHECK_ERRORS counted, a NAK episode started (R76). -/
theorem State.failFrame_spec (hr : s.record f.handle = some r) (origin : r.origin = .link l) (cls : r.cls = f.cls) :
    s.GivenBack (s.failFrame l f) l f r ∧
      ((s.failFrame l f).port l).counters = { (s.port l).counters with checkErrors := (s.port l).counters.checkErrors + 1 } ∧
      ((s.failFrame l f).port l).rx =
        Receiver.episode { (s.port l).rx with frame := none } ((s.port l).align != .realigning) := by
  obtain ⟨back, counters, rx, align⟩ := State.giveBack_spec hr origin cls
  have failed : s.failFrame l f = (s.giveBack l f).setPort l
      { (s.giveBack l f).port l with
        counters := { (s.port l).counters with checkErrors := (s.port l).counters.checkErrors + 1 }
        rx := Receiver.episode { (s.port l).rx with frame := none } ((s.port l).align != .realigning) } := by
    rw [State.failFrame, State.countLink_eq _ l rfl, State.startNak_eq, State.port_setPort, State.setPort_setPort, counters, rx, align]
    rfl
  rw [failed]
  refine ⟨back.setPort ?_ ?_ fun c => by cases c <;> rfl, by rw [State.port_setPort], by rw [State.port_setPort]⟩
  · rw [rx]; unfold Receiver.episode; split <;> rfl
  · rw [rx]; unfold Receiver.episode; split <;> rfl

theorem Receiver.episode_parts (r : Receiver) (due : Bool) :
    (r.nak = .none → (r.episode due).nak = .pending ∧ (r.episode due).nakDue = due) ∧
      (r.nak ≠ .none → (r.episode due).nak = r.nak ∧ (r.episode due).nakDue = r.nakDue) := by
  refine ⟨fun none => ?_, fun some => ?_⟩
  · rw [Receiver.episode_started none]; exact ⟨rfl, rfl⟩
  · rw [Receiver.episode_kept some]; exact ⟨rfl, rfl⟩

/-- What follows the failure in the receiver alone: the rest passed over, or the next block opened. -/
theorem State.GivenBack.passing {t : State} (a : s.GivenBack t l f r) (x : Passing) :
    s.GivenBack (t.modRx l fun y => { y with passing := x }) l f r :=
  a.setPort (p := { t.port l with rx := { (t.port l).rx with passing := x } }) rfl rfl fun c => by cases c <;> rfl

/-- The first byte beyond the length makes the frame fail (R73). -/
theorem State.takeByte_overrun (frame : (s.port l).rx.frame = some f) (full : f.count = f.length) (b : Byte) :
    s.takeByte l b = (s.failFrame l f).passOver l := by
  simp only [State.takeByte, frame, full, Nat.lt_irrefl, if_false]

end

/-- Settles O34: eight bytes and the last byte as the writes of their words, the byte beyond as the failure of the frame. -/
theorem payloadResult : Obligations.PayloadResult := by
  unfold Obligations.PayloadResult
  constructor
  · intro s l f r bytes active frame hr empty aligned eight below word
    obtain ⟨front, b, rfl⟩ : ∃ front b, bytes = front ++ [b] :=
      (List.eq_nil_or_concat' bytes).resolve_left (by rintro rfl; cases eight)
    have seven : front.length = 7 := by simpa using eight
    have taken := State.foldl_takeByte_written front b frame hr (by rw [empty, seven]; decide)
      (show f.count + front.length < headerLength f.header by omega) (.inl (by rw [empty, seven]; rfl))
    rw [seven, wordPosition_of_aligned r.cells aligned (by decide), empty, List.nil_append] at taken
    obtain ⟨t, ht⟩ : ∃ t, (front ++ [b]).foldl (fun t b => t.takeByte l b) s = t := ⟨_, rfl⟩
    obtain ⟨bytes, others, good, port, free, records⟩ := s.writeWord_spec l _ word (front ++ [b]) (ht.symm.trans taken)
    exact ⟨t, exec_framePayloadBytes active ht, bytes, others, good, by rw [port, empty]; rfl, free, records⟩
  · intro s l f r b active frame hr p L word
    refine ⟨fun last gather => ?_, fun full origin cls => ?_⟩
    · have length : f.length = f.count + 1 := last.symm
      have taken := State.takeByte_written frame hr b (by omega) (.inr length.symm)
      obtain ⟨t, ht⟩ : ∃ t, s.takeByte l b = t := ⟨_, rfl⟩
      obtain ⟨bytes, others, -, port, -⟩ := s.writeWord_spec l _ word (f.gather ++ [b]) (ht.symm.trans taken)
      exact ⟨t, exec_framePayloadBytes active ht, bytes, others, by rw [port, ← last]; rfl⟩
    · obtain ⟨back, counters, rx⟩ := State.failFrame_spec hr origin cls
      obtain ⟨started, -⟩ := Receiver.episode_parts { p.rx with frame := none } (p.align != .realigning)
      have passed := back.passing .toTrailer
      refine ⟨(s.failFrame l f).passOver l, exec_framePayloadBytes active (State.takeByte_overrun frame full b), passed.record,
        passed.free, passed.frame, passed.consumed, passed.inUse, ?_, fun none => ?_, passed.expected, ?_⟩
      · rw [State.passOver, State.port_modRx]; exact counters
      · rw [State.passOver, State.port_modRx]
        exact (congrArg Receiver.nak rx).trans (started none).1
      · rw [State.passOver, State.port_modRx]

/-! ## Trailers -/

section
variable {s t : State} {l : LinkId} {f : RxFrame} {r : Record} {check : BitVec 32}

theorem exec_frameTruncated (active : (s.port l).state = .active) (effect : s.marker l = t) :
    exec (.frameTruncated l) s = .next (t.settle s) :=
  State.next_received (act := fun u => u.marker l) (LinkPort.live_of_active active) effect

theorem exec_frameTrailerEnd (active : (s.port l).state = .active) (effect : s.trailerEnd l check = t) :
    exec (.frameTrailerEnd l check) s = .next (t.settle s) :=
  State.next_received (act := fun u => u.trailerEnd l check) (LinkPort.live_of_active active) effect

theorem exec_frameTrailerAbort (active : (s.port l).state = .active) (effect : s.trailerAbort l = t) :
    exec (.frameTrailerAbort l) s = .next (t.settle s) :=
  State.next_received (act := fun u => u.trailerAbort l) (LinkPort.live_of_active active) effect

/-- A marker within a frame (R74). -/
theorem State.marker_truncates (frame : (s.port l).rx.frame = some f) :
    s.marker l = (s.failFrame l f).modRx l fun x => { x with passing := .no } := by
  simp only [State.marker, frame]

/-- A trailer that does not agree (R76). -/
theorem State.trailerEnd_fails (frame : (s.port l).rx.frame = some f) (no : check ≠ crc32Stored f.crc ∨ f.count ≠ f.length) :
    s.trailerEnd l check = s.failFrame l f := by
  unfold State.trailerEnd
  rw [frame]
  exact if_neg fun both => no.elim (· both.1) (· both.2)

/-- A trailer that agrees (R75). -/
theorem State.trailerEnd_accepts (frame : (s.port l).rx.frame = some f) (full : f.count = f.length) :
    s.trailerEnd l (crc32Stored f.crc) = s.acceptFrame l f := by
  unfold State.trailerEnd
  rw [frame]
  exact if_pos ⟨rfl, full⟩

/-- ABORT counts ABORTS_RECEIVED and gives the frame back (R77). -/
theorem State.trailerAbort_eq (frame : (s.port l).rx.frame = some f) :
    s.trailerAbort l = (s.giveBack l f).setPort l
      { (s.giveBack l f).port l with
        counters :=
          { ((s.giveBack l f).port l).counters with
            abortsReceived := ((s.giveBack l f).port l).counters.abortsReceived + 1 } } := by
  simp only [State.trailerAbort, frame]
  rw [State.countLink_eq _ l rfl]
  rfl

end

/-- Settles O35: the marker and the trailer as failures of the frame, ABORT as its giving back. -/
theorem failedFrameResult : Obligations.FailedFrameResult := by
  unfold Obligations.FailedFrameResult
  intro s l f r check active aligned frame hr origin cls p k givenBack failed
  have given : ∀ {t : State}, s.GivenBack t l f r → givenBack t := fun a =>
    ⟨a.record, a.free, a.others, a.cells, a.frame, a.expected, a.consumed, a.inUse⟩
  obtain ⟨back, counters, rx⟩ := State.failFrame_spec hr origin cls
  obtain ⟨started, kept⟩ := Receiver.episode_parts { p.rx with frame := none } (p.align != .realigning)
  have due : (p.align != .realigning) = true := by rw [show p.align = .aligned from aligned]; rfl
  rw [due] at rx started kept
  have fails : failed (s.failFrame l f) :=
    ⟨given back, counters, fun none => by rw [rx]; exact started none, fun some => by rw [rx]; exact kept some⟩
  refine ⟨⟨_, exec_frameTruncated active (State.marker_truncates frame), given (back.passing .no), ?_⟩, fun no => ?_, ?_⟩
  · rw [State.port_modRx]; exact fails.2
  · exact ⟨_, exec_frameTrailerEnd active (State.trailerEnd_fails frame no), fails⟩
  · obtain ⟨back, counters, rx, -⟩ := State.giveBack_spec hr origin cls
    refine ⟨_, exec_frameTrailerAbort active (State.trailerAbort_eq frame),
      given (back.setPort rfl rfl fun c => by cases c <;> rfl), ?_⟩
    rw [State.port_setPort, counters, rx]
    exact ⟨rfl, rfl, rfl⟩

/-- Settles O36: the acceptance as one write of the port, and the delivery that follows it. -/
theorem acceptedFrameResult : Obligations.AcceptedFrameResult := by
  unfold Obligations.AcceptedFrameResult
  intro s l f active frame full p n
  obtain ⟨t, ht⟩ : ∃ t, t = (s.modPort l fun p => { p with rx := p.rx.accept p.cfg }).countLink l .framesIn := ⟨_, rfl⟩
  have accepted : t = s.setPort l
      { p with rx := p.rx.accept p.cfg, counters := { p.counters with framesIn := p.counters.framesIn + 1 } } := by
    rw [ht, State.countLink_eq _ l rfl, State.modPort_eq, State.port_setPort, State.setPort_setPort]
    rfl
  have port := congrArg (fun u : State => u.port l) accepted
  dsimp only at port
  rw [State.port_setPort] at port
  refine ⟨t, exec_frameTrailerEnd active ((State.trailerEnd_accepts frame full).trans (by rw [ht]; rfl)), ?_⟩
  rw [port]
  refine ⟨rfl, rfl, rfl, rfl, ?_, rfl, rfl, rfl, accepted⟩
  simp [Receiver.accept, n, p]

end Sys2Proof.Machine
end

