-- ==== Sys2Proof/Proofs/Confirmations.lean ====
section
/-! SUPPORT. Entries that leave the unacknowledged list: confirmations by ACK and NAK, what is held while a resend is on the line, and
the test of an episode's end (sections 5.4 and 5.6). -/

namespace Sys2Proof.Machine

/-! ## Writes of the transmitter -/

theorem State.modTx_modTx (s : State) (l : LinkId) (f g : Transmitter → Transmitter) :
    (s.modTx l f).modTx l g = s.modTx l fun t => g (f t) :=
  s.modPort_modPort l _ _

theorem State.seqOn_setPort (s : State) (l k : LinkId) (p : LinkPort) (h : Nat) : (s.setPort l p).seqOn k h = s.seqOn k h := by
  rw [State.seqOn, State.record_setPort]; rfl

theorem State.seqOn_modTx (s : State) (l k : LinkId) (f : Transmitter → Transmitter) (h : Nat) :
    (s.modTx l f).seqOn k h = s.seqOn k h :=
  s.seqOn_setPort l k _ h

/-- The test of an episode's end writes the replay point alone. -/
theorem State.testEpisode_eq (s : State) (l : LinkId) :
    s.testEpisode l = s.modTx l fun t => { t with replay := if (s.nextReplay l).isNone then none else t.replay } := by
  unfold State.testEpisode
  by_cases none : (s.nextReplay l).isNone
  · simp only [if_pos none]
  · simp only [if_neg none]
    exact (s.setPort_port l).symm

/-! ## Places on the list -/

/-- The place of the first element with a property, after some without it. -/
theorem findIdx?_append_cons {p : Nat → Bool} {xs ys : List Nat} {h : Nat} (first : ∀ x ∈ xs, p x = false) (here : p h = true) :
    (xs ++ h :: ys).findIdx? p = some xs.length := by
  rw [List.findIdx?_append, List.findIdx?_eq_none_iff.2 first, List.findIdx?_cons, here]
  simp

section
variable {s t : State} {l : LinkId} {n : Byte} {h : Nat} {xs ys : List Nat}

theorem State.entryIndex_some (list : (s.port l).tx.unacked = xs ++ h :: ys) (seq : s.seqOn l h = some n)
    (first : ∀ x ∈ xs, s.seqOn l x ≠ some n) : s.entryIndex l n = some xs.length := by
  rw [State.entryIndex, list]
  exact findIdx?_append_cons (fun x mem => by simpa using first x mem) (by simpa using seq)

theorem State.entryIndex_none (stale : ∀ h ∈ (s.port l).tx.unacked, s.seqOn l h ≠ some n) : s.entryIndex l n = none :=
  List.findIdx?_eq_none_iff.2 fun h mem => by simpa using stale h mem

/-! ## Entries that leave the list -/

/-- A link's holder taken off some records, one after another. -/
def State.strip (s : State) (l : LinkId) (hs : List Nat) : State :=
  hs.foldl (fun t h => t.removeLinkHolder l h) s

/-- The records of some entries without the link's holder, and nothing else changed but in-use and the link's session. -/
structure State.Unlists (s t : State) (l : LinkId) (hs : List Nat) : Prop where
  confirmed : s.Confirmed t l hs
  cells : s.SameCells t
  queues : t.queues = s.queues
  hcu : t.hcu = s.hcu
  ev : t.ev = s.ev

theorem State.strip_links (s : State) (l : LinkId) (hs : List Nat) : s.SameLinks (s.strip l hs) :=
  State.foldl_links _ (fun t h => t.removeHolder_links h _) hs s

theorem State.strip_rest (s : State) (l : LinkId) (hs : List Nat) : (s.strip l hs).hcu = s.hcu ∧ (s.strip l hs).ev = s.ev := by
  induction hs generalizing s with
  | nil => exact ⟨rfl, rfl⟩
  | cons h hs ih =>
    obtain ⟨-, ev, hcu⟩ := s.removeLinkHolder_rest l h
    obtain ⟨hcu', ev'⟩ := ih (s.removeLinkHolder l h)
    exact ⟨hcu'.trans hcu, ev'.trans ev⟩

theorem State.strip_sheds (s : State) (l : LinkId) (hs : List Nat) : s.Sheds (s.strip l hs) l hs :=
  State.foldl_sheds _ (fun t h => t.removeLinkHolder_sheds l h) hs s

theorem State.strip_counters (s : State) (l : LinkId) (hs : List Nat) : ((s.strip l hs).port l).counters = (s.port l).counters :=
  (congrArg LinkPort.counters ((s.strip_sheds l hs).port l) :)

theorem State.strip_cfg (s : State) (l : LinkId) (hs : List Nat) : ((s.strip l hs).port l).cfg = (s.port l).cfg :=
  (congrArg LinkPort.cfg (s.strip_links l hs l) :)

theorem State.strip_unlists (s : State) (l : LinkId) (hs : List Nat) : s.Unlists (s.strip l hs) l hs := by
  have sheds := s.strip_sheds l hs
  obtain ⟨hcu, ev⟩ := s.strip_rest l hs
  exact ⟨⟨sheds.holdersRemoved, sheds.freed⟩, sheds.cells,
    State.foldl_queues (fun t h => t.removeLinkHolder l h) (fun t h => t.removeHolder_queues h _) hs s, hcu, ev⟩

/-- A write of a link's port that leaves its credit leaves in-use at both links. -/
theorem State.inUse_setPort {q : LinkPort} (credit : ∀ c, q.credit c = (s.port l).credit c) (k : LinkId) (c : Cls) :
    (((s.setPort l q).port k).credit c).inUse = ((s.port k).credit c).inUse := by
  have port : (s.setPort l q).port k = if k = l then q else s.port k := s.port_modPort_cases l k fun _ => q
  rw [port]
  split
  · rename_i same; rw [same, credit]
  · rfl

/-- A later write of the port that leaves its credit. -/
theorem State.Unlists.setPort {hs : List Nat} {q : LinkPort} (a : s.Unlists t l hs) (credit : ∀ c, q.credit c = (t.port l).credit c) :
    s.Unlists (t.setPort l q) l hs := by
  obtain ⟨⟨removed, freed⟩, cells, queues, hcu, ev⟩ := a
  refine ⟨⟨?_, fun nodup => ?_⟩, ?_, (t.setPort_queues l q).trans queues, (t.setPort_hcu l q).trans hcu, (t.setPort_ev l q).trans ev⟩
  · simpa only [State.HoldersRemoved, State.record_setPort] using removed
  · simpa only [State.ChainsFreed, State.setPort_buf, State.inUse_setPort credit] using freed nodup
  · rw [State.SameCells, State.setPort_buf]; exact cells

theorem State.Unlists.modTx {hs : List Nat} (a : s.Unlists t l hs) (f : Transmitter → Transmitter) : s.Unlists (t.modTx l f) l hs :=
  a.setPort fun c => by cases c <;> rfl

/-- An earlier write of the port that leaves its credit. -/
theorem State.Unlists.of_setPort {hs : List Nat} {q : LinkPort} (a : (s.setPort l q).Unlists t l hs)
    (credit : ∀ c, q.credit c = (s.port l).credit c) : s.Unlists t l hs := by
  have alone : (s.setPort l q).heldByLinkAlone l hs = s.heldByLinkAlone l hs :=
    State.heldByLinkAlone_congr fun h _ => s.record_setPort l q h
  obtain ⟨⟨removed, freed⟩, cells, queues, hcu, ev⟩ := a
  refine ⟨⟨?_, fun nodup => ?_⟩, ?_, queues.trans (s.setPort_queues l q), hcu.trans (s.setPort_hcu l q), ev.trans (s.setPort_ev l q)⟩
  · simpa only [State.HoldersRemoved, State.record_setPort] using removed
  · simpa only [State.ChainsFreed, State.setPort_buf, State.inUse_setPort credit, alone] using freed nodup
  · simpa only [State.SameCells, State.setPort_buf] using cells

/-- Entries off the list by a write of the transmitter, then the test of the episode's end: the list and what the write says, and the
replay point by what is left. -/
theorem State.strip_tested (s : State) (l : LinkId) (hs : List Nat) (x : Transmitter) {t : State}
    (ht : t = ((s.strip l hs).modTx l fun _ => x).testEpisode l) :
    s.Unlists t l hs ∧ (∃ r, (t.port l).tx = { x with replay := r }) ∧ (t.port l).counters = (s.port l).counters ∧
      t.EpisodeTested l x.replay := by
  have tested := ((s.strip l hs).modTx l fun _ => x).testEpisode_tested l
  rw [State.port_modTx] at tested
  subst ht
  refine ⟨?_, ⟨(((s.strip l hs).modTx l fun _ => x).testEpisode l |>.port l).tx.replay, ?_⟩, ?_, tested⟩
  · rw [State.testEpisode_eq]
    exact ((s.strip_unlists l hs).modTx _).modTx _
  · rw [State.testEpisode_eq, State.port_modTx, State.port_modTx]
  · rw [State.testEpisode_eq, State.port_modTx, State.port_modTx]
    exact s.strip_counters l hs

theorem State.dropOldestEntries_eq (list : (s.port l).tx.unacked = xs ++ ys) :
    s.dropOldestEntries l xs.length = (s.strip l xs).modTx l fun _ => { (s.port l).tx with unacked := ys } := by
  have tx : ((s.strip l xs).port l).tx = (s.port l).tx := (s.strip_links l xs).tx l
  rw [State.dropOldestEntries, list, List.take_left, ← tx]
  have rest : ((s.strip l xs).port l).tx.unacked.drop xs.length = ys := by rw [tx, list, List.drop_left]
  rw [← rest]
  rfl

/-! ## Confirmations -/

/-- A transmitter after a confirmation: what remains of its list, and what is held. -/
def Transmitter.confirmed (t : Transmitter) (c : LinkCfg) (rest : List Nat) (held : Option Byte) : Transmitter :=
  { t with
    unacked := rest, held := held, replayCount := 0
    replayTimer := if rest = [] then none else some (20 * c.replayTimeout) }

theorem Transmitter.resending_iff (t : Transmitter) (f : TxFrame) : t.resending = some f ↔ t.line = .frame f ∧ f.resend = true := by
  unfold Transmitter.resending
  cases t.line with
  | frame g =>
    by_cases resend : g.resend = true
    · simp only [if_pos resend, Option.some.injEq, LineBlock.frame.injEq]
      exact ⟨fun same => ⟨same, same ▸ resend⟩, And.left⟩
    · simp only [if_neg resend, LineBlock.frame.injEq]
      exact ⟨nofun, fun both => absurd (both.1 ▸ both.2) resend⟩
  | control _ => simp
  | none => simp

/-- What ends a confirmation: the replay count 0, the replay timer restarted or stopped. -/
theorem State.restartReplay_strip (s : State) (l : LinkId) (hs rest : List Nat) (held : Option Byte) :
    State.restartReplay
        (((s.strip l hs).modTx l fun _ => { (s.port l).tx with unacked := rest, held := held }).modTx l fun t =>
          { t with replayCount := 0 }) l =
      (s.strip l hs).modTx l fun _ => (s.port l).tx.confirmed (s.port l).cfg rest held := by
  rw [State.modTx_modTx, State.restartReplay, State.modTx, State.modPort_modPort, State.modPort_eq, State.modTx, State.modPort_eq]
  unfold Transmitter.confirmed
  rw [← s.strip_cfg l hs]
  rfl

/-- A confirmation that does not reach a frame being resent (R98). -/
theorem State.confirm_free (list : (s.port l).tx.unacked = xs ++ ys)
    (free : ∀ f, (s.port l).tx.line = .frame f → f.resend = true → f.handle ∉ xs) (point : Byte) :
    s.confirm l xs.length point =
      (s.strip l xs).modTx l fun _ => (s.port l).tx.confirmed (s.port l).cfg ys (s.port l).tx.held := by
  rw [← State.restartReplay_strip, ← State.dropOldestEntries_eq list]
  unfold State.confirm
  cases resending : (s.port l).tx.resending with
  | none => rfl
  | some f =>
    cases place : (s.port l).tx.unacked.findIdx? (fun h => h == f.handle) with
    | none => simp only [place]
    | some j =>
      obtain ⟨line, resend⟩ := (Transmitter.resending_iff _ f).1 resending
      have beyond : ¬j < xs.length := fun below => by
        obtain ⟨_, here, -⟩ := List.findIdx?_eq_some_iff_getElem.1 place
        have mem := List.getElem_mem below
        simp only [list, List.getElem_append_left below, beq_iff_eq] at here
        exact free f line resend (here ▸ mem)
      simp only [place, if_neg beyond]

/-- A confirmation that reaches the frame being resent: that frame and those behind it are held (R99). -/
theorem State.confirm_held {f : TxFrame} {older rest : List Nat} {k : Nat} (line : (s.port l).tx.line = .frame f)
    (resend : f.resend = true) (list : (s.port l).tx.unacked = older ++ rest) (head : rest.head? = some f.handle)
    (out : f.handle ∉ older) (reached : older.length < k) (point : Byte) :
    s.confirm l k point =
      (s.strip l older).modTx l fun _ =>
        (s.port l).tx.confirmed (s.port l).cfg rest (some (newerOf f.seq (s.port l).tx.held point)) := by
  obtain ⟨tail, rfl⟩ := List.head?_eq_some_iff.1 head
  have resending := (Transmitter.resending_iff (s.port l).tx f).2 ⟨line, resend⟩
  have place : (s.port l).tx.unacked.findIdx? (fun h => h == f.handle) = some older.length := by
    rw [list]
    exact findIdx?_append_cons (fun x mem => by simpa using fun same : x = f.handle => out (same ▸ mem)) (by simp)
  rw [← State.restartReplay_strip, ← newerPoint_eq]
  unfold State.confirm
  simp only [resending, place, if_pos reached]
  rw [State.dropOldestEntries_eq list]
  exact congrArg (fun t : State => State.restartReplay (t.modTx l fun x => { x with replayCount := 0 }) l)
    (State.modTx_modTx _ l _ _)

/-! ## Valid blocks counted -/

/-- A state with a valid block counted, at a link in ACTIVE with no frame in progress. -/
def State.blockCounted (s : State) (l : LinkId) : State :=
  s.setPort l (s.port l).afterValid

/-- What the count of a valid block leaves of what the transmitter's steps read, and what statements about them say. -/
structure State.CountsBlock (s u : State) (l : LinkId) : Prop where
  tx : (u.port l).tx = (s.port l).tx
  cfg : (u.port l).cfg = (s.port l).cfg
  counters : (u.port l).counters = (s.port l).counters
  seqOn : ∀ h, u.seqOn l h = s.seqOn l h
  buf : u.buf = s.buf
  queues : u.queues = s.queues
  unlists : ∀ {t hs}, u.Unlists t l hs → s.Unlists t l hs
  faultedBy : ∀ {t reason}, u.FaultedBy t l reason → s.FaultedBy t l reason

theorem State.blockCounted_counts (s : State) (l : LinkId) : s.CountsBlock (s.blockCounted l) l := by
  have port : (s.blockCounted l).port l = (s.port l).afterValid := s.port_setPort l _
  refine ⟨by rw [port, LinkPort.afterValid_tx], by rw [port, LinkPort.afterValid_cfg], by rw [port, LinkPort.afterValid_counters],
    s.seqOn_setPort l l _, s.setPort_buf l _, s.setPort_queues l _,
    fun left => left.of_setPort fun c => ?_,
    fun faulted => faulted.of_setPort (LinkPort.afterValid_sameSession _)⟩
  cases c
  · exact LinkPort.afterValid_ctl _
  · exact LinkPort.afterValid_dat _

/-! ## ACKs -/

theorem State.takeAck_taken (list : (s.port l).tx.unacked = xs ++ h :: ys) (seq : s.seqOn l h = some n)
    (first : ∀ x ∈ xs, s.seqOn l x ≠ some n) : s.takeAck l n = (s.confirm l (xs.length + 1) n).testEpisode l := by
  rw [State.takeAck, State.entryIndex_some list seq first]

/-- A port with a stale ACK or NAK counted. -/
def LinkPort.stale (p : LinkPort) : LinkPort :=
  { p with counters := { p.counters with staleAcks := p.counters.staleAcks + 1 } }

theorem State.countLink_staleAcks (s : State) (l : LinkId) : s.countLink l .staleAcks = s.setPort l (s.port l).stale :=
  s.countLink_eq l rfl

theorem State.takeAck_stale (stale : ∀ h ∈ (s.port l).tx.unacked, s.seqOn l h ≠ some n) :
    s.takeAck l n = s.setPort l (s.port l).stale := by
  rw [State.takeAck, State.entryIndex_none stale, ← State.countLink_staleAcks]

/-- A stale ACK or NAK after the count of its block. -/
theorem State.CountsBlock.stale {u : State} (a : s.CountsBlock u l) (ht : t = u.setPort l (u.port l).stale) :
    (t.port l).counters = { (s.port l).counters with staleAcks := (s.port l).counters.staleAcks + 1 } ∧
      (t.port l).tx = (s.port l).tx ∧ t.buf = s.buf ∧ t.queues = s.queues := by
  rw [ht, State.port_setPort, State.setPort_buf, State.setPort_queues, ← a.counters, ← a.tx]
  exact ⟨rfl, rfl, a.buf, a.queues⟩

/-- A receiving link handles an ACK once its block is counted. -/
theorem exec_ackReceived (receiving : s.Receiving l) (n : Byte) :
    exec (.ackReceived l n) s = .next (((s.blockCounted l).takeAck l n).settle s) :=
  State.next_received (act := fun t => t.validControl l fun u => u.takeAck l n) (LinkPort.live_of_active receiving.1)
    (State.validControl_active receiving.1 receiving.2)

/-! ## NAKs -/

theorem State.takeNak_stale (stale : ∀ h ∈ (s.port l).tx.unacked, s.seqOn l h ≠ some n) (ne : n ≠ (s.port l).tx.nextSeq) :
    s.takeNak l n = s.setPort l (s.port l).stale := by
  rw [State.takeNak, State.entryIndex_none stale, ← State.countLink_staleAcks]
  exact if_neg ne

/-- A NAK of next-seq is an ACK of the seq before it (R100). -/
theorem State.takeNak_next (stale : ∀ h ∈ (s.port l).tx.unacked, s.seqOn l h ≠ some n) (next : n = (s.port l).tx.nextSeq) :
    s.takeNak l n = s.takeAck l (n - 1) := by
  rw [State.takeNak, State.entryIndex_none stale]
  exact if_pos next

theorem State.takeNak_oldest (list : (s.port l).tx.unacked = h :: ys) (seq : s.seqOn l h = some n) :
    s.takeNak l n = s.startEpisode l n := by
  rw [State.takeNak, State.entryIndex_some (xs := []) list seq nofun]
  rfl

theorem State.takeNak_later (list : (s.port l).tx.unacked = xs ++ h :: ys) (pos : xs ≠ []) (seq : s.seqOn l h = some n)
    (first : ∀ x ∈ xs, s.seqOn l x ≠ some n) : s.takeNak l n = (s.confirm l xs.length (n - 1)).startEpisode l n := by
  rw [State.takeNak, State.entryIndex_some list seq first]
  exact congrArg (State.startEpisode · l n) (if_neg (mt List.length_eq_zero_iff.1 pos))

/-- A receiving link handles a NAK once its block is counted. -/
theorem exec_nakReceived (receiving : s.Receiving l) (n : Byte) :
    exec (.nakReceived l n) s = .next (((s.blockCounted l).takeNak l n).settle s) :=
  State.next_received (act := fun t => t.validControl l fun u => u.takeNak l n) (LinkPort.live_of_active receiving.1)
    (State.validControl_active receiving.1 receiving.2)

/-- A confirmation, whether or not it reaches a frame being resent, takes some of the oldest entries off the list. -/
theorem State.confirm_shape (list : (s.port l).tx.unacked = xs ++ ys) (point : Byte) :
    ∃ hs rest held, s.confirm l xs.length point =
      (s.strip l hs).modTx l fun _ => (s.port l).tx.confirmed (s.port l).cfg rest held := by
  by_cases reached : ∃ f, (s.port l).tx.line = .frame f ∧ f.resend = true ∧ f.handle ∈ xs
  · obtain ⟨f, line, resend, mem⟩ := reached
    obtain ⟨older, newer, rfl, out⟩ := List.eq_append_cons_of_mem mem
    exact ⟨older, _, _, State.confirm_held line resend (list.trans (List.append_assoc _ _ _)) rfl out (by simp) point⟩
  · exact ⟨xs, ys, _, State.confirm_free list (fun f line resend mem => reached ⟨f, line, resend, mem⟩) point⟩

/-- Entries off the list by a write of the transmitter with the replay count 0, then an episode (R103). -/
theorem State.strip_startEpisode (s : State) (l : LinkId) (hs : List Nat) {x : Transmitter} (zero : x.replayCount = 0)
    (limit : 1 ≤ (s.port l).cfg.replayLimit) (n : Byte) {t : State} (ht : t = ((s.strip l hs).modTx l fun _ => x).startEpisode l n) :
    s.Unlists t l hs ∧
      (t.port l).tx =
        { x with
          replay := some n, replayCount := 1, replayTimer := some (20 * (s.port l).cfg.replayTimeout), line := x.line.overtake } ∧
      (t.port l).counters = { (s.port l).counters with replays := (s.port l).counters.replays + 1 } := by
  obtain ⟨w, hw⟩ : ∃ w, w = (s.strip l hs).modTx l fun _ => x := ⟨_, rfl⟩
  have left : s.Unlists w l hs := by rw [hw]; exact (s.strip_unlists l hs).modTx _
  have tx : (w.port l).tx = x := by rw [hw, State.port_modTx]
  have cfg : (w.port l).cfg = (s.port l).cfg := by rw [hw, State.port_modTx]; exact s.strip_cfg l hs
  have counters : (w.port l).counters = (s.port l).counters := by rw [hw, State.port_modTx]; exact s.strip_counters l hs
  rw [← hw, State.startEpisode_eq, if_neg (by rw [tx, zero, cfg]; omega)] at ht
  rw [ht, State.port_setPort, ← counters, ← cfg]
  refine ⟨left.setPort fun c => by cases c <;> rfl, ?_, rfl⟩
  rw [← tx] at zero ⊢
  simp only [LinkPort.replaying, LinkPort.replayed, zero]

end

/-- Settles O30: the entry that the seq names, or none; a confirmation that reaches the frame being resent, or none. -/
theorem ackReceivedResult : Obligations.AckReceivedResult := by
  unfold Obligations.AckReceivedResult
  refine ⟨fun s l n receiving => ⟨fun stale => ?_, fun xs h ys list seq first free => ?_⟩,
    fun s l n f older newer h rest receiving line resend list head out seq first => ?_⟩
  all_goals
    refine ⟨_, exec_ackReceived receiving n, ?_⟩
    have counts := s.blockCounted_counts l
    generalize s.blockCounted l = u at counts ⊢
  · exact counts.stale (State.takeAck_stale (by simpa only [counts.tx, counts.seqOn] using stale))
  · have taken := State.takeAck_taken (s := u) (counts.tx ▸ list) ((counts.seqOn h).trans seq) fun x mem =>
      counts.seqOn x ▸ first x mem
    have confirmed := State.confirm_free (s := u) (xs := xs ++ [h]) (ys := ys) (by rw [counts.tx, list, List.append_cons])
      (counts.tx ▸ free) n
    rw [List.length_append, List.length_singleton, counts.tx, counts.cfg] at confirmed
    obtain ⟨left, ⟨r, tx⟩, counters, tested⟩ := u.strip_tested l (xs ++ [h]) _ (taken.trans (congrArg (State.testEpisode · l) confirmed))
    have left := counts.unlists left
    rw [tx]
    exact ⟨rfl, rfl, rfl, left.confirmed, left.cells, left.queues, left.hcu, left.ev, rfl, rfl, counters.trans counts.counters, tested⟩
  · have taken := State.takeAck_taken (s := u) (counts.tx ▸ list) ((counts.seqOn h).trans seq) fun x mem =>
      counts.seqOn x ▸ first x mem
    have confirmed := State.confirm_held (s := u) (rest := newer ++ h :: rest) (k := (older ++ newer).length + 1) (counts.tx ▸ line) resend
      (by rw [counts.tx, list, List.append_assoc]) (by rw [← head]; cases newer <;> rfl) out (by rw [List.length_append]; omega) n
    rw [counts.tx, counts.cfg] at confirmed
    obtain ⟨left, ⟨r, tx⟩, -, tested⟩ := u.strip_tested l older _ (taken.trans (congrArg (State.testEpisode · l) confirmed))
    rw [tx]
    exact ⟨rfl, rfl, rfl, if_neg (by simp), tested, (counts.unlists left).confirmed, rfl⟩

/-- Settles O31: the entry that the seq names, the oldest or a later one, or none; a confirmation as for an ACK, then an episode. -/
theorem nakReceivedResult : Obligations.NakReceivedResult := by
  unfold Obligations.NakReceivedResult
  intro s l n receiving p
  have counts := s.blockCounted_counts l
  have nak := exec_nakReceived receiving n
  have ack := exec_ackReceived receiving (n - 1)
  generalize s.blockCounted l = u at counts nak ack
  refine ⟨fun stale ne => ?_, fun stale next => ?_, fun xs h ys list pos seq first limit => ?_, fun h rest list seq => ⟨fun within => ?_,
    fun beyond => ?_⟩⟩
  · exact ⟨_, nak, counts.stale (State.takeNak_stale (by simpa only [counts.tx, counts.seqOn] using stale) (counts.tx ▸ ne))⟩
  · rw [nak, ack, State.takeNak_next (by simpa only [counts.tx, counts.seqOn] using stale) (counts.tx ▸ next)]
  · have list' : (u.port l).tx.unacked = xs ++ h :: ys := counts.tx ▸ list
    have taken := State.takeNak_later list' pos ((counts.seqOn h).trans seq) fun x mem => counts.seqOn x ▸ first x mem
    have episode : ∀ {hs rest held}, u.confirm l xs.length (n - 1) =
        ((u.strip l hs).modTx l fun _ => (u.port l).tx.confirmed (u.port l).cfg rest held) → _ := fun e =>
      u.strip_startEpisode l _ rfl (counts.cfg ▸ limit) n (taken.trans (congrArg (State.startEpisode · l n) e))
    obtain ⟨hs, rest, held, shape⟩ := State.confirm_shape list' (n - 1)
    obtain ⟨left, tx, counters⟩ := episode shape
    have left := counts.unlists left
    refine ⟨_, nak, by rw [tx], by rw [tx], by rw [tx, counts.cfg], by rw [counters, counts.counters], left.cells, left.queues,
      fun free => ?_, fun f older newer line resend split head out => ?_⟩
    · obtain ⟨left, tx, -⟩ := episode (State.confirm_free list' (counts.tx ▸ free) (n - 1))
      rw [tx, counts.tx]
      exact ⟨rfl, rfl, (counts.unlists left).confirmed⟩
    · obtain ⟨tail, rfl⟩ := List.head?_eq_some_iff.1 head
      obtain ⟨left, tx, -⟩ := episode (State.confirm_held (counts.tx ▸ line) resend
        (by rw [list', split, List.append_assoc]) rfl out (by rw [split]; simp) (n - 1))
      rw [tx, counts.tx]
      refine ⟨rfl, rfl, ?_, (counts.unlists left).confirmed⟩
      simp only [Transmitter.confirmed, p, line, LineBlock.overtake, resend]
  · refine ⟨_, nak, ?_⟩
    rw [State.takeNak_oldest (counts.tx ▸ list) ((counts.seqOn h).trans seq), State.startEpisode_eq, counts.tx, counts.cfg,
      if_neg (Nat.not_lt.2 within), State.port_setPort, State.setPort_buf, State.setPort_queues]
    simp only [LinkPort.replaying, LinkPort.replayed, counts.tx, counts.cfg, counts.counters, counts.buf, counts.queues, p, and_self]
  · refine ⟨_, nak, ?_⟩
    rw [State.takeNak_oldest (counts.tx ▸ list) ((counts.seqOn h).trans seq), State.startEpisode_eq, counts.tx, counts.cfg,
      if_pos beyond]
    exact counts.faultedBy (State.enterFault_leaves _ l _).of_replayed

end Sys2Proof.Machine
end

