-- ==== Sys2Proof/Proofs/FrameSending.lean ====
section
/-! SUPPORT. The frame on a link's line: the reads of its payload words, with what the Integrity Unit does at a faulty one, and the two
ends of a first transmission and of a resend (sections 5.3, 5.4, 5.6, 8.1 and 8.2). -/

namespace Sys2Proof.Machine

/-! ## Reports -/

/-- The table's part of a report counts no counter but that of lost reports. -/
theorem State.tableReport_counter (s : State) (e : ReportEntry) {c : PartCounter} (ne : c ≠ .reportLost) :
    (s.tableReport e).ev.counters.get c = s.ev.counters.get c := by
  have lost : ∀ t : State, (t.loseReport).ev.counters.get c = t.ev.counters.get c := fun t => by
    rw [State.loseReport, State.raise_ev_counters, State.countPart_counter, PartCounters.get_set_ne _ _ _ _ ne]
  unfold State.tableReport
  split
  · rfl
  · split
    · rfl
    · split
      · exact lost _
      · exact lost s

/-- The table after a report depends on the table before it alone. -/
theorem State.makeReport_reports {s t : State} (same : t.reports = s.reports) (e : ReportEntry) :
    (t.makeReport e).reports = (s.makeReport e).reports := by
  have table : (t.tableReport e).reports = (s.tableReport e).reports := by
    unfold State.tableReport State.loseReport
    rw [same]
    split
    · rfl
    · split
      · rfl
      · split
        · simp
        · simpa using same
  unfold State.makeReport
  split <;> simpa using table

/-- A report of a corrected word is counted, and its event is set (R162). -/
theorem State.makeReport_corrected (s : State) {e : ReportEntry} (kind : e.kind = .corrected) :
    (s.makeReport e).ev.counters.eccCorrectedTotal = s.ev.counters.eccCorrectedTotal + 1 ∧ (s.makeReport e).flag .eccCorrected = true := by
  have before := s.tableReport_counter e (c := .eccCorrectedTotal) (by decide)
  simp only [State.makeReport, kind, State.raise_ev_counters, State.countPart_counter, before, State.flag_raise, and_true]
  rfl

/-- A report of an uncorrectable word is counted, and its event is set (R162). -/
theorem State.makeReport_uncorrectable (s : State) {e : ReportEntry} (kind : e.kind = .uncorrectable) :
    (s.makeReport e).ev.counters.eccUncorrectableTotal = s.ev.counters.eccUncorrectableTotal + 1 ∧
      (s.makeReport e).flag .eccUncorrectable = true := by
  have before := s.tableReport_counter e (c := .eccUncorrectableTotal) (by decide)
  simp only [State.makeReport, kind, State.raise_ev_counters, State.countPart_counter, before, State.flag_raise, and_true]
  rfl

/-! ## Reads of words -/

/-- A key that is listed has a value. -/
theorem Sparse.lookup_isSome_of_mem {α : Type} {xs : List (Nat × α)} {key : Nat} {v : α} (mem : (key, v) ∈ xs) :
    ∃ w, Sparse.lookup xs key = some w := by
  induction xs with
  | nil => cases mem
  | cons e rest ih =>
    obtain ⟨k, w⟩ := e
    by_cases here : k = key
    · exact ⟨w, if_pos here⟩
    · obtain ⟨x, found⟩ := ih (List.mem_of_ne_of_mem (fun same => here (congrArg Prod.fst same).symm) mem)
      exact ⟨x, (if_neg here).trans found⟩

/-- The owner of a cell has a record. -/
theorem State.record_of_ownerOf {s : State} {cell h : Nat} {o : Record} (owner : s.ownerOf cell = some (h, o)) :
    ∃ r, s.record h = some r := by
  have mem : (h, o) ∈ s.buf.records := List.mem_of_find?_eq_some owner
  exact Sparse.lookup_isSome_of_mem mem

/-- The owner of the word at a position poisoned, if it has one. -/
def State.poisonOwner (s : State) (position : Nat) : State :=
  match s.ownerOf (position / Config.cellWords) with
  | some (h, _) => s.modRecord h fun r => { r with poisoned := true }
  | none => s

theorem State.poisonOwner_spec (s : State) (position : Nat) :
    (s.poisonOwner position).reports = s.reports ∧ (s.poisonOwner position).ev = s.ev ∧
      ∀ h o, s.ownerOf (position / Config.cellWords) = some (h, o) → (s.poisonOwner position).isPoisoned h = true := by
  unfold State.poisonOwner
  cases owner : s.ownerOf (position / Config.cellWords) with
  | none => exact ⟨rfl, rfl, fun _ _ same => absurd same.symm (Option.some_ne_none _)⟩
  | some e =>
    obtain ⟨g, x⟩ := e
    refine ⟨rfl, rfl, fun h o same => ?_⟩
    cases same
    obtain ⟨r, hr⟩ := State.record_of_ownerOf owner
    have poisoned : (s.modRecord g fun r => { r with poisoned := true }).record g = some { r with poisoned := true } := by
      rw [State.record_modRecord, if_pos rfl, hr]; rfl
    exact State.isPoisoned_of_record poisoned

theorem State.noteRead_corrected {s : State} {p b : Nat} (k : Reader) (judged : s.judge p = .corrected b) :
    s.noteRead k p =
      s.makeReport (reportOf p .corrected k ((s.ownerOf (p / Config.cellWords)).map Prod.fst) (some b)) := by
  simp only [State.noteRead, judged]

theorem State.noteRead_uncorrectable {s : State} {p : Nat} (k : Reader) (judged : s.judge p = .uncorrectable) :
    s.noteRead k p =
      (s.poisonOwner p).makeReport (reportOf p .uncorrectable k ((s.ownerOf (p / Config.cellWords)).map Prod.fst) none) := by
  simp only [State.noteRead, judged, State.poisonOwner]
  cases s.ownerOf (p / Config.cellWords) <;> rfl

theorem State.port_noteRead (s : State) (k : Reader) (p : Nat) (l : LinkId) : (s.noteRead k p).port l = s.port l := by
  cases l <;> simp

section
variable {s t : State} {l : LinkId} {f : TxFrame} {r : Record}

/-- A frame on the line with a payload word gone out. -/
def TxFrame.moved (f : TxFrame) (w : CellWord) : TxFrame :=
  { f with
    nextWord := f.nextWord + 1
    sent := f.sent ++ (List.range (min 8 (f.length - 8 * f.nextWord))).map (byteOf w) }

theorem payloadOf_eq (w : CellWord) (length word : Nat) :
    payloadOf w length word = (List.range (min 8 (length - 8 * word))).map (byteOf w) := by
  rw [payloadOf, bytesOf, ← List.map_take, List.take_range, Nat.min_comm]

theorem TxFrame.afterRead_good (f : TxFrame) (w : CellWord) : f.afterRead .good w = f.moved w := by
  rw [TxFrame.afterRead, payloadOf_eq]; rfl

theorem TxFrame.afterRead_corrected (f : TxFrame) (b : Nat) (w : CellWord) : f.afterRead (.corrected b) w = f.moved w := by
  rw [TxFrame.afterRead, payloadOf_eq]; rfl

theorem State.frameOnLine_eq (active : (s.port l).state = .active) (line : (s.port l).tx.line = .frame f) : s.frameOnLine l = some f := by
  unfold State.frameOnLine
  rw [if_pos ((s.isActive_iff l).2 active), line]

/-- The read of the next payload word of the frame on the line. -/
theorem exec_txWordRead (active : (s.port l).state = .active) (line : (s.port l).tx.line = .frame f) (going : f.aborting = false)
    (left : 8 * f.nextWord < f.length) (hr : s.record f.handle = some r) :
    exec (.txWordRead l) s = .next
      ((s.noteRead (.tx l) (wordPosition r.cells (8 * f.nextWord))).modTx l fun t =>
        { t with
          line := .frame (f.afterRead (s.judge (wordPosition r.cells (8 * f.nextWord)))
            (s.delivered (wordPosition r.cells (8 * f.nextWord)))) }) := by
  have words : f.wordsLeft = true := by
    have below : f.nextWord < (f.length + 7) / 8 := by omega
    simp [TxFrame.wordsLeft, wordsFor, going, below]
  have read : s.readTxWord l = (s.noteRead (.tx l) (s.txPosition f)).modTx l fun t =>
      { t with line := .frame (f.afterRead (s.judge (s.txPosition f)) (s.delivered (s.txPosition f))) } := by
    simp only [State.readTxWord, line, words, if_true]
  have position : s.txPosition f = wordPosition r.cells (8 * f.nextWord) := by simp only [State.txPosition, hr]
  rw [← position, ← read]
  exact congrArg Host.Outcome.next (if_pos (by rw [State.frameOnLine_eq active line]; rfl))

end

/-- Settles O40: the read as a step of the Integrity Unit and a write of the line, by the word's judgement. -/
theorem txWordReadResult : Obligations.TxWordReadResult := by
  unfold Obligations.TxWordReadResult
  intro s l f r active line going left hr p word report moved
  obtain ⟨v, hv⟩ : ∃ v, v = s.noteRead (.tx l) word := ⟨_, rfl⟩
  have port : ∀ k, v.port k = s.port k := fun k => by rw [hv, State.port_noteRead]
  have line' : ((v.modTx l fun t => { t with line := .frame (f.afterRead (s.judge word) (s.delivered word)) }).port l).tx.line =
      .frame (f.afterRead (s.judge word) (s.delivered word)) := by rw [State.port_modTx]
  refine ⟨v.modTx l fun t => { t with line := .frame (f.afterRead (s.judge word) (s.delivered word)) },
    hv ▸ exec_txWordRead active line going left hr, ?_, ?_, ?_, ?_, ?_, ?_, fun good => ?_,
    fun b corrected => ?_, fun uncorrectable => ?_⟩
  · rw [State.port_modTx, port]
  · exact (State.port_modPort_other _ _ _).trans (port _)
  · rw [State.modTx_queues, hv, State.noteRead_queues]
  · rw [State.modTx_hcu, hv, State.noteRead_hcu]
  · rw [State.SameCells, State.modTx_buf, hv]
    exact ⟨s.noteRead_buf_mem _ _, s.noteRead_buf_wrong _ _, s.noteRead_buf_links _ _⟩
  · rw [State.modTx_buf, hv, State.noteRead_buf_free]
  · rw [line', State.modTx_buf, State.modTx_ev, State.modTx_reports, hv, s.noteRead_good _ word good, good, TxFrame.afterRead_good]
    exact ⟨rfl, rfl, rfl, rfl⟩
  · obtain ⟨counter, flag⟩ := s.makeReport_corrected (e := report .corrected (some b)) rfl
    have made : v = s.makeReport (report .corrected (some b)) := hv.trans (State.noteRead_corrected _ corrected)
    rw [line', State.flag, State.modTx_buf, State.modTx_ev, State.modTx_reports, made, State.makeReport_buf, corrected,
      TxFrame.afterRead_corrected]
    exact ⟨rfl, rfl, rfl, counter, flag⟩
  · obtain ⟨reports, ev, poisoned⟩ := s.poisonOwner_spec word
    obtain ⟨counter, flag⟩ := (s.poisonOwner word).makeReport_uncorrectable (e := report .uncorrectable none) rfl
    have made : v = (s.poisonOwner word).makeReport (report .uncorrectable none) := hv.trans (State.noteRead_uncorrectable _ uncorrectable)
    have buf := (v.modTx_buf l fun t => { t with line := .frame (f.afterRead (s.judge word) (s.delivered word)) }).trans
      (made ▸ State.makeReport_buf _ _)
    rw [line', State.flag, State.modTx_ev, State.modTx_reports, made, uncorrectable]
    refine ⟨rfl, State.makeReport_reports reports _, by rw [counter, ev], flag, fun h o owner => ?_⟩
    rw [State.isPoisoned, State.record, State.modTx_buf, State.makeReport_buf]
    exact poisoned h o owner

/-! ## Ends of first transmissions -/

section
variable {s t : State} {l : LinkId} {f : TxFrame} {r : Record}

theorem TxFrame.complete_of (going : f.aborting = false) (read : f.nextWord = (f.length + 7) / 8) : f.complete = true := by
  simp [TxFrame.complete, wordsFor, going, read]

theorem exec_firstTransmissionEnd (active : (s.port l).state = .active) (line : (s.port l).tx.line = .frame f) (first : f.resend = false)
    (complete : f.complete = true) : exec (.firstTransmissionEnd l) s = .next ((s.firstEnd l f).settle s) := by
  refine congrArg Host.Outcome.next ?_
  rw [State.frameOnLine_eq active line]
  exact if_pos (by rw [first, complete]; rfl)

theorem exec_firstTransmissionAbort (active : (s.port l).state = .active) (line : (s.port l).tx.line = .frame f) (first : f.resend = false)
    (aborting : f.aborting = true) : exec (.firstTransmissionAbort l) s = .next ((s.firstAbort l f).settle s) := by
  refine congrArg Host.Outcome.next ?_
  rw [State.frameOnLine_eq active line]
  exact if_pos (by rw [first, aborting]; rfl)

theorem exec_resendEnd (active : (s.port l).state = .active) (line : (s.port l).tx.line = .frame f) (resend : f.resend = true)
    (complete : f.complete = true) : exec (.resendEnd l) s = .next ((s.resendEnded l f).settle s) := by
  refine congrArg Host.Outcome.next ?_
  rw [State.frameOnLine_eq active line]
  exact if_pos (by rw [resend, complete]; rfl)

theorem exec_resendAbort (active : (s.port l).state = .active) (line : (s.port l).tx.line = .frame f) (resend : f.resend = true)
    (aborting : f.aborting = true) : exec (.resendAbort l) s = .next ((s.resendAborted l).settle s) := by
  refine congrArg Host.Outcome.next ?_
  rw [State.frameOnLine_eq active line]
  exact if_pos (by rw [resend, aborting]; rfl)

/-- A port whose first transmission has ended with END: the frame on the list, its cells charged, the frame counted (R97). -/
def LinkPort.listed (p : LinkPort) (f : TxFrame) (r : Record) : LinkPort :=
  { p.modCredit r.cls fun k => { k with sent := k.sent + BitVec.ofNat 16 r.cells.length } with
    tx := { p.tx with
      line := .none, nextSeq := p.tx.nextSeq + 1, unacked := p.tx.unacked ++ [f.handle]
      replayTimer := some (p.tx.replayTimer.getD (20 * p.cfg.replayTimeout)), lastEnd := some f.ending }
    counters := { p.counters with framesOut := p.counters.framesOut + 1 } }

theorem LinkPort.listed_tx (p : LinkPort) (f : TxFrame) (r : Record) :
    (p.listed f r).tx =
      { p.tx with
        line := .none, nextSeq := p.tx.nextSeq + 1, unacked := p.tx.unacked ++ [f.handle]
        replayTimer := (match p.tx.replayTimer with | some k => some k | none => some (20 * p.cfg.replayTimeout))
        lastEnd := some f.ending } := by
  unfold LinkPort.listed
  cases p.tx.replayTimer <;> rfl

theorem LinkPort.listed_sent (p : LinkPort) (f : TxFrame) (r : Record) :
    ((p.listed f r).credit r.cls).sent = (p.credit r.cls).sent + BitVec.ofNat 16 r.cells.length := by
  unfold LinkPort.listed
  cases r.cls <;> rfl

theorem State.port_setLinkHolder (s : State) (l k : LinkId) (h : Nat) (v : LinkHolder) : (s.setLinkHolder l h v).port k = s.port k := by
  cases k <;> rfl

/-- The end of a first transmission with END writes the frame's record and the port alone. -/
theorem State.firstEnd_eq (hr : s.record f.handle = some r) :
    s.firstEnd l f = (s.setLinkHolder l f.handle (.unacked f.seq)).modPort l fun p => p.listed f r := by
  have counted : ∀ t : State, t.countLink l .framesOut =
      t.modPort l fun p => { p with counters := p.counters.set .framesOut (p.counters.get .framesOut + 1) } := fun t =>
    t.countLink_eq l rfl
  simp only [State.firstEnd, hr, counted, State.endFrame, State.modTx, State.modCredit, State.setLinkHolder, State.modPort_modRecord,
    State.modPort_modPort]
  refine congrArg (State.modPort _ l) (funext fun p => ?_)
  unfold LinkPort.listed
  cases r.cls <;> rfl

/-- A link's holder removed from the frame of a record: freed where it was the last. -/
theorem State.removeLinkHolder_cases (hr : s.record f.handle = some r) (ht : t = s.removeLinkHolder l f.handle) :
    (r.host = .none → r.holder l.other = .none → t.record f.handle = none ∧ t.buf.free = s.buf.free ++ r.cells) ∧
      (¬(r.host = .none ∧ r.holder l.other = .none) →
        t.record f.handle = some (r.setHolder l .none) ∧ t.buf.free = s.buf.free) ∧
      ∀ g, g ≠ f.handle → t.record g = s.record g := by
  subst ht
  obtain ⟨⟨here, others⟩, freed⟩ := s.removeLinkHolder_removed l f.handle
  obtain ⟨alone, held⟩ := here f.handle (List.mem_singleton.2 rfl) r hr
  refine ⟨fun host other => ⟨alone host other, ?_⟩, fun more => ⟨held more, ?_⟩, fun g ne => others g (mt List.mem_singleton.1 ne)⟩
  · rw [freed.1]
    simp [State.heldByLinkAlone, hr, host, other]
  · have none : s.heldByLinkAlone l [f.handle] = [] := by simpa [State.heldByLinkAlone, hr] using more
    rw [freed.1, none]
    exact List.append_nil _

end

/-- Settles O41: END as one write of the port and one of the record, ABORT as the counted removal of the frame's holder. -/
theorem firstTransmissionResult : Obligations.FirstTransmissionResult := by
  unfold Obligations.FirstTransmissionResult
  intro s l f r active line first hr p
  refine ⟨fun going read => ?_, fun aborting => ?_⟩
  · refine ⟨_, exec_firstTransmissionEnd active line first (TxFrame.complete_of going read), ?_⟩
    rw [State.firstEnd_eq hr]
    obtain ⟨u, hu⟩ : ∃ u, u = s.setLinkHolder l f.handle (.unacked f.seq) := ⟨_, rfl⟩
    have port : ∀ k, u.port k = s.port k := fun k => by rw [hu, State.port_setLinkHolder]
    have record : ∀ g, u.record g = if f.handle = g then (s.record g).map (·.setHolder l (.unacked f.seq)) else s.record g := fun g => by
      rw [hu]; exact s.record_modRecord _ _ _
    rw [← hu, State.port_modPort, State.port_modPort_other, port, port, State.SameCells]
    simp only [State.record_modPort, record, State.modPort_buf, State.modPort_queues, State.modPort_ev, State.modPort_hcu]
    refine ⟨by rw [if_pos trivial, hr]; rfl, fun g ne => if_neg ne.symm, p.listed_tx f r, p.listed_sent f r, rfl, ?_, trivial, ?_⟩
    · exact LinkPort.modCredit_rx _ _ _
    · rw [hu]
      exact ⟨rfl, rfl, ⟨rfl, rfl, rfl⟩, rfl, rfl⟩
  · refine ⟨_, exec_firstTransmissionAbort active line first aborting, ?_⟩
    obtain ⟨u, hu⟩ : ∃ u, u = s.endFrame l .aborted := ⟨_, rfl⟩
    have record : ∀ g, u.record g = s.record g := fun g => by rw [hu]; exact s.record_modPort l _ g
    have buf : u.buf = s.buf := by rw [hu]; exact s.modTx_buf l _
    have port : u.port l = { p with tx := { p.tx with line := .none, lastEnd := some .aborted } } := by
      rw [hu]; exact s.port_modTx l _
    obtain ⟨alone, held, others⟩ := State.removeLinkHolder_cases (s := u) (l := l) ((record _).trans hr) rfl
    have sheds := u.removeLinkHolder_sheds l f.handle
    have links : u.SameLinks (u.removeLinkHolder l f.handle) := u.removeHolder_links _ _
    have counters : ((u.removeLinkHolder l f.handle).port l).counters = p.counters :=
      ((congrArg LinkPort.counters (sheds.port l) :)).trans (by rw [port]; rfl)
    rw [State.firstAbort, ← hu, State.port_countLink]
    simp only [State.record_countLink, State.countLink_buf, counters, links.tx, ← record, ← buf]
    refine ⟨by rw [port], fun c => ?_, rfl, State.flag_countLink_drop _ l rfl, alone, held, others, ?_, ?_, ?_⟩
    · have sent := congrArg CreditClass.sent (links.counts l c)
      rw [port] at sent
      cases c <;> exact sent
    · rw [State.countLink_queues, State.removeLinkHolder, State.removeHolder_queues, hu]; exact s.modTx_queues l _
    · rw [State.SameCells, State.countLink_buf, ← buf]; exact sheds.cells
    · rw [State.countLink_hcu, State.removeLinkHolder, State.removeHolder_hcu, hu]; exact s.modTx_hcu l _

/-! ## Ends of resends -/

/-- A transmitter whose resend has ended with END: the replay point past the frame, unless an episode has overtaken it (R103, R106). -/
def Transmitter.resent (t : Transmitter) (f : TxFrame) : Transmitter :=
  { t with
    line := .none, lastEnd := some f.ending
    replay := if f.overtaken then t.replay else t.replay.map fun _ => f.seq + 1 }

section
variable {s t : State} {l : LinkId} {f : TxFrame} {n : Byte} {h : Nat} {xs ys : List Nat}

theorem State.resendEnded_eq (s : State) (l : LinkId) (f : TxFrame) :
    s.resendEnded l f = ((s.modTx l fun t => t.resent f).applyHeld l).testEpisode l := by
  have ended : ((s.endFrame l f.ending).modTx l fun t =>
      { t with replay := if f.overtaken then t.replay else t.replay.map fun _ => f.seq + 1 }) = s.modTx l fun t => t.resent f :=
    s.modTx_modTx l _ _
  rw [State.resendEnded, ended]

theorem State.applyHeld_none (held : (s.port l).tx.held = none) : s.applyHeld l = s := by
  rw [State.applyHeld, held]

/-- The end of a resend with nothing held: the transmitter written, and the episode's end tested. -/
theorem State.resendEnded_unheld (held : (s.port l).tx.held = none) (ht : t = s.resendEnded l f) :
    (∃ r, (t.port l).tx = { (s.port l).tx.resent f with replay := r }) ∧ (t.port l).counters = (s.port l).counters ∧
      t.buf = s.buf ∧ t.queues = s.queues ∧ t.EpisodeTested l ((s.port l).tx.resent f).replay := by
  have unheld : ((s.modTx l fun t => t.resent f).port l).tx.held = none := by rw [State.port_modTx]; exact held
  have tested := (s.modTx l fun t => t.resent f).testEpisode_tested l
  rw [State.resendEnded_eq, State.applyHeld_none unheld] at ht
  rw [← ht, State.port_modTx] at tested
  rw [State.testEpisode_eq, State.modTx_modTx] at ht
  refine ⟨⟨(t.port l).tx.replay, ?_⟩, ?_, ?_, ?_, tested⟩
  · rw [ht, State.port_modTx]
  · rw [ht, State.port_modTx]
  · rw [ht, State.modTx_buf]
  · rw [ht, State.modTx_queues]

/-- What lies at or after a point is the list's and the records'. -/
theorem State.entryFrom_congr (unacked : (t.port l).tx.unacked = (s.port l).tx.unacked) (buf : t.buf = s.buf) (q : Byte) :
    t.EntryFrom l q ↔ s.EntryFrom l q := by
  have seqs : ∀ x, t.seqOn l x = s.seqOn l x := fun x => by rw [State.seqOn, State.record, buf]; rfl
  simp only [State.EntryFrom, unacked, seqs]

theorem State.applyHeld_some (held : (s.port l).tx.held = some n) (list : (s.port l).tx.unacked = xs ++ h :: ys)
    (seq : s.seqOn l h = some n) (first : ∀ x ∈ xs, s.seqOn l x ≠ some n) :
    s.applyHeld l = (s.strip l (xs ++ [h])).modTx l fun _ =>
      { (s.port l).tx with
        unacked := ys, held := none, replayTimer := if ys = [] then none else (s.port l).tx.replayTimer } := by
  have split : (s.port l).tx.unacked = (xs ++ [h]) ++ ys := by rw [list, List.append_cons]
  have dropped := State.dropOldestEntries_eq split
  rw [List.length_append, List.length_singleton] at dropped
  simp only [State.applyHeld, held, State.entryIndex_some list seq first, dropped]
  exact State.modTx_modTx _ l _ _

/-- A replay point after the end of a resend. -/
theorem Transmitter.resent_replay {t : Transmitter} {q : Byte}
    (point : (f.overtaken = false ∧ t.replay ≠ none ∧ q = f.seq + 1) ∨ (f.overtaken = true ∧ t.replay = some q)) :
    (t.resent f).replay = some q := by
  rcases point with ⟨own, some, rfl⟩ | ⟨overtaken, point⟩
  · obtain ⟨x, hx⟩ := Option.ne_none_iff_exists'.1 some
    simp [Transmitter.resent, own, hx]
  · simp [Transmitter.resent, overtaken, point]

/-- An entry to FAULT after the end of a resend: the statement of it does not read that frame nor how it ended. -/
theorem State.FaultedBy.of_endFrame {reason : FaultReason} {e : FrameEnd} (line : (s.port l).tx.line = .frame f) (resend : f.resend = true)
    (a : (s.endFrame l e).FaultedBy t l reason) : s.FaultedBy t l reason := by
  have dropped : (s.endFrame l e).droppedHandles l = s.droppedHandles l := by
    rw [State.droppedHandles_eq, State.droppedHandles_eq, State.sendingHandles, State.sendingHandles, line, State.endFrame_line]
    simp only [resend, if_true]
    cases l <;> rfl
  have freed : ∀ rs, (s.endFrame l e).ChainsFreed t rs ↔ s.ChainsFreed t rs := fun rs => by
    have inUse := State.inUse_setPort (s := s) (l := l)
      (q := { s.port l with tx := { (s.port l).tx with line := .none, lastEnd := some e } }) fun c => by cases c <;> rfl
    simp only [State.ChainsFreed, State.endFrame, State.modTx_buf]
    exact and_congr_right fun _ => forall₂_congr fun k c => by rw [← inUse k c]; rfl
  simp only [State.FaultedBy, State.TornDown, freed, dropped] at a ⊢
  cases l <;> exact a

end

/-- Settles O42: END as a write of the transmitter, with the entries that a held point takes off the list; ABORT as an entry to FAULT. -/
theorem resendResult : Obligations.ResendResult := by
  unfold Obligations.ResendResult
  intro s l f active line resend p ended
  refine ⟨fun going read none => ?_, fun xs h ys n going read held list seq first => ?_, fun aborting => ?_⟩
  · refine ⟨_, exec_resendEnd active line resend (TxFrame.complete_of going read), ?_⟩
    obtain ⟨⟨r, tx⟩, counters, buf, queues, tested⟩ := State.resendEnded_unheld (f := f) none rfl
    have unacked : ((s.resendEnded l f).port l).tx.unacked = p.tx.unacked := by rw [tx]; rfl
    refine ⟨by rw [tx]; rfl, by rw [tx]; rfl, unacked, counters, by rw [tx]; rfl, buf, queues, fun off => tested.1 ?_, fun q point => ?_⟩
    · simp [Transmitter.resent, show (s.port l).tx.replay = .none from off]
    · have going := tested.2 q (Transmitter.resent_replay point)
      rwa [State.entryFrom_congr unacked buf] at going
  · refine ⟨_, exec_resendEnd active line resend (TxFrame.complete_of going read), ?_⟩
    obtain ⟨u, hu⟩ : ∃ u, u = s.modTx l fun t => t.resent f := ⟨_, rfl⟩
    have port : u.port l = { p with tx := p.tx.resent f } := by rw [hu]; exact s.port_modTx l _
    have seqs : ∀ x, u.seqOn l x = s.seqOn l x := fun x => by rw [hu, State.seqOn_modTx]
    have applied := State.applyHeld_some (s := u) (l := l) (by rw [port]; exact held) (by rw [port]; exact list)
      ((seqs h).trans seq) fun x mem => seqs x ▸ first x mem
    have taken : s.resendEnded l f = (u.applyHeld l).testEpisode l := by rw [State.resendEnded_eq, ← hu]
    obtain ⟨left, ⟨r, tx⟩, counters, tested⟩ := u.strip_tested l (xs ++ [h]) _ (taken.trans (congrArg (State.testEpisode · l) applied))
    have left := (show (s.setPort l { p with tx := p.tx.resent f }).Unlists _ _ _ from hu ▸ left).of_setPort fun c => by cases c <;> rfl
    rw [port] at counters tx tested
    rw [tx]
    exact ⟨rfl, rfl, rfl, rfl, rfl, counters, tested, left.confirmed, left.cells, left.queues⟩
  · refine ⟨_, exec_resendAbort active line resend aborting, ((s.endFrame l .aborted).enterFault_leaves l _).of_endFrame line resend, ?_⟩
    obtain ⟨-, ⟨ctl, dat, port⟩, -, -⟩ := (s.endFrame l .aborted).enterFault_parts l .replayDataLost
    rw [State.resendAborted, port]
    exact s.endFrame_lastEnd l .aborted

end Sys2Proof.Machine
end

