-- ==== Sys2Proof/Proofs/Grants.lean ====
section
/-! SUPPORT. A received GRANT on a link in ACTIVE, judged by its two differences modulo 65536 (section 6.6.1). -/

namespace Sys2Proof.Machine

section

variable {s : State} {l : LinkId} {c : Cls} {v : Credit}

/-- The count of a valid block leaves the credit counts of its link. -/
theorem State.credit_blockCounted (s : State) (l : LinkId) (c : Cls) :
    ((s.blockCounted l).port l).credit c = (s.port l).credit c := by
  rw [State.blockCounted, State.port_setPort, LinkPort.afterValid_credit]

/-- A receiving link handles a GRANT once its block is counted. -/
theorem exec_grantReceived (receiving : s.Receiving l) (c : Cls) (v : Credit) :
    exec (.grantReceived l c v) s = .next (((s.blockCounted l).takeGrant l c v).settle s) :=
  State.next_received (act := fun t => t.validControl l fun u => u.takeGrant l c v) (LinkPort.live_of_active receiving.1)
    (State.validControl_active receiving.1 receiving.2)

/-- A GRANT at least as new as the last one applied, and within the limit on the available credit, replaces partner-granted. -/
theorem State.takeGrant_applied
    (newer : (v.toNat + 65536 - ((s.port l).credit c).partnerGranted.toNat) % 65536 < 32768)
    (within : (v.toNat + 65536 - ((s.port l).credit c).sent.toNat) % 65536 < 32768) :
    s.takeGrant l c v = s.modCredit l c fun k => { k with partnerGranted := v } := by
  rw [State.takeGrant_spec, credit_sub_toNat, credit_sub_toNat, if_pos ⟨newer, within⟩]

/-- A GRANT older than the last one applied, or beyond the limit on the available credit, changes nothing. -/
theorem State.takeGrant_ignored
    (refused : 32768 ≤ (v.toNat + 65536 - ((s.port l).credit c).partnerGranted.toNat) % 65536 ∨
      32768 ≤ (v.toNat + 65536 - ((s.port l).credit c).sent.toNat) % 65536) :
    s.takeGrant l c v = s := by
  rw [State.takeGrant_spec, credit_sub_toNat, credit_sub_toNat, if_neg]
  rintro ⟨newer, within⟩
  exact refused.elim (Nat.not_le.2 newer) (Nat.not_le.2 within)

end

/-- Settles O32: the GRANT is judged after the count of its block, which leaves both counts that it is judged against. -/
theorem grantReceivedResult : Obligations.GrantReceivedResult := by
  unfold Obligations.GrantReceivedResult
  intro s l c v receiving
  have credit := s.credit_blockCounted l c
  refine ⟨fun newer within => ?_, fun refused => ?_⟩
  · rw [exec_grantReceived receiving, State.takeGrant_applied (credit ▸ newer) (credit ▸ within), State.blockCounted,
      State.modCredit, State.modPort, State.setPort_setPort, State.port_setPort]
  · rw [exec_grantReceived receiving, State.takeGrant_ignored (credit ▸ refused), State.blockCounted]

end Sys2Proof.Machine
end

