-- ==== Sys2Proof/Proofs/HeldCount.lean ====
section
/-! SUPPORT. The host-held count (R130), move by move: which handles the host fills or has claimed, and what each move does to them. -/

namespace Sys2Proof.Machine

/-! ## The handles that the host holds -/

/-- Whether the record of a handle is FILLING or CLAIMED at the host. -/
def State.HostHolds (s : State) (h : Nat) : Prop :=
  ∃ r, s.record h = some r ∧ (r.host = .filling ∨ r.host = .claimed)

/-- The handles of the records that are FILLING or CLAIMED at the host. -/
def State.hostHandles (s : State) : List Nat :=
  (s.buf.records.filter fun e => e.2.host == .filling || e.2.host == .claimed).map Prod.fst

theorem State.heldCounted_iff (s : State) : s.HeldCounted ↔ s.hcu.held = s.hostHandles.length ∧ s.hcu.held ≤ 64 := by
  rw [State.HeldCounted, State.hostHandles, List.length_map]

theorem State.hostHolds_of_record {s : State} {h : Nat} {r : Record} (hr : s.record h = some r) :
    s.HostHolds h ↔ r.host = .filling ∨ r.host = .claimed := by
  simp [State.HostHolds, hr]

theorem State.not_hostHolds_of_none {s : State} {h : Nat} (none : s.record h = none) : ¬ s.HostHolds h := by
  simp [State.HostHolds, none]

section
variable {s t u : State}

theorem State.Sorted.mem_hostHandles (sorted : s.Sorted) (h : Nat) : h ∈ s.hostHandles ↔ s.HostHolds h := by
  simp only [State.hostHandles, State.HostHolds, List.mem_map, List.mem_filter, Bool.or_eq_true, beq_iff_eq]
  constructor
  · rintro ⟨e, ⟨mem, held⟩, rfl⟩
    exact ⟨e.2, (Sparse.mem_iff_lookup sorted e).1 mem, held⟩
  · rintro ⟨r, hr, held⟩
    exact ⟨(h, r), ⟨Sparse.mem_of_lookup hr, held⟩, rfl⟩

theorem State.Sorted.nodup_hostHandles (sorted : s.Sorted) : s.hostHandles.Nodup := by
  rw [State.Sorted, Sparse.sorted_iff_pairwise] at sorted
  exact List.pairwise_map.2 ((sorted.filter _).imp Nat.ne_of_lt)

/-- Where a list without repetition names the handles that the host holds, their number is its length. -/
theorem State.Sorted.length_hostHandles (sorted : s.Sorted) {hs : List Nat} (nodup : hs.Nodup) (mem : ∀ g, s.HostHolds g ↔ g ∈ hs) :
    s.hostHandles.length = hs.length :=
  ((List.perm_ext_iff_of_nodup sorted.nodup_hostHandles nodup).2 fun g => (sorted.mem_hostHandles g).trans (mem g)).length_eq

/-- The host takes one more record into its hands, below the limit (R130, R131). -/
theorem State.HeldCounted.added (hs : s.HeldCounted) (sorted : s.Sorted) (sorted' : t.Sorted) {h : Nat} (new : ¬ s.HostHolds h)
    (below : s.hcu.held < Config.maxHostHeld) (held : t.hcu.held = s.hcu.held + 1) (holds : ∀ g, t.HostHolds g ↔ g = h ∨ s.HostHolds g) :
    t.HeldCounted := by
  have length : t.hostHandles.length = (h :: s.hostHandles).length :=
    sorted'.length_hostHandles (List.nodup_cons.2 ⟨mt (sorted.mem_hostHandles h).1 new, sorted.nodup_hostHandles⟩) fun g => by
      rw [holds, List.mem_cons, sorted.mem_hostHandles]
  rw [State.heldCounted_iff] at *
  rw [held, length, List.length_cons, hs.1]
  exact ⟨rfl, hs.1 ▸ below⟩

/-- The host lets one record go. -/
theorem State.HeldCounted.removed (hs : s.HeldCounted) (sorted : s.Sorted) (sorted' : t.Sorted) {h : Nat} (old : s.HostHolds h)
    (held : t.hcu.held = s.hcu.held - 1) (holds : ∀ g, t.HostHolds g ↔ g ≠ h ∧ s.HostHolds g) : t.HeldCounted := by
  have length : t.hostHandles.length = (s.hostHandles.erase h).length :=
    sorted'.length_hostHandles (sorted.nodup_hostHandles.erase h) fun g => by
      rw [holds, sorted.nodup_hostHandles.mem_erase_iff, sorted.mem_hostHandles]
  rw [State.heldCounted_iff] at *
  rw [held, length, List.length_erase_of_mem ((sorted.mem_hostHandles h).2 old), hs.1]
  exact ⟨rfl, by omega⟩

/-! ## What leaves the host's records and their count -/

/-- The host holds the same records, and their count is the same. -/
structure State.SameHeld (s t : State) : Prop where
  held : t.hcu.held = s.hcu.held
  holds : ∀ g, t.HostHolds g ↔ s.HostHolds g

theorem State.SameHeld.trans (a : s.SameHeld t) (b : t.SameHeld u) : s.SameHeld u :=
  ⟨b.held.trans a.held, fun g => (b.holds g).trans (a.holds g)⟩

theorem State.SameHeld.heldCounted (same : s.SameHeld t) (sorted : s.Sorted) (sorted' : t.Sorted) (hs : s.HeldCounted) :
    t.HeldCounted := by
  have length : t.hostHandles.length = s.hostHandles.length :=
    sorted'.length_hostHandles sorted.nodup_hostHandles fun g => by rw [same.holds, sorted.mem_hostHandles]
  rw [State.heldCounted_iff] at *
  rwa [same.held, length]

theorem State.SameHeld.of_record (held : t.hcu.held = s.hcu.held) (record : ∀ g, t.record g = s.record g) : s.SameHeld t :=
  ⟨held, fun g => by rw [State.HostHolds, record]; rfl⟩

/-- One record changes, which the host holds neither before nor after. -/
theorem State.SameHeld.focus (held : t.hcu.held = s.hcu.held) (h : Nat) (others : ∀ g, g ≠ h → t.record g = s.record g)
    (before : ¬ s.HostHolds h) (after : ¬ t.HostHolds h) : s.SameHeld t :=
  ⟨held, fun g => by
    by_cases e : g = h
    · subst e; exact iff_of_false after before
    · rw [State.HostHolds, others g e]; rfl⟩

theorem State.SameHeld.of_core (core : t.core = s.core) : s.SameHeld t := by
  refine ⟨(congrArg (fun u : State => u.hcu.held) core :), fun g => ?_⟩
  have record : (t.record g).map Record.clean = (s.record g).map Record.clean := by rw [← t.record_core, core, s.record_core]
  have clean : ∀ u : State, u.HostHolds g ↔ ∃ r, (u.record g).map Record.clean = some r ∧ (r.host = .filling ∨ r.host = .claimed) :=
    fun u => by cases hu : u.record g <;> simp [State.HostHolds, hu, Record.clean]
  rw [clean, clean, record]

end

section
variable (s : State)

theorem State.modPort_sameHeld (l : LinkId) (f : LinkPort → LinkPort) : s.SameHeld (s.modPort l f) :=
  .of_record (by rw [State.modPort_hcu]) (s.record_modPort l f)

theorem State.modCredit_sameHeld (l : LinkId) (c : Cls) (f : CreditClass → CreditClass) : s.SameHeld (s.modCredit l c f) :=
  s.modPort_sameHeld l _

theorem State.modRx_sameHeld (l : LinkId) (f : Receiver → Receiver) : s.SameHeld (s.modRx l f) :=
  s.modPort_sameHeld l _

theorem State.modTx_sameHeld (l : LinkId) (f : Transmitter → Transmitter) : s.SameHeld (s.modTx l f) :=
  s.modPort_sameHeld l _

/-- A change of a record that keeps its host holder. -/
theorem State.modRecord_sameHeld (h : Nat) {f : Record → Record} (host : ∀ r, (f r).host = r.host) : s.SameHeld (s.modRecord h f) :=
  ⟨rfl, fun g => by
    rw [State.HostHolds, State.record_modRecord, State.HostHolds]
    split
    · cases s.record g <;> simp [host]
    · rfl⟩

/-- A record freed that the host does not hold. -/
theorem State.freeRecord_sameHeld {h : Nat} (free : ¬ s.HostHolds h) : s.SameHeld (s.freeRecord h) :=
  .focus (by rw [State.freeRecord_hcu]) h (fun g ne => by rw [State.record_freeRecord, if_neg ne.symm]) free
    (State.not_hostHolds_of_none (by rw [State.record_freeRecord, if_pos rfl]))

/-- A link's holder removed: a record that the host holds is not freed by it. -/
theorem State.removeLinkHolder_sameHeld (l : LinkId) (h : Nat) : s.SameHeld (s.removeLinkHolder l h) := by
  unfold State.removeLinkHolder State.removeHolder
  split
  · exact .of_record rfl fun _ => rfl
  · rename_i r hr
    split
    · rename_i last
      have none : r.host = .none := (r.setHolder_host l .none).symm.trans ((Record.refCount_eq_zero _).1 last).1
      exact s.freeRecord_sameHeld (by simp [State.hostHolds_of_record hr, none])
    · exact s.modRecord_sameHeld h fun r => r.setHolder_host l .none

theorem State.popHead_sameHeld (q : QueueId) : s.SameHeld (s.popHead q) :=
  .of_record (by rw [(s.popHead_rest q).2.2]) (s.record_popHead q)

theorem State.entryLeft_sameHeld (q : QueueId) (h : Nat) : s.SameHeld (s.entryLeft q h) :=
  .of_record (by rw [State.entryLeft_spec]; split <;> rfl) (s.record_entryLeft q h)

end

/-! ## The law, move by move -/

section
variable {s : State}

/-- The record of a receiver's frame is not in the host's hands. -/
theorem State.PlacesFit.not_hostHolds_frame (hs : s.PlacesFit) {l : LinkId} {f : RxFrame} (frame : (s.port l).rx.frame = some f) :
    ¬ s.HostHolds f.handle := by
  obtain ⟨r, hr, -, none, -⟩ := (hs.2 f.handle).arrival frame rfl
  simp [State.hostHolds_of_record hr, none]

/-- A handle in a host queue is QUEUED, so it is not in the host's hands. -/
theorem State.PlacesFit.not_hostHolds_head (hs : s.PlacesFit) {c : Cls} {h : Nat} {rest : List Nat}
    (head : (s.queue (.host c)).entries = h :: rest) : ¬ s.HostHolds h := by
  obtain ⟨r, hr, -, queued⟩ := (hs.2 h).host c (by rw [head]; exact List.mem_cons_self)
  simp [State.hostHolds_of_record hr, queued]

theorem State.PlacesFit.dropHead_sameHeld (hs : s.PlacesFit) {q : QueueId} {h : Nat} {rest : List Nat}
    (head : (s.queue q).entries = h :: rest) : s.SameHeld (s.dropHead q h) := by
  have popped := s.popHead_sameHeld q
  cases q with
  | host c =>
    refine State.SameHeld.trans (t := (s.popHead (.host c)).removeHostHolder h) (popped.trans ?_) (State.entryLeft_sameHeld _ _ h)
    refine .focus (by rw [State.removeHostHolder, State.removeHolder_hcu]) h
      (fun g ne => by rw [State.removeHostHolder, State.record_removeHolder, if_neg ne.symm])
      (mt (popped.holds h).1 (hs.not_hostHolds_head head)) ?_
    rintro ⟨r, hr, held⟩
    obtain ⟨x, -, rfl, -⟩ := State.removeHolder_some hr
    simp at held
  | tx l c =>
    exact (popped.trans (State.removeLinkHolder_sameHeld _ l h)).trans (State.entryLeft_sameHeld _ _ h)

/-- The parts of a delivery leave their record with the host QUEUED or not holding it. -/
theorem State.PlacesFit.enterParts_sameHeld (hs : s.PlacesFit) {l : LinkId} {f : RxFrame} (frame : (s.port l).rx.frame = some f)
    (m : LinkId) (c : Cls) (host fwd : Bool) : s.SameHeld (s.enterParts m c f.handle host fwd) := by
  obtain ⟨r, hr, -, none, -⟩ := (hs.2 f.handle).arrival frame rfl
  have unit : (s.enterParts m c f.handle host fwd).hcu = s.hcu := by cases host <;> cases fwd <;> rfl
  refine .focus (by rw [unit]) f.handle (fun g ne => (s.sameAt_enterParts m c host fwd ne).record) (hs.not_hostHolds_frame frame) ?_
  have after := s.record_enterParts m c f.handle host fwd
  rw [hr, Option.map_some] at after
  rw [State.hostHolds_of_record after]
  cases host <;> cases fwd <;> simp [Record.withHostQueued, Record.withLinkQueued, none]

end

/-- Every move from a state that meets the law of records and holders keeps the host-held count. -/
theorem Move.heldCounted {s t : State} (m : Move s t) (agree : s.HoldersAgree) (hs : s.HeldCounted) : t.HeldCounted := by
  obtain ⟨cells, places⟩ := s.holdersAgree_iff_placesFit.1 agree
  have sorted : s.Sorted := cells.2.2.2
  have sorted' : t.Sorted := m.sorted sorted
  have fresh : ∀ {n : Nat}, 0 < n → cellsFor n ≤ s.freeCount → s.record s.nextHandle = none := fun pos fits =>
    cells.nextHandle_free (Nat.lt_of_lt_of_le (cellsFor_pos pos) fits)
  have keep : s.SameHeld t → t.HeldCounted := fun same => same.heldCounted sorted sorted' hs
  have port : ∀ l f, s.SameHeld (s.modPort l f) := s.modPort_sameHeld
  cases m with
  | same core => exact keep (.of_core core)
  | hunt _ _ => exact keep (port _ _)
  | greet _ _ => exact keep (port _ _)
  | active _ => exact keep (port _ _)
  | quiet _ _ _ _ _ _ => exact keep (port _ _)
  | decideGrant _ => exact keep (s.modCredit_sameHeld _ _ _)
  | grantTaken _ => exact keep (s.modCredit_sameHeld _ _ _)
  | line _ _ _ => exact keep (port _ _)
  | @takeIn l header _ _ pos _ fits =>
    have allocated : s.SameHeld (s.allocate (cellsFor (headerLength header)) (arrivalRecord l (headerFields header))) :=
      .focus rfl s.nextHandle (fun g ne => by rw [State.record_allocate, if_neg ne.symm]) (State.not_hostHolds_of_none (fresh pos fits))
        (by rw [State.hostHolds_of_record ((State.record_allocate _ _ _ _).trans (if_pos rfl))]; simp [arrivalRecord])
    refine keep ?_
    rw [State.takeIn]
    exact (allocated.trans (State.modCredit_sameHeld _ _ _ _)).trans (State.modRx_sameHeld _ _ _)
  | giveBack frame =>
    have freed := s.freeRecord_sameHeld (places.not_hostHolds_frame frame)
    exact keep ((freed.trans (State.modCredit_sameHeld _ _ _ _)).trans (State.modRx_sameHeld _ _ _))
  | unframe frame =>
    exact keep ((s.freeRecord_sameHeld (places.not_hostHolds_frame frame)).trans (State.modPort_sameHeld _ _ _))
  | keepHeld _ _ _ => exact keep (port _ _)
  | accept frame _ _ _ => exact keep ((places.enterParts_sameHeld frame _ _ _ _).trans (State.modPort_sameHeld _ _ _))
  | dropHead head => exact keep (places.dropHead_sameHeld head)
  | @beginFirst l c h _ r _ _ _ hr =>
    refine keep ?_
    simp only [State.beginFirst, hr]
    exact (((s.popHead_sameHeld _).trans (State.modRecord_sameHeld _ h fun r => r.setHolder_host l _)).trans
      (State.entryLeft_sameHeld _ _ h)).trans (State.modTx_sameHeld _ _ _)
  | @firstEnd l f r _ _ hr =>
    refine keep ?_
    simp only [State.firstEnd, hr]
    exact ((((port l _).trans (State.modRecord_sameHeld _ f.handle fun r => r.setHolder_host l _)).trans
      (State.modPort_sameHeld _ _ _)).trans (State.modCredit_sameHeld _ _ _ _)).trans (.of_core (State.core_countLink _ _ _))
  | @firstGone l f _ _ => exact keep ((s.removeLinkHolder_sameHeld l f.handle).trans (State.modPort_sameHeld _ _ _))
  | @unlist l h _ _ => exact keep ((s.removeLinkHolder_sameHeld l h).trans (State.modPort_sameHeld _ _ _))
  | @alloc length c _ pos below fits =>
    have new := State.not_hostHolds_of_none (fresh pos (by omega))
    refine hs.added sorted sorted' new below rfl fun g => ?_
    have record : (s.allocTaken length c).record g = (s.allocate (cellsFor length) (hostRecord length c)).record g := rfl
    rw [State.HostHolds, record, State.record_allocate]
    by_cases e : s.nextHandle = g
    · subst e; simp [hostRecord]
    · rw [if_neg e]; exact (or_iff_right (Ne.symm e)).symm
  | @post h r d hops links hr filling _ _ _ =>
    have record : ∀ g, (s.postTaken h r.cls d hops links).record g = (s.modRecord h fun r => r.posted d s.nodeAddr hops links).record g :=
      fun g => by simp [State.postTaken, State.record, State.appendAll_buf]
    refine hs.removed sorted sorted' ((State.hostHolds_of_record hr).2 (.inl filling)) ?_ fun g => ?_
    · rw [State.postTaken, State.closePort_spec]; rfl
    · rw [State.HostHolds, record, State.record_modRecord]
      by_cases e : h = g
      · subst e; simp [hr, (r.posted_host d s.nodeAddr hops links).1]
      · rw [if_neg e]; exact (and_iff_right (Ne.symm e)).symm
  | @claim c h rest head below =>
    obtain ⟨r, hr, -⟩ := (places.2 h).host c (by rw [head]; exact List.mem_cons_self)
    have record : ∀ g, (s.claimTaken c h).record g = ((s.popHead (.host c)).modRecord h fun r => { r with host := .claimed }).record g :=
      fun g => by simp only [State.claimTaken, hr]; rfl
    refine hs.added sorted sorted' (places.not_hostHolds_head head) below (by simp only [State.claimTaken, hr]; rfl) fun g => ?_
    rw [State.HostHolds, record, State.record_modRecord, State.record_popHead]
    by_cases e : h = g
    · subst e; simp [hr]
    · rw [if_neg e]; exact (or_iff_right (Ne.symm e)).symm
  | @release h r held =>
    obtain ⟨-, hr, held⟩ := State.hostHeld_eq_some.1 held
    refine hs.removed sorted sorted' ((State.hostHolds_of_record hr).2 held) (by rw [State.releaseTaken_spec]; rfl) fun g => ?_
    have record : (s.releaseTaken h).record g = (s.removeHostHolder h).record g := by rw [State.releaseTaken_spec]; rfl
    by_cases e : h = g
    · subst e
      refine iff_of_false ?_ fun both => both.1 rfl
      rintro ⟨x, hx, out⟩
      obtain ⟨y, -, rfl, -⟩ := State.removeHolder_some (record ▸ hx)
      simp at out
    · rw [State.HostHolds, record, State.removeHostHolder, State.record_removeHolder, if_neg e]
      exact (and_iff_right (Ne.symm e)).symm
  | flush _ => exact keep (.of_record rfl fun _ => rfl)
  | resetInput => exact ⟨rfl, Nat.zero_le _⟩
  | init ready =>
    have zero : s.hcu.held = 0 := by rw [hs.1, (cells.2.1 ready).2.1]; rfl
    have parts : s.initTaken.hcu = s.hcu ∧ s.initTaken.buf.records = [] := by
      unfold State.initTaken State.passAtReady
      split <;> exact ⟨rfl, rfl⟩
    rw [State.HeldCounted, parts.1, parts.2, zero]
    exact ⟨rfl, Nat.zero_le _⟩
  | softReset => exact ⟨rfl, Nat.zero_le _⟩

/-- Settles O57: ALLOC and CLAIM add a record to those that the host holds, POST and RELEASE take one away, and no other move but a reset
changes them. -/
theorem heldCountKept : Obligations.HeldCountKept := by
  unfold Obligations.HeldCountKept
  intro s t agree counted e
  exact (step_keeps (P := fun s => s.HoldersAgree ∧ s.HeldCounted) (fun _ _ m h => ⟨m.holdersAgree h.1, m.heldCounted h.1 h.2⟩)
    (fun _ _ h => h) s t ⟨agree, counted⟩ e).2

end Sys2Proof.Machine
end

