-- ==== Sys2Proof/Proofs/QueryFields.lean ====
section
/-! SUPPORT. Numbers packed into the fields of a register and read back from them, and the fields of the results of QUERY (R138, R174). -/

namespace Sys2Proof.Machine

/-! ## Fields of a register -/

theorem testBit_field (v : Word) (hi lo i : Nat) : (field v hi lo).testBit i = (decide (i < hi + 1 - lo) && v.getLsbD (lo + i)) := by
  rw [field, Nat.testBit_mod_two_pow, BitVec.testBit_toNat, BitVec.getLsbD_ushiftRight]

theorem getLsbD_place (x : Nat) {hi lo : Nat} (top : hi < 32) (i : Nat) :
    (place x hi lo).getLsbD i = (decide (lo ≤ i ∧ i ≤ hi) && x.testBit (i - lo)) := by
  rw [place, BitVec.getLsbD_shiftLeft, BitVec.getLsbD_ofNat, Nat.testBit_mod_two_pow]
  by_cases inside : lo ≤ i ∧ i ≤ hi
  · have below : i < 32 ∧ i - lo < 32 ∧ i - lo < hi + 1 - lo ∧ ¬i < lo := by omega
    simp [inside, below]
  · have outside : i < lo ∨ ¬i - lo < hi + 1 - lo := by omega
    rcases outside with low | high
    · simp [inside, low]
    · simp [inside, high]

/-- A field of numbers packed together is made of the field of each. -/
theorem field_or (v w : Word) (hi lo : Nat) : field (v ||| w) hi lo = field v hi lo ||| field w hi lo := by
  apply Nat.eq_of_testBit_eq
  intro i
  simp only [Nat.testBit_or, testBit_field, BitVec.getLsbD_or, Bool.and_or_distrib_left]

/-- A number that fits its field stands, in a field that covers it, above the bits below its own. -/
theorem field_place_within {x hi lo hi' lo' : Nat} (top : hi < 32) (low : lo' ≤ lo) (high : hi ≤ hi') (fits : x < 2 ^ (hi + 1 - lo)) :
    field (place x hi lo) hi' lo' = x * 2 ^ (lo - lo') := by
  apply Nat.eq_of_testBit_eq
  intro i
  rw [testBit_field, getLsbD_place x top, Nat.testBit_mul_two_pow]
  by_cases inside : lo ≤ lo' + i ∧ lo' + i ≤ hi
  · have within : i < hi' + 1 - lo' ∧ lo - lo' ≤ i ∧ lo' + i - lo = i - (lo - lo') := by omega
    simp [inside, within]
  · by_cases above : lo - lo' ≤ i
    · have beyond : x < 2 ^ (i - (lo - lo')) := Nat.lt_of_lt_of_le fits (Nat.pow_le_pow_right (by decide) (by omega))
      simp [inside, Nat.testBit_lt_two_pow beyond]
    · simp [inside, above]

/-- A number that fits its field is read back from it. -/
theorem field_place {x hi lo : Nat} (top : hi < 32) (fits : x < 2 ^ (hi + 1 - lo)) : field (place x hi lo) hi lo = x := by
  rw [field_place_within top (Nat.le_refl lo) (Nat.le_refl hi) fits, Nat.sub_self, Nat.pow_zero, Nat.mul_one]

/-- A number placed in one field leaves every other field 0. -/
theorem field_place_apart (x : Nat) {hi lo hi' lo' : Nat} (top : hi < 32) (apart : hi < lo' ∨ hi' < lo) :
    field (place x hi lo) hi' lo' = 0 := by
  apply Nat.eq_of_testBit_eq
  intro i
  rw [testBit_field, getLsbD_place x top, Nat.zero_testBit]
  by_cases inside : i < hi' + 1 - lo'
  · have outside : ¬(lo ≤ lo' + i ∧ lo' + i ≤ hi) := by omega
    simp [outside]
  · simp [inside]

theorem placeBit_eq_place (b : Bool) (i : Nat) : placeBit b i = place b.toNat i i := by
  cases b
  · simp [placeBit, place]
  · rfl

/-! ## The results of QUERY -/

theorem Phase.code_lt (p : Phase) : p.code < 2 := by
  cases p with
  | filling f => exact Nat.zero_lt_two
  | live => exact Nat.one_lt_two

theorem Party.code_lt (p : Party) : p.code < 4 := by
  rcases p with _ | _ | _ <;> decide

theorem Phase.fillerCode_lt (p : Phase) : p.fillerCode < 4 := by
  cases p with
  | filling f => exact f.code_lt
  | live => decide

theorem Cls.code_lt (c : Cls) : Cls.code c < 4 := by
  cases c <;> decide

theorem HostHolder.code_lt (h : HostHolder) : h.code < 4 := by
  cases h <;> decide

theorem LinkHolder.code_lt (h : LinkHolder) : h.code < 4 := by
  unfold LinkHolder.code
  split <;> decide

/-- A byte with its presence just above it, as one number. -/
theorem byte_or_presence (q : Option Byte) :
    (q.getD 0).toNat ||| q.isSome.toNat * 2 ^ 8 = (match q with | some d => 256 + d.toNat | none => 0) := by
  cases q with
  | none => rfl
  | some d =>
    have split := Nat.two_pow_add_eq_or_of_lt d.isLt 1
    rw [Nat.or_comm]
    simpa using split.symm

section
variable (r : Record)

/-- RES0 of QUERY: length, cells, state, filler, origin and class. -/
theorem queryResults_r0 (length : r.length ≤ 1024) (cells : r.cells.length ≤ 16) :
    field (queryResults r).r0 10 0 = r.length ∧ field (queryResults r).r0 20 16 = r.cells.length ∧
      field (queryResults r).r0 24 24 = r.phase.code ∧ field (queryResults r).r0 27 26 = r.phase.fillerCode ∧
      field (queryResults r).r0 29 28 = r.origin.code ∧ field (queryResults r).r0 31 30 = Cls.code r.cls := by
  have phase := r.phase.code_lt
  have filler := r.phase.fillerCode_lt
  have origin := r.origin.code_lt
  have cls := Cls.code_lt r.cls
  simp (disch := omega) [queryResults, field_or, field_place, field_place_apart]

/-- RES1 of QUERY: the addresses, each with its presence, and the hops. -/
theorem queryResults_r1 :
    field (queryResults r).r1 8 0 = (match r.destination with | some d => 256 + d.toNat | none => 0) ∧
      field (queryResults r).r1 24 16 = (match r.source with | some d => 256 + d.toNat | none => 0) ∧
      field (queryResults r).r1 31 28 = r.hops.toNat := by
  have destination := (r.destination.getD 0).isLt
  have destination' := r.destination.isSome.toNat_lt
  have source := (r.source.getD 0).isLt
  have source' := r.source.isSome.toNat_lt
  have hops := r.hops.isLt
  rw [← byte_or_presence, ← byte_or_presence]
  simp (disch := omega) [queryResults, seqField, placeBit_eq_place, field_or, field_place_within, field_place_apart]

/-- RES2 of QUERY: the holders, the poisoned mark, and the seq of each link's side with its presence. -/
theorem queryResults_r2 :
    field (queryResults r).r2 1 0 = r.host.code ∧ field (queryResults r).r2 3 2 = r.linkA.code ∧
      field (queryResults r).r2 5 4 = r.linkB.code ∧ field (queryResults r).r2 6 6 = r.poisoned.toNat ∧
      field (queryResults r).r2 15 8 = (r.linkA.seq.getD 0).toNat ∧ field (queryResults r).r2 31 24 = (r.linkB.seq.getD 0).toNat ∧
      field (queryResults r).r2 16 16 = r.linkA.seq.isSome.toNat ∧ field (queryResults r).r2 17 17 = r.linkB.seq.isSome.toNat := by
  have host := r.host.code_lt
  have a := r.linkA.code_lt
  have b := r.linkB.code_lt
  have poisoned := r.poisoned.toNat_lt
  have seqA := (r.linkA.seq.getD 0).isLt
  have seqA' := r.linkA.seq.isSome.toNat_lt
  have seqB := (r.linkB.seq.getD 0).isLt
  have seqB' := r.linkB.seq.isSome.toNat_lt
  simp (disch := omega) [queryResults, seqField, placeBit_eq_place, field_or, field_place, field_place_apart]

end

/-- A register of three cells of a chain. -/
theorem field_threeCells {cells : List Nat} (range : ∀ x ∈ cells, x < 1024) (i : Nat) :
    field (threeCells cells i) 9 0 = cells.getD i 0 ∧ field (threeCells cells i) 19 10 = cells.getD (i + 1) 0 ∧
      field (threeCells cells i) 29 20 = cells.getD (i + 2) 0 := by
  have fits : ∀ j, cells.getD j 0 < 1024 := fun j => by
    rw [List.getD_eq_getElem?_getD]
    cases e : cells[j]? with
    | none => exact Nat.zero_lt_succ _
    | some x => exact range x (List.mem_of_getElem? e)
  have a := fits i
  have b := fits (i + 1)
  have c := fits (i + 2)
  simp (disch := omega) only [threeCells, field_or, field_place, field_place_apart, Nat.zero_or, Nat.or_zero, and_self]

/-- The tests of QUERY. -/
theorem State.queryBody_eq (s : State) :
    (1024 ≤ s.hcu.arg0.toNat ∨ s.record s.hcu.arg0.toNat = none → s.queryBody = s.answer .badHandle) ∧
      ∀ r, s.hcu.arg0.toNat < 1024 → s.record s.hcu.arg0.toNat = some r → s.queryBody = s.answer .ok (queryResults r) := by
  refine ⟨fun free => ?_, fun r low hr => ?_⟩
  · have none : s.namedRecord s.hcu.arg0.toNat = .none := Option.eq_none_iff_forall_ne_some.2 fun r named => by
      obtain ⟨low, hr⟩ := State.namedRecord_some named
      rcases free with high | free
      · exact Nat.not_lt.2 high low
      · rw [free] at hr; cases hr
    rw [State.queryBody, none]
  · have named : s.namedRecord s.hcu.arg0.toNat = some r := (if_pos low).trans hr
    rw [State.queryBody, named]

/-- Settles O12: the results, register by register, each field read back from its packing. -/
theorem queryResult : Obligations.QueryResult := by
  unfold Obligations.QueryResult
  intro s idle
  let u : State := { s with hcu := { s.hcu with cmd := 6 } }
  have run : exec .query s = .next u.queryBody := by
    show Host.Outcome.next (s.takeCommand 6 State.queryBody) = _
    rw [idle.takeCommand]
  obtain ⟨refused, taken⟩ := u.queryBody_eq
  refine ⟨fun free => by rw [run, refused free]; rfl, fun r low hr length cells => ?_⟩
  obtain ⟨len, count, phase, filler, origin, cls⟩ := queryResults_r0 r length cells
  obtain ⟨destination, source, hops⟩ := queryResults_r1 r
  obtain ⟨host, a, b, poisoned, seqA, seqB, seqA', seqB'⟩ := queryResults_r2 r
  refine ⟨queryResults r, by rw [run, taken r low hr]; rfl, len, count, ?_, ?_, ?_, ?_, destination, source, hops, ?_, ?_, ?_, ?_, ?_, ?_,
    ?_, ?_, fun range => ?_⟩
  · rw [phase]; cases r.phase <;> rfl
  · rw [filler]; rcases r.phase with (_ | _ | _) | _ <;> rfl
  · rw [origin]; rcases r.origin with _ | _ | _ <;> rfl
  · rw [cls]; cases r.cls <;> rfl
  · rw [host]; cases r.host <;> rfl
  · rw [a]; cases r.linkA <;> rfl
  · rw [b]; cases r.linkB <;> rfl
  · rw [poisoned]; cases r.poisoned <;> rfl
  · rw [seqA]; cases r.linkA <;> rfl
  · rw [seqB]; cases r.linkB <;> rfl
  · rw [seqA']; cases r.linkA <;> rfl
  · rw [seqB']; cases r.linkB <;> rfl
  · obtain ⟨c1, c2, c3⟩ := field_threeCells range 1
    obtain ⟨c4, c5, c6⟩ := field_threeCells range 4
    obtain ⟨c7, c8, c9⟩ := field_threeCells range 7
    obtain ⟨c10, c11, c12⟩ := field_threeCells range 10
    obtain ⟨c13, c14, c15⟩ := field_threeCells range 13
    exact ⟨c1, c2, c3, c4, c5, c6, c7, c8, c9, c10, c11, c12, c13, c14, c15⟩

end Sys2Proof.Machine
end

