-- ==== Sys2Proof/Proofs/UnitCommands.lean ====
section
/-! SUPPORT. OPEN, the commands of the Delivery Table and of the error report table, and SCRUB_START, test by test (sections 7.3.2 and
7.4). -/

namespace Sys2Proof.Machine

/-! ## OPEN -/

theorem portModeOfCode_eq_none {v : Word} : portModeOfCode v.toNat = none ↔ v ≠ 1 ∧ v ≠ 2 := by
  simp only [ne_eq, ← BitVec.toNat_inj (x := v)]
  unfold portModeOfCode
  split
  · simp_all
  · simp_all
  · rename_i one two; exact iff_of_true rfl ⟨one, two⟩

theorem portModeOfCode_eq_some {v : Word} (h : v = 1 ∨ v = 2) : portModeOfCode v.toNat = some (if v = 1 then .read else .write) := by
  rcases h with rfl | rfl <;> rfl

section
variable {s : State}

/-- OPEN is refused for its mode or its offset. -/
theorem State.openBody_badArg (bad : portModeOfCode s.hcu.arg2.toNat = none ∨ s.hcu.arg1.toNat % 4 ≠ 0) : s.openBody = s.answer .badArg := by
  unfold State.openBody
  dsimp only
  split
  · rfl
  · rename_i named
    rw [if_pos (bad.resolve_left (by rw [named]; nofun))]

variable {m : PortMode} {r : Record} (mode : portModeOfCode s.hcu.arg2.toNat = some m) (aligned : s.hcu.arg1.toNat % 4 = 0)
include mode aligned

/-- OPEN is refused for a handle that the host does not hold. -/
theorem State.openBody_badHandle (free : s.hostHeld s.hcu.arg0.toNat = none) : s.openBody = s.answer .badHandle := by
  unfold State.openBody
  dsimp only
  rw [mode]
  dsimp only
  rw [if_neg (not_not.2 aligned), free]

/-- The tests of OPEN on the record that it names. -/
theorem State.openBody_eq (named : s.hostHeld s.hcu.arg0.toNat = some r) :
    s.openBody =
      if m = .write ∧ r.host = .claimed then s.answer .wrongState
      else if r.length ≤ s.hcu.arg1.toNat then s.answer .badArg
      else
        State.answer
          { s with hcu := { s.hcu with port := some { handle := s.hcu.arg0.toNat, offset := s.hcu.arg1.toNat, mode := m } } }
          .ok { r0 := wordOfNat r.length } := by
  unfold State.openBody
  dsimp only
  rw [mode]
  dsimp only
  rw [if_neg (not_not.2 aligned), named]

end

/-- Settles O8: the body of OPEN, test by test. -/
theorem openResult : Obligations.OpenResult := by
  unfold Obligations.OpenResult
  intro s idle
  let u : State := { s with hcu := { s.hcu with cmd := 2 } }
  have run : exec .openPort s = .next u.openBody := by
    show Host.Outcome.next (s.takeCommand 2 State.openBody) = _
    rw [idle.takeCommand]
  refine ⟨fun bad => ?_, fun mode aligned free => ?_, fun r mode aligned low hr held => ?_⟩
  · rw [run, State.openBody_badArg (s := u) (bad.imp_left portModeOfCode_eq_none.2)]; rfl
  · have none : u.hostHeld s.hcu.arg0.toNat = .none := Option.eq_none_iff_forall_ne_some.2 fun r hr => by
      obtain ⟨low, hr, held⟩ := State.hostHeld_eq_some.1 hr
      exact free ⟨low, r, hr, held⟩
    rw [run, State.openBody_badHandle (s := u) (portModeOfCode_eq_some mode) aligned none]
    rfl
  · have named : u.hostHeld u.hcu.arg0.toNat = some r := State.hostHeld_eq_some.2 ⟨low, hr, held⟩
    have write : (if s.hcu.arg2 = 1 then PortMode.read else .write) = .write ↔ s.hcu.arg2 = 2 := by
      rcases mode with e | e <;> rw [e] <;> decide
    rw [run, State.openBody_eq (s := u) (portModeOfCode_eq_some mode) aligned named]
    refine ⟨fun two claimed => ?_, fun ok beyond => ?_, fun ok below => ?_⟩
    · rw [if_pos ⟨write.2 two, claimed⟩]; rfl
    · rw [if_neg (mt (And.imp_left write.1) ok), if_pos beyond]; rfl
    · rw [if_neg (mt (And.imp_left write.1) ok), if_neg (Nat.not_le.2 below)]; rfl

/-! ## The Delivery Table -/

theorem actionOfCode_eq_none {v : Word} : actionOfCode v.toNat = none ↔ v ≠ 1 ∧ v ≠ 2 ∧ v ≠ 3 ∧ v ≠ 4 := by
  simp only [ne_eq, ← BitVec.toNat_inj (x := v)]
  unfold actionOfCode
  split
  · simp_all
  · simp_all
  · simp_all
  · simp_all
  · rename_i one two three four; exact iff_of_true rfl ⟨one, two, three, four⟩

theorem actionOfCode_code (a : Action) : actionOfCode (wordOfNat a.code).toNat = some a := by
  cases a <;> rfl

section
variable {s : State}

theorem State.tableSetBody_badArg
    (bad : 16 ≤ s.hcu.arg0.toNat ∨ 256 ≤ s.hcu.arg2.toNat ∨ actionOfCode s.hcu.arg3.toNat = none) :
    s.tableSetBody = s.answer .badArg := by
  unfold State.tableSetBody
  split
  · rfl
  · rename_i named
    refine if_pos ?_
    rcases bad with index | address | none
    · exact .inl index
    · exact .inr address
    · rw [named] at none; cases none

theorem State.tableSetBody_eq {a : Action} (action : actionOfCode s.hcu.arg3.toNat = some a) (index : s.hcu.arg0.toNat < 16)
    (address : s.hcu.arg2.toNat < 256) :
    s.tableSetBody =
      State.answer
        { s with
          table := s.table.set s.hcu.arg0.toNat { valid := s.hcu.arg1.getLsbD 0, address := s.hcu.arg2.setWidth 8, action := a } }
        .ok := by
  have ok : ¬(Config.tableSize ≤ s.hcu.arg0.toNat ∨ 255 < s.hcu.arg2.toNat) := by
    unfold Config.tableSize
    omega
  unfold State.tableSetBody
  rw [action]
  exact if_neg ok

theorem State.tableGetBody_badArg (index : 16 ≤ s.hcu.arg0.toNat) : s.tableGetBody = s.answer .badArg :=
  if_pos index

theorem State.tableGetBody_eq {e : DeliveryEntry} (index : s.hcu.arg0.toNat < 16) (entry : s.table[s.hcu.arg0.toNat]? = some e) :
    s.tableGetBody = s.answer .ok { r0 := placeBit e.valid 0, r1 := wordOfByte e.address, r2 := wordOfNat e.action.code } := by
  have found : s.table.getD s.hcu.arg0.toNat .reset = e := by rw [List.getD_eq_getElem?_getD, entry]; rfl
  unfold State.tableGetBody
  rw [found]
  exact if_neg (Nat.not_le.2 index)

end

/-! ## Codes and optional numbers in a result register -/

theorem wordOfNat_actionCode (a : Action) :
    wordOfNat a.code = (match a with | .host => 1 | .forward => 2 | .hostAndForward => 3 | .discard => 4) := by
  cases a <;> rfl

theorem wordOfNat_kindCode (k : ReportKind) : wordOfNat k.code = (match k with | .corrected => 1 | .uncorrectable => 2) := by
  cases k <;> rfl

theorem wordOfNat_readerCode (r : Reader) :
    wordOfNat r.code = (match r with | .tx .a => 1 | .tx .b => 2 | .host => 3 | .scrub => 4) := by
  rcases r with (_ | _) | _ | _ <;> rfl

/-- An optional number with its presence at bit 16. -/
theorem place_or_presence (x : Option Nat) (hi : Nat) :
    place (x.getD 0) hi 0 ||| placeBit x.isSome 16 = (match x with | some n => place n hi 0 ||| 0x10000 | none => 0) := by
  cases x with
  | none => simp [place, placeBit]
  | some n => rfl

/-- The results of REPORT_TAKE, as Table 10-3 gives their codes. -/
theorem reportResults_eq (e : ReportEntry) (left : Nat) :
    reportResults e left =
      { r0 := wordOfNat e.cell, r1 := wordOfNat e.word
        r2 := (match e.kind with | .corrected => 1 | .uncorrectable => 2)
        r3 := (match e.reader with | .tx .a => 1 | .tx .b => 2 | .host => 3 | .scrub => 4)
        r4 := (match e.handle with | some h => place h 9 0 ||| 0x10000 | none => 0)
        r5 := (match e.bit with | some b => place b 6 0 ||| 0x10000 | none => 0)
        r6 := wordOfNat e.occurrences, r7 := wordOfNat left } := by
  rw [reportResults, place_or_presence, place_or_presence, wordOfNat_kindCode, wordOfNat_readerCode]

/-- Settles O15: the four bodies, test by test. -/
theorem tableReportScrubCommands : Obligations.TableReportScrubCommands := by
  unfold Obligations.TableReportScrubCommands
  refine ⟨fun s idle => ?_, fun s idle => ?_, fun s idle => ?_⟩
  · let u : State := { s with hcu := { s.hcu with cmd := 10 } }
    let v : State := { s with hcu := { s.hcu with cmd := 11 } }
    have set : exec .tableSet s = .next u.tableSetBody := by
      show Host.Outcome.next (s.takeCommand 10 State.tableSetBody) = _
      rw [idle.takeCommand]
    have get : exec .tableGet s = .next v.tableGetBody := by
      show Host.Outcome.next (s.takeCommand 11 State.tableGetBody) = _
      rw [idle.takeCommand]
    refine ⟨fun bad => ?_, fun a index address action => ?_, fun index => ?_, fun e index entry => ?_⟩
    · rw [set, State.tableSetBody_badArg (s := u) (bad.imp_right fun h => h.imp_right actionOfCode_eq_none.2)]; rfl
    · have named : actionOfCode u.hcu.arg3.toNat = some a := by
        show actionOfCode s.hcu.arg3.toNat = _
        rw [action, actionOfCode_code]
      rw [set, State.tableSetBody_eq (s := u) named index address]; rfl
    · rw [get, State.tableGetBody_badArg (s := v) index]; rfl
    · rw [get, State.tableGetBody_eq (s := v) index entry, wordOfNat_actionCode]; rfl
  · let u : State := { s with hcu := { s.hcu with cmd := 12 } }
    have run : exec .reportTake s = .next u.reportTakeBody := by
      show Host.Outcome.next (s.takeCommand 12 State.reportTakeBody) = _
      rw [idle.takeCommand]
    refine ⟨fun empty => ?_, fun e rest oldest => ?_⟩
    · rw [run, State.reportTakeBody, show u.reports = [] from empty]; rfl
    · rw [run, State.reportTakeBody, show u.reports = e :: rest from oldest]
      dsimp only
      rw [reportResults_eq]
      rfl
  · let u : State := { s with hcu := { s.hcu with cmd := 13 } }
    have run : exec .scrubStart s = .next u.scrubStartBody := by
      show Host.Outcome.next (s.takeCommand 13 State.scrubStartBody) = _
      rw [idle.takeCommand]
    refine ⟨fun running => ?_, fun stopped => ?_⟩
    · rw [run, State.scrubStartBody, if_pos (show u.scrub.running = true from running)]; rfl
    · rw [run, State.scrubStartBody, if_neg (show ¬u.scrub.running = true by rw [show u.scrub.running = false from stopped]; nofun)]; rfl

end Sys2Proof.Machine
end

