-- ==== Sys2Proof/Proofs/DataPort.lean ====
section
/-! SUPPORT. The judgement of a word read, and the accesses of PORT_DATA (sections 7.5, 8.1 and 10.3). -/

namespace Sys2Proof.Machine

/-! ## Bytes joined into a number -/

/-- A bit of a number joined from bytes is the bit of the byte it lies in. -/
theorem getLsbD_joinBytes {w : Nat} (f : Nat → Byte) (js : List Nat) {i : Nat} (hi : i < w) :
    (js.foldr (fun j acc => acc ||| ((f j).setWidth w <<< (8 * j))) 0).getLsbD i = (decide (i / 8 ∈ js) && (f (i / 8)).getLsbD (i % 8)) := by
  induction js with
  | nil => simp
  | cons j js ih =>
    have lane : ((f j).setWidth w <<< (8 * j)).getLsbD i = (decide (i / 8 = j) && (f (i / 8)).getLsbD (i % 8)) := by
      rw [BitVec.getLsbD_shiftLeft, BitVec.getLsbD_setWidth]
      rcases Nat.lt_trichotomy (i / 8) j with below | rfl | above
      · have outside : i < 8 * j := by omega
        simp [outside, Nat.ne_of_lt below]
      · have place : i - 8 * (i / 8) = i % 8 := by omega
        have inside : ¬i < 8 * (i / 8) ∧ i % 8 < w := by omega
        simp [hi, place, inside]
      · have outside : (f j).getLsbD (i - 8 * j) = false := BitVec.getLsbD_of_ge _ _ (by omega)
        simp [outside, Nat.ne_of_gt above]
    rw [List.foldr_cons, BitVec.getLsbD_or, ih, lane, ← Bool.and_or_distrib_right]
    simp [List.mem_cons, Bool.or_comm, Bool.decide_or]

/-- A byte of a number joined from bytes. -/
theorem byteOf_joinBytes {w : Nat} (f : Nat → Byte) {js : List Nat} {j : Nat} (mem : j ∈ js) (room : 8 * j + 8 ≤ w) :
    byteOf (js.foldr (fun j acc => acc ||| ((f j).setWidth w <<< (8 * j))) 0) j = f j := by
  apply BitVec.eq_of_getLsbD_eq
  intro i hi
  have div : (8 * j + i) / 8 = j := by omega
  have mod : (8 * j + i) % 8 = i := by omega
  rw [byteOf, BitVec.getLsbD_extractLsb', getLsbD_joinBytes f js (by omega), div, mod]
  simp [hi, mem]

/-- A byte of a word as stored is the byte of the memory (R1). -/
theorem State.byteOf_storedData (s : State) (p : Nat) {i : Nat} (hi : i < 8) : byteOf (s.storedData p) i = s.byteAt (8 * p + i) :=
  byteOf_joinBytes (fun j => Memory.readByte s.buf.mem (8 * p + j)) (List.mem_range.2 hi) (by omega)

/-- A lane of a read: the byte of the word, 0 at or beyond the length (R145). -/
theorem byteOf_portLanes (w : CellWord) (offset length : Nat) {j : Nat} (hj : j < 4) :
    byteOf (portLanes w offset length) j = if offset + j < length then byteOf w (offset % 8 + j) else 0 :=
  byteOf_joinBytes (fun j => if offset + j < length then byteOf w (offset % 8 + j) else 0) (List.mem_range.2 hj) (by omega)

/-- A byte of a merge: the byte written where it lies within the access and below the length, the old byte elsewhere (R146). -/
theorem byteOf_mergeWord (w : CellWord) (offset length : Nat) (v : Word) {i : Nat} (hi : i < 8) :
    byteOf (mergeWord w offset length v) i =
      if offset % 8 ≤ i ∧ i < offset % 8 + 4 ∧ offset - offset % 8 + i < length then byteOf v (i - offset % 8) else byteOf w i := by
  rw [mergeWord, byteOf_wordOfBytes _ _ hi, List.getD_eq_getElem?_getD, List.getElem?_map, List.getElem?_range hi]
  rfl

/-! ## The judgement of a word -/

section
variable (s : State) (p : Nat)

/-- The judgement of a word reads the buffer alone. -/
theorem State.judge_of_buf {s t : State} {p : Nat} (same : t.buf = s.buf) : t.judge p = s.judge p := by
  unfold State.judge State.storedCheck State.storedData State.wrongBits
  rw [same]

theorem State.judge_of_none (none : s.wrongBits p = []) : s.judge p = .good := by
  rw [State.judge, none]

theorem State.judge_of_one {b : Nat} (one : s.wrongBits p = [b]) : s.judge p = .corrected b := by
  rw [State.judge, one]

theorem State.judge_of_two {b c : Nat} (two : s.wrongBits p = [b, c]) : s.judge p = .uncorrectable := by
  rw [State.judge, two]

/-- A free verdict is one of the three outcomes, or one of the 72 positions. -/
theorem verdictOfFree_cases (n : Nat) :
    verdictOfFree n = .good ∨ verdictOfFree n = .uncorrectable ∨ ∃ b, b < 72 ∧ verdictOfFree n = .corrected b := by
  unfold verdictOfFree
  split
  · rename_i low; exact .inr (.inr ⟨_, low, rfl⟩)
  · split
    · exact .inl rfl
    · exact .inr (.inl rfl)

theorem State.judge_of_many (many : 3 ≤ (s.wrongBits p).length) :
    s.judge p = .good ∨ s.judge p = .uncorrectable ∨ ∃ b, b < 72 ∧ s.judge p = .corrected b := by
  unfold State.judge
  split
  · rename_i e; rw [e] at many; exact absurd many (by decide)
  · rename_i e; rw [e] at many; exact absurd many (by simp)
  · rename_i e; rw [e] at many; exact absurd many (by simp)
  · exact verdictOfFree_cases _

/-- A word not corrected is delivered as stored. -/
theorem State.delivered_stored (judged : s.judge p = .good ∨ s.judge p = .uncorrectable) : s.delivered p = s.storedData p := by
  rw [State.delivered_spec]
  rcases judged with e | e <;> rw [e]

theorem State.delivered_corrected {b : Nat} (judged : s.judge p = .corrected b) : s.delivered p = flipBit (s.storedData p) b := by
  rw [State.delivered_spec, judged]

end

/-- A check bit put right leaves the data as it is. -/
theorem flipBit_check (w : CellWord) {b : Nat} (check : 64 ≤ b) : flipBit w b = w :=
  if_neg (Nat.not_lt.2 check)

/-! ## What the Integrity Unit does at a read of the host -/

/-- A report sets none of the flags but those of the Integrity Unit (R162, R164). -/
theorem State.flag_portError_makeReport (s : State) (e : ReportEntry) : (s.makeReport e).flag .portError = s.flag .portError := by
  have raise : ∀ (t : State) (x : Event), x.bit ≠ 12 → (t.raise x).flag .portError = t.flag .portError := fun t x ne =>
    t.flag_raise_of_ne (e := x) (f := .portError) (Ne.symm ne)
  have count : ∀ (t : State) (n : PartCounter), n.isDrop = false → (t.countPart n).flag .portError = t.flag .portError := fun t n keep => by
    rw [State.countPart, if_neg (by rw [keep]; nofun)]; rfl
  have lose : ∀ t : State, t.loseReport.flag .portError = t.flag .portError := fun t => by
    rw [State.loseReport, raise _ _ (by decide), count _ _ rfl]
  have table : (s.tableReport e).flag .portError = s.flag .portError := by
    unfold State.tableReport
    split
    · rfl
    · split
      · rfl
      · split
        · exact lose _
        · exact lose s
  unfold State.makeReport
  split
  · rw [raise _ _ (by decide), count _ _ rfl, table]
  · rw [raise _ _ (by decide), count _ _ rfl, table]

theorem State.flag_portError_noteRead (s : State) (k : Reader) (p : Nat) : (s.noteRead k p).flag .portError = s.flag .portError := by
  cases judged : s.judge p with
  | good => rw [s.noteRead_good k p judged]
  | corrected b => rw [State.noteRead_corrected k judged, State.flag_portError_makeReport]
  | uncorrectable =>
    rw [State.noteRead_uncorrectable k judged, State.flag_portError_makeReport, State.flag, (s.poisonOwner_spec p).2.1]
    rfl

/-- What a read does to the table, by its outcome (R152). -/
theorem State.reports_noteRead (s : State) (k : Reader) (p : Nat) :
    (s.judge p = .good → (s.noteRead k p).reports = s.reports) ∧
    (∀ b, s.judge p = .corrected b → (s.noteRead k p).reports =
      (s.makeReport (reportOf p .corrected k ((s.ownerOf (p / Config.cellWords)).map Prod.fst) (some b))).reports) ∧
    (s.judge p = .uncorrectable → (s.noteRead k p).reports =
      (s.makeReport (reportOf p .uncorrectable k ((s.ownerOf (p / Config.cellWords)).map Prod.fst) none)).reports) :=
  ⟨fun good => by rw [s.noteRead_good k p good], fun b corrected => by rw [State.noteRead_corrected k corrected],
    fun uncorrectable => by
      rw [State.noteRead_uncorrectable k uncorrectable, State.makeReport_reports (s.poisonOwner_spec p).1]⟩

/-- A corrected word is counted, and its event is set (R162). -/
theorem State.counted_noteRead_corrected {s : State} {p b : Nat} (k : Reader) (judged : s.judge p = .corrected b) :
    (s.noteRead k p).ev.counters.eccCorrectedTotal = s.ev.counters.eccCorrectedTotal + 1 ∧ (s.noteRead k p).flag .eccCorrected = true := by
  rw [State.noteRead_corrected k judged]
  exact s.makeReport_corrected rfl

/-- An uncorrectable word is counted, its event is set, and its owner is poisoned (R153, R162). -/
theorem State.counted_noteRead_uncorrectable {s : State} {p : Nat} (k : Reader) (judged : s.judge p = .uncorrectable) :
    (s.noteRead k p).ev.counters.eccUncorrectableTotal = s.ev.counters.eccUncorrectableTotal + 1 ∧
      (s.noteRead k p).flag .eccUncorrectable = true ∧
      ∀ h o, s.ownerOf (p / Config.cellWords) = some (h, o) → (s.noteRead k p).isPoisoned h = true := by
  obtain ⟨-, ev, poisoned⟩ := s.poisonOwner_spec p
  rw [State.noteRead_uncorrectable k judged, ← ev]
  obtain ⟨counter, flag⟩ := (s.poisonOwner p).makeReport_uncorrectable
    (e := reportOf p .uncorrectable k ((s.ownerOf (p / Config.cellWords)).map Prod.fst) none) rfl
  refine ⟨counter, flag, fun h o owner => ?_⟩
  rw [State.isPoisoned, State.record, State.makeReport_buf]
  exact poisoned h o owner

/-! ## Accesses that move bytes -/

/-- The open port 4 bytes further on. -/
def DataPort.next (p : DataPort) : DataPort :=
  { p with offset := p.offset + 4 }

section
variable {s : State} {p : DataPort} {r : Record}

theorem State.portReady_some (port : s.hcu.port = some p) (hr : s.record p.handle = some r) (below : p.offset < r.length) :
    s.portReady = some (p, r) := by
  unfold State.portReady
  rw [port]
  dsimp only
  rw [hr]
  exact if_pos below

theorem State.stepPort_eq {t : State} (port : t.hcu.port = some p) : t.stepPort = { t with hcu := { t.hcu with port := some p.next } } := by
  rw [State.stepPort, port]; rfl

theorem exec_portDataRead (port : s.hcu.port = some p) (hr : s.record p.handle = some r) (below : p.offset < r.length) :
    exec .portDataRead s = .next (s.portMoveOut p r) := by
  show Host.Outcome.next s.portRead = _
  rw [State.portRead, State.portReady_some port hr below]

theorem exec_portDataWrite (port : s.hcu.port = some p) (mode : p.mode = .write) (hr : s.record p.handle = some r)
    (below : p.offset < r.length) (v : Word) : exec (.portDataWrite v) s = .next (s.portMoveIn p r v) := by
  show Host.Outcome.next (s.portWrite v) = _
  rw [State.portWrite, State.portReady_some port hr below]
  exact congrArg Host.Outcome.next (if_pos mode)

/-- The state with PORT_ERROR set, as an access that is ignored leaves it (R147). -/
def State.portFailed (s : State) : State :=
  { s with ev := { s.ev with flags := s.ev.flags ||| 0x1000#14 } }

/-- An access of a port that is not open on a record with its offset below the length is ignored. -/
theorem exec_portData_unready (unready : s.portReady = none) (v : Word) :
    exec .portDataRead s = .next { s.portFailed with hcu := { s.hcu with busData := 0 } } ∧
      exec (.portDataWrite v) s = .next s.portFailed := by
  refine ⟨?_, ?_⟩
  · show Host.Outcome.next s.portRead = _
    rw [State.portRead, unready]
    rfl
  · show Host.Outcome.next (s.portWrite v) = _
    rw [State.portWrite, unready]
    rfl

theorem State.portReady_closed (closed : s.hcu.port = none) : s.portReady = none := by
  rw [State.portReady, closed]

theorem State.portReady_beyond (port : s.hcu.port = some p) (hr : s.record p.handle = some r) (beyond : r.length ≤ p.offset) :
    s.portReady = none := by
  unfold State.portReady
  rw [port]
  dsimp only
  rw [hr]
  exact if_neg (Nat.not_lt.2 beyond)

/-- A write through a port in READ mode is ignored. -/
theorem exec_portDataWrite_readMode (port : s.hcu.port = some p) (mode : p.mode = .read) (hr : s.record p.handle = some r)
    (below : p.offset < r.length) (v : Word) : exec (.portDataWrite v) s = .next s.portFailed := by
  show Host.Outcome.next (s.portWrite v) = _
  rw [State.portWrite, State.portReady_some port hr below]
  exact congrArg Host.Outcome.next (if_neg (by rw [mode]; nofun))

/-- A word read for PORT_DATA: the read, and PORT_ERROR where the word is uncorrectable (R145). -/
def State.readForPort (s : State) (position : Nat) : State :=
  if s.judge position = .uncorrectable then (s.noteRead .host position).raise .portError else s.noteRead .host position

theorem State.readForPort_uncorrectable {position : Nat} (judged : s.judge position = .uncorrectable) :
    s.readForPort position = (s.noteRead .host position).raise .portError :=
  if_pos judged

theorem State.readForPort_usable {position : Nat} (judged : s.judge position ≠ .uncorrectable) :
    s.readForPort position = s.noteRead .host position :=
  if_neg judged

theorem State.readForPort_buf (s : State) (position : Nat) : (s.readForPort position).buf = (s.noteRead .host position).buf := by
  unfold State.readForPort
  split <;> rfl

theorem State.readForPort_hcu (s : State) (position : Nat) : (s.readForPort position).hcu = s.hcu := by
  unfold State.readForPort
  split
  · rw [State.raise_hcu, State.noteRead_hcu]
  · exact s.noteRead_hcu _ _

/-- A read that moves bytes: the read of the word, and the unit. -/
theorem State.portMoveOut_eq (port : s.hcu.port = some p) :
    s.portMoveOut p r =
      { s.readForPort (wordPosition r.cells p.offset) with
        hcu := { s.hcu with
          port := some p.next, busData := portLanes (s.delivered (wordPosition r.cells p.offset)) p.offset r.length } } := by
  have e : s.portMoveOut p r = (s.readForPort (wordPosition r.cells p.offset)).stepPort.setBusData
      (portLanes (s.delivered (wordPosition r.cells p.offset)) p.offset r.length) := rfl
  rw [e, State.stepPort_eq (p := p) (by rw [State.readForPort_hcu, port]), State.setBusData, State.readForPort_hcu]

/-- A write that moves bytes: the read of the old word, the write of the merge, and the port 4 bytes further on. -/
theorem State.portMoveIn_parts (port : s.hcu.port = some p) (v : Word) :
    (s.portMoveIn p r v).hcu.port = some p.next ∧
      (s.portMoveIn p r v).buf = ((s.noteRead .host (wordPosition r.cells p.offset)).writeWord (wordPosition r.cells p.offset)
        (mergeWord (s.delivered (wordPosition r.cells p.offset)) p.offset r.length v)).buf ∧
      (s.portMoveIn p r v).reports = (s.noteRead .host (wordPosition r.cells p.offset)).reports ∧
      (s.portMoveIn p r v).ev = (s.noteRead .host (wordPosition r.cells p.offset)).ev := by
  refine ⟨?_, rfl, rfl, rfl⟩
  unfold State.portMoveIn
  dsimp only
  rw [State.stepPort_eq (p := p) (by rw [State.writeWord_hcu, State.noteRead_hcu, port])]

end

/-- Settles O16: the judgement by the wrong bits, and a read of PORT_DATA by the judgement of its word. -/
theorem portReadResult : Obligations.PortReadResult := by
  unfold Obligations.PortReadResult
  refine ⟨fun s p => ⟨fun i hi => s.byteOf_storedData p hi, s.judge_of_none p, fun b => s.judge_of_one p, fun b c => s.judge_of_two p,
    s.judge_of_many p, s.delivered_stored p, fun b judged => ?_⟩, ?_⟩
  · rw [s.delivered_corrected p judged]
    exact ⟨fun i hi hb => flipBit_getLsbD _ b i hi hb, fun check => flipBit_check _ check⟩
  · intro s p r port hr below _ word report
    obtain ⟨-, onCorrected, onUncorrectable⟩ := s.reports_noteRead .host word
    have buf := s.readForPort_buf word
    refine ⟨_, (exec_portDataRead port hr below).trans (congrArg Host.Outcome.next (State.portMoveOut_eq port)), rfl,
      fun j hj => byteOf_portLanes _ _ _ hj, ?_, ?_, fun good => ?_, fun b corrected => ?_, fun uncorrectable => ?_⟩
    · show (s.readForPort word).buf.mem = _ ∧ (s.readForPort word).buf.wrong = _ ∧ (s.readForPort word).buf.links = _
      rw [buf]
      exact ⟨s.noteRead_buf_mem _ _, s.noteRead_buf_wrong _ _, s.noteRead_buf_links _ _⟩
    · exact (congrArg Buffer.free buf).trans (s.noteRead_buf_free _ _)
    · have same : s.readForPort word = s :=
        (State.readForPort_usable (by rw [good]; nofun)).trans (s.noteRead_good _ word good)
      rw [show wordPosition r.cells p.offset = word from rfl, same]
      rfl
    · obtain ⟨counter, flag⟩ := State.counted_noteRead_corrected .host corrected
      have made : s.readForPort word = s.noteRead .host word := State.readForPort_usable (by rw [corrected]; nofun)
      have unread : (s.noteRead .host word).buf = s.buf := by rw [State.noteRead_corrected _ corrected, State.makeReport_buf]
      show (s.readForPort word).buf = _ ∧ (s.readForPort word).reports = _ ∧ (s.readForPort word).ev.counters.eccCorrectedTotal = _ ∧
        (s.readForPort word).flag .eccCorrected = true ∧ (s.readForPort word).flag .portError = _
      rw [made]
      exact ⟨unread, onCorrected b corrected, counter, flag, s.flag_portError_noteRead _ _⟩
    · obtain ⟨counter, flag, poisoned⟩ := State.counted_noteRead_uncorrectable .host uncorrectable
      show (s.readForPort word).reports = _ ∧ (s.readForPort word).ev.counters.eccUncorrectableTotal = _ ∧
        (s.readForPort word).flag .eccUncorrectable = true ∧ (s.readForPort word).flag .portError = true ∧
        ∀ h o, s.ownerOf (word / 8) = some (h, o) → (s.readForPort word).isPoisoned h = true
      rw [State.readForPort_uncorrectable uncorrectable, State.flag_raise_of_ne _ (by decide)]
      exact ⟨onUncorrectable uncorrectable, counter, flag, State.flag_raise _ _, poisoned⟩

/-- Settles O17: a write of PORT_DATA as the read of the old word and the write of the merge; an ignored access sets its flag alone. -/
theorem portWriteResult : Obligations.PortWriteResult := by
  unfold Obligations.PortWriteResult
  refine ⟨?_, fun s v => ?_⟩
  · intro s p r v port mode hr below _ word report
    have judged := s.reports_noteRead .host word
    obtain ⟨moved, buf, reports, ev⟩ := State.portMoveIn_parts (r := r) port v
    rw [show wordPosition r.cells p.offset = word from rfl] at buf reports ev
    have byte : ∀ a, (s.portMoveIn p r v).byteAt a =
        if a / 8 = word then byteOf (mergeWord (s.delivered word) p.offset r.length v) (a % 8) else s.byteAt a := fun a => by
      rw [State.byteAt, buf, ← State.byteAt, State.byteAt_writeWord, State.byteAt, State.noteRead_buf_mem, ← State.byteAt]
    have wrong : ∀ q, q ≠ word → (s.portMoveIn p r v).wrongBits q = s.wrongBits q := fun q ne => by
      have erased : ((s.noteRead .host word).writeWord word (mergeWord (s.delivered word) p.offset r.length v)).buf.wrong =
          Sparse.erase s.buf.wrong word := congrArg (Sparse.erase · word) (s.noteRead_buf_wrong _ _)
      rw [State.wrongBits, buf, erased, Sparse.lookup_erase, if_neg ne.symm, State.wrongBits]
    have flag : (s.portMoveIn p r v).flag .portError = s.flag .portError := by
      rw [State.flag, ev, ← State.flag, State.flag_portError_noteRead]
    refine ⟨_, exec_portDataWrite port mode hr below v, moved, fun i hi => ?_, fun a ha => by rw [byte, if_neg ha],
      (State.judge_of_buf buf).trans (State.judge_writeWord _ _ _), wrong, ?_, ?_, flag, ?_, ?_, ?_, fun bad h o owner => ?_⟩
    · have place : (8 * word + i) / 8 = word ∧ (8 * word + i) % 8 = i := by omega
      rw [byte, if_pos place.1, place.2, byteOf_mergeWord _ _ _ _ hi]
    · rw [buf, State.writeWord_buf_free, State.noteRead_buf_free]
    · rw [buf, State.writeWord_buf_links, State.noteRead_buf_links]
    · rw [reports]; exact judged.1
    · rw [reports]; exact judged.2.1
    · rw [reports]; exact judged.2.2
    · rw [State.isPoisoned, State.record, buf, State.writeWord_buf_records]
      exact (State.counted_noteRead_uncorrectable .host bad).2.2 h o owner
  · refine ⟨fun closed => ?_, fun p r port hr => ⟨fun beyond => ?_, fun mode => ?_⟩⟩
    · exact exec_portData_unready (State.portReady_closed closed) v
    · exact exec_portData_unready (State.portReady_beyond port hr beyond) v
    · rcases Nat.lt_or_ge p.offset r.length with below | beyond
      · exact exec_portDataWrite_readMode port mode hr below v
      · exact (exec_portData_unready (State.portReady_beyond port hr beyond) v).2

end Sys2Proof.Machine
end

