-- ==== Sys2Proof/Proofs/ReportTable.lean ====
section
/-! SUPPORT. The error report table: what a report does to it and to the counters, and the law of the table, kept by a report
(section 8.4). -/

namespace Sys2Proof.Machine

section
variable {s t : State} {e : ReportEntry}

/-! ## A report by what it meets -/

theorem ReportEntry.matchesEntry_iff (e f : ReportEntry) :
    e.matchesEntry f = true ↔ f.cell = e.cell ∧ f.word = e.word ∧ f.kind = e.kind := by
  simp only [ReportEntry.matchesEntry, Bool.and_eq_true, beq_iff_eq, and_assoc]
  exact ⟨fun ⟨cell, word, kind⟩ => ⟨cell.symm, word.symm, kind.symm⟩, fun ⟨cell, word, kind⟩ => ⟨cell.symm, word.symm, kind.symm⟩⟩

/-- No entry of the table is of the report's cell, word and kind. -/
def State.Unmatched (s : State) (e : ReportEntry) : Prop :=
  ∀ f ∈ s.reports, ¬(f.cell = e.cell ∧ f.word = e.word ∧ f.kind = e.kind)

theorem State.unmatched_iff : s.Unmatched e ↔ ¬s.reports.any e.matchesEntry = true := by
  simp only [State.Unmatched, List.any_eq_true, ReportEntry.matchesEntry_iff, not_exists, not_and]

/-- The entries of the table with a report's match counted once more, where it has one. -/
def State.recounted (s : State) (e : ReportEntry) : List ReportEntry :=
  s.reports.map fun f => if e.matchesEntry f then f.again else f

theorem State.tableReport_matched (matched : s.reports.any e.matchesEntry = true) :
    s.tableReport e = { s with reports := s.recounted e } :=
  if_pos matched

theorem State.tableReport_appended (new : s.Unmatched e) (room : s.reports.length < 8) :
    s.tableReport e = { s with reports := s.reports ++ [e] } :=
  (if_neg (State.unmatched_iff.1 new)).trans (if_pos room)

/-- The table without its oldest CORRECTED entry, and a report at its end. -/
def State.displaced (s : State) (e : ReportEntry) : State :=
  { s with reports := s.reports.eraseP (fun f => f.kind == .corrected) ++ [e] }

theorem State.tableReport_displacing (new : s.Unmatched e) (full : 8 ≤ s.reports.length) (kind : e.kind = .uncorrectable)
    (corrected : ∃ f ∈ s.reports, f.kind = .corrected) : s.tableReport e = (s.displaced e).loseReport := by
  have found : s.reports.any (fun f => f.kind == .corrected) = true := by simpa using corrected
  exact (if_neg (State.unmatched_iff.1 new)).trans ((if_neg (Nat.not_lt.2 full)).trans (if_pos ⟨kind, found⟩))

theorem State.tableReport_lost (new : s.Unmatched e) (full : 8 ≤ s.reports.length)
    (kept : e.kind = .corrected ∨ ∀ f ∈ s.reports, f.kind = .uncorrectable) : s.tableReport e = s.loseReport := by
  have spared : ¬(e.kind = .uncorrectable ∧ s.reports.any (fun f => f.kind == .corrected) = true) := by
    rintro ⟨kind, found⟩
    obtain ⟨f, mem, corrected⟩ := List.any_eq_true.1 found
    rcases kept with other | all
    · rw [kind] at other; cases other
    · rw [all f mem] at corrected; cases corrected
  exact (if_neg (State.unmatched_iff.1 new)).trans ((if_neg (Nat.not_lt.2 full)).trans (if_neg spared))

/-- A table where one entry matches: that one is counted once more. -/
theorem State.recounted_eq {xs ys : List ReportEntry} {f : ReportEntry} (table : s.reports = xs ++ f :: ys)
    (matched : e.matchesEntry f = true) (others : ∀ x ∈ xs ++ ys, ¬e.matchesEntry x = true) :
    s.recounted e = xs ++ f.again :: ys := by
  have same : ∀ zs : List ReportEntry, (∀ x ∈ zs, ¬e.matchesEntry x = true) →
      zs.map (fun f => if e.matchesEntry f then f.again else f) = zs :=
    fun zs other => (List.map_congr_left fun x mem => if_neg (other x mem)).trans zs.map_id
  rw [State.recounted, table, List.map_append, List.map_cons, same xs fun x mem => others x (List.mem_append_left _ mem),
    same ys fun x mem => others x (List.mem_append_right _ mem), if_pos matched]

/-- The oldest CORRECTED entry is the first one behind entries that are all UNCORRECTABLE. -/
theorem State.displaced_reports {xs ys : List ReportEntry} {f : ReportEntry} (table : s.reports = xs ++ f :: ys)
    (corrected : f.kind = .corrected) (older : ∀ x ∈ xs, x.kind = .uncorrectable) :
    (s.displaced e).reports = xs ++ ys ++ [e] := by
  have skip : ∀ x ∈ xs, ¬(x.kind == .corrected) = true := fun x mem => by rw [older x mem]; decide
  rw [State.displaced, table, List.eraseP_append_right _ skip, List.eraseP_cons_of_pos (by rw [corrected]; rfl)]

/-! ## Lost reports, and the two totals -/

theorem State.flag_countPart_of_not_drop (s : State) {n : PartCounter} (plain : n.isDrop = false) (x : Event) :
    (s.countPart n).flag x = s.flag x := by
  rw [State.countPart, if_neg (by rw [plain]; nofun)]
  rfl

/-- A lost report is counted, and its event is set (R161). -/
theorem State.loseReport_counted (s : State) :
    s.loseReport.ev.counters.reportLost = s.ev.counters.reportLost + 1 ∧ s.loseReport.flag .reportLost = true :=
  ⟨rfl, State.flag_raise _ _⟩

/-- What counts a report in the totals changes neither the table nor the count of lost reports (R162). -/
theorem State.makeReport_of_tableReport (s : State) (e : ReportEntry) :
    (s.makeReport e).reports = (s.tableReport e).reports ∧
      (s.makeReport e).ev.counters.reportLost = (s.tableReport e).ev.counters.reportLost ∧
      (s.makeReport e).flag .reportLost = (s.tableReport e).flag .reportLost := by
  unfold State.makeReport
  split
  · exact ⟨rfl, rfl, by rw [State.flag_raise_of_ne _ (by decide), State.flag_countPart_of_not_drop _ rfl]⟩
  · exact ⟨rfl, rfl, by rw [State.flag_raise_of_ne _ (by decide), State.flag_countPart_of_not_drop _ rfl]⟩

end

/-- Settles O49: a report by what it meets in the table, and the totals, which count it whatever the table does. -/
theorem reportTableResult : Obligations.ReportTableResult := by
  unfold Obligations.ReportTableResult
  intro s e _ t same lost kept
  obtain ⟨reports, counter, flag⟩ := s.makeReport_of_tableReport e
  refine ⟨fun xs f ys table matched others => ?_, fun new room => ?_, fun xs f ys new full kind table corrected older => ?_,
    fun new full spared => ?_, s.makeReport_corrected, s.makeReport_uncorrectable⟩
  · have found : e.matchesEntry f = true := (e.matchesEntry_iff f).2 matched
    have recounted := State.recounted_eq table found fun x mem => mt (e.matchesEntry_iff x).1 (others x mem)
    have result := State.tableReport_matched (List.any_eq_true.2 ⟨f, by rw [table]; simp, found⟩)
    rw [result] at reports counter flag
    exact ⟨reports.trans recounted, counter, flag⟩
  · rw [State.tableReport_appended new room] at reports counter flag
    exact ⟨reports, counter, flag⟩
  · obtain ⟨counted, raised⟩ := (s.displaced e).loseReport_counted
    rw [State.tableReport_displacing new full kind ⟨f, by rw [table]; simp, corrected⟩] at reports counter flag
    exact ⟨reports.trans (State.displaced_reports table corrected older), counter.trans counted, flag.trans raised⟩
  · obtain ⟨counted, raised⟩ := s.loseReport_counted
    rw [State.tableReport_lost new full spared] at reports counter flag
    exact ⟨reports, counter.trans counted, flag.trans raised⟩

/-! ## The law of the table -/

section
variable {s t : State} {e : ReportEntry}

/-- The law holds of every part of a table that it holds of. -/
theorem State.ReportsDistinct.sublist (h : s.ReportsDistinct) (sub : t.reports.Sublist s.reports) : t.ReportsDistinct := by
  obtain ⟨length, distinct, range⟩ := h
  exact ⟨sub.length_le.trans length, distinct.sublist sub, fun e mem => range e (sub.subset mem)⟩

/-- An entry counted once more stays below 256, and is still of its cell, word and kind (R160). -/
theorem State.ReportsDistinct.recounted (h : s.ReportsDistinct) (e : ReportEntry) :
    State.ReportsDistinct { s with reports := s.recounted e } := by
  obtain ⟨length, distinct, range⟩ := h
  refine ⟨by rw [State.recounted, List.length_map]; exact length, ?_, fun f mem => ?_⟩
  · have key : ∀ f : ReportEntry, (if e.matchesEntry f then f.again else f).cell = f.cell ∧
        (if e.matchesEntry f then f.again else f).word = f.word ∧ (if e.matchesEntry f then f.again else f).kind = f.kind :=
      fun f => by split <;> exact ⟨rfl, rfl, rfl⟩
    refine List.pairwise_map.2 (distinct.imp fun {f g} differ => ?_)
    obtain ⟨cell, word, kind⟩ := key f
    obtain ⟨cell', word', kind'⟩ := key g
    rw [cell, word, kind, cell', word', kind']
    exact differ
  · obtain ⟨g, old, rfl⟩ := List.mem_map.1 mem
    have bounds := range g old
    split
    · show 1 ≤ min 255 (g.occurrences + 1) ∧ min 255 (g.occurrences + 1) ≤ 255
      omega
    · exact bounds

/-- A new report at the end of a table with room. -/
theorem State.ReportsDistinct.append (h : s.ReportsDistinct) (room : s.reports.length < 8) (new : s.Unmatched e)
    (once : e.occurrences = 1) : State.ReportsDistinct { s with reports := s.reports ++ [e] } := by
  obtain ⟨length, distinct, range⟩ := h
  refine ⟨by rw [List.length_append]; exact room, ?_, fun f mem => ?_⟩
  · refine List.pairwise_append.2 ⟨distinct, List.pairwise_singleton _ _, fun f old g last => ?_⟩
    rw [List.mem_singleton.1 last]
    exact new f old
  · rcases List.mem_append.1 mem with old | last
    · exact range f old
    · rw [List.mem_singleton.1 last, once]
      decide

/-- The oldest CORRECTED entry of a full table displaced (R161). -/
theorem State.ReportsDistinct.displaced (h : s.ReportsDistinct) (corrected : ∃ f ∈ s.reports, f.kind = .corrected)
    (new : s.Unmatched e) (once : e.occurrences = 1) : (s.displaced e).ReportsDistinct := by
  obtain ⟨f, mem, kind⟩ := corrected
  have sub := List.eraseP_sublist (p := fun f : ReportEntry => f.kind == .corrected) (l := s.reports)
  have shorter := List.length_eraseP_of_mem (p := fun f : ReportEntry => f.kind == .corrected) mem (by rw [kind]; rfl)
  have below := h.1
  have nonempty := List.length_pos_of_mem mem
  refine State.ReportsDistinct.append (s := { s with reports := s.reports.eraseP (fun f => f.kind == .corrected) })
    (h.sublist sub) ?_ (fun g old => new g (sub.subset old)) once
  show (s.reports.eraseP (fun f => f.kind == .corrected)).length < 8
  omega

/-- A report keeps the law, whichever way the table takes it. -/
theorem State.ReportsDistinct.makeReport (h : s.ReportsDistinct) (once : e.occurrences = 1) : (s.makeReport e).ReportsDistinct := by
  suffices table : (s.tableReport e).ReportsDistinct from table.sublist (by rw [(s.makeReport_of_tableReport e).1])
  by_cases matched : s.reports.any e.matchesEntry = true
  · rw [State.tableReport_matched matched]
    exact h.recounted e
  · have new := State.unmatched_iff.2 matched
    rcases Nat.lt_or_ge s.reports.length 8 with room | full
    · rw [State.tableReport_appended new room]
      exact h.append room new once
    · cases kind : e.kind with
      | corrected => rw [State.tableReport_lost new full (.inl kind)]; exact h
      | uncorrectable =>
        by_cases corrected : ∃ f ∈ s.reports, f.kind = .corrected
        · rw [State.tableReport_displacing new full kind corrected]
          exact h.displaced corrected new once
        · have all : ∀ f ∈ s.reports, f.kind = .uncorrectable := fun f mem => by
            cases other : f.kind with
            | corrected => exact absurd ⟨f, mem, other⟩ corrected
            | uncorrectable => rfl
          rw [State.tableReport_lost new full (.inr all)]
          exact h

/-- A read of a word keeps the law: it reports at most once, with one occurrence. -/
theorem State.ReportsDistinct.noteRead (h : s.ReportsDistinct) (k : Reader) (p : Nat) : (s.noteRead k p).ReportsDistinct := by
  cases judged : s.judge p with
  | good => rw [s.noteRead_good k p judged]; exact h
  | corrected b =>
    rw [State.noteRead_corrected k judged]
    exact h.makeReport rfl
  | uncorrectable =>
    rw [State.noteRead_uncorrectable k judged]
    exact State.ReportsDistinct.makeReport (h.sublist (by rw [(s.poisonOwner_spec p).1])) rfl

end

end Sys2Proof.Machine
end

