-- ==== Sys2Proof/Proofs/LinksElsewhere.lean ====
section
/-! SUPPORT. The receivers, the deliveries and the transmitters leave unchanged what lies outside the buffer, the ports, the queues, the
flush, the Host Command Unit and the event unit: the error report table among it. -/

namespace Sys2Proof.Machine

section
variable {s t u : State}

theorem State.SameElsewhere.ite {p : Prop} [Decidable p] (h : s.SameElsewhere t) (k : s.SameElsewhere u) :
    s.SameElsewhere (if p then t else u) := by
  split
  · exact h
  · exact k

theorem State.SameElsewhere.settle (h : s.SameElsewhere t) (b : State) : s.SameElsewhere (t.settle b) :=
  h.trans (t.settle_same b)

end

/-! ## Link states -/

theorem State.makeDue_same (s : State) (l : LinkId) (c : Cls) : s.SameElsewhere (s.makeDue l c) := s.modCredit_same l c _

theorem State.enterHunt_same (s : State) (l : LinkId) : s.SameElsewhere (s.enterHunt l) := s.modPort_same l _

theorem State.hailNow_same (s : State) (l : LinkId) : s.SameElsewhere (s.hailNow l) :=
  .ite (s.modPort_same l _) (s.modTx_same l _)

theorem State.enterGreet_same (s : State) (l : LinkId) : s.SameElsewhere (s.enterGreet l) :=
  (s.modPort_same l _).trans (State.hailNow_same _ l)

theorem State.dueAtEntry_same (s : State) (l : LinkId) (c : Cls) : s.SameElsewhere (s.dueAtEntry l c) :=
  .ite (s.makeDue_same l c) (.refl s)

theorem State.enterActive_same (s : State) (l : LinkId) : s.SameElsewhere (s.enterActive l) :=
  (((s.modPort_same l _).trans (State.dueAtEntry_same _ l .control)).trans (State.dueAtEntry_same _ l .data)).trans
    (State.raise_same _ _)

/-! ## The receiver -/

theorem State.startNak_same (s : State) (l : LinkId) : s.SameElsewhere (s.startNak l) := s.modPort_same l _

theorem State.giveBack_same (s : State) (l : LinkId) (f : RxFrame) : s.SameElsewhere (s.giveBack l f) :=
  ((s.freeRecord_same f.handle).trans (State.modCredit_same _ l f.cls _)).trans (State.modRx_same _ l _)

theorem State.failFrame_same (s : State) (l : LinkId) (f : RxFrame) : s.SameElsewhere (s.failFrame l f) :=
  ((s.giveBack_same l f).trans (State.countLink_same _ l _)).trans (State.startNak_same _ l)

theorem State.marker_same (s : State) (l : LinkId) : s.SameElsewhere (s.marker l) := by
  unfold State.marker
  split
  · exact (s.failFrame_same l _).trans (State.modRx_same _ l _)
  · exact s.modRx_same l _

theorem State.passOver_same (s : State) (l : LinkId) : s.SameElsewhere (s.passOver l) := s.modRx_same l _

theorem State.countValid_same (s : State) (l : LinkId) : s.SameElsewhere (s.countValid l) := s.modPort_same l _

theorem State.markedValid_same (s : State) (l : LinkId) : s.SameElsewhere ((s.marker l).countValid l) :=
  (s.marker_same l).trans (State.countValid_same _ l)

theorem State.takeIn_same (s : State) (l : LinkId) (header : BitVec 128) : s.SameElsewhere (s.takeIn l header) :=
  State.SameElsewhere.trans (t := s.allocate (cellsFor (headerLength header)) (arrivalRecord l (headerFields header))) (.refl s)
    ((State.modCredit_same _ l _ _).trans (State.modRx_same _ l _))

theorem State.behind_same (s : State) (l : LinkId) : s.SameElsewhere (s.behind l) :=
  ((s.modRx_same l _).trans (State.countLink_same _ l _)).trans (State.passOver_same _ l)

theorem State.ahead_same (s : State) (l : LinkId) : s.SameElsewhere (s.ahead l) :=
  ((s.countLink_same l _).trans (State.startNak_same _ l)).trans (State.passOver_same _ l)

theorem State.judgeHeader_same {s t : State} {l : LinkId} {header : BitVec 128} (h : s.judgeHeader l header = .ok t) :
    s.SameElsewhere t := by
  unfold State.judgeHeader at h
  dsimp only at h
  split at h
  · split at h
    · cases h; exact s.enterFault_same l _
    · split at h
      · cases h; exact s.enterFault_same l _
      · split at h
        · cases h
        · cases h; exact s.takeIn_same l header
  · split at h
    · cases h; exact s.behind_same l
    · cases h; exact s.ahead_same l

theorem State.huntBlock_same (s : State) (l : LinkId) : s.SameElsewhere (s.huntBlock l) :=
  .ite ((s.countValid_same l).trans (State.enterGreet_same _ l)) (s.countValid_same l)

theorem State.activeBlock_same (s : State) (l : LinkId) : s.SameElsewhere (s.activeBlock l) :=
  have counted := (s.countValid_same l).trans (State.modPort_same _ l _)
  .ite (counted.trans (State.modPort_same _ l _)) counted

theorem State.markedActive_same (s : State) (l : LinkId) : s.SameElsewhere ((s.marker l).activeBlock l) :=
  (s.marker_same l).trans (State.activeBlock_same _ l)

theorem State.markedHunt_same (s : State) (l : LinkId) : s.SameElsewhere ((s.marker l).huntBlock l) :=
  (s.marker_same l).trans (State.huntBlock_same _ l)

theorem State.noMarker_same (s : State) (l : LinkId) : s.SameElsewhere (s.noMarker l) :=
  have counted := s.modPort_same l fun p => { p with validRun := 0, invalidRun := p.invalidRun + 1 }
  have realigning := counted.trans (State.modPort_same _ l fun p =>
    { p with align := .realigning, realignTimer := some p.cfg.realignTimeoutUs })
  .ite (.refl s) (State.SameElsewhere.settle (.ite (realigning.trans (State.startNak_same _ l)) counted) s)

theorem State.checkedOut_same (s : State) (l : LinkId) (kind : BlockKind) : s.SameElsewhere (s.checkedOut l kind) := by
  have marked : s.SameElsewhere ((s.marker l).modPort l fun p => { p with validRun := 0, invalidRun := 0 }) :=
    (s.marker_same l).trans (State.modPort_same _ l _)
  unfold State.checkedOut
  refine .ite ?_ (.refl s)
  cases kind with
  | control => exact .ite (marked.trans (State.countLink_same _ l _)) marked
  | frame =>
    exact State.SameElsewhere.trans
      (.ite ((marked.trans (State.countLink_same _ l _)).trans (State.startNak_same _ l)) marked) (State.modRx_same _ l _)

theorem State.validControl_same (s : State) (l : LinkId) (act : State → State) (hact : ∀ t : State, t.SameElsewhere (act t)) :
    s.SameElsewhere (s.validControl l act) := by
  unfold State.validControl
  split
  · exact .refl s
  · exact .refl s
  · exact s.markedHunt_same l
  · exact .ite (((s.markedValid_same l).trans (State.enterActive_same _ l)).trans (hact _)) (s.markedValid_same l)
  · exact (s.markedActive_same l).trans (hact _)

theorem State.greetHail_same (s : State) (l : LinkId) (sender : Byte) (seen : Bool) : s.SameElsewhere (s.greetHail l sender seen) :=
  have recorded := State.SameElsewhere.ite (p := (s.port l).hailReceived = true) (.refl s)
    ((s.modPort_same l fun p => { p with partner := sender, hailReceived := true }).trans (State.hailNow_same _ l))
  .ite (recorded.trans (State.enterActive_same _ l)) recorded

theorem State.takeHail_same (s : State) (l : LinkId) (sender revision : Byte) (seen : Bool) :
    s.SameElsewhere (s.takeHail l sender revision seen) := by
  have counted := s.markedValid_same l
  have fault : ∀ reason, s.SameElsewhere (((s.marker l).countValid l).enterFault l reason) := fun reason =>
    counted.trans (State.enterFault_same _ l reason)
  have active := s.markedActive_same l
  unfold State.takeHail
  split
  · exact .refl s
  · exact .refl s
  · exact s.markedHunt_same l
  · exact .ite (fault _) (.ite (fault _) (.ite (fault _) (.ite (fault _) (counted.trans (State.greetHail_same _ l sender seen)))))
  · exact .ite active (active.trans (State.enterFault_same _ l _))

theorem State.validFrame_same {s t : State} {l : LinkId} {header : BitVec 128} (h : s.validFrame l header = .ok t) :
    s.SameElsewhere t := by
  unfold State.validFrame at h
  split at h
  · cases h; exact .refl s
  · cases h; exact .refl s
  · cases h; exact (s.markedHunt_same l).trans (State.passOver_same _ l)
  · dsimp only at h
    split at h
    · exact ((s.markedValid_same l).trans (State.enterActive_same _ l)).trans (State.judgeHeader_same h)
    · cases h; exact (s.markedValid_same l).trans (State.passOver_same _ l)
  · dsimp only at h
    split at h
    · cases h; exact (s.markedActive_same l).trans (State.passOver_same _ l)
    · exact (s.markedActive_same l).trans (State.judgeHeader_same h)

theorem State.payloadByte_same (s : State) (l : LinkId) (f : RxFrame) (b : Byte) : s.SameElsewhere (s.payloadByte l f b) := by
  unfold State.payloadByte
  dsimp only
  split
  · exact .ite (s.modRx_same l _) (s.modRx_same l _)
  · exact s.modRx_same l _

theorem State.takeByte_same (s : State) (l : LinkId) (b : Byte) : s.SameElsewhere (s.takeByte l b) := by
  unfold State.takeByte
  split
  · exact .ite (s.payloadByte_same l _ b) ((s.failFrame_same l _).trans (State.passOver_same _ l))
  · exact .refl s

/-! ## Deliveries -/

theorem State.noteArrival_same (s : State) (c : Cls) (before : Nat) : s.SameElsewhere (s.noteArrival c before) :=
  .ite (s.raise_same _) (.refl s)

theorem State.enterHost_same (s : State) (c : Cls) (h : Nat) : s.SameElsewhere (s.enterHost c h) := .refl s

theorem State.dropOldest_same (s : State) (c : Cls) : s.SameElsewhere (s.dropOldest c) := by
  unfold State.dropOldest
  split
  · exact .refl s
  · exact (s.dropHead_same _ _).trans (State.countPart_same _ _)

theorem State.admitHost_same (s : State) (c : Cls) (h : Nat) : s.SameElsewhere (s.admitHost c h) := by
  unfold State.admitHost
  refine .ite ?_ ((s.enterHost_same c h).trans (State.noteArrival_same _ c _))
  split
  · exact s.countPart_same _
  · exact ((s.dropOldest_same c).trans (State.enterHost_same _ c h)).trans (State.noteArrival_same _ c _)

theorem State.admitForward_same (s : State) (l : LinkId) (c : Cls) (h : Nat) (hops : BitVec 4) :
    s.SameElsewhere (s.admitForward l c h hops) :=
  .ite (s.countPart_same _) (.ite (s.countPart_same _) (.ite (s.countPart_same _) (.refl s)))

theorem State.deliverParts_same (s : State) (l : LinkId) (h : Nat) (r : Record) : s.SameElsewhere (s.deliverParts l h r) := by
  unfold State.deliverParts
  split
  · exact s.admitHost_same _ h
  · exact s.admitForward_same _ _ h _
  · exact (s.admitHost_same _ h).trans (State.admitForward_same _ _ _ h _)
  · exact s.countPart_same _

theorem State.deliver_same (s : State) (l : LinkId) (h : Nat) : s.SameElsewhere (s.deliver l h) := by
  unfold State.deliver
  split
  · exact .refl s
  · rename_i r _
    have decided := State.SameElsewhere.ite (p := r.source = some s.nodeAddr) (s.countPart_same .loopDiscard) (s.deliverParts_same l h r)
    exact .ite decided (decided.trans (State.freeRecord_same _ h))

theorem State.trailerEnd_same (s : State) (l : LinkId) (check : BitVec 32) : s.SameElsewhere (s.trailerEnd l check) := by
  unfold State.trailerEnd
  split
  · exact .ite (((s.modPort_same l _).trans (State.countLink_same _ l _)).trans (State.deliver_same _ l _)) (s.failFrame_same l _)
  · exact s.modRx_same l _

theorem State.trailerAbort_same (s : State) (l : LinkId) : s.SameElsewhere (s.trailerAbort l) := by
  unfold State.trailerAbort
  split
  · exact (s.giveBack_same l _).trans (State.countLink_same _ l _)
  · exact s.modRx_same l _

/-! ## The transmitter -/

theorem State.testEpisode_same (s : State) (l : LinkId) : s.SameElsewhere (s.testEpisode l) := .ite (s.modTx_same l _) (.refl s)

theorem State.dropOldestEntries_same (s : State) (l : LinkId) (k : Nat) : s.SameElsewhere (s.dropOldestEntries l k) :=
  (State.foldl_same _ (fun t h => t.removeHolder_same h _) _ s).trans (State.modTx_same _ l _)

theorem State.confirm_same (s : State) (l : LinkId) (k : Nat) (point : Byte) : s.SameElsewhere (s.confirm l k point) := by
  have dropped : ∀ k, s.SameElsewhere (s.dropOldestEntries l k) := s.dropOldestEntries_same l
  unfold State.confirm
  refine State.SameElsewhere.trans ?_ ((State.modTx_same _ l _).trans (State.modPort_same _ l _))
  split
  · exact dropped k
  · split
    · exact dropped k
    · exact .ite ((dropped _).trans (State.modTx_same _ l _)) (dropped k)

theorem State.startEpisode_same (s : State) (l : LinkId) (point : Byte) : s.SameElsewhere (s.startEpisode l point) :=
  have counted := (s.countLink_same l .replays).trans (State.modTx_same _ l _)
  .ite (counted.trans (State.enterFault_same _ l _)) (counted.trans (State.modPort_same _ l _))

theorem State.takeAck_same (s : State) (l : LinkId) (n : Byte) : s.SameElsewhere (s.takeAck l n) := by
  unfold State.takeAck
  split
  · exact (s.confirm_same l _ n).trans (State.testEpisode_same _ l)
  · exact s.countLink_same l _

theorem State.takeNak_same (s : State) (l : LinkId) (n : Byte) : s.SameElsewhere (s.takeNak l n) := by
  unfold State.takeNak
  split
  · exact State.SameElsewhere.trans (.ite (.refl s) (s.confirm_same l _ _)) (State.startEpisode_same _ l n)
  · exact .ite (s.takeAck_same l _) (s.countLink_same l _)

theorem State.takeGrant_same (s : State) (l : LinkId) (c : Cls) (v : Credit) : s.SameElsewhere (s.takeGrant l c v) :=
  .ite (s.modCredit_same l c _) (.refl s)

theorem State.replayExpired_same (s : State) (l : LinkId) : s.SameElsewhere (s.replayExpired l) := by
  unfold State.replayExpired
  split
  · exact .refl s
  · split
    · exact s.startEpisode_same l _
    · exact .refl s

theorem State.endBlock_same (s : State) (l : LinkId) : s.SameElsewhere (s.endBlock l) := s.modTx_same l _

theorem State.firstEnd_same (s : State) (l : LinkId) (f : TxFrame) : s.SameElsewhere (s.firstEnd l f) := by
  unfold State.firstEnd
  split
  · exact .refl s
  · exact ((((s.modTx_same l _).trans (State.modRecord_same _ _ _)).trans (State.modPort_same _ l _)).trans
      (State.modCredit_same _ l _ _)).trans (State.countLink_same _ l _)

theorem State.firstAbort_same (s : State) (l : LinkId) (f : TxFrame) : s.SameElsewhere (s.firstAbort l f) :=
  ((s.modTx_same l _).trans (State.removeHolder_same _ _ _)).trans (State.countLink_same _ l _)

theorem State.applyHeld_same (s : State) (l : LinkId) : s.SameElsewhere (s.applyHeld l) := by
  unfold State.applyHeld
  split
  · exact .refl s
  · exact (s.dropOldestEntries_same l _).trans (State.modTx_same _ l _)

theorem State.resendEnded_same (s : State) (l : LinkId) (f : TxFrame) : s.SameElsewhere (s.resendEnded l f) :=
  (((s.modTx_same l _).trans (State.modTx_same _ l _)).trans (State.applyHeld_same _ l)).trans (State.testEpisode_same _ l)

theorem State.resendAborted_same (s : State) (l : LinkId) : s.SameElsewhere (s.resendAborted l) :=
  (s.modTx_same l _).trans (State.enterFault_same _ l _)

theorem State.hailEnded_same (s : State) (l : LinkId) (seen : Bool) : s.SameElsewhere ((s.noteHailSent l seen).endBlock l) :=
  (s.modPort_same l _).trans (State.endBlock_same _ l)

theorem State.nextHail_same (s : State) (l : LinkId) : s.SameElsewhere (s.nextHail l) := .ite (s.modPort_same l _) (.refl s)

theorem State.hailSent_same (s : State) (l : LinkId) : s.SameElsewhere (s.hailSent l) := by
  unfold State.hailSent
  split
  · exact .ite ((s.hailEnded_same l _).trans (State.nextHail_same _ l)) (s.hailEnded_same l _)
  · exact .refl s

theorem State.controlSent_same (s : State) (l : LinkId) : s.SameElsewhere (s.controlSent l) := by
  unfold State.controlSent
  refine .ite ?_ (.refl s)
  split
  · exact s.hailEnded_same l _
  · exact s.endBlock_same l
  · exact s.endBlock_same l
  · exact s.endBlock_same l
  · exact s.endBlock_same l
  · exact .refl s
  · exact .refl s

theorem State.keepSent_same (s : State) (l : LinkId) : s.SameElsewhere (s.keepSent l) := by
  unfold State.keepSent
  refine .ite ?_ (.refl s)
  split
  · exact s.modTx_same l _
  · exact (s.endBlock_same l).trans (State.nextHail_same _ l)
  · exact .refl s
  · exact .refl s
  · exact .refl s

/-! ## Timers, flushes and settings -/

theorem State.refreshGrants_same (s : State) (l : LinkId) : s.SameElsewhere (s.refreshGrants l) :=
  ((s.modPort_same l _).trans (State.makeDue_same _ l .control)).trans (State.makeDue_same _ l .data)

theorem State.stallDrop_same (s : State) (l : LinkId) (c : Cls) : s.SameElsewhere (s.stallDrop l c) := by
  unfold State.stallDrop
  split
  · exact .refl s
  · exact (s.dropHead_same _ _).trans (State.countLink_same _ l _)

theorem State.flushStep_same (s : State) : s.SameElsewhere s.flushStep := by
  unfold State.flushStep
  split
  · exact .refl s
  · split
    · exact .refl s
    · exact State.dropHead_same { s with flush := { s.flush with removed := s.flush.removed + 1 } } _ _

theorem State.writeSession_same (s : State) (l : LinkId) (v : Word) : s.SameElsewhere (s.writeSession l v) :=
  ((s.modPort_same l _).trans (State.refreshStall_same _ l .control)).trans (State.refreshStall_same _ l .data)

theorem State.writeLinkWord_same (s : State) (l : LinkId) (i : Nat) (v : Word) : s.SameElsewhere (s.writeLinkWord l i v) := by
  unfold State.writeLinkWord
  split
  · exact s.modPort_same l _
  · exact s.modPort_same l _
  · exact s.modPort_same l _
  · exact s.writeSession_same l v
  · exact s.modPort_same l _
  · refine .ite ?_ (.refl s)
    split
    · exact s.modPort_same l _
    · exact .refl s

end Sys2Proof.Machine
end

