-- ==== Sys2Proof/Proofs/ReportLaw.lean ====
section
/-! SUPPORT. Every command keeps the law of the error report table: it makes reports, takes the oldest one, empties the table, or leaves
the table as it is (section 8.4). -/

namespace Sys2Proof.Machine

/-- A step from one state to another keeps the law of the error report table. -/
def State.KeepsReports (s t : State) : Prop :=
  s.ReportsDistinct → t.ReportsDistinct

section
variable {s t u : State}

theorem State.KeepsReports.refl (s : State) : s.KeepsReports s := id

theorem State.KeepsReports.trans (h : s.KeepsReports t) (k : t.KeepsReports u) : s.KeepsReports u := k ∘ h

/-- A step that leaves a part of the table, in its order. -/
theorem State.KeepsReports.of_sublist (sub : t.reports.Sublist s.reports) : s.KeepsReports t := fun h => h.sublist sub

theorem State.KeepsReports.of_reports (same : t.reports = s.reports) : s.KeepsReports t := .of_sublist (by rw [same])

theorem State.KeepsReports.of_empty (empty : t.reports = []) : s.KeepsReports t := .of_sublist (by rw [empty]; exact List.nil_sublist _)

theorem State.KeepsReports.of_same (h : s.SameElsewhere t) : s.KeepsReports t := by
  obtain ⟨-, -, -, -, reports, -⟩ := h
  exact .of_reports reports

theorem State.KeepsReports.of_next (h : s.KeepsReports u) (e : (Host.Outcome.next u : Answer) = .next t) : s.KeepsReports t := by
  cases e; exact h

/-- A step that acts under a condition, and settles. -/
theorem State.KeepsReports.of_guarded {p : Prop} [Decidable p] (h : s.SameElsewhere u)
    (e : (Host.Outcome.next (if p then u.settle s else s) : Answer) = .next t) : s.KeepsReports t :=
  (State.KeepsReports.of_same (.ite (h.settle s) (.refl s))).of_next e

end

theorem State.noteRead_keepsReports (s : State) (k : Reader) (p : Nat) : s.KeepsReports (s.noteRead k p) := fun h => h.noteRead k p

/-! ## Reads of words -/

theorem State.readTxWord_keepsReports (s : State) (l : LinkId) : s.KeepsReports (s.readTxWord l) := by
  unfold State.readTxWord
  split
  · split
    · exact (s.noteRead_keepsReports _ _).trans (.of_same (State.modTx_same _ l _))
    · exact .refl s
  · exact .refl s
  · exact .refl s

theorem State.portRead_keepsReports (s : State) : s.KeepsReports s.portRead := by
  unfold State.portRead
  split
  · rename_i p r _
    refine (s.noteRead_keepsReports .host (wordPosition r.cells p.offset)).trans (.of_reports ?_)
    unfold State.portMoveOut
    dsimp only
    split <;> rfl
  · exact .of_reports rfl

theorem State.portWrite_keepsReports (s : State) (v : Word) : s.KeepsReports (s.portWrite v) := by
  unfold State.portWrite
  split
  · split
    · exact (s.noteRead_keepsReports _ _).trans (.of_reports rfl)
    · exact .of_reports rfl
  · exact .of_reports rfl

theorem State.scrubWord_keepsReports (s : State) (p : Nat) (free : Bool) : s.KeepsReports (s.scrubWord p free) := by
  refine (s.noteRead_keepsReports .scrub p).trans (.of_reports ?_)
  unfold State.scrubWord
  dsimp only
  split
  · rfl
  · rfl
  · split <;> rfl

theorem State.scrubTake_keepsReports (s : State) (p : Nat) : s.KeepsReports (s.scrubTake p) := by
  unfold State.scrubTake
  split
  · exact s.scrubWord_keepsReports p true
  · split
    · exact .refl s
    · exact s.scrubWord_keepsReports p false

theorem State.scrubAdvance_reports (s : State) : s.scrubAdvance.reports = s.reports := by
  unfold State.scrubAdvance State.endPass
  dsimp only
  split
  · split <;> rfl
  · rfl

theorem State.scrubExpired_keepsReports (s : State) : s.KeepsReports s.scrubExpired := by
  unfold State.scrubExpired
  split
  · exact (s.scrubTake_keepsReports _).trans (.of_reports (State.scrubAdvance_reports _))
  · exact .refl s

/-! ## Host commands -/

theorem State.answer_same (s : State) (code : ResultCode) (res : Results) : s.SameElsewhere (s.answer code res) := .refl s

theorem State.setHeld_same (s : State) (n : Nat) : s.SameElsewhere (s.setHeld n) := .refl s

theorem State.closePort_same (s : State) (h : Nat) : s.SameElsewhere (s.closePort h) := by
  rw [State.closePort_spec]
  exact .refl s

theorem State.allocBody_same (s : State) : s.SameElsewhere s.allocBody := by
  unfold State.allocBody
  split
  · exact s.answer_same _ _
  · exact .ite (s.answer_same _ _) (.ite (s.answer_same _ _) (.ite (s.answer_same _ _)
      (State.SameElsewhere.settle (t := s.allocTaken _ _) (.refl s) s)))

theorem State.openBody_same (s : State) : s.SameElsewhere s.openBody := by
  unfold State.openBody
  split
  · exact s.answer_same _ _
  · refine .ite (s.answer_same _ _) ?_
    split
    · exact s.answer_same _ _
    · exact .ite (s.answer_same _ _) (.ite (s.answer_same _ _) (.refl s))

theorem State.postTaken_same (s : State) (h : Nat) (c : Cls) (d : Byte) (hops : BitVec 4) (links : List LinkId) :
    s.SameElsewhere (s.postTaken h c d hops links) :=
  ((((s.modRecord_same h _).trans (State.foldl_same _ (fun t l => t.setEntries_same (.tx l c) _) links _)).trans
    (State.setHeld_same _ _)).trans (State.closePort_same _ h)).trans (State.answer_same _ _ _)

theorem State.postBody_same (s : State) : s.SameElsewhere s.postBody := by
  unfold State.postBody
  split
  · exact s.answer_same _ _
  · refine .ite (s.answer_same _ _) ?_
    split
    · exact s.answer_same _ _
    · exact .ite (s.answer_same _ _) (.ite (s.answer_same _ _) (.ite (s.answer_same _ _)
        ((s.postTaken_same _ _ _ _ _).settle s)))

theorem State.claimTaken_same (s : State) (c : Cls) (h : Nat) : s.SameElsewhere (s.claimTaken c h) := by
  have taken := ((s.popHead_same (.host c)).trans (State.modRecord_same _ h fun r => { r with host := .claimed })).trans
    (State.setHeld_same _ (s.hcu.held + 1))
  unfold State.claimTaken
  dsimp only
  split
  · exact taken.trans (State.answer_same _ _ _)
  · exact taken.trans (State.answer_same _ _ _)

theorem State.claimBody_same (s : State) : s.SameElsewhere s.claimBody := by
  unfold State.claimBody
  split
  · exact s.answer_same _ _
  · split
    · exact s.answer_same _ _
    · exact .ite (s.answer_same _ _) (s.claimTaken_same _ _)

theorem State.releaseBody_same (s : State) : s.SameElsewhere s.releaseBody := by
  unfold State.releaseBody
  split
  · exact s.answer_same _ _
  · exact ((((s.removeHolder_same _ _).trans (State.setHeld_same _ _)).trans (State.closePort_same _ _)).trans
      (State.answer_same _ _ _)).settle s

theorem State.queryBody_same (s : State) : s.SameElsewhere s.queryBody := by
  unfold State.queryBody
  split
  · exact s.answer_same _ _
  · exact s.answer_same _ _

theorem State.flushBody_same (s : State) : s.SameElsewhere s.flushBody := by
  unfold State.flushBody
  split
  · exact s.answer_same _ _
  · split
    · exact .refl s
    · exact .refl s

theorem State.linkStartBody_same (s : State) : s.SameElsewhere s.linkStartBody := by
  unfold State.linkStartBody
  split
  · exact s.answer_same _ _
  · exact .ite (s.answer_same _ _) (.ite (s.answer_same _ _) ((s.enterHunt_same _).trans (State.answer_same _ _ _)))

theorem State.linkStopBody_same (s : State) : s.SameElsewhere s.linkStopBody := by
  unfold State.linkStopBody
  split
  · exact s.answer_same _ _
  · exact .ite (s.answer_same _ _) (((s.teardown_same _ _).trans (State.answer_same _ _ _)).settle s)

theorem State.tableSetBody_reports (s : State) : s.tableSetBody.reports = s.reports := by
  unfold State.tableSetBody
  split
  · rfl
  · split <;> rfl

theorem State.tableGetBody_same (s : State) : s.SameElsewhere s.tableGetBody := .ite (s.answer_same _ _) (s.answer_same _ _)

/-- REPORT_TAKE takes the oldest report. -/
theorem State.reportTakeBody_keepsReports (s : State) : s.KeepsReports s.reportTakeBody := by
  unfold State.reportTakeBody
  split
  · exact .of_same (s.answer_same _ _)
  · rename_i e rest table
    exact .of_sublist (by rw [table]; exact List.sublist_cons_self e rest)

theorem State.scrubStartBody_reports (s : State) : s.scrubStartBody.reports = s.reports := by
  unfold State.scrubStartBody
  split <;> rfl

theorem State.takeCommand_keepsReports (s : State) (code : Word) {body : State → State} (h : ∀ t : State, t.KeepsReports (body t)) :
    s.KeepsReports (s.takeCommand code body) := by
  unfold State.takeCommand
  split
  · exact .of_same (s.raise_same _)
  · dsimp only
    split
    · exact State.KeepsReports.trans (t := { s with hcu := { s.hcu with cmd := code } }) (.of_reports rfl) (h _)
    · exact .of_reports rfl

theorem State.unknownCode_reports (s : State) (code : Word) : (s.unknownCode code).reports = s.reports := by
  unfold State.unknownCode
  dsimp only
  split <;> rfl

theorem State.commandWrite_keepsReports (s : State) (code : Word) : s.KeepsReports (s.commandWrite code) := by
  unfold State.commandWrite
  split
  · exact s.takeCommand_keepsReports code fun t => .of_same t.allocBody_same
  · exact s.takeCommand_keepsReports code fun t => .of_same t.openBody_same
  · exact s.takeCommand_keepsReports code fun t => .of_same t.postBody_same
  · exact s.takeCommand_keepsReports code fun t => .of_same t.claimBody_same
  · exact s.takeCommand_keepsReports code fun t => .of_same t.releaseBody_same
  · exact s.takeCommand_keepsReports code fun t => .of_same t.queryBody_same
  · exact s.takeCommand_keepsReports code fun t => .of_same t.flushBody_same
  · exact s.takeCommand_keepsReports code fun t => .of_same t.linkStartBody_same
  · exact s.takeCommand_keepsReports code fun t => .of_same t.linkStopBody_same
  · exact s.takeCommand_keepsReports code fun t => .of_reports t.tableSetBody_reports
  · exact s.takeCommand_keepsReports code fun t => .of_same t.tableGetBody_same
  · exact s.takeCommand_keepsReports code State.reportTakeBody_keepsReports
  · exact s.takeCommand_keepsReports code fun t => .of_reports t.scrubStartBody_reports
  · exact .of_reports (s.unknownCode_reports code)

/-! ## Register writes -/

theorem State.writeNodeAddr_reports (s : State) (v : Word) : (s.writeNodeAddr v).reports = s.reports := by
  unfold State.writeNodeAddr
  split <;> rfl

theorem State.writeScrubControl_reports (s : State) (v : Word) : (s.writeScrubControl v).reports = s.reports := by
  unfold State.writeScrubControl State.writeScrubMode
  dsimp only
  split
  · rfl
  · split
    · rfl
    · split <;> rfl

theorem State.writePartWord_keepsReports (s : State) (i : Nat) (v : Word) : s.KeepsReports (s.writePartWord i v) := by
  unfold State.writePartWord
  split
  · unfold State.writeControl
    split
    · exact .of_empty rfl
    · exact .refl s
  · exact .of_reports (s.writeNodeAddr_reports v)
  · exact .of_reports rfl
  · exact .of_reports rfl
  · exact .of_reports rfl
  · exact .of_reports rfl
  · exact .of_reports rfl
  · exact .of_reports rfl
  · exact s.commandWrite_keepsReports v
  · exact s.portWrite_keepsReports v
  · exact .of_reports rfl
  · exact .of_reports rfl
  · exact .of_reports rfl
  · exact .of_reports rfl
  · exact .of_reports rfl
  · exact .of_reports rfl
  · exact .of_reports rfl
  · exact .of_reports (s.writeScrubControl_reports v)
  · split
    · split
      · exact .of_reports rfl
      · exact .refl s
    · exact .refl s

theorem State.writeRegister_keepsReports (s : State) (reg : BitVec 7) (v : Word) : s.KeepsReports (s.writeRegister reg v) := by
  unfold State.writeRegister
  dsimp only
  split
  · exact s.writePartWord_keepsReports _ v
  · exact .of_same (.ite (s.writeLinkWord_same _ _ v) (.ite (.refl s) (.ite (s.writeLinkWord_same _ _ v) (.refl s))))

/-! ## Every command -/

theorem State.received_keepsReports (s : State) (l : LinkId) (act : State → State) (h : s.SameElsewhere (act s)) :
    s.KeepsReports (s.received l act) :=
  .of_same (.ite (h.settle s) (.refl s))

theorem execFrameHeaderReceived_keepsReports {l : LinkId} {header : BitVec 128} {s t : State}
    (e : execFrameHeaderReceived l header s = .next t) : s.KeepsReports t := by
  unfold execFrameHeaderReceived at e
  split at e
  · split at e
    · split at e
      · rename_i u valid
        exact (State.KeepsReports.of_same ((State.validFrame_same valid).settle s)).of_next e
      · cases e
    · exact (State.KeepsReports.of_same ((s.checkedOut_same l .frame).settle s)).of_next e
  · exact (State.KeepsReports.refl s).of_next e

/-- The end of a frame block, under a condition on the frame on the line. -/
theorem State.frameEnd_keepsReports (s : State) (l : LinkId) (p : TxFrame → Bool) (act : TxFrame → State)
    (h : ∀ f, s.SameElsewhere (act f)) :
    s.KeepsReports (match s.frameOnLine l with | some f => if p f then (act f).settle s else s | none => s) := by
  split
  · exact .of_same (.ite ((h _).settle s) (.refl s))
  · exact .refl s

theorem exec_keepsReports {c : Instr} {s t : State} (e : exec c s = .next t) : s.KeepsReports t := by
  cases c with
  | resetInput => exact (State.KeepsReports.of_empty (t := s.resetTaken) rfl).of_next e
  | initComplete =>
    refine State.KeepsReports.of_next (.of_reports ?_) e
    unfold State.initTaken State.passAtReady
    split
    · rfl
    · split <;> rfl
  | softReset => exact (State.KeepsReports.of_empty (t := s.softResetTaken) rfl).of_next e
  | alloc => exact (s.commandWrite_keepsReports 1).of_next e
  | openPort => exact (s.commandWrite_keepsReports 2).of_next e
  | post => exact (s.commandWrite_keepsReports 3).of_next e
  | claim => exact (s.commandWrite_keepsReports 4).of_next e
  | release => exact (s.commandWrite_keepsReports 5).of_next e
  | query => exact (s.commandWrite_keepsReports 6).of_next e
  | flush => exact (s.commandWrite_keepsReports 7).of_next e
  | linkStart => exact (s.commandWrite_keepsReports 8).of_next e
  | linkStop => exact (s.commandWrite_keepsReports 9).of_next e
  | tableSet => exact (s.commandWrite_keepsReports 10).of_next e
  | tableGet => exact (s.commandWrite_keepsReports 11).of_next e
  | reportTake => exact (s.commandWrite_keepsReports 12).of_next e
  | scrubStart => exact (s.commandWrite_keepsReports 13).of_next e
  | unknownCommand code => exact (State.KeepsReports.of_reports (s.unknownCode_reports code)).of_next e
  | cmdOverrun code =>
    refine State.KeepsReports.of_next ?_ e
    split
    · exact .of_same (s.raise_same _)
    · exact s.commandWrite_keepsReports code
  | portDataRead => exact s.portRead_keepsReports.of_next e
  | portDataWrite v => exact (s.portWrite_keepsReports v).of_next e
  | eventFlagsClear v => exact (s.writePartWord_keepsReports 4 v).of_next e
  | eventEnableWrite v => exact (s.writePartWord_keepsReports 5 v).of_next e
  | nodeAddrWrite v => exact (s.writePartWord_keepsReports 2 v).of_next e
  | scrubModeWrite v => exact (s.writePartWord_keepsReports 32 v).of_next e
  | creditStallLimitWrite l v => exact (State.KeepsReports.of_same (s.writeSession_same l v)).of_next e
  | registerWrite reg v => exact (s.writeRegister_keepsReports reg v).of_next e
  | invalidMarker l => exact (State.KeepsReports.of_same (.ite (s.noMarker_same l) (.refl s))).of_next e
  | checkedOutBlock l kind => exact (s.received_keepsReports l _ (s.checkedOut_same l kind)).of_next e
  | keepReceived l => exact (s.received_keepsReports l _ (s.validControl_same l _ State.SameElsewhere.refl)).of_next e
  | hailReceived l sender revision seen => exact (s.received_keepsReports l _ (s.takeHail_same l sender revision seen)).of_next e
  | ackReceived l seq => exact (s.received_keepsReports l _ (s.validControl_same l _ fun t => t.takeAck_same l seq)).of_next e
  | nakReceived l seq => exact (s.received_keepsReports l _ (s.validControl_same l _ fun t => t.takeNak_same l seq)).of_next e
  | grantReceived l c v => exact (s.received_keepsReports l _ (s.validControl_same l _ fun t => t.takeGrant_same l c v)).of_next e
  | frameHeaderReceived l header => exact execFrameHeaderReceived_keepsReports e
  | framePayloadBytes l bytes =>
    exact (s.received_keepsReports l _ (State.foldl_same _ (fun t b => t.takeByte_same l b) bytes s)).of_next e
  | frameTruncated l => exact (s.received_keepsReports l _ (s.marker_same l)).of_next e
  | frameTrailerEnd l check => exact (s.received_keepsReports l _ (s.trailerEnd_same l check)).of_next e
  | frameTrailerAbort l => exact (s.received_keepsReports l _ (s.trailerAbort_same l)).of_next e
  | hailSendEnd l => exact .of_guarded (s.hailSent_same l) e
  | controlBlockSent l => exact .of_guarded (s.controlSent_same l) e
  | txWordRead l =>
    refine State.KeepsReports.of_next ?_ e
    split
    · exact s.readTxWord_keepsReports l
    · exact .refl s
  | firstTransmissionEnd l => exact (s.frameEnd_keepsReports l _ _ fun f => s.firstEnd_same l f).of_next e
  | firstTransmissionAbort l => exact (s.frameEnd_keepsReports l _ _ fun f => s.firstAbort_same l f).of_next e
  | resendEnd l => exact (s.frameEnd_keepsReports l _ _ fun f => s.resendEnded_same l f).of_next e
  | resendAbort l => exact (s.frameEnd_keepsReports l _ (fun _ => s.resendAborted l) fun _ => s.resendAborted_same l).of_next e
  | hailTimerExpiry l =>
    exact (State.KeepsReports.of_same (.ite ((s.modPort_same l _).trans (State.hailNow_same _ l)) (.refl s))).of_next e
  | greetTimeout l => exact .of_guarded (s.enterFault_same l _) e
  | silenceTimeout l => exact .of_guarded (s.enterFault_same l _) e
  | realignTimeout l => exact .of_guarded (s.enterFault_same l _) e
  | holdDownExpiry l =>
    exact (State.KeepsReports.of_same (.ite (.ite (s.enterHunt_same l) (s.modPort_same l _)) (.refl s))).of_next e
  | replayTimerExpiry l => exact .of_guarded (s.replayExpired_same l) e
  | ackDelayExpiry l => exact .of_guarded (s.modRx_same l _) e
  | idleTimerExpiry l => exact .of_guarded ((s.modTx_same l _).trans (State.choose_same _ l true)) e
  | grantRefreshExpiry l => exact .of_guarded (s.refreshGrants_same l) e
  | creditStallExpiry l c => exact .of_guarded (s.stallDrop_same l c) e
  | flushRemoval => exact .of_guarded s.flushStep_same e
  | scrubStep => exact s.scrubExpired_keepsReports.of_next e
  | keepSendEnd l => exact (State.KeepsReports.of_same (s.keepSent_same l)).of_next e

/-- Settles O51: a command takes reports as `tableReport` does, or leaves a part of the table; the queue of commands is no part of it. -/
theorem reportLawKept : Obligations.ReportLawKept := by
  unfold Obligations.ReportLawKept
  intro s t law e
  unfold step at e
  split at e
  · cases e; exact law
  · rename_i c rest _
    exact exec_keepsReports (s := { s with pending := rest }) e law

end Sys2Proof.Machine
end

