-- ==== Sys2Proof/Proofs/Scrubber.lean ====
section
/-! SUPPORT. The scrubber: writes of SCRUB_CONTROL, the word that a step takes, and the end of a pass (section 8.3). -/

namespace Sys2Proof.Machine

/-! ## Writes of SCRUB_CONTROL -/

section
variable {s : State} {m : ScrubMode}

theorem scrubModeOfCode_code (m : ScrubMode) : scrubModeOfCode m.code = some m := by cases m <;> rfl

/-- The state with SCRUB_INTERVAL set; the step timer keeps its length (R158). -/
def State.withInterval (s : State) (n : Nat) : State :=
  { s with scrub := { s.scrub with interval := n } }

/-- SCRUB_INTERVAL after a write of SCRUB_CONTROL. -/
def State.intervalAfter (s : State) (v : Word) : Nat :=
  taken 1 1023 (v.toNat / 65536 % 1024) s.scrub.interval

theorem State.intervalAfter_eq (s : State) (v : Word) :
    s.intervalAfter v = if v.toNat / 65536 % 1024 = 0 then s.scrub.interval else v.toNat / 65536 % 1024 := by
  rw [State.intervalAfter, taken_of_le (by omega)]
  split
  · rename_i positive; rw [if_neg (by omega)]
  · rename_i zero; rw [if_pos (by omega)]

/-- A write that repeats the interval in force keeps it. -/
theorem State.intervalAfter_same {v : Word} (same : v.toNat / 65536 % 1024 = s.scrub.interval) : s.intervalAfter v = s.scrub.interval := by
  rw [State.intervalAfter, same, taken, ite_self]

theorem scrubControl_fields (v : Word) : field v 25 16 = v.toNat / 65536 % 1024 ∧ field v 1 0 = v.toNat % 4 :=
  ⟨field_eq v 25 16, (field_eq v 1 0).trans (by simp)⟩

/-- A mode that names nothing is ignored (R155, R173). -/
theorem exec_scrubModeWrite_unnamed {v : Word} (unnamed : v.toNat % 4 = 3) :
    exec (.scrubModeWrite v) s = .next (s.withInterval (s.intervalAfter v)) := by
  obtain ⟨interval, mode⟩ := scrubControl_fields v
  show Host.Outcome.next (s.writeScrubControl v) = _
  rw [State.writeScrubControl, interval, mode, unnamed]
  rfl

theorem exec_scrubModeWrite {v : Word} (named : v.toNat % 4 = m.code) :
    exec (.scrubModeWrite v) s = .next
      ((s.withInterval (s.intervalAfter v)).writeScrubMode m (firstStepLength s.scrub.interval (s.intervalAfter v))) := by
  obtain ⟨interval, mode⟩ := scrubControl_fields v
  show Host.Outcome.next (s.writeScrubControl v) = _
  rw [State.writeScrubControl, interval, mode, named, scrubModeOfCode_code]
  rfl

/-- A write that repeats the interval in force is the write of the mode alone. -/
theorem exec_scrubModeWrite_same {v : Word} (named : v.toNat % 4 = m.code) (same : v.toNat / 65536 % 1024 = s.scrub.interval) :
    exec (.scrubModeWrite v) s = .next (s.writeScrubMode m s.scrub.interval) := by
  rw [exec_scrubModeWrite named, State.intervalAfter_same same, firstStepLength, ite_self]
  rfl

/-- A mode other than OFF is kept; it starts no pass while one is in progress, and none while READY is 0 (R155). -/
theorem State.writeScrubMode_kept (s : State) (on : m ≠ .off) (busy : s.scrub.running = true ∨ s.ready = false) (n : Nat) :
    s.writeScrubMode m n = { s with scrub := { s.scrub with mode := m } } := by
  have refused : ¬(s.ready && !s.scrub.running) = true := by
    rcases busy with running | unready
    · simp [running]
    · simp [unready]
  exact (if_neg on).trans (if_neg refused)

/-- A mode other than OFF starts a pass at position 0 where the scrubber is idle (R155). -/
theorem State.writeScrubMode_starts (s : State) (on : m ≠ .off) (idle : s.scrub.running = false) (ready : s.ready = true) (n : Nat) :
    s.writeScrubMode m n = { s with scrub := { s.scrub with mode := m, running := true, position := 0, timer := some n } } :=
  (if_neg on).trans (if_pos (by simp [idle, ready]))

end

/-- Settles O20: the write of the interval and the write of the mode, by the mode's code and the scrubber's activity. -/
theorem scrubControlResult : Obligations.ScrubControlResult := by
  unfold Obligations.ScrubControlResult
  refine ⟨fun s v same _ _ => ⟨fun unnamed => ?_, fun off => ?_, fun m on named => ⟨fun busy => ?_, fun idle ready => ?_⟩⟩,
    fun s v running named on => ?_⟩
  · rw [exec_scrubModeWrite_unnamed unnamed, State.intervalAfter_same same]; rfl
  · rw [exec_scrubModeWrite_same (m := .off) off same]; rfl
  · rw [exec_scrubModeWrite_same named same, s.writeScrubMode_kept on busy]
  · rw [exec_scrubModeWrite_same named same, s.writeScrubMode_starts on idle ready]
  · rw [exec_scrubModeWrite named, (s.withInterval (s.intervalAfter v)).writeScrubMode_kept on (.inl running), s.intervalAfter_eq]; rfl

/-! ## The word that a step takes -/

section
variable {s : State} {p : Nat}

/-- A word of a record that is being filled is skipped (R156). -/
theorem State.scrubTake_filling {h : Nat} {r : Record} {filler : Party} (owner : s.ownerOf (p / 8) = some (h, r))
    (phase : r.phase = .filling filler) : s.scrubTake p = s := by
  unfold State.scrubTake
  rw [show s.ownerOf (p / Config.cellWords) = some (h, r) from owner]
  dsimp only
  rw [phase]

theorem State.scrubTake_free (owner : s.ownerOf (p / 8) = none) : s.scrubTake p = s.scrubWord p true := by
  unfold State.scrubTake
  rw [show s.ownerOf (p / Config.cellWords) = none from owner]

theorem State.scrubTake_live {h : Nat} {r : Record} (owner : s.ownerOf (p / 8) = some (h, r)) (phase : r.phase = .live) :
    s.scrubTake p = s.scrubWord p false := by
  unfold State.scrubTake
  rw [show s.ownerOf (p / Config.cellWords) = some (h, r) from owner]
  dsimp only
  rw [phase]

/-- A word of no record or of a LIVE one is read. -/
theorem State.scrubTake_read (taken : ∀ h r, s.ownerOf (p / 8) = some (h, r) → r.phase = .live) :
    ∃ free, s.scrubTake p = s.scrubWord p free := by
  cases owner : s.ownerOf (p / 8) with
  | none => exact ⟨true, State.scrubTake_free owner⟩
  | some e =>
    obtain ⟨h, r⟩ := e
    exact ⟨false, State.scrubTake_live owner (taken h r owner)⟩

theorem State.scrubWord_good (judged : s.judge p = .good) (free : Bool) : s.scrubWord p free = s := by
  unfold State.scrubWord
  rw [judged]
  exact s.noteRead_good .scrub p judged

/-- A corrected word is written back (R156). -/
theorem State.scrubWord_corrected {b : Nat} (judged : s.judge p = .corrected b) (free : Bool) :
    s.scrubWord p free = (s.noteRead .scrub p).writeWord p (s.delivered p) := by
  unfold State.scrubWord
  rw [judged]

/-- An uncorrectable word of a free cell is written to zero, any other is left as it is (R156). -/
theorem State.scrubWord_uncorrectable (judged : s.judge p = .uncorrectable) (free : Bool) :
    s.scrubWord p free = if free then (s.noteRead .scrub p).writeWord p 0 else s.noteRead .scrub p := by
  unfold State.scrubWord
  rw [judged]

/-- A step skips its word, reads it, or reads it and writes it. -/
theorem State.scrubTake_cases (s : State) (p : Nat) :
    s.scrubTake p = s ∨ s.scrubTake p = s.noteRead .scrub p ∨ ∃ w, s.scrubTake p = (s.noteRead .scrub p).writeWord p w := by
  have word : ∀ free, s.scrubWord p free = s ∨ s.scrubWord p free = s.noteRead .scrub p ∨
      ∃ w, s.scrubWord p free = (s.noteRead .scrub p).writeWord p w := fun free => by
    cases judged : s.judge p with
    | good => exact .inl (State.scrubWord_good judged free)
    | corrected b => exact .inr (.inr ⟨_, State.scrubWord_corrected judged free⟩)
    | uncorrectable =>
      rw [State.scrubWord_uncorrectable judged]
      cases free
      · exact .inr (.inl rfl)
      · exact .inr (.inr ⟨0, rfl⟩)
  unfold State.scrubTake
  split
  · exact word true
  · split
    · exact .inl rfl
    · exact word false

end

/-- A read counts no pass. -/
theorem State.scrubPasses_noteRead (s : State) (k : Reader) (p : Nat) :
    (s.noteRead k p).ev.counters.scrubPasses = s.ev.counters.scrubPasses := by
  have report : ∀ (t : State) (e : ReportEntry), (t.makeReport e).ev.counters.scrubPasses = t.ev.counters.scrubPasses := fun t e => by
    refine Eq.trans ?_ (t.tableReport_counter e (c := .scrubPasses) (by decide))
    unfold State.makeReport
    split <;> rfl
  cases judged : s.judge p with
  | good => rw [s.noteRead_good k p judged]
  | corrected b => rw [State.noteRead_corrected k judged, report]
  | uncorrectable => rw [State.noteRead_uncorrectable k judged, report, (s.poisonOwner_spec p).2.1]

/-- What a word taken leaves unchanged: every other word, the free list, the scrubber, the count of passes, queues, ports and unit. -/
theorem State.scrubTake_frame (s : State) (p : Nat) :
    (∀ a, a / 8 ≠ p → (s.scrubTake p).byteAt a = s.byteAt a) ∧ (s.scrubTake p).buf.free = s.buf.free ∧
      (s.scrubTake p).scrub = s.scrub ∧ (s.scrubTake p).ev.counters.scrubPasses = s.ev.counters.scrubPasses ∧
      (s.scrubTake p).queues = s.queues ∧ (s.scrubTake p).portA = s.portA ∧ (s.scrubTake p).portB = s.portB ∧
      (s.scrubTake p).hcu = s.hcu := by
  have passes := s.scrubPasses_noteRead .scrub p
  have read : ∀ a, (s.noteRead .scrub p).byteAt a = s.byteAt a := fun a => by rw [State.byteAt, State.noteRead_buf_mem, State.byteAt]
  rcases s.scrubTake_cases p with skip | noted | ⟨w, written⟩
  · rw [skip]
    exact ⟨fun _ _ => rfl, rfl, rfl, rfl, rfl, rfl, rfl, rfl⟩
  · rw [noted]
    exact ⟨fun a _ => read a, by simp, by simp, passes, by simp, by simp, by simp, by simp⟩
  · rw [written]
    exact ⟨fun a other => by rw [State.byteAt_writeWord, if_neg other, read], by simp, by simp, passes, by simp, by simp, by simp,
      by simp⟩

/-- A word written whole reads back byte by byte. -/
theorem State.byteAt_writeWord_lane (s : State) (p : Nat) (w : CellWord) {i : Nat} (hi : i < 8) :
    (s.writeWord p w).byteAt (8 * p + i) = byteOf w i := by
  have place : (8 * p + i) / 8 = p ∧ (8 * p + i) % 8 = i := by omega
  rw [State.byteAt_writeWord, if_pos place.1, place.2]

/-! ## The position, and the end of a pass -/

section
variable (s : State)

/-- The position and the end of a pass touch the scrubber and the event unit alone. -/
theorem State.scrubAdvance_eq : s.scrubAdvance = { s with scrub := s.scrubAdvance.scrub, ev := s.scrubAdvance.ev } := by
  unfold State.scrubAdvance
  split
  · unfold State.endPass
    dsimp only
    split <;> rfl
  · rfl

theorem State.scrubAdvance_within (below : s.scrub.position + 1 < 8192) :
    s.scrubAdvance = { s with scrub := { s.scrub with position := s.scrub.position + 1, timer := some s.scrub.interval } } :=
  if_neg (Nat.not_le.2 below)

theorem State.scrubAdvance_last (last : 8192 ≤ s.scrub.position + 1) : s.scrubAdvance = s.endPass :=
  if_pos last

/-- A pass that ends is counted, and its event is set (R157). -/
theorem State.endPass_ev : s.endPass.ev = ((s.countPart .scrubPasses).raise .scrubPassDone).ev := by
  unfold State.endPass
  dsimp only
  split <;> rfl

/-- The scrubber after a pass: idle, or at the beginning of the next pass in CONTINUOUS (R157). -/
theorem State.endPass_scrub :
    s.endPass.scrub =
      if s.scrub.mode = .continuous then { s.scrub with running := true, position := 0, timer := some s.scrub.interval }
      else { s.scrub with running := false, position := 0, timer := none } := by
  unfold State.endPass
  dsimp only
  split <;> rfl

/-- The end of a pass touches one counter and one flag. -/
theorem State.scrubAdvance_ev :
    (∀ c, c ≠ .scrubPasses → s.scrubAdvance.ev.counters.get c = s.ev.counters.get c) ∧
      ∀ e : Event, e.bit ≠ 13 → s.scrubAdvance.flag e = s.flag e := by
  rcases Nat.lt_or_ge (s.scrub.position + 1) 8192 with below | last
  · rw [s.scrubAdvance_within below]
    exact ⟨fun _ _ => rfl, fun _ _ => rfl⟩
  · rw [s.scrubAdvance_last last]
    refine ⟨fun c other => ?_, fun e other => ?_⟩
    · rw [s.endPass_ev, State.raise_ev_counters, State.countPart_counter, PartCounters.get_set_ne _ _ _ _ other]
    · rw [State.flag, s.endPass_ev, ← State.flag, State.flag_raise_of_ne _ other, State.flag_countPart_of_not_drop _ rfl]

end

/-- Settles O48: the word that a step takes, by its owner and its judgement, and then the position. -/
theorem scrubStepResult : Obligations.ScrubStepResult := by
  unfold Obligations.ScrubStepResult
  intro s running pos owner report taken
  have run : exec .scrubStep s = .next (s.scrubTake pos).scrubAdvance := congrArg Host.Outcome.next (if_pos running)
  obtain ⟨bytes, free, scrub, passes, queues, portA, portB, hcu⟩ := s.scrubTake_frame pos
  have judged := s.reports_noteRead .scrub pos
  have whole := (s.scrubTake pos).scrubAdvance_eq
  have buf : (s.scrubTake pos).scrubAdvance.buf = (s.scrubTake pos).buf := (congrArg State.buf whole).trans rfl
  have reports : (s.scrubTake pos).scrubAdvance.reports = (s.scrubTake pos).reports := (congrArg State.reports whole).trans rfl
  obtain ⟨counter, flag⟩ := (s.scrubTake pos).scrubAdvance_ev
  refine ⟨_, run, fun below => ?_, fun last => ?_, fun h r filler filling phase => ?_, fun read good => ?_, fun b read corrected => ?_,
    fun unowned uncorrectable => ?_, fun h r owned live uncorrectable => ?_, fun a other => ?_, ?_,
    (congrArg State.queues whole).trans queues, (congrArg State.portA whole).trans portA, (congrArg State.portB whole).trans portB,
    (congrArg State.hcu whole).trans hcu⟩
  · rw [State.scrubAdvance_within _ (by rw [scrub]; exact below)]
    exact ⟨by rw [scrub], passes⟩
  · have ended := State.scrubAdvance_last (s.scrubTake pos) (by rw [scrub]; exact last)
    rw [ended, State.endPass_scrub, State.flag, State.endPass_ev, ← State.flag, State.flag_raise, scrub]
    refine ⟨?_, rfl, rfl⟩
    rw [← passes]
    rfl
  · rw [buf, reports, State.scrubTake_filling filling phase]
    exact ⟨rfl, rfl⟩
  · obtain ⟨free, word⟩ := State.scrubTake_read read
    rw [buf, reports, word, State.scrubWord_good good]
    exact ⟨rfl, rfl⟩
  · obtain ⟨free, word⟩ := State.scrubTake_read read
    rw [State.scrubWord_corrected corrected] at word
    obtain ⟨counted, raised⟩ := State.counted_noteRead_corrected .scrub corrected
    have count := counter .eccCorrectedTotal (by decide)
    have raise := flag .eccCorrected (by decide)
    rw [word] at buf reports count raise ⊢
    refine ⟨fun i hi => ?_, ?_, ?_, reports.trans (judged.2.1 b corrected), count.trans counted, raise.trans raised⟩
    · rw [State.byteAt, buf, ← State.byteAt, State.byteAt_writeWord_lane _ _ _ hi]
    · rw [State.judge_of_buf buf, State.judge_writeWord]
    · rw [buf, State.writeWord_buf_records, State.noteRead_corrected .scrub corrected, State.makeReport_buf]
  · have word : s.scrubTake pos = (s.noteRead .scrub pos).writeWord pos 0 :=
      (State.scrubTake_free unowned).trans (State.scrubWord_uncorrectable uncorrectable true)
    have counted := (State.counted_noteRead_uncorrectable .scrub uncorrectable).1
    have count := counter .eccUncorrectableTotal (by decide)
    rw [word] at buf reports count ⊢
    refine ⟨fun i hi => ?_, ?_, reports.trans (judged.2.2 uncorrectable), count.trans counted⟩
    · rw [State.byteAt, buf, ← State.byteAt, State.byteAt_writeWord_lane _ _ _ hi]
      simp [byteOf]
    · rw [State.judge_of_buf buf, State.judge_writeWord]
  · have word : s.scrubTake pos = s.noteRead .scrub pos :=
      (State.scrubTake_live owned live).trans (State.scrubWord_uncorrectable uncorrectable false)
    obtain ⟨-, raised, poisoned⟩ := State.counted_noteRead_uncorrectable .scrub uncorrectable
    have raise := flag .eccUncorrectable (by decide)
    rw [word] at buf reports raise ⊢
    refine ⟨?_, ?_, reports.trans (judged.2.2 uncorrectable), raise.trans raised⟩
    · rw [State.SameCells, buf]
      exact ⟨s.noteRead_buf_mem _ _, s.noteRead_buf_wrong _ _, s.noteRead_buf_links _ _⟩
    · rw [State.isPoisoned, State.record, buf]
      exact poisoned h r owned
  · rw [State.byteAt, buf, ← State.byteAt, bytes a other]
  · rw [buf, free]

end Sys2Proof.Machine
end

