-- ==== Sys2Proof/Proofs/EventsAndCounters.lean ====
section
/-! SUPPORT. The registers of the Event and Counter Unit: the flags, the enables, the interrupt output, and the counters at their
offsets (chapter 9). -/

namespace Sys2Proof.Machine

/-! ## The bits of the flags -/

/-- The events in the order of Table 9-1. -/
def Event.inOrder : List Event :=
  [.hrcArrival, .hrdArrival, .cmdDone, .cmdOverrun, .linkAUp, .linkADown, .linkBUp, .linkBDown, .eccCorrected, .eccUncorrectable,
    .reportLost, .drop, .portError, .scrubPassDone]

theorem Event.inOrder_bits : Event.inOrder.map Event.bit = List.range 14 := by decide

theorem Event.bit_lt (e : Event) : e.bit < 14 := by cases e <;> decide

/-- Every bit of EVENT_FLAGS is the flag of an event. -/
theorem Event.exists_bit {i : Nat} (below : i < 14) : ∃ e : Event, e.bit = i := by
  have listed : i ∈ Event.inOrder.map Event.bit := by rw [Event.inOrder_bits]; exact List.mem_range.2 below
  obtain ⟨e, -, bit⟩ := List.mem_map.1 listed
  exact ⟨e, bit⟩

/-! ## The flags, the enables and the interrupt output -/

section
variable (s : State) (v : Word)

theorem State.flag_clearFlags (e : Event) : (s.clearFlags v).flag e = (s.flag e && !v.getLsbD e.bit) := by
  simp [State.clearFlags, State.flag, e.bit_lt]

theorem State.getLsbD_writeEnables {i : Nat} (below : i < 14) : (s.writeEnables v).ev.enables.getLsbD i = v.getLsbD i := by
  simp [State.writeEnables, below]

/-- EVENT_ENABLE reads the enables in its low 14 bits (Table 10-1). -/
theorem State.getLsbD_readRegister_enables {i : Nat} (below : i < 14) : (s.readRegister 5).getLsbD i = s.ev.enables.getLsbD i := by
  have read : s.readRegister 5 = s.ev.enables.setWidth 32 := rfl
  have inside : i < 32 := by omega
  rw [read, BitVec.getLsbD_setWidth, decide_eq_true inside, Bool.true_and]

/-- The interrupt output is active exactly while some flag is set and enabled (R168). -/
theorem State.interruptActive_iff :
    s.interruptActive = true ↔ ∃ e : Event, s.flag e = true ∧ s.ev.enables.getLsbD e.bit = true := by
  have both (e : Event) : s.pendingSet.getLsbD e.bit = true ↔ s.flag e = true ∧ s.ev.enables.getLsbD e.bit = true := by
    simp [State.pendingSet, State.flag]
  rw [State.interruptActive, bne_iff_ne]
  constructor
  · intro pending
    by_contra unset
    refine pending (BitVec.eq_of_getLsbD_eq fun i below => ?_)
    obtain ⟨e, rfl⟩ := Event.exists_bit below
    simpa using fun set => unset ⟨e, (both e).1 set⟩
  · rintro ⟨e, set⟩ zero
    have bit := (both e).2 set
    simp [zero] at bit

end

/-! ## The counters at their offsets -/

section
variable {s : State} {i : Nat}

theorem partCounterAt_lt {c : PartCounter} (listed : partCounterAt i = some c) : i < 12 := by
  by_contra above
  obtain ⟨k, rfl⟩ := Nat.exists_eq_add_of_le' (Nat.not_lt.1 above)
  cases listed

theorem linkCounterAt_lt {c : LinkCounter} (listed : linkCounterAt i = some c) : i < 11 := by
  by_contra above
  obtain ⟨k, rfl⟩ := Nat.exists_eq_add_of_le' (Nat.not_lt.1 above)
  cases listed

/-- Every other register of the part that takes a write lies below the counters (Table 10-1). -/
theorem State.writePartWord_counter {c : PartCounter} (listed : partCounterAt i = some c) (v : Word) :
    s.writePartWord (36 + i) v = s.writePartCounter c v := by
  have above : 36 ≤ 36 + i := Nat.le_add_right _ _
  have place : 36 + i - 36 = i := Nat.add_sub_cancel_left _ _
  unfold State.writePartWord
  split
  rotate_right
  · rw [if_pos above, place, listed]
  all_goals omega

/-- Every other register of a link that takes a write lies below its counters (Table 10-2). -/
theorem State.writeLinkWord_counter (l : LinkId) {c : LinkCounter} (listed : linkCounterAt i = some c) (v : Word) :
    s.writeLinkWord l (17 + i) v = s.writeLinkCounter l c v := by
  have above : 17 ≤ 17 + i := Nat.le_add_right _ _
  have place : 17 + i - 17 = i := Nat.add_sub_cancel_left _ _
  unfold State.writeLinkWord
  split
  rotate_right
  · rw [if_pos above, place, listed]
  all_goals omega

/-- The word index of a link's first counter. -/
def firstLinkCounter : LinkId → Nat
  | .a => 81
  | .b => 113

theorem exec_registerWrite_partCounter {c : PartCounter} (listed : partCounterAt i = some c) (v : Word) :
    exec (.registerWrite (BitVec.ofNat 7 (36 + i)) v) s = .next (s.writePartCounter c v) := by
  have below := partCounterAt_lt listed
  have index : (BitVec.ofNat 7 (36 + i)).toNat = 36 + i := by rw [BitVec.toNat_ofNat]; omega
  have part : 36 + i < 64 := by omega
  show Host.Outcome.next (s.writeRegister _ v) = _
  rw [State.writeRegister, index, if_pos part, State.writePartWord_counter listed]

theorem exec_registerWrite_linkCounter (l : LinkId) {c : LinkCounter} (listed : linkCounterAt i = some c) (v : Word) :
    exec (.registerWrite (BitVec.ofNat 7 (firstLinkCounter l + i)) v) s = .next (s.writeLinkCounter l c v) := by
  have below := linkCounterAt_lt listed
  have bound : firstLinkCounter l ≤ 113 := by cases l <;> decide
  have index : (BitVec.ofNat 7 (firstLinkCounter l + i)).toNat = firstLinkCounter l + i := by rw [BitVec.toNat_ofNat]; omega
  show Host.Outcome.next (s.writeRegister _ v) = _
  rw [State.writeRegister, index, ← State.writeLinkWord_counter l listed]
  cases l with
  | a =>
    have place : firstLinkCounter .a + i = 64 + (17 + i) := by rw [firstLinkCounter]; omega
    rw [place, if_neg (by omega), if_pos (by omega), Nat.add_sub_cancel_left]
  | b =>
    have place : firstLinkCounter .b + i = 96 + (17 + i) := by rw [firstLinkCounter]; omega
    rw [place, if_neg (by omega), if_neg (by omega), if_neg (by omega), if_pos (by omega), Nat.add_sub_cancel_left]

theorem State.counters_writePartCounter (s : State) (c : PartCounter) (v : Word) :
    (s.writePartCounter c v).ev.counters = s.ev.counters.set c v := rfl

theorem State.counters_writeLinkCounter (s : State) (l : LinkId) (c : LinkCounter) (v : Word) :
    ((s.writeLinkCounter l c v).port l).counters = (s.port l).counters.set c v := by
  rw [State.writeLinkCounter, State.port_modPort]

end

/-- Settles O21: a write puts its value in the one place that a count then raises, whatever that place held. -/
theorem counterWriteResult : Obligations.CounterWriteResult := by
  unfold Obligations.CounterWriteResult
  refine fun s v => ⟨fun i c listed => ?_, fun l i c listed => ?_⟩
  · have counters := s.counters_writePartCounter c v
    refine ⟨_, exec_registerWrite_partCounter listed v, ?_, fun d other => ?_, rfl, ?_, _,
      exec_registerWrite_partCounter listed v, ?_⟩
    · rw [counters, PartCounters.get_set]
    · rw [counters, PartCounters.get_set_ne _ _ _ _ other]
    · rw [State.countPart_counter, PartCounters.get_set, counters, PartCounters.get_set]
    · rw [State.counters_writePartCounter, PartCounters.get_set]
  · have counters := s.counters_writeLinkCounter l c v
    refine ⟨_, exec_registerWrite_linkCounter l listed v, ?_, fun d other => ?_, ?_, ?_, _,
      exec_registerWrite_linkCounter l listed v, ?_⟩
    · rw [counters, LinkCounters.get_set]
    · rw [counters, LinkCounters.get_set_ne _ _ _ _ other]
    · rw [counters, State.writeLinkCounter, State.modPort_eq]
    · rw [State.port_countLink, LinkCounters.get_set, counters, LinkCounters.get_set]
    · rw [State.counters_writeLinkCounter, LinkCounters.get_set]

/-- Settles O18: the write masks the flags with the complement of its value, and a cause sets its flag again. -/
theorem eventFlagsClearResult : Obligations.EventFlagsClearResult := by
  unfold Obligations.EventFlagsClearResult
  refine fun s v => ⟨s.clearFlags v, rfl, s.flag_clearFlags v, rfl, fun e written => ⟨⟨_, rfl, ?_⟩, State.flag_raise _ e⟩⟩
  rw [State.flag_clearFlags, written, Bool.not_true, Bool.and_false]

/-- Settles O19: the enables take the low bits of the value, and the interrupt output follows them at once. -/
theorem eventEnableResult : Obligations.EventEnableResult := by
  unfold Obligations.EventEnableResult
  refine ⟨fun s v => ⟨s.writeEnables v, rfl, fun i below => ?_, rfl, ?_⟩, fun s => ⟨⟨_, rfl, rfl, ?_⟩, _, rfl, rfl⟩⟩
  · rw [State.getLsbD_readRegister_enables _ below, State.getLsbD_writeEnables _ _ below]
    exact ⟨rfl, rfl⟩
  · simp only [State.interruptActive_iff, State.getLsbD_writeEnables _ _ (Event.bit_lt _)]
  · show State.reset.interruptActive = false
    decide

end Sys2Proof.Machine
end

