-- ==== Sys2Proof/Proofs/LineBlocks.lean ====
section
/-! SUPPORT. The blocks on the line: a check and a body sent together, the fields read back from them, and the trailer's check
(section 10.4). -/

namespace Sys2Proof.Machine

/-! ## A check sent above its body -/

/-- The bytes of a block that lie in its body are the body's own. -/
theorem bytesOf_append {m n : Nat} (check : BitVec m) (body : BitVec n) {k : Nat} (inside : 8 * k ≤ n) :
    bytesOf (check ++ body) k = bytesOf body k := by
  refine List.map_congr_left fun j below => ?_
  have lt : j < k := List.mem_range.1 below
  exact BitVec.extractLsb'_append_eq_of_add_le (by omega)

theorem controlCheckOk_encode (b : ControlBlock) : controlCheckOk b.encode = true := by
  rw [controlCheckOk, ControlBlock.encode, bytesOf_append _ _ (by decide), BitVec.extractLsb'_append_eq_left, beq_self_eq_true]

theorem headerCheckOk_encode (f : HeaderFields) : headerCheckOk f.encode = true := by
  rw [headerCheckOk, HeaderFields.encode, bytesOf_append _ _ (by decide), BitVec.extractLsb'_append_eq_left, beq_self_eq_true]

/-! ## Fields read back

A layout is a chain of appended fields: a read at or above the end of the lowest field is a read of the rest, and a read that fits
below the check is a read of the body. Added widths stay sums, as the layouts write them. -/

/-- Table 10-4, type by type. -/
theorem controlFields_encode (b : ControlBlock) : controlFields b.encode = some b := by
  unfold controlFields ControlBlock.encode ControlBlock.body byteOf
  cases b with
  | hail _ _ seen =>
    cases seen <;> simp [BitVec.extractLsb'_append_eq_of_le, BitVec.extractLsb'_append_eq_of_add_le, -Nat.reduceAdd]
  | grant c _ =>
    cases c <;> simp [BitVec.extractLsb'_append_eq_of_le, BitVec.extractLsb'_append_eq_of_add_le, -Nat.reduceAdd]
  | ack _ | nak _ | keep =>
    simp [BitVec.extractLsb'_append_eq_of_le, BitVec.extractLsb'_append_eq_of_add_le, -Nat.reduceAdd]

/-- The class of a header is its bit 0 (Table 10-5). -/
theorem HeaderFields.getLsbD_encode_zero (f : HeaderFields) : f.encode.getLsbD 0 = decide (f.cls = .data) := by
  rw [HeaderFields.encode, BitVec.getLsbD_append, if_pos (by decide), HeaderFields.body, BitVec.getLsbD_append, if_pos (by decide)]
  cases f.cls <;> rfl

/-- Table 10-5, field by field. -/
theorem headerFields_encode (f : HeaderFields) : headerFields f.encode = f := by
  have class_read : (if f.encode.getLsbD 0 then Cls.data else Cls.control) = f.cls := by
    rw [f.getLsbD_encode_zero]
    cases f.cls <;> rfl
  rw [headerFields, class_read]
  unfold HeaderFields.encode HeaderFields.body byteOf
  simp [BitVec.extractLsb'_append_eq_of_le, BitVec.extractLsb'_append_eq_of_add_le, -Nat.reduceAdd]

/-! ## What a block is received as -/

section
variable (l : LinkId)

theorem receiveControlBlock_damaged {block : BitVec 64} (damaged : controlCheckOk block = false) :
    receiveControlBlock l block = .checkedOutBlock l .control :=
  if_neg (by rw [damaged]; nofun)

theorem receiveFrameHeader_intact {header : BitVec 128} (intact : headerCheckOk header = true) :
    receiveFrameHeader l header = .frameHeaderReceived l header :=
  if_pos intact

theorem receiveFrameHeader_damaged {header : BitVec 128} (damaged : headerCheckOk header = false) :
    receiveFrameHeader l header = .checkedOutBlock l .frame :=
  if_neg (by rw [damaged]; nofun)

/-- Four bytes, the first of them the low byte, are the check they were cut from (R176). -/
theorem checkOfBytes_bytes (check : BitVec 32) :
    checkOfBytes (check.extractLsb' 0 8) (check.extractLsb' 8 8) (check.extractLsb' 16 8) (check.extractLsb' 24 8) = check := by
  rw [checkOfBytes, BitVec.extractLsb'_append_extractLsb'_eq_extractLsb' (by decide),
    BitVec.extractLsb'_append_extractLsb'_eq_extractLsb' (by decide), BitVec.extractLsb'_append_extractLsb'_eq_extractLsb' (by decide),
    BitVec.extractLsb'_eq_self]

theorem receiveTrailer_checkBytes (check : BitVec 32) : receiveTrailer l (checkBytes check) = .frameTrailerEnd l check :=
  congrArg (Instr.frameTrailerEnd l) (checkOfBytes_bytes check)

theorem receiveTrailer_short {bytes : List Byte} (short : bytes.length < 4) : receiveTrailer l bytes = .frameTruncated l := by
  unfold receiveTrailer
  split
  · simp only [List.length_cons] at short
    omega
  · rfl

end

/-- Settles O60: the check is computed over the body that carries the fields, so both are read back. -/
theorem lineEncodingAgrees : Obligations.LineEncodingAgrees := by
  unfold Obligations.LineEncodingAgrees
  refine ⟨fun l b => ⟨controlCheckOk_encode b, controlFields_encode b, ?_⟩,
    fun l f => ⟨headerCheckOk_encode f, headerFields_encode f, receiveFrameHeader_intact l (headerCheckOk_encode f)⟩,
    fun l _ => receiveControlBlock_damaged l, fun l _ => receiveFrameHeader_damaged l,
    fun l check => ⟨rfl, receiveTrailer_checkBytes l check⟩, fun l _ => receiveTrailer_short l⟩
  rw [receiveControlBlock, if_pos (controlCheckOk_encode b), controlFields_encode]
  cases b <;> rfl

end Sys2Proof.Machine
end

