-- ==== Sys2Proof/Proofs/BusWrites.lean ====
section
/-! SUPPORT. The rows of the table that the bus writes are: the commands of CMD by their codes, and the registers with a row of their
own (section 10.1). -/

namespace Sys2Proof.Machine

/-- A word whose number is known. -/
theorem eq_ofNat_of_toNat_eq {w i : Nat} {x : BitVec w} (number : x.toNat = i) : x = BitVec.ofNat w i := by
  rw [← number, BitVec.ofNat_toNat, BitVec.setWidth_eq]

/-! ## The write of CMD -/

/-- A value written to CMD is the code of a command, or it names none (Table 10-3). -/
theorem commandOfCode_cases (code : Word) :
    (commandOfCode code, code) ∈ commandCodes ∨
      namesCommand code = false ∧ commandOfCode code = .unknownCommand code ∧ ∀ s : State, s.commandWrite code = s.unknownCode code := by
  by_cases named : 1 ≤ code.toNat ∧ code.toNat ≤ 13
  · left
    obtain ⟨low, high⟩ := named
    generalize number : code.toNat = k at low high
    obtain rfl := eq_ofNat_of_toNat_eq number
    clear number
    interval_cases k <;> decide
  · right
    refine ⟨decide_eq_false named, ?_, fun s => ?_⟩
    · unfold commandOfCode
      split
      rotate_right
      · rfl
      all_goals omega
    · unfold State.commandWrite
      split
      rotate_right
      · rfl
      all_goals omega

/-- Each command of Table 7-3 is the write of its code to CMD. -/
theorem exec_commandCodes {c : Instr} {code : Word} (listed : (c, code) ∈ commandCodes) (s : State) :
    exec c s = .next (s.commandWrite code) ∧ c.wellFormed = true := by
  simp only [commandCodes, List.mem_cons, Prod.mk.injEq, List.not_mem_nil, or_false] at listed
  rcases listed with ⟨rfl, rfl⟩ | ⟨rfl, rfl⟩ | ⟨rfl, rfl⟩ | ⟨rfl, rfl⟩ | ⟨rfl, rfl⟩ | ⟨rfl, rfl⟩ |
    ⟨rfl, rfl⟩ | ⟨rfl, rfl⟩ | ⟨rfl, rfl⟩ |
    ⟨rfl, rfl⟩ | ⟨rfl, rfl⟩ | ⟨rfl, rfl⟩ | ⟨rfl, rfl⟩
  all_goals exact ⟨rfl, rfl⟩

theorem exec_commandOfCode (code : Word) (s : State) :
    exec (commandOfCode code) s = .next (s.commandWrite code) ∧ (commandOfCode code).wellFormed = true := by
  obtain listed | ⟨unnamed, unknown, write⟩ := commandOfCode_cases code
  · exact exec_commandCodes listed s
  · rw [unknown, write]
    exact ⟨rfl, by rw [Instr.wellFormed, unnamed]; rfl⟩

/-- While BUSY the command that the code names is not judged (R128). -/
theorem State.commandWrite_busy {s : State} (busy : s.hcu.busy = true) (code : Word) : s.commandWrite code = s.raise .cmdOverrun := by
  obtain listed | ⟨-, -, write⟩ := commandOfCode_cases code
  · obtain ⟨-, body, taken⟩ := exec_command listed
    have written := (exec_commandCodes listed s).1
    rw [taken, s.takeCommand_busy _ _ busy] at written
    injection written with same
    exact same.symm
  · rw [write, State.unknownCode]
    exact if_pos busy

/-! ## The registers with a row of their own -/

/-- REGISTER_WRITE describes the write of a register without a row of its own, a write of CONTROL that resets nothing among them. -/
theorem wellFormed_registerWrite {reg : BitVec 7} {v : Word} (shared : ownRow reg = false)
    (noReset : reg.toNat = 0 → v.getLsbD 0 = false) : (Instr.registerWrite reg v).wellFormed = true := by
  rw [Instr.wellFormed, shared]
  by_cases control : reg = 0
  · rw [noReset (by rw [control]; rfl), Bool.and_false]
    rfl
  · rw [beq_eq_false_iff_ne.2 control]
    rfl

/-- Settles O23: the registers with a row of their own one by one, CONTROL by its reset bit and CMD by BUSY, and every other register
by REGISTER_WRITE. -/
theorem busWriteAgrees : Obligations.BusWriteAgrees := by
  unfold Obligations.BusWriteAgrees
  intro s reg v
  unfold busWrite
  split
  case h_1 index => -- CONTROL
    obtain rfl := eq_ofNat_of_toNat_eq index
    split
    · next reset => exact ⟨congrArg Host.Outcome.next (if_pos reset).symm, rfl⟩
    · next other => exact ⟨rfl, wellFormed_registerWrite rfl fun _ => Bool.eq_false_iff.2 other⟩
  case h_5 index => -- CMD
    obtain rfl := eq_ofNat_of_toNat_eq index
    split
    · next busy =>
      have write : s.writeRegister 12 v = s.commandWrite v := rfl
      exact ⟨congrArg Host.Outcome.next ((if_pos busy).trans (write.trans (State.commandWrite_busy busy v)).symm), rfl⟩
    · exact exec_commandOfCode v s
  case h_10 noReset _ _ _ _ _ _ _ _ => -- no row of its own
    exact ⟨rfl, wellFormed_registerWrite (by simp_all [ownRow]) fun control => (noReset control).elim⟩
  all_goals -- one row for every value
    rename_i index
    obtain rfl := eq_ofNat_of_toNat_eq index
    exact ⟨rfl, rfl⟩

end Sys2Proof.Machine
end

