-- ==== Sys2Proof/Proofs/FrontCommand.lean ====
section
/-! SUPPORT. One step, by the queue of waiting commands (log entry 7). -/

namespace Sys2Proof.Machine

theorem step_of_empty {s : State} (empty : s.pending = []) : step s = .next s := by
  unfold step
  rw [empty]

theorem step_of_front {s : State} {c : Instr} {rest : List Instr} (front : s.pending = c :: rest) :
    step s = exec c { s with pending := rest } := by
  unfold step
  rw [front]

/-- Settles O1: the front command is run on the state with the queue's rest, which here is the queue it was put before. -/
theorem stepRunsFrontCommand : Obligations.StepRunsFrontCommand := by
  unfold Obligations.StepRunsFrontCommand
  exact ⟨fun c s => step_of_front (s := { s with pending := c :: s.pending }) rfl, fun _ => step_of_empty⟩

end Sys2Proof.Machine
end

