-- ==== Sys2Proof/Proofs/MemoryUntouched.lean ====
section
/-! SUPPORT. The operations that leave the bytes of the cell memory as they are: all of the link control, the arbiters, the transmitters
and the deliveries. They move records, chains and queue entries, never a stored byte. -/

namespace Sys2Proof.Machine

/-- The bytes under a condition are those of the branch taken, so that equal bytes of both branches need no case split. -/
@[simp] theorem State.memory_ite {p : Prop} [Decidable p] (s t : State) :
    (if p then s else t).buf.mem = if p then s.buf.mem else t.buf.mem :=
  apply_ite (fun u : State => u.buf.mem) p s t

/-- A fold of an operation that leaves the bytes leaves them. -/
theorem State.memory_foldl {α : Type} {f : State → α → State} (hf : ∀ (t : State) (a : α), (f t a).buf.mem = t.buf.mem)
    (xs : List α) (s : State) : (xs.foldl f s).buf.mem = s.buf.mem := by
  induction xs generalizing s with
  | nil => rfl
  | cons a xs ih => exact (ih (f s a)).trans (hf s a)

/-! ## Queues -/

@[simp] theorem State.memory_popHead (s : State) (q : QueueId) : (s.popHead q).buf.mem = s.buf.mem := by
  rw [State.popHead_buf]

@[simp] theorem State.memory_entryLeft (s : State) (q : QueueId) (h : Nat) : (s.entryLeft q h).buf.mem = s.buf.mem := by
  rw [State.entryLeft_buf]

@[simp] theorem State.memory_dropHead (s : State) (q : QueueId) (h : Nat) : (s.dropHead q h).buf.mem = s.buf.mem :=
  (s.dropHead_sameCells q h).1

/-! ## Teardown -/

@[simp] theorem State.memory_teardownDrop (s : State) (l : LinkId) (h : Nat) : (s.teardownDrop l h).buf.mem = s.buf.mem := by
  simp [State.teardownDrop, State.removeLinkHolder]

@[simp] theorem State.memory_clearFilling (s : State) (l : LinkId) : (s.clearFilling l).buf.mem = s.buf.mem := by
  unfold State.clearFilling
  split
  · exact s.freeRecord_buf_mem _
  · rfl

@[simp] theorem State.memory_clearSending (s : State) (l : LinkId) : (s.clearSending l).buf.mem = s.buf.mem := by
  unfold State.clearSending
  split
  · simp
  · rfl
  · rfl

@[simp] theorem State.memory_clearUnacked (s : State) (l : LinkId) : (s.clearUnacked l).buf.mem = s.buf.mem := by
  rw [State.clearUnacked, State.modTx_buf]
  exact State.memory_foldl (fun t h => t.memory_teardownDrop l h) _ s

@[simp] theorem State.memory_clearTxQueue (s : State) (l : LinkId) (c : Cls) : (s.clearTxQueue l c).buf.mem = s.buf.mem :=
  State.memory_foldl (fun t h => by simp) _ s

@[simp] theorem State.memory_teardown (s : State) (l : LinkId) (target : LinkState) : (s.teardown l target).buf.mem = s.buf.mem := by
  simp [State.teardown, State.clearSession]

@[simp] theorem State.memory_enterFault (s : State) (l : LinkId) (reason : FaultReason) : (s.enterFault l reason).buf.mem = s.buf.mem := by
  simp [State.enterFault]

/-! ## What follows every step -/

@[simp] theorem State.memory_makeDue (s : State) (l : LinkId) (c : Cls) : (s.makeDue l c).buf.mem = s.buf.mem := by
  rw [State.makeDue, State.modCredit_buf]

@[simp] theorem State.memory_noteGrant (s b : State) (l : LinkId) (c : Cls) : (s.noteGrant b l c).buf.mem = s.buf.mem := by
  simp [State.noteGrant]

@[simp] theorem State.memory_noteGrants (s b : State) : (s.noteGrants b).buf.mem = s.buf.mem := by
  simp [State.noteGrants]

@[simp] theorem State.memory_refreshStall (s : State) (l : LinkId) (c : Cls) : (s.refreshStall l c).buf.mem = s.buf.mem := by
  simp [State.refreshStall]

@[simp] theorem State.memory_beginBlock (s : State) (l : LinkId) (b : LineBlock) : (s.beginBlock l b).buf.mem = s.buf.mem := by
  rw [State.beginBlock, State.modTx_buf]

theorem State.memory_beginFirst (s : State) (l : LinkId) (c : Cls) (h : Nat) : (s.beginFirst l c h).buf.mem = s.buf.mem := by
  unfold State.beginFirst
  split
  · rfl
  · simp [State.setLinkHolder]

theorem State.memory_beginResend (s : State) (l : LinkId) (h : Nat) : (s.beginResend l h).buf.mem = s.buf.mem := by
  unfold State.beginResend
  split
  · rfl
  · exact s.memory_beginBlock l _

theorem State.memory_poisonDrop (s : State) (l : LinkId) (c : Cls) (h : Nat) : (s.poisonDrop l c h).buf.mem = s.buf.mem := by
  simp [State.poisonDrop]

/-- A choice of the arbiter begins a block, drops heads or ends the session: it stores nothing. -/
theorem State.memory_arbitrate (fuel : Nat) (l : LinkId) (keep : Bool) (s : State) :
    (State.arbitrate fuel l keep s).buf.mem = s.buf.mem := by
  induction fuel generalizing s with
  | zero => rfl
  | succ fuel ih =>
    unfold State.arbitrate
    split
    · split
      · simp [State.beginNak]
      · simp [State.beginAck]
      · simp [State.beginGrant, State.decideGrant]
      · simp [State.memory_beginResend]
      · simp [ih, State.memory_poisonDrop, State.memory_beginFirst]
      · exact s.memory_beginBlock l _
      · simp [State.stayIdle]
    · rfl

@[simp] theorem State.memory_choose (s : State) (l : LinkId) (keep : Bool) : (s.choose l keep).buf.mem = s.buf.mem :=
  State.memory_arbitrate _ l keep s

@[simp] theorem State.memory_settle (s b : State) : (s.settle b).buf.mem = s.buf.mem := by
  simp [State.settle, State.refreshStalls, State.arbiters, State.chooseBoth]

/-! ## Link states -/

@[simp] theorem State.memory_enterHunt (s : State) (l : LinkId) : (s.enterHunt l).buf.mem = s.buf.mem := by
  rw [State.enterHunt, State.modPort_buf]

@[simp] theorem State.memory_hailNow (s : State) (l : LinkId) : (s.hailNow l).buf.mem = s.buf.mem := by
  simp [State.hailNow, State.beginHail]

@[simp] theorem State.memory_dueAtEntry (s : State) (l : LinkId) (c : Cls) : (s.dueAtEntry l c).buf.mem = s.buf.mem := by
  simp [State.dueAtEntry]

@[simp] theorem State.memory_enterActive (s : State) (l : LinkId) : (s.enterActive l).buf.mem = s.buf.mem := by
  simp [State.enterActive]

/-! ## The receiver -/

@[simp] theorem State.memory_startNak (s : State) (l : LinkId) : (s.startNak l).buf.mem = s.buf.mem := by
  rw [State.startNak, State.modPort_buf]

@[simp] theorem State.memory_passOver (s : State) (l : LinkId) : (s.passOver l).buf.mem = s.buf.mem := by
  rw [State.passOver, State.modRx_buf]

@[simp] theorem State.memory_giveBack (s : State) (l : LinkId) (f : RxFrame) : (s.giveBack l f).buf.mem = s.buf.mem := by
  simp [State.giveBack, State.unconsume]

@[simp] theorem State.memory_failFrame (s : State) (l : LinkId) (f : RxFrame) : (s.failFrame l f).buf.mem = s.buf.mem := by
  simp [State.failFrame]

@[simp] theorem State.memory_marker (s : State) (l : LinkId) : (s.marker l).buf.mem = s.buf.mem := by
  rw [State.marker, State.modRx_buf]
  split
  · exact s.memory_failFrame l _
  · rfl

@[simp] theorem State.memory_countValid (s : State) (l : LinkId) : (s.countValid l).buf.mem = s.buf.mem := by
  rw [State.countValid, State.modPort_buf]

@[simp] theorem State.memory_huntBlock (s : State) (l : LinkId) : (s.huntBlock l).buf.mem = s.buf.mem := by
  simp [State.huntBlock, State.enterGreet]

@[simp] theorem State.memory_activeBlock (s : State) (l : LinkId) : (s.activeBlock l).buf.mem = s.buf.mem := by
  simp [State.activeBlock, State.realigned]

theorem State.memory_noMarker (s : State) (l : LinkId) : (s.noMarker l).buf.mem = s.buf.mem := by
  simp [State.noMarker, State.enterRealigning]

theorem State.memory_checkedOut (s : State) (l : LinkId) (kind : BlockKind) : (s.checkedOut l kind).buf.mem = s.buf.mem := by
  cases kind with
  | control => simp [State.checkedOut]
  | frame => simp [State.checkedOut]

theorem State.memory_validControl (s : State) (l : LinkId) {act : State → State} (hact : ∀ t : State, (act t).buf.mem = t.buf.mem) :
    (s.validControl l act).buf.mem = s.buf.mem := by
  unfold State.validControl
  split
  · rfl
  · rfl
  · simp
  · simp [hact]
  · simp [hact]

theorem State.memory_greetHail (s : State) (l : LinkId) (sender : Byte) (seen : Bool) :
    (s.greetHail l sender seen).buf.mem = s.buf.mem := by
  simp [State.greetHail]

theorem State.memory_takeHail (s : State) (l : LinkId) (sender revision : Byte) (seen : Bool) :
    (s.takeHail l sender revision seen).buf.mem = s.buf.mem := by
  unfold State.takeHail
  split
  · rfl
  · rfl
  · simp
  · simp [State.memory_greetHail]
  · simp

/-- A header that is taken in has cells allocated for it, and none of their bytes written yet (R72). -/
theorem State.memory_judgeHeader {s t : State} {l : LinkId} {header : BitVec 128} (judged : s.judgeHeader l header = .ok t) :
    t.buf.mem = s.buf.mem := by
  unfold State.judgeHeader at judged
  dsimp only at judged
  split at judged
  · split at judged
    · cases judged; exact s.memory_enterFault l _
    · split at judged
      · cases judged; exact s.memory_enterFault l _
      · split at judged
        · cases judged
        · cases judged; simp [State.takeIn, State.consume]
  · split at judged
    · cases judged; simp [State.behind]
    · cases judged; simp [State.ahead]

theorem State.memory_validFrame {s t : State} {l : LinkId} {header : BitVec 128} (valid : s.validFrame l header = .ok t) :
    t.buf.mem = s.buf.mem := by
  unfold State.validFrame at valid
  dsimp only at valid
  split at valid
  · cases valid; rfl
  · cases valid; rfl
  · cases valid; simp
  · split at valid
    · rw [State.memory_judgeHeader valid]; simp
    · cases valid; simp
  · split at valid
    · cases valid; simp
    · rw [State.memory_judgeHeader valid]; simp

/-! ## Deliveries -/

@[simp] theorem State.memory_enterHost (s : State) (c : Cls) (h : Nat) : (s.enterHost c h).buf.mem = s.buf.mem := rfl

@[simp] theorem State.memory_noteArrival (s : State) (c : Cls) (before : Nat) : (s.noteArrival c before).buf.mem = s.buf.mem := by
  simp [State.noteArrival]

@[simp] theorem State.memory_dropOldest (s : State) (c : Cls) : (s.dropOldest c).buf.mem = s.buf.mem := by
  unfold State.dropOldest
  split
  · rfl
  · simp

@[simp] theorem State.memory_admitHost (s : State) (c : Cls) (h : Nat) : (s.admitHost c h).buf.mem = s.buf.mem := by
  unfold State.admitHost
  dsimp only
  split
  · split
    · simp
    · simp
  · simp

@[simp] theorem State.memory_admitForward (s : State) (l : LinkId) (c : Cls) (h : Nat) (hops : BitVec 4) :
    (s.admitForward l c h hops).buf.mem = s.buf.mem := by
  simp [State.admitForward, State.append]

@[simp] theorem State.memory_deliverParts (s : State) (l : LinkId) (h : Nat) (r : Record) : (s.deliverParts l h r).buf.mem = s.buf.mem := by
  unfold State.deliverParts
  split
  · exact s.memory_admitHost _ h
  · exact s.memory_admitForward _ _ h _
  · simp
  · simp

@[simp] theorem State.memory_deliver (s : State) (l : LinkId) (h : Nat) : (s.deliver l h).buf.mem = s.buf.mem := by
  unfold State.deliver
  split
  · rfl
  · simp

theorem State.memory_trailerEnd (s : State) (l : LinkId) (check : BitVec 32) : (s.trailerEnd l check).buf.mem = s.buf.mem := by
  unfold State.trailerEnd
  split
  · simp [State.acceptFrame]
  · simp [State.passTrailer]

theorem State.memory_trailerAbort (s : State) (l : LinkId) : (s.trailerAbort l).buf.mem = s.buf.mem := by
  unfold State.trailerAbort
  split
  · simp
  · simp [State.passTrailer]

/-! ## The transmitter -/

@[simp] theorem State.memory_testEpisode (s : State) (l : LinkId) : (s.testEpisode l).buf.mem = s.buf.mem := by
  simp [State.testEpisode]

@[simp] theorem State.memory_dropOldestEntries (s : State) (l : LinkId) (k : Nat) : (s.dropOldestEntries l k).buf.mem = s.buf.mem := by
  rw [State.dropOldestEntries, State.modTx_buf]
  exact State.memory_foldl (fun t h => t.removeHolder_buf_mem h _) _ s

@[simp] theorem State.memory_confirm (s : State) (l : LinkId) (k : Nat) (point : Byte) : (s.confirm l k point).buf.mem = s.buf.mem := by
  rw [State.confirm, State.restartReplay, State.modPort_buf, State.modTx_buf]
  split
  · exact s.memory_dropOldestEntries l k
  · split
    · exact s.memory_dropOldestEntries l k
    · simp

@[simp] theorem State.memory_startEpisode (s : State) (l : LinkId) (point : Byte) : (s.startEpisode l point).buf.mem = s.buf.mem := by
  simp [State.startEpisode]

@[simp] theorem State.memory_takeAck (s : State) (l : LinkId) (n : Byte) : (s.takeAck l n).buf.mem = s.buf.mem := by
  unfold State.takeAck
  split
  · simp
  · simp

theorem State.memory_takeNak (s : State) (l : LinkId) (n : Byte) : (s.takeNak l n).buf.mem = s.buf.mem := by
  unfold State.takeNak
  split
  · simp
  · simp

theorem State.memory_takeGrant (s : State) (l : LinkId) (c : Cls) (v : Credit) : (s.takeGrant l c v).buf.mem = s.buf.mem := by
  simp [State.takeGrant]

theorem State.memory_replayExpired (s : State) (l : LinkId) : (s.replayExpired l).buf.mem = s.buf.mem := by
  unfold State.replayExpired
  split
  · rfl
  · split
    · exact s.memory_startEpisode l _
    · rfl

/-- A read of a payload word may poison the record, and writes nothing back (R95, R153). -/
theorem State.memory_readTxWord (s : State) (l : LinkId) : (s.readTxWord l).buf.mem = s.buf.mem := by
  unfold State.readTxWord
  split
  · simp
  · rfl
  · rfl

theorem State.memory_firstEnd (s : State) (l : LinkId) (f : TxFrame) : (s.firstEnd l f).buf.mem = s.buf.mem := by
  unfold State.firstEnd
  split
  · rfl
  · simp [State.setLinkHolder, State.endFrame]

theorem State.memory_firstAbort (s : State) (l : LinkId) (f : TxFrame) : (s.firstAbort l f).buf.mem = s.buf.mem := by
  simp [State.firstAbort, State.removeLinkHolder, State.endFrame]

@[simp] theorem State.memory_applyHeld (s : State) (l : LinkId) : (s.applyHeld l).buf.mem = s.buf.mem := by
  unfold State.applyHeld
  split
  · rfl
  · simp

theorem State.memory_resendEnded (s : State) (l : LinkId) (f : TxFrame) : (s.resendEnded l f).buf.mem = s.buf.mem := by
  simp [State.resendEnded, State.endFrame]

theorem State.memory_resendAborted (s : State) (l : LinkId) : (s.resendAborted l).buf.mem = s.buf.mem := by
  simp [State.resendAborted, State.endFrame]

@[simp] theorem State.memory_endBlock (s : State) (l : LinkId) : (s.endBlock l).buf.mem = s.buf.mem := by
  rw [State.endBlock, State.modTx_buf]

@[simp] theorem State.memory_noteHailSent (s : State) (l : LinkId) (seen : Bool) : (s.noteHailSent l seen).buf.mem = s.buf.mem := by
  rw [State.noteHailSent, State.modPort_buf]

@[simp] theorem State.memory_nextHail (s : State) (l : LinkId) : (s.nextHail l).buf.mem = s.buf.mem := by
  simp [State.nextHail, State.beginHail]

theorem State.memory_hailSent (s : State) (l : LinkId) : (s.hailSent l).buf.mem = s.buf.mem := by
  unfold State.hailSent
  split
  · simp
  · rfl

theorem State.memory_controlSent (s : State) (l : LinkId) : (s.controlSent l).buf.mem = s.buf.mem := by
  unfold State.controlSent
  split
  · cases (s.port l).tx.line with
    | none => rfl
    | frame f => rfl
    | control b => cases b <;> simp
  · rfl

theorem State.memory_keepSent (s : State) (l : LinkId) : (s.keepSent l).buf.mem = s.buf.mem := by
  unfold State.keepSent
  split
  · split
    · simp
    · simp
    · rfl
    · rfl
    · rfl
  · rfl

/-! ## Timers, flushes and settings -/

theorem State.memory_refreshGrants (s : State) (l : LinkId) : (s.refreshGrants l).buf.mem = s.buf.mem := by
  simp [State.refreshGrants]

theorem State.memory_stallDrop (s : State) (l : LinkId) (c : Cls) : (s.stallDrop l c).buf.mem = s.buf.mem := by
  unfold State.stallDrop
  split
  · rfl
  · simp

theorem State.memory_flushStep (s : State) : s.flushStep.buf.mem = s.buf.mem := by
  unfold State.flushStep
  split
  · rfl
  · split
    · rfl
    · simp

theorem State.memory_writeSession (s : State) (l : LinkId) (v : Word) : (s.writeSession l v).buf.mem = s.buf.mem := by
  simp [State.writeSession, State.modCfg]

theorem State.memory_writeLinkWord (s : State) (l : LinkId) (i : Nat) (v : Word) : (s.writeLinkWord l i v).buf.mem = s.buf.mem := by
  have setting : ∀ f : LinkCfg → LinkCfg, (s.modCfg l f).buf.mem = s.buf.mem := fun f => by rw [State.modCfg, State.modPort_buf]
  unfold State.writeLinkWord
  split
  · exact setting _
  · exact setting _
  · exact setting _
  · exact s.memory_writeSession l v
  · exact setting _
  · split
    · split
      · simp [State.writeLinkCounter]
      · rfl
    · rfl

theorem State.memory_writeNodeAddr (s : State) (v : Word) : (s.writeNodeAddr v).buf.mem = s.buf.mem := by
  simp [State.writeNodeAddr]

theorem State.memory_writeScrubControl (s : State) (v : Word) : (s.writeScrubControl v).buf.mem = s.buf.mem := by
  unfold State.writeScrubControl
  dsimp only
  split
  · rfl
  · simp [State.writeScrubMode]

end Sys2Proof.Machine
end

