-- ==== Sys2Proof/Proofs/MemoryForm.lean ====
section
/-! SUPPORT. Every command keeps the canonical form of the cell memory: it writes whole words, zeroes cells, empties the memory, or leaves
the bytes as they are (section 1.1). -/

namespace Sys2Proof.Machine

/-! ## The canonical form from one state to another -/

/-- The memory of a state has the canonical form where that of a state before it has. -/
def State.KeepsMemoryForm (s t : State) : Prop :=
  Memory.wf s.buf.mem = true → Memory.wf t.buf.mem = true

section
variable {s t u : State}

/-- A step that leaves the bytes as they are. -/
theorem State.KeepsMemoryForm.of_memory (same : t.buf.mem = s.buf.mem) : s.KeepsMemoryForm t := fun h => by rwa [same]

theorem State.KeepsMemoryForm.refl (s : State) : s.KeepsMemoryForm s := id

theorem State.KeepsMemoryForm.trans (h : s.KeepsMemoryForm t) (k : t.KeepsMemoryForm u) : s.KeepsMemoryForm u := k ∘ h

theorem State.KeepsMemoryForm.then_memory (h : s.KeepsMemoryForm t) (same : u.buf.mem = t.buf.mem) : s.KeepsMemoryForm u :=
  h.trans (.of_memory same)

theorem State.KeepsMemoryForm.settle (h : s.KeepsMemoryForm t) (b : State) : s.KeepsMemoryForm (t.settle b) :=
  h.then_memory (t.memory_settle b)

theorem State.KeepsMemoryForm.writeWord (h : s.KeepsMemoryForm t) (p : Nat) (w : CellWord) : s.KeepsMemoryForm (t.writeWord p w) :=
  fun form => Memory.wf_writeWord p w (h form)

theorem State.KeepsMemoryForm.ite {p : Prop} [Decidable p] (h : s.KeepsMemoryForm t) (k : s.KeepsMemoryForm u) :
    s.KeepsMemoryForm (if p then t else u) := by
  split
  · exact h
  · exact k

theorem State.KeepsMemoryForm.foldl {α : Type} {f : State → α → State} (hf : ∀ (t : State) (a : α), t.KeepsMemoryForm (f t a))
    (xs : List α) (s : State) : s.KeepsMemoryForm (xs.foldl f s) := by
  induction xs generalizing s with
  | nil => exact .refl s
  | cons a xs ih => exact (hf s a).trans (ih _)

theorem State.KeepsMemoryForm.of_next (h : s.KeepsMemoryForm u) (e : (Host.Outcome.next u : Answer) = .next t) :
    s.KeepsMemoryForm t := by
  cases e; exact h

/-- A command that stores nothing. -/
theorem State.KeepsMemoryForm.of_unstored (same : u.buf.mem = s.buf.mem) (e : (Host.Outcome.next u : Answer) = .next t) :
    s.KeepsMemoryForm t :=
  (State.KeepsMemoryForm.of_memory same).of_next e

/-- A command that acts under a condition, stores nothing, and settles. -/
theorem State.KeepsMemoryForm.of_guarded {p : Prop} [Decidable p] (same : u.buf.mem = s.buf.mem)
    (e : (Host.Outcome.next (if p then u.settle s else s) : Answer) = .next t) : s.KeepsMemoryForm t :=
  .of_unstored (by simp [same]) e

end

/-! ## The writes of words -/

/-- A payload byte that fills a word writes it (R73). -/
theorem State.payloadByte_keepsMemoryForm (s : State) (l : LinkId) (f : RxFrame) (b : Byte) :
    s.KeepsMemoryForm (s.payloadByte l f b) := by
  have gathered : ∀ g : Receiver → Receiver, s.KeepsMemoryForm (s.modRx l g) := fun g => .of_memory (by rw [State.modRx_buf])
  unfold State.payloadByte
  dsimp only
  split
  · exact .ite ((gathered _).writeWord _ _) (gathered _)
  · exact gathered _

theorem State.takeByte_keepsMemoryForm (s : State) (l : LinkId) (b : Byte) : s.KeepsMemoryForm (s.takeByte l b) := by
  unfold State.takeByte
  split
  · exact .ite (s.payloadByte_keepsMemoryForm l _ b) (.of_memory (by simp))
  · exact .refl s

theorem State.memory_portRead (s : State) : s.portRead.buf.mem = s.buf.mem := by
  unfold State.portRead
  split
  · simp [State.portMoveOut]
  · rfl

theorem State.portWrite_keepsMemoryForm (s : State) (v : Word) : s.KeepsMemoryForm (s.portWrite v) := by
  unfold State.portWrite
  split
  · refine .ite ?_ (.of_memory rfl)
    exact ((State.KeepsMemoryForm.of_memory (s.noteRead_buf_mem .host _)).writeWord _ _).then_memory rfl
  · exact .of_memory rfl

/-- The scrubber writes back a corrected word, and zeroes an uncorrectable one of a free cell (R156). -/
theorem State.scrubWord_keepsMemoryForm (s : State) (p : Nat) (free : Bool) : s.KeepsMemoryForm (s.scrubWord p free) := by
  have read : s.KeepsMemoryForm (s.noteRead .scrub p) := .of_memory (s.noteRead_buf_mem _ _)
  unfold State.scrubWord
  dsimp only
  split
  · exact read
  · exact read.writeWord p _
  · exact .ite (read.writeWord p _) read

theorem State.scrubTake_keepsMemoryForm (s : State) (p : Nat) : s.KeepsMemoryForm (s.scrubTake p) := by
  unfold State.scrubTake
  split
  · exact s.scrubWord_keepsMemoryForm p true
  · split
    · exact .refl s
    · exact s.scrubWord_keepsMemoryForm p false

theorem State.memory_scrubAdvance (s : State) : s.scrubAdvance.buf.mem = s.buf.mem := by
  simp [State.scrubAdvance, State.endPass]

theorem State.scrubExpired_keepsMemoryForm (s : State) : s.KeepsMemoryForm s.scrubExpired :=
  .ite ((s.scrubTake_keepsMemoryForm _).then_memory (State.memory_scrubAdvance _)) (.refl s)

/-! ## Resets -/

/-- Initialization leaves no byte that is not 0 (R19). -/
theorem State.initTaken_keepsMemoryForm (s : State) : s.KeepsMemoryForm s.initTaken := by
  have empty : s.initTaken.buf.mem = [] := by simp [State.initTaken, State.passAtReady]
  intro _
  rw [empty]
  exact Memory.wf_nil

/-! ## Host commands -/

/-- ALLOC zeroes the cells that it takes (R11). -/
theorem State.allocTaken_keepsMemoryForm (s : State) (length : Nat) (c : Cls) : s.KeepsMemoryForm (s.allocTaken length c) :=
  Memory.wf_zeroCells _

theorem State.allocBody_keepsMemoryForm (s : State) : s.KeepsMemoryForm s.allocBody := by
  have refused : ∀ code, s.KeepsMemoryForm (s.answer code) := fun _ => .of_memory rfl
  unfold State.allocBody
  dsimp only
  split
  · exact refused _
  · exact .ite (refused _) (.ite (refused _) (.ite (refused _) ((s.allocTaken_keepsMemoryForm _ _).settle s)))

theorem State.memory_openBody (s : State) : s.openBody.buf.mem = s.buf.mem := by
  unfold State.openBody
  dsimp only
  split
  · rfl
  · split
    · rfl
    · split
      · rfl
      · simp

theorem State.memory_postBody (s : State) : s.postBody.buf.mem = s.buf.mem := by
  unfold State.postBody
  dsimp only
  split
  · rfl
  · split
    · rfl
    · split
      · rfl
      · simp [State.postTaken, State.appendAll_buf]

theorem State.memory_claimBody (s : State) : s.claimBody.buf.mem = s.buf.mem := by
  unfold State.claimBody
  split
  · rfl
  · split
    · rfl
    · unfold State.claimTaken
      split
      · rfl
      · split
        · simp
        · simp

theorem State.memory_releaseBody (s : State) : s.releaseBody.buf.mem = s.buf.mem := by
  unfold State.releaseBody
  split
  · rfl
  · simp [State.releaseTaken, State.removeHostHolder]

theorem State.memory_queryBody (s : State) : s.queryBody.buf.mem = s.buf.mem := by
  unfold State.queryBody
  split
  · rfl
  · rfl

theorem State.memory_flushBody (s : State) : s.flushBody.buf.mem = s.buf.mem := by
  unfold State.flushBody
  split
  · rfl
  · split
    · rfl
    · rfl

theorem State.memory_linkStartBody (s : State) : s.linkStartBody.buf.mem = s.buf.mem := by
  unfold State.linkStartBody
  split
  · rfl
  · simp

theorem State.memory_linkStopBody (s : State) : s.linkStopBody.buf.mem = s.buf.mem := by
  unfold State.linkStopBody
  split
  · rfl
  · simp

theorem State.memory_tableSetBody (s : State) : s.tableSetBody.buf.mem = s.buf.mem := by
  unfold State.tableSetBody
  split
  · rfl
  · simp

theorem State.memory_tableGetBody (s : State) : s.tableGetBody.buf.mem = s.buf.mem := by
  simp [State.tableGetBody]

theorem State.memory_reportTakeBody (s : State) : s.reportTakeBody.buf.mem = s.buf.mem := by
  unfold State.reportTakeBody
  split
  · rfl
  · rfl

theorem State.memory_scrubStartBody (s : State) : s.scrubStartBody.buf.mem = s.buf.mem := by
  simp [State.scrubStartBody]

theorem State.takeCommand_keepsMemoryForm (s : State) (code : Word) {body : State → State}
    (h : ∀ t : State, t.KeepsMemoryForm (body t)) :
    s.KeepsMemoryForm (s.takeCommand code body) :=
  have body : s.KeepsMemoryForm (body { s with hcu := { s.hcu with cmd := code } }) := fun form => h _ form
  .ite (.of_memory rfl) (.ite body (.of_memory rfl))

theorem State.memory_unknownCode (s : State) (code : Word) : (s.unknownCode code).buf.mem = s.buf.mem := by
  simp [State.unknownCode]

/-- Of the thirteen commands ALLOC alone writes the memory. -/
theorem State.commandWrite_keepsMemoryForm (s : State) (code : Word) : s.KeepsMemoryForm (s.commandWrite code) := by
  unfold State.commandWrite
  split
  · exact s.takeCommand_keepsMemoryForm code State.allocBody_keepsMemoryForm
  · exact s.takeCommand_keepsMemoryForm code fun t => .of_memory t.memory_openBody
  · exact s.takeCommand_keepsMemoryForm code fun t => .of_memory t.memory_postBody
  · exact s.takeCommand_keepsMemoryForm code fun t => .of_memory t.memory_claimBody
  · exact s.takeCommand_keepsMemoryForm code fun t => .of_memory t.memory_releaseBody
  · exact s.takeCommand_keepsMemoryForm code fun t => .of_memory t.memory_queryBody
  · exact s.takeCommand_keepsMemoryForm code fun t => .of_memory t.memory_flushBody
  · exact s.takeCommand_keepsMemoryForm code fun t => .of_memory t.memory_linkStartBody
  · exact s.takeCommand_keepsMemoryForm code fun t => .of_memory t.memory_linkStopBody
  · exact s.takeCommand_keepsMemoryForm code fun t => .of_memory t.memory_tableSetBody
  · exact s.takeCommand_keepsMemoryForm code fun t => .of_memory t.memory_tableGetBody
  · exact s.takeCommand_keepsMemoryForm code fun t => .of_memory t.memory_reportTakeBody
  · exact s.takeCommand_keepsMemoryForm code fun t => .of_memory t.memory_scrubStartBody
  · exact .of_memory (s.memory_unknownCode code)

/-! ## Register writes -/

/-- CMD and PORT_DATA alone reach the memory from the bus. -/
theorem State.writePartWord_keepsMemoryForm (s : State) (i : Nat) (v : Word) : s.KeepsMemoryForm (s.writePartWord i v) := by
  unfold State.writePartWord
  split
  · exact .ite (.of_memory rfl) (.refl s)
  · exact .of_memory (s.memory_writeNodeAddr v)
  · exact .of_memory rfl
  · exact .of_memory rfl
  · exact .of_memory rfl
  · exact .of_memory rfl
  · exact .of_memory rfl
  · exact .of_memory rfl
  · exact s.commandWrite_keepsMemoryForm v
  · exact s.portWrite_keepsMemoryForm v
  · exact .of_memory rfl
  · exact .of_memory rfl
  · exact .of_memory rfl
  · exact .of_memory rfl
  · exact .of_memory rfl
  · exact .of_memory rfl
  · exact .of_memory rfl
  · exact .of_memory (s.memory_writeScrubControl v)
  · split
    · split
      · exact .of_memory rfl
      · exact .refl s
    · exact .refl s

theorem State.writeRegister_keepsMemoryForm (s : State) (reg : BitVec 7) (v : Word) : s.KeepsMemoryForm (s.writeRegister reg v) :=
  have port : ∀ l i, s.KeepsMemoryForm (s.writeLinkWord l i v) := fun l i => .of_memory (s.memory_writeLinkWord l i v)
  .ite (s.writePartWord_keepsMemoryForm _ v) (.ite (port _ _) (.ite (.refl s) (.ite (port _ _) (.refl s))))

/-! ## Every command -/

theorem State.received_keepsMemoryForm {s : State} {act : State → State} (l : LinkId) (h : s.KeepsMemoryForm (act s)) :
    s.KeepsMemoryForm (s.received l act) :=
  .ite (h.settle s) (.refl s)

/-- What arrives and stores nothing. -/
theorem State.memory_received {s : State} {act : State → State} (l : LinkId) (same : (act s).buf.mem = s.buf.mem) :
    (s.received l act).buf.mem = s.buf.mem := by
  simp [State.received, same]

theorem memory_execFrameHeaderReceived {l : LinkId} {header : BitVec 128} {s t : State}
    (e : execFrameHeaderReceived l header s = .next t) : t.buf.mem = s.buf.mem := by
  unfold execFrameHeaderReceived at e
  split at e
  · split at e
    · split at e
      · rename_i valid
        cases e
        rw [State.memory_settle, State.memory_validFrame valid]
      · cases e
    · cases e
      rw [State.memory_settle, State.memory_checkedOut]
  · cases e; rfl

/-- The end of a frame block, under a condition on the frame on the line. -/
theorem State.memory_frameEnd (s : State) (l : LinkId) (p : TxFrame → Bool) {act : TxFrame → State}
    (h : ∀ f, (act f).buf.mem = s.buf.mem) :
    (match s.frameOnLine l with | some f => if p f then (act f).settle s else s | none => s).buf.mem = s.buf.mem := by
  split
  · simp [h]
  · rfl

/-- Every command keeps the form, by what it does to the bytes. -/
theorem exec_keepsMemoryForm {c : Instr} {s t : State} (e : exec c s = .next t) : s.KeepsMemoryForm t := by
  cases c with
  | resetInput => exact .of_unstored (u := s.resetTaken) rfl e
  | initComplete => exact (State.KeepsMemoryForm.ite (.refl s) s.initTaken_keepsMemoryForm).of_next e
  | softReset => exact .of_unstored (u := s.softResetTaken) rfl e
  | alloc => exact (s.commandWrite_keepsMemoryForm 1).of_next e
  | openPort => exact (s.commandWrite_keepsMemoryForm 2).of_next e
  | post => exact (s.commandWrite_keepsMemoryForm 3).of_next e
  | claim => exact (s.commandWrite_keepsMemoryForm 4).of_next e
  | release => exact (s.commandWrite_keepsMemoryForm 5).of_next e
  | query => exact (s.commandWrite_keepsMemoryForm 6).of_next e
  | flush => exact (s.commandWrite_keepsMemoryForm 7).of_next e
  | linkStart => exact (s.commandWrite_keepsMemoryForm 8).of_next e
  | linkStop => exact (s.commandWrite_keepsMemoryForm 9).of_next e
  | tableSet => exact (s.commandWrite_keepsMemoryForm 10).of_next e
  | tableGet => exact (s.commandWrite_keepsMemoryForm 11).of_next e
  | reportTake => exact (s.commandWrite_keepsMemoryForm 12).of_next e
  | scrubStart => exact (s.commandWrite_keepsMemoryForm 13).of_next e
  | unknownCommand code => exact .of_unstored (s.memory_unknownCode code) e
  | cmdOverrun code =>
    exact (State.KeepsMemoryForm.ite (t := s.raise .cmdOverrun) (.of_memory rfl) (s.commandWrite_keepsMemoryForm code)).of_next e
  | portDataRead => exact .of_unstored s.memory_portRead e
  | portDataWrite v => exact (s.portWrite_keepsMemoryForm v).of_next e
  | eventFlagsClear v => exact .of_unstored (u := s.clearFlags v) rfl e
  | eventEnableWrite v => exact .of_unstored (u := s.writeEnables v) rfl e
  | nodeAddrWrite v => exact .of_unstored (s.memory_writeNodeAddr v) e
  | scrubModeWrite v => exact .of_unstored (s.memory_writeScrubControl v) e
  | creditStallLimitWrite l v => exact .of_unstored (s.memory_writeSession l v) e
  | registerWrite reg v => exact (s.writeRegister_keepsMemoryForm reg v).of_next e
  | invalidMarker l => exact (State.KeepsMemoryForm.ite (.of_memory (s.memory_noMarker l)) (.refl s)).of_next e
  | checkedOutBlock l kind => exact .of_unstored (State.memory_received l (s.memory_checkedOut l kind)) e
  | keepReceived l => exact .of_unstored (State.memory_received l (s.memory_validControl l fun _ => rfl)) e
  | hailReceived l sender revision seen => exact .of_unstored (State.memory_received l (s.memory_takeHail l sender revision seen)) e
  | ackReceived l seq => exact .of_unstored (State.memory_received l (s.memory_validControl l fun t => t.memory_takeAck l seq)) e
  | nakReceived l seq => exact .of_unstored (State.memory_received l (s.memory_validControl l fun t => t.memory_takeNak l seq)) e
  | grantReceived l c v => exact .of_unstored (State.memory_received l (s.memory_validControl l fun t => t.memory_takeGrant l c v)) e
  | frameHeaderReceived l header => exact .of_memory (memory_execFrameHeaderReceived e)
  | framePayloadBytes l bytes =>
    exact (State.received_keepsMemoryForm l (.foldl (fun t b => t.takeByte_keepsMemoryForm l b) bytes s)).of_next e
  | frameTruncated l => exact .of_unstored (State.memory_received l (s.memory_marker l)) e
  | frameTrailerEnd l check => exact .of_unstored (State.memory_received l (s.memory_trailerEnd l check)) e
  | frameTrailerAbort l => exact .of_unstored (State.memory_received l (s.memory_trailerAbort l)) e
  | hailSendEnd l => exact .of_guarded (s.memory_hailSent l) e
  | controlBlockSent l => exact .of_guarded (s.memory_controlSent l) e
  | txWordRead l => exact (State.KeepsMemoryForm.ite (.of_memory (s.memory_readTxWord l)) (.refl s)).of_next e
  | firstTransmissionEnd l => exact .of_unstored (s.memory_frameEnd l _ fun f => s.memory_firstEnd l f) e
  | firstTransmissionAbort l => exact .of_unstored (s.memory_frameEnd l _ fun f => s.memory_firstAbort l f) e
  | resendEnd l => exact .of_unstored (s.memory_frameEnd l _ fun f => s.memory_resendEnded l f) e
  | resendAbort l => exact .of_unstored (s.memory_frameEnd l _ fun _ => s.memory_resendAborted l) e
  | hailTimerExpiry l => exact (State.KeepsMemoryForm.ite (.of_memory (by simp)) (.refl s)).of_next e
  | greetTimeout l => exact .of_guarded (s.memory_enterFault l _) e
  | silenceTimeout l => exact .of_guarded (s.memory_enterFault l _) e
  | realignTimeout l => exact .of_guarded (s.memory_enterFault l _) e
  | holdDownExpiry l => exact (State.KeepsMemoryForm.ite (.of_memory (by simp)) (.refl s)).of_next e
  | replayTimerExpiry l => exact .of_guarded (s.memory_replayExpired l) e
  | ackDelayExpiry l => exact .of_guarded (by rw [State.modRx_buf]) e
  | idleTimerExpiry l => exact .of_guarded (by rw [State.memory_choose, State.modTx_buf]) e
  | grantRefreshExpiry l => exact .of_guarded (s.memory_refreshGrants l) e
  | creditStallExpiry l c => exact .of_guarded (s.memory_stallDrop l c) e
  | flushRemoval => exact .of_guarded s.memory_flushStep e
  | scrubStep => exact s.scrubExpired_keepsMemoryForm.of_next e
  | keepSendEnd l => exact .of_unstored (s.memory_keepSent l) e

/-- Settles O50: the command at the front keeps the form, and the queue of commands is no part of the memory. -/
theorem memoryFormKept : Obligations.MemoryFormKept := by
  unfold Obligations.MemoryFormKept
  intro s t form run
  cases queue : s.pending with
  | nil =>
    rw [step_of_empty queue] at run
    cases run
    exact form
  | cons c rest =>
    rw [step_of_front queue] at run
    exact exec_keepsMemoryForm (s := { s with pending := rest }) run form

end Sys2Proof.Machine
end
